-- ==== Sys2Proof/Word.lean ====
section
/-! DEFINITION. The plain units of the WS-24: bytes, converter samples, and the names of its two tracks, two rails,
two heads and three ports (spec/00_scope.md, Conventions). -/

namespace Sys2Proof

/-- One byte carried on a port. -/
abbrev Byte := BitVec 8

/-- One converter sample: signed 16 bits (R28). -/
abbrev Sample := BitVec 16

/-- 1 or 2: a track, a rail, or a bearing side. -/
inductive Two
  | one
  | two
deriving DecidableEq, Repr

/-- Tracks are numbered 1 and 2. -/
abbrev Track := Two

/-- Rails, and the bearing sides beside them, are numbered 1 and 2. -/
abbrev Side := Two

/-- The two wheel detector heads of a track (R1). -/
inductive Head
  | a
  | b
deriving DecidableEq, Repr

/-- The direction of a crossing or a train: UP crosses head A first. -/
inductive Direction
  | up
  | down
deriving DecidableEq, Repr

/-- The three serial ports: Report Port, Alarm Port, Service Port. -/
inductive Port
  | rp
  | ap
  | sp
deriving DecidableEq, Repr

/-- One thing for each of two tracks, rails, sides or heads. -/
structure Pair (α : Type) where
  one : α
  two : α
deriving DecidableEq, Repr

/-- One thing for each port. -/
structure Ports (α : Type) where
  rp : α
  ap : α
  sp : α
deriving DecidableEq, Repr

/-- The levels the part reads from its inputs when the START check ends (R206): `true` is ON, OCCUPIED, HIGH or
ACTIVE. The inner pair of `heads` is head A, head B. -/
structure Inputs where
  heads : Pair (Pair Bool)
  occupied : Pair Bool
  take : Bool
  supplyFail : Bool
  holdupLow : Bool
deriving DecidableEq, Repr

/-- Two-valued index into a pair. -/
def Pair.get {α : Type} (p : Pair α) : Two → α
  | .one => p.one
  | .two => p.two

/-- The pair with one of its parts replaced. -/
def Pair.set {α : Type} (p : Pair α) (i : Two) (v : α) : Pair α :=
  match i with
  | .one => { p with one := v }
  | .two => { p with two := v }

/-- Head A stands first in a pair of heads, head B second. -/
def headIx : Head → Two
  | .a => .one
  | .b => .two

/-- The part of a port triple that belongs to one port. -/
def Ports.get {α : Type} (p : Ports α) : Port → α
  | .rp => p.rp
  | .ap => p.ap
  | .sp => p.sp

/-- The port triple with one port's part replaced. -/
def Ports.set {α : Type} (p : Ports α) (i : Port) (v : α) : Ports α :=
  match i with
  | .rp => { p with rp := v }
  | .ap => { p with ap := v }
  | .sp => { p with sp := v }

end Sys2Proof
end

