-- ==== Sys2Proof/Syntax.lean ====
section
/-! DEFINITION. The commands of the WS-24: one constructor per row of spec/opcode_table.json. An operand `now` is the site
microsecond count at which the event falls (log 1). A work event names its port; the request's fields stand in the port's
work slot (R185, log 18). -/

namespace Sys2Proof

/-- The steps of the part, in the order of spec/opcode_table.json. -/
inductive Instr
  | headOn (t : Track) (h : Head) (now : Nat)
  | headOff (t : Track) (h : Head) (now : Nat)
  | approachPulse (t : Track) (now : Nat)
  | occupancyClear (t : Track) (now : Nat)
  | occupancyOccupied (t : Track) (now : Nat)
  | tSettleExpiry (t : Track)
  | tEndExpiry (t : Track)
  | tStandExpiry (t : Track)
  | tAbandonExpiry (t : Track)
  | tDormantExpiry (t : Track)
  | tRetareExpiry (t : Track)
  | stuckTimerExpiry (t : Track) (h : Head)
  | faultRecoveryExpiry (t : Track)
  | sampleWrite (samples : List Sample)
  | refreshComplete (t : Track) (samples : List Sample)
  | jobTake
  | liveJobComplete (now : Nat)
  | serviceJobComplete (now : Nat)
  | snapshotCopyEnd (now : Nat)
  | closeTake
  | recordAppend (now : Nat)
  | discardedFull (now : Nat)
  | takeRises (now : Nat)
  | takeFalls (now : Nat)
  | supplyFailActive (now : Nat)
  | supplyFailInactive (now : Nat)
  | holdupLowActive (now : Nat)
  | holdupLowInactive (now : Nat)
  | failTimerExpiry
  | recoveryTimerExpiry
  | freezeComplete
  | leaveTimerExpiry
  | start
  | startCheckEnd (inputs : Inputs) (samples : List Sample)
  | requestPeriod (p : Port) (bytes : List Byte)
  | answerFetch (p : Port)
  | status (p : Port) (now : Nat)
  | recordList (p : Port) (now : Nat)
  | headerRead (p : Port) (now : Nat)
  | axleRead (p : Port) (now : Nat)
  | vehicleRead (p : Port) (now : Nat)
  | releaseRecord (p : Port) (now : Nat)
  | setSiteTime (p : Port) (now : Nat)
  | alarmRead (p : Port) (now : Nat)
  | clearAlarmNumber (p : Port) (now : Nat)
  | clearAlarmTrack (p : Port) (now : Nat)
  | clearUnlisted (p : Port) (now : Nat)
  | liveAxleRead (p : Port) (now : Nat)
  | setWindow (p : Port) (now : Nat)
  | windowRead (p : Port) (now : Nat)
  | windowWrite (p : Port) (now : Nat)
  | setWatch (p : Port) (now : Nat)
  | watchRead (p : Port) (now : Nat)
  | releaseWatch (p : Port) (now : Nat)
  | evaluateSnapshot (p : Port) (now : Nat)
  | settingsRead (p : Port) (now : Nat)
  | settingsWrite (p : Port) (now : Nat)
  | setPermissions (p : Port) (now : Nat)
  | forceClose (p : Port) (now : Nat)
  | purgeRecord (p : Port) (now : Nat)
  | clearErrorCapture (p : Port) (now : Nat)
  | restart (p : Port) (now : Nat)
  | readPeriodEnd (p : Port) (bytes : List Byte)
deriving DecidableEq, Repr

end Sys2Proof
end

