-- ==== Sys2Proof/Machine/Types.lean ====
section
/-! DEFINITION. The kinds of value the blocks of the WS-24 hold: enumerations in the order the spec lists them, and the
records of axles, vehicles, trains, alarms, watch, requests and answers. -/

namespace Sys2Proof.Machine

/-! ### Track Sequencer (chapter 1) -/

/-- Track modes (1.4). -/
inductive TrackMode
  | dormant | arming | armed | passing | standstill | fault
deriving DecidableEq, Repr

/-- A retriggerable single timer: stopped, or running with the count at which it expires (R10). -/
abbrev Timer := Option Nat

/-- A recognised crossing (R6, R7); its recognition time is the count of the event that carries it. -/
structure Crossing where
  dir : Direction
  dt : Nat
  tA : Nat
deriving DecidableEq, Repr

/-! ### Value classes, severities, times -/

/-- Value classes (Conventions; coded in this order by R190). -/
inductive ValueClass
  | pending | valid | over | suspect | lowSpeed | stale | notMeasured | absent | damaged
deriving DecidableEq, Repr

/-- Severities (coded in this order by R190). -/
inductive Severity
  | none | watch | alert | stop
deriving DecidableEq, Repr

/-- A time by the rule of R32: site seconds, milliseconds, and TIME_UNSET. -/
structure Stamp where
  seconds : Nat
  millis : Nat
  unset : Bool
deriving DecidableEq, Repr

/-! ### Axles (R81) -/

/-- The measurements of one wheel (R60 to R64). -/
structure RailResult where
  static : Nat
  peak : Nat
  impact : Nat
  ratio : Nat
  loadClass : ValueClass
  ratioClass : ValueClass
deriving DecidableEq, Repr

/-- The measurement of one bearing (R65, R66). -/
structure SideResult where
  rise : Nat
  cls : ValueClass
deriving DecidableEq, Repr

/-- An axle entry of the axle pool (R81, R192). -/
structure AxleEntry where
  index : Nat
  tOffset : Nat
  dt : Nat
  speed : Nat
  speedClass : ValueClass
  spacing : Nat
  rails : Pair RailResult
  sides : Pair SideResult
  wheelMark : Severity
  bearingMark : Severity
  watched : Bool
deriving DecidableEq, Repr

/-- A vehicle entry of the vehicle pool (R100, R117). -/
structure VehicleEntry where
  index : Nat
  first : Nat
  count : Nat
  sum1 : Nat
  sum2 : Nat
  gross : Nat
  imbalance : Nat
  incomplete : Bool
  worst : Severity
  damaged : Bool
deriving DecidableEq, Repr

/-! ### Trains (chapter 4) -/

/-- Close reasons (4.4; coded in this order by R190). -/
inductive CloseReason
  | normal | abandoned | detectorFault | forced | power
deriving DecidableEq, Repr

/-- An entry of an axle stack: the pool index and the full t_A kept beside it (R81). -/
structure StackItem where
  entry : Nat
  tA : Nat
deriving DecidableEq, Repr

/-- A train that is open, closing, or in the Report Builder's hands. The stack is oldest first. -/
structure Train where
  number : Nat
  track : Track
  dir : Direction
  openTime : Stamp
  openCount : Nat
  stack : List StackItem
  phantoms : Nat
  unwinds : Nat
  withdrawals : Nat
  poolShort : Bool
  overlength : Bool
  power : Bool
deriving DecidableEq, Repr

/-- A closing train also carries its close reason and close time. -/
structure ClosingTrain where
  train : Train
  reason : CloseReason
  closeTime : Stamp
deriving DecidableEq, Repr

/-- Phases of a close operation (chapter 5). -/
inductive ClosePhase
  | grouping | judging | recording
deriving DecidableEq, Repr

/-! ### Engine (chapter 3) -/

/-- Whose job it is: a live job belongs to one axle entry of one train, a service job to the port whose Evaluate Snapshot
request created it, with the columns of that request (R47, R49). -/
inductive JobOwner
  | live (train : Nat) (entry : Nat) (axle : Nat)
  | service (port : Port) (firstColumn : Nat) (lastColumn : Nat) (origin : Nat)
deriving DecidableEq, Repr

/-- A job of the engine (R47, R49 to R52). Sample numbers may be negative (R50). -/
structure Job where
  owner : JobOwner
  track : Track
  dir : Direction
  dt : Nat
  tA : Nat
  speed : Nat
  speedClass : ValueClass
  ls : Int
  le : Int
  bs : Int
  be : Int
  ready : Bool
deriving DecidableEq, Repr

/-- What the engine reads and keeps at a take (R54). The ten tares and gains stand in the order of the track's rows:
rail 1, rail 2, side 1, side 2. -/
structure TakeValues where
  tares : List Int
  gains : List Nat
  tareValid : Bool
  pMin : Nat
  newest : Nat
deriving DecidableEq, Repr

/-- The results of one evaluation. `peakSample` is the sample the engine hands to the Watch Unit (R174), absent when
neither rail's loads were evaluated. -/
structure Results where
  rails : Pair RailResult
  sides : Pair SideResult
  peakSample : Option Int
deriving DecidableEq, Repr

/-- The job in flight with its take values and discard mark (R53, R69). -/
structure InFlight where
  job : Job
  take : TakeValues
  results : Results
  discard : Bool
deriving DecidableEq, Repr

/-! ### Capture memory (chapter 2) -/

/-- A baseline refresh in flight (R34). -/
structure Refresh where
  first : Nat
  progress : Nat
deriving DecidableEq, Repr

/-- Order of a window (R38, R39). -/
inductive WindowOrder
  | alongRow | acrossRows
deriving DecidableEq, Repr

/-- A SET window (R38). -/
structure Window where
  firstRow : Nat
  lastRow : Nat
  firstColumn : Nat
  lastColumn : Nat
  order : WindowOrder
  cursor : Nat
deriving DecidableEq, Repr

/-! ### Train Record Store (chapter 6) -/

/-- Retention marker (R138). -/
inductive Marker
  | absent | live | consistent
deriving DecidableEq, Repr

/-- Areas of an error locus (R131). -/
inductive Area
  | header | axle | vehicle | alarm | settings
deriving DecidableEq, Repr

/-- Owner of an error locus (R131). -/
inductive LocusOwner
  | train (n : Nat)
  | pool
  | absent
deriving DecidableEq, Repr

/-- Where an error lies (R131). -/
structure Locus where
  area : Area
  index : Nat
  owner : LocusOwner
deriving DecidableEq, Repr

/-- The error capture when LOCKED (R135). -/
structure ErrorCapture where
  double : Bool
  locus : Locus
  doubleFollowed : Bool
deriving DecidableEq, Repr

/-- The fields whose place in a word decides what an error in that word does (R128, R132, R133). -/
inductive WordField
  | axleIndex | tOffset | deltaT | marks
  | vehicleIndex | firstAxle | axleCount
  | trainNumber | track | direction | openTime | closeTime | closeReason | headerAxleCount | phantomCount | stackDepth
  | unwindCount | withdrawalCount | minSpeed | maxSpeed | meanSpeed | vehicleCount | grossLoad | coverage
  | worstSeverity | flags
deriving DecidableEq, Repr

/-- One word of the retained SRAM that carries an error at present: which entry it belongs to, which word of the entry it
is, whether the error is double, and which of the fields the word holds (log 10). DESIGN CHOICE: no mark names the words of
the last train number and the last alarm number, for an error in which the spec gives no locus and no effect (log 47). -/
structure WordError where
  area : Area
  index : Nat
  word : Nat
  double : Bool
  holds : List WordField
deriving DecidableEq, Repr

/-- Holder set of a record (R120). -/
structure Holders where
  report : Bool
  alarm : Bool
deriving DecidableEq, Repr

/-- Flags of a record (R108). -/
structure RecordFlags where
  power : Bool
  overlength : Bool
  poolShort : Bool
  vehiclesTruncated : Bool
  damaged : Bool
  untared : Bool
  timeUnset : Bool
deriving DecidableEq, Repr

/-- A record header (R111 step 1, R191). -/
structure Header where
  number : Nat
  track : Option Track
  dir : Direction
  openTime : Stamp
  closeTime : Stamp
  reason : CloseReason
  axleCount : Nat
  phantoms : Nat
  depth : Nat
  unwinds : Nat
  withdrawals : Nat
  minSpeed : Nat
  maxSpeed : Nat
  meanSpeed : Nat
  vehicleCount : Nat
  gross : Nat
  coverage : Nat
  worst : Severity
  flags : RecordFlags
deriving DecidableEq, Repr

/-- A header that is not FREE (R117). -/
inductive HeaderSlot
  | allocated
  | record (h : Header)
deriving DecidableEq, Repr

/-- What the store directory holds for one closed record (R118). -/
structure RecordDir where
  number : Nat
  track : Track
  holders : Holders
  header : Nat
  axles : List Nat
  vehicles : List Nat
deriving DecidableEq, Repr

/-! ### Alarms (chapter 7) -/

/-- Alarm kinds (R141, R146; coded in this order by R193). -/
inductive AlarmKind
  | wheelImpact | wheelRatio | wheelOverload | bearingHot | bearingCross | bearingRelative | vehicleOverload
  | vehicleImbalance | coverage | detectorFault | storeLoss | supply
deriving DecidableEq, Repr

/-- Reasons of alarm entries (R147). -/
inductive AlarmReason
  | level | stuckHead | evicted | discardedFull | damaged | freeze | uncleanStart
deriving DecidableEq, Repr

/-- The key of an alarm entry (R147, R148). -/
structure AlarmKey where
  track : Option Track
  train : Option Nat
  axle : Option Nat
  side : Option Side
  kind : AlarmKind
deriving DecidableEq, Repr

/-- States of an alarm entry (R147). -/
inductive AlarmState
  | raised | seen | cleared
deriving DecidableEq, Repr

/-- Record link of an alarm entry (R155). -/
inductive RecordLink
  | present | gone | none
deriving DecidableEq, Repr

/-- A judgement on its way into the alarm list. -/
structure Judgement where
  key : AlarmKey
  severity : Severity
  value : Nat
  level : Nat
  reason : AlarmReason
deriving DecidableEq, Repr

/-- An alarm entry (R147) and the slot it stands in. -/
structure AlarmEntry where
  number : Nat
  key : AlarmKey
  severity : Severity
  value : Nat
  level : Nat
  reason : AlarmReason
  first : Stamp
  last : Stamp
  state : AlarmState
  delivered : Bool
  link : RecordLink
  slot : Nat
deriving DecidableEq, Repr

/-- Handshake states (R158). -/
inductive Handshake
  | idle | notified | taken
deriving DecidableEq, Repr

/-! ### Close operation (chapter 5) -/

/-- An axle of the train in hand: its pool index and its entry as the Report Builder uses it (R97). -/
structure HandAxle where
  entry : Nat
  axle : AxleEntry
deriving DecidableEq, Repr

/-- What a close judgement is about: an axle entry (R104), a vehicle by its index, or the train (R105). -/
inductive CloseSubject
  | axle (entry : Nat)
  | vehicle (index : Nat)
  | train
deriving DecidableEq, Repr

/-- A close judgement to be handed to the Alarm Unit (R104 to R106). -/
structure CloseJudgement where
  about : CloseSubject
  key : AlarmKey
  value : Nat
  cls : ValueClass
deriving DecidableEq, Repr

/-- A close operation in flight: the values kept at its take (R96), the entries read so far (R97) with whether one was found
DAMAGED (R108), the judgements still to be handed on and the severities returned (R104 to R107), the header allocated to it
(R109), and its vehicle entries with whether their list was cut (R110). `early` says that its train came from the hand-over
list (R87, R91, R95). -/
structure CloseOp where
  closing : ClosingTrain
  early : Bool
  phase : ClosePhase
  bMax : Nat
  vMin : Nat
  tareValid : Bool
  read : List HandAxle
  damaged : Bool
  todo : List CloseJudgement
  returned : List (CloseJudgement × Severity)
  header : Option Nat
  vehicles : Option (List Nat)
  cut : Bool
deriving DecidableEq, Repr

/-! ### Watch (chapter 8) -/

inductive WatchTracks
  | none | t1 | t2 | both
deriving DecidableEq, Repr

inductive Quantity
  | static | peak | impact | ratio | bearingRise | speed | spacing | axleIndex
deriving DecidableEq, Repr

inductive WatchSide
  | one | two | either
deriving DecidableEq, Repr

inductive Relation
  | atLeast | atMost | equal | notValid
deriving DecidableEq, Repr

inductive WatchMode
  | oneShot | repeating
deriving DecidableEq, Repr

/-- A watch condition (R167). -/
structure Condition where
  tracks : WatchTracks
  quantity : Quantity
  side : WatchSide
  relation : Relation
  value : Nat
  mode : WatchMode
  snapshot : Bool
deriving DecidableEq, Repr

inductive WatchState
  | off | armed | locked
deriving DecidableEq, Repr

/-- The filled capture slot (R170 step 2). -/
structure CaptureSlot where
  entry : AxleEntry
  train : Nat
  track : Track
  ls : Int
  le : Int
  bs : Int
  be : Int
  time : Stamp
deriving DecidableEq, Repr

inductive SnapshotStatus
  | none | copying | complete | torn | skipped
deriving DecidableEq, Repr

/-- The snapshot record (chapter 8, state table). `written` is the range of written columns, absent when empty. -/
structure SnapshotRecord where
  status : SnapshotStatus
  first : Int
  length : Nat
  written : Option (Nat × Nat)
deriving DecidableEq, Repr

/-- A snapshot copy in flight (R175): the count at which it began, how many columns it has written, the first of them, and
the columns still to be written with the samples of all 20 rows. -/
structure SnapshotCopy where
  began : Nat
  done : Nat
  firstColumn : Nat
  todo : List (Nat × List Sample)
deriving DecidableEq, Repr

/-! ### Supply (chapter 11) -/

inductive DeviceMode
  | run | reduced | frozen
deriving DecidableEq, Repr

inductive FreezeState
  | none | inProgress | complete
deriving DecidableEq, Repr

/-! ### Ports (chapter 9) -/

/-- Answer statuses, in the order of the table of R188. -/
inductive Status
  | done | pending | denied | mode | busy | busyPort | busyTrain | gone | notHeld | notSeen | full | badValue | linkError
  | restarted
deriving DecidableEq, Repr

/-- A request with the fields of the catalogue (9.5), as the numbers received. -/
inductive Request
  | status (sect : Nat)
  | recordList (first : Nat)
  | headerRead (number : Nat)
  | axleRead (number first : Nat)
  | vehicleRead (number first : Nat)
  | releaseRecord (number : Nat)
  | setSiteTime (seconds : Nat)
  | alarmRead (selection first : Nat)
  | clearAlarm (form value : Nat)
  | clearUnlisted
  | liveAxleRead (track : Nat)
  | setWindow (firstRow lastRow firstColumn lastColumn order : Nat)
  | windowRead (count : Nat)
  | windowWrite (samples : List Sample)
  | setWatch (tracks quantity side relation value mode snapshot : Nat)
  | watchRead
  | releaseWatch
  | evaluateSnapshot (track firstColumn lastColumn origin direction dt tA : Nat)
  | settingsRead (first count : Nat)
  | settingsWrite (pairs : List (Nat × Nat))
  | setPermissions (entries : List Nat)
  | forceClose (track : Nat)
  | purgeRecord (number : Nat)
  | clearErrorCapture
  | restart
deriving DecidableEq, Repr

/-- The row of a request in the catalogue: its code (9.5). -/
def Request.row : Request → Nat
  | .status _ => 1
  | .recordList _ => 2
  | .headerRead _ => 3
  | .axleRead _ _ => 4
  | .vehicleRead _ _ => 5
  | .releaseRecord _ => 6
  | .setSiteTime _ => 7
  | .alarmRead _ _ => 8
  | .clearAlarm _ _ => 9
  | .clearUnlisted => 10
  | .liveAxleRead _ => 11
  | .setWindow _ _ _ _ _ => 12
  | .windowRead _ => 13
  | .windowWrite _ => 14
  | .setWatch _ _ _ _ _ _ _ => 15
  | .watchRead => 16
  | .releaseWatch => 17
  | .evaluateSnapshot _ _ _ _ _ _ _ => 18
  | .settingsRead _ _ => 19
  | .settingsWrite _ => 20
  | .setPermissions _ => 21
  | .forceClose _ => 22
  | .purgeRecord _ => 23
  | .clearErrorCapture => 24
  | .restart => 25

/-- The state of a port's work slot as shown in status (R189). -/
inductive SlotState
  | empty | pending | answered
deriving DecidableEq, Repr

/-- Supply Monitor values and port values of the DEVICE section (R189, R202). -/
structure DeviceView where
  mode : DeviceMode
  supplyFail : Bool
  holdupLow : Bool
  failTimer : Timer
  recoveryTimer : Timer
  leaveTimer : Timer
  freeze : FreezeState
  freezes : Nat
  slots : Ports SlotState
  denials : Ports Nat
  linkErrors : Ports Nat
  reportReady : Bool
deriving DecidableEq, Repr

/-- Track status (R24). -/
structure TrackView where
  mode : TrackMode
  heads : Pair Bool
  occupied : Bool
  pending : Option Head
  rock : Nat
  crossings : Nat
  held : Nat
  faultHead : Option Head
deriving DecidableEq, Repr

/-- Capture status (R28, R29, R31, R32, R37, R39). -/
structure CaptureView where
  converters : Pair Bool
  count : Nat
  newest : Nat
  writePointer : Nat
  siteTime : Option (Nat × Nat)
  time : Stamp
  tare : List Int
  tareValid : Pair Bool
  refresh : Pair (Option Refresh)
  window : Option Window
deriving DecidableEq, Repr

/-- Whether and where a service job exists (R72). -/
inductive ServiceJob
  | none | queued | inFlight
deriving DecidableEq, Repr

/-- The job in flight as shown in status (R72). -/
inductive FlightView
  | none
  | live (track : Track) (train axle : Nat) (discard : Bool)
  | service (track : Track)
deriving DecidableEq, Repr

/-- Engine values (R72). -/
structure EngineView where
  queueLength : Nat
  service : ServiceJob
  inFlight : FlightView
  readyJobs : Nat
  queueFull : Nat
  stale : Nat
  discards : Nat
deriving DecidableEq, Repr

/-- An open train as shown in status (R91). -/
structure OpenView where
  number : Nat
  dir : Direction
  depth : Nat
  phantoms : Nat
deriving DecidableEq, Repr

/-- A train of the Closing List as shown in status (R91). -/
structure ClosingView where
  number : Nat
  track : Track
  reason : CloseReason
  jobs : Nat
deriving DecidableEq, Repr

/-- Train Assembler values (R91). -/
structure TrainsView where
  opens : Pair (Option OpenView)
  closing : List ClosingView
  handedOver : Nat
  lastTrain : Nat
  overflows : Nat
  withdrawn : Nat
deriving DecidableEq, Repr

/-- Report Builder values (R114). -/
structure BuilderView where
  closeOp : Option (Nat × Track × ClosePhase)
  handOver : List (Nat × Track)
  made : Nat
  discardedFull : Nat
  truncated : Nat
deriving DecidableEq, Repr

/-- Store values (R137). -/
structure StoreView where
  freeAxles : Nat
  freeVehicles : Nat
  freeHeaders : Nat
  records : Nat
  released : Nat
  holdingReport : Nat
  holdingAlarm : Nat
  keepOld : Bool
  capture : Option ErrorCapture
  singles : Nat
  doubles : Nat
  reclaims : Nat
  evictions : Nat
  purges : Nat
  marker : Marker
  markerAtStart : Marker
deriving DecidableEq, Repr

/-- The eight output lines. -/
structure Lines where
  stop : Pair Bool
  warn : Pair Bool
  notice : Bool
  reportReady : Bool
  quiet : Pair Bool
deriving DecidableEq, Repr

/-- Alarm Unit values (R164). -/
structure AlarmsView where
  entries : Nat
  raised : Nat
  seen : Nat
  cleared : Nat
  lastNumber : Nat
  handshake : Handshake
  takeHigh : Bool
  notice : Bool
  stop : Pair Bool
  warn : Pair Bool
  unlisted : Nat
  evictions : Nat
  retired : Nat
  dropped : Nat
deriving DecidableEq, Repr

/-- Watch values in brief (R178). -/
structure WatchBrief where
  state : WatchState
  matchCount : Nat
  status : SnapshotStatus
deriving DecidableEq, Repr

/-- The ten sections of the Status request (R189). -/
inductive StatusView
  | device (v : DeviceView)
  | track (v : TrackView)
  | capture (v : CaptureView)
  | engine (v : EngineView)
  | trains (v : TrainsView)
  | builder (v : BuilderView)
  | store (v : StoreView)
  | alarms (v : AlarmsView)
  | watch (v : WatchBrief)
deriving DecidableEq, Repr

/-- A summary of a Record List answer (R127). -/
structure RecordSummary where
  position : Nat
  number : Nat
  track : Track
  dir : Direction
  reason : CloseReason
  axleCount : Nat
  worst : Severity
  holders : Holders
  damaged : Bool
deriving DecidableEq, Repr

/-- A Live Axle Read answer of a track with an open train (R90). -/
structure LiveView where
  number : Nat
  dir : Direction
  depth : Nat
  phantoms : Nat
  unwinds : Nat
  withdrawals : Nat
  poolShort : Bool
  overlength : Bool
  power : Bool
  entries : List AxleEntry
deriving DecidableEq, Repr

/-- A Window Read answer (R40). -/
structure WindowAnswer where
  firstElement : Nat
  count : Nat
  samples : List Sample
  newest : Nat
  wrapped : Bool
  copying : Bool
deriving DecidableEq, Repr

/-- A Watch Read answer (R178). -/
structure WatchView where
  state : WatchState
  cond : Condition
  pendingCond : Option Condition
  slot : Option CaptureSlot
  matchCount : Nat
  snapshot : SnapshotRecord
  copyInFlight : Bool
deriving DecidableEq, Repr

/-- The results of an Evaluate Snapshot (R68). -/
structure EvaluationAnswer where
  speed : Nat
  speedClass : ValueClass
  rails : Pair RailResult
  sides : Pair SideResult
  ls : Int
  le : Int
  bs : Int
  be : Int
  columns : Int
  tareValid : Bool
deriving DecidableEq, Repr

/-- Results of Force Close (R89). -/
inductive ForceResult
  | closed (number : Nat)
  | withdrawn (number : Nat)
  | noTrain
deriving DecidableEq, Repr

/-- What an answer carries beside its status. -/
inductive Payload
  | none
  | status (v : StatusView)
  | recordList (count : Nat) (rows : List RecordSummary)
  | header (h : Header) (holders : Holders) (position : Nat)
  | axles (depth phantoms : Nat) (entries : List AxleEntry)
  | vehicles (count : Nat) (entries : List VehicleEntry)
  | holders (h : Holders)
  | alarms (listed raised selected : Nat) (entries : List AlarmEntry)
  | cleared (count raisedLeft : Nat)
  | unlisted (count : Nat)
  | noTrain
  | live (v : LiveView)
  | windowRead (v : WindowAnswer)
  | windowWrite (count : Nat) (wrapped : Bool)
  | watch (v : WatchView)
  | released (notLocked : Bool) (matchCount : Nat) (status : SnapshotStatus)
  | evaluation (v : EvaluationAnswer)
  | settings (items : List (Nat × Int))
  | permissions (entries : List Nat)
  | forceClose (r : ForceResult)
  | errorCapture (c : Option ErrorCapture)
deriving DecidableEq, Repr

/-- An answer frame: status, part header and the payload bytes of its part (R184, R190). -/
structure Frame where
  status : Status
  tag : Nat
  row : Nat
  part : Nat
  parts : Nat
  payload : List Byte
deriving DecidableEq, Repr

/-- Which of the cases of R183 gave the frame of a select period. -/
inductive FrameSource
  | busy | note | pending | part (k : Nat) | empty
deriving DecidableEq, Repr

/-- The select period in progress: the frame chosen at its beginning (R183). -/
structure Period where
  frame : Frame
  source : FrameSource
deriving DecidableEq, Repr

/-- A port's work slot (R182). `inService` is set once an Evaluate Snapshot request has created its service job (R185);
`part` is the part pointer (R184). -/
inductive WorkSlot
  | empty
  | pending (tag : Nat) (req : Request) (inService : Bool)
  | answered (tag row : Nat) (status : Status) (payload : Payload) (part : Nat)
deriving DecidableEq, Repr

end Sys2Proof.Machine
end

