-- ==== Sys2Proof/Config.lean ====
section
/-! DEFINITION. What the part fixes (sizes, periods) and what the spec leaves open (opaque
constants, which nothing can evaluate). -/

namespace Sys2Proof.Config

open Sys2Proof.Machine

/-! ### Sizes -/

/-- Converter rows (R28). -/
def rowCount : Nat := 20
/-- Columns of capture memory (2.2). -/
def columnCount : Nat := 8192
/-- First rolling column (2.2). -/
def rollingFirst : Nat := 64
/-- Rolling columns (2.2). -/
def rollingCount : Nat := 7616
/-- First snapshot column (2.2). -/
def snapshotFirst : Nat := 7680
/-- Last snapshot column (2.2). -/
def snapshotLast : Nat := 8191
/-- Samples of a refresh (R35). -/
def refreshLength : Nat := 64
/-- Jobs the queue holds (R48). -/
def queueSize : Nat := 16
/-- Entries an axle stack holds (R79). -/
def stackSize : Nat := 512
/-- Trains the Closing List holds (R87). -/
def closingSize : Nat := 4
/-- Axle entries (R117). -/
def axlePoolSize : Nat := 4096
/-- Vehicle entries (R117). -/
def vehiclePoolSize : Nat := 1024
/-- Record headers (R117). -/
def headerCount : Nat := 32
/-- Vehicles of one train (R99). -/
def vehicleLimit : Nat := 160
/-- Alarm entries (R148). -/
def alarmListSize : Nat := 64
/-- Payload bytes of one answer part (R184). -/
def partSize : Nat := 246
/-- The largest crossing timer (R4). -/
def crossingTimerMax : Nat := 16777215
/-- The last value of the 48-bit site microsecond count (R29). -/
def countMax : Nat := 281474976710655

/-! ### Fixed periods, in microseconds -/

/-- Fault recovery timer: 10 s (R10 table). -/
def recoveryPeriod : Nat := 10000000
/-- Fail timer: 100 ms (chapter 11). -/
def failPeriod : Nat := 100000
/-- Supply recovery timer and leave timer: 2 s (chapter 11). -/
def supplyPeriod : Nat := 2000000
/-- One unit of the timing items: 0.1 s (R196). -/
def timingUnit : Nat := 100000

/-! ### What the spec leaves open -/

/-- DESIGN CHOICE (log 13), safe: the bytes of an answer whose layout the spec does not give. -/
opaque openPayload : Payload → List Byte

/-- DESIGN CHOICE (log 14), safe: the bytes that a field of `width` bytes shows for a number too wide for it. -/
opaque wideField : (width : Nat) → (value : Nat) → List Byte

/-- DESIGN CHOICE (log 15), safe: how many columns beyond the least a snapshot copy has written at a moment. -/
opaque freeProgress : Nat → Nat

/-- DESIGN CHOICE (log 16), safe: whether the watch test of a delivery is taken before its alarm judgement. -/
opaque freeWatchFirst : Nat → Bool

/-- DESIGN CHOICE (log 13), safe: the bytes of a Watch Read answer before its copied axle entry. -/
opaque openWatchHead : WatchView → List Byte

/-- DESIGN CHOICE (log 13), safe: the bytes of a Watch Read answer after its copied axle entry. -/
opaque openWatchTail : WatchView → List Byte

/-- DESIGN CHOICE (log 8), safe: how many pieces of its work a close operation in flight does after an event. -/
opaque freeClose : Nat → Nat

end Sys2Proof.Config
end

