-- ==== Sys2Proof/Machine/Catalogue.lean ====
section
/-! DEFINITION. The catalogue of setting items: numbers, defaults, clamped ranges (spec/10_site_settings.md, R196; the default
permission map of R187). -/

namespace Sys2Proof.Machine

/-! ### Setting items (R196) -/

def itemTSettle : Nat := 71
def itemTStand : Nat := 72
def itemTEnd : Nat := 73
def itemTAbandon : Nat := 74
def itemTDormant : Nat := 75
def itemTRetare : Nat := 76
def itemTStuck : Nat := 77
def itemVLow : Nat := 81
def itemPMin : Nat := 82
def itemBMax : Nat := 83
def itemVMin : Nat := 84
def itemRetentionPolicy : Nat := 91
def itemReportHolder : Nat := 92
def itemAlarmHoldLevel : Nat := 93
def itemReportLineCount : Nat := 94

/-- First geometry item of a track: 1 or 11. -/
def geometryBase : Track → Nat
  | .one => 1
  | .two => 11

def itemD (t : Track) : Nat := geometryBase t
def itemGs (t : Track) : Nat := geometryBase t + 1
def itemGe (t : Track) : Nat := geometryBase t + 2
def itemH (t : Track) : Nat := geometryBase t + 3
def itemW (t : Track) : Nat := geometryBase t + 4
def itemFitted (t : Track) : Nat := geometryBase t + 5
def itemDormancy (t : Track) : Nat := geometryBase t + 6

/-- The geometry of a track: D, Gs, Ge, H, W and occupancy fitted (R196). -/
def geometryItems (t : Track) : List Nat := [itemD t, itemGs t, itemGe t, itemH t, itemW t, itemFitted t]

/-- The gain item of a converter row: 21..40 in row order. -/
def itemGain (row : Nat) : Nat := 21 + row

/-- The threshold item of kind `k` and level `l` (0 watch, 1 alert, 2 stop): 41 + 3k + l. -/
def itemLevel (k l : Nat) : Nat := 41 + 3 * k + l

/-- The permission map item of a request row: 101..125. -/
def itemPermission (row : Nat) : Nat := 100 + row

/-- Whether a number is a setting item (R196). -/
def isItem (n : Nat) : Bool :=
  (1 ≤ n && n ≤ 7) || (11 ≤ n && n ≤ 17) || (21 ≤ n && n ≤ 67) || (71 ≤ n && n ≤ 77) || (81 ≤ n && n ≤ 84)
    || (91 ≤ n && n ≤ 94) || (101 ≤ n && n ≤ 125)

/-- Default of an item within its track's seven (R196). -/
def geometryDefault : Nat → Int
  | 0 => 1000
  | 1 => 1500
  | 2 => 3900
  | 3 => -800
  | 4 => 200
  | 5 => 1
  | _ => 0

/-- The default of each threshold level, kind by kind, watch alert stop (R196). -/
def levelDefaults : List Int :=
  [150, 250, 350,  0, 200, 300,  0, 0, 0,  300, 500, 800,  0, 400, 0,  0, 300, 0,  0, 0, 0,  0, 150, 250,  100, 0, 0]

/-- Defaults of the timing items 71..77, in 0.1 s (R196). -/
def timingDefaults : List Int := [10, 80, 80, 18000, 600, 3000, 50]

/-- The default permission map, rows 1..25: bit 0 RP, bit 1 AP, bit 2 SP (R187). -/
def permissionDefaults : List Int :=
  [7, 7, 7, 7, 7, 3, 5, 6, 6, 2, 7, 4, 4, 4, 4, 4, 4, 4, 4, 4, 4, 4, 4, 4, 4]

/-- The default of a setting item (R187, R196). -/
def settingDefault (n : Nat) : Int :=
  if n ≤ 7 then geometryDefault (n - 1)
  else if n ≤ 17 then geometryDefault (n - 11)
  else if n ≤ 40 then 0
  else if n ≤ 67 then levelDefaults.getD (n - 41) 0
  else if n ≤ 77 then timingDefaults.getD (n - 71) 0
  else if n = 81 then 50
  else if n = 82 then 150
  else if n = 83 then 2600
  else if n = 84 then 5000
  else if n = 91 then 0
  else if n = 92 then 1
  else if n = 93 then 2
  else if n = 94 then 1
  else permissionDefaults.getD (n - 101) 0

/-- Range of the items that a write clamps: the timing items and the limits (R196, R199). -/
def clampRange (n : Nat) : Option (Int × Int) :=
  match n with
  | 71 => some (2, 100)
  | 72 => some (20, 1200)
  | 73 => some (20, 1200)
  | 74 => some (600, 72000)
  | 75 => some (100, 36000)
  | 76 => some (300, 36000)
  | 77 => some (10, 600)
  | 81 => some (10, 300)
  | 82 => some (0, 1000)
  | 83 => some (1000, 4000)
  | 84 => some (3000, 15000)
  | _ => none

end Sys2Proof.Machine
end

