-- ==== Sys2Proof/Machine/State.lean ====
section
/-! DEFINITION. The state of the WS-24 block by block, the reasons a step can stop, and the state after START
(the chapters' state tables; reset values R25, R44, R73, R92, R115, R139, R165, R179, R194, R206). -/

namespace Sys2Proof.Machine

/-- A Track Sequencer (chapter 1). -/
structure Sequencer where
  heads : Pair Bool
  occupied : Bool
  pending : Option (Head × Nat)
  mode : TrackMode
  tSettle : Timer
  tEnd : Timer
  tStand : Timer
  tAbandon : Timer
  tDormant : Timer
  tRetare : Timer
  stuck : Pair Timer
  recovery : Timer
  rock : Nat
  crossings : Nat
  held : Nat
  faultHead : Option Head
deriving DecidableEq, Repr

/-- The Capture Controller (chapter 2). `mem` lists the samples that are not 0, by address (see `cell`). -/
structure Capture where
  count : Nat
  newest : Nat
  mem : List (Nat × Sample)
  refresh : Pair (Option Refresh)
  tare : List Int
  tareValid : Pair Bool
  siteTime : Option (Nat × Nat)
  window : Option Window
deriving DecidableEq, Repr

/-- The Axle Evaluation Engine (chapter 3). -/
structure Engine where
  queue : List Job
  inFlight : Option InFlight
  queueFull : Nat
  stale : Nat
  discards : Nat
deriving DecidableEq, Repr

/-- The Train Assembler (chapter 4). -/
structure Assembler where
  opens : Pair (Option Train)
  closing : List ClosingTrain
  lastTrain : Nat
  overflows : Nat
  withdrawn : Nat
deriving DecidableEq, Repr

/-- The Report Builder (chapter 5). -/
structure Builder where
  closeOp : Option CloseOp
  handOver : List ClosingTrain
  made : Nat
  discardedFull : Nat
  truncated : Nat
deriving DecidableEq, Repr

/-- The Train Record Store (chapter 6). A pool entry or header that is not listed is FREE. -/
structure Store where
  axles : List (Nat × AxleEntry)
  vehicles : List (Nat × VehicleEntry)
  headers : List (Nat × HeaderSlot)
  records : List RecordDir
  errors : List WordError
  capture : Option ErrorCapture
  singles : Nat
  doubles : Nat
  reclaims : Nat
  evictions : Nat
  purges : Nat
  marker : Marker
  markerAtStart : Marker
deriving DecidableEq, Repr

/-- The Alarm Unit (chapter 7); its lines stand in `State.lines`. -/
structure Alarms where
  list : List AlarmEntry
  lastNumber : Nat
  handshake : Handshake
  takeHigh : Bool
  unlisted : Nat
  evictions : Nat
  retired : Nat
  dropped : Nat
deriving DecidableEq, Repr

/-- The Watch Unit (chapter 8). -/
structure Watch where
  state : WatchState
  cond : Condition
  pendingCond : Option Condition
  slot : Option CaptureSlot
  matchCount : Nat
  snapshot : SnapshotRecord
  copy : Option SnapshotCopy
deriving DecidableEq, Repr

/-- One port of the Port Unit (chapter 9). `sent` holds the bytes that data out carried in the last select period that ended
(R180); it is the model's own field, none at reset: a DESIGN CHOICE (log 51). -/
structure PortState where
  period : Option Period
  sent : List Byte
  slot : WorkSlot
  note : Option Frame
  denials : Nat
  linkErrors : Nat
deriving DecidableEq, Repr

/-- The Supply Monitor (chapter 11). -/
structure Supply where
  mode : DeviceMode
  supplyFail : Bool
  holdupLow : Bool
  failTimer : Timer
  recoveryTimer : Timer
  leaveTimer : Timer
  freeze : FreezeState
  freezes : Nat
deriving DecidableEq, Repr

/-- The whole part. `settings` lists the items whose value is not their default; `free` counts the free values drawn so
far (the model's own); `pending` is the queue of waiting commands (the task's own). -/
structure State where
  ts : Pair Sequencer
  cac : Capture
  aee : Engine
  tas : Assembler
  rbu : Builder
  trs : Store
  alm : Alarms
  wat : Watch
  settings : List (Nat × Int)
  ptu : Ports PortState
  sup : Supply
  lines : Lines
  startCheck : Bool
  free : Nat
  pending : List Instr
deriving DecidableEq, Repr

/-- The spec gives the part no fault that stops it; no meaning answers with one. Safe. -/
inductive Fault
  /-- Raised by nothing: the type needs no fault of the WS-24, and this name stands for its absence. Safe. -/
  | never
deriving DecidableEq, Repr

/-- Reasons for which a command has no meaning. -/
inductive Refusal
  /-- Raised by `exec` for a row that is not modelled. Safe. No arm raises it at present. -/
  | notModelled (mnemonic : String)
deriving DecidableEq, Repr

/-- A Track Sequencer right after the START check with its heads OFF and its occupancy CLEAR (R25; log 22). -/
def Sequencer.start : Sequencer where
  heads := ⟨false, false⟩
  occupied := false
  pending := none
  mode := .arming
  tSettle := none
  tEnd := none
  tStand := none
  tAbandon := none
  tDormant := none
  tRetare := none
  stuck := ⟨none, none⟩
  recovery := none
  rock := 0
  crossings := 0
  held := 0
  faultHead := none

/-- The Capture Controller after START, before the tracks enter ARMING (R44). -/
def Capture.start : Capture where
  count := 0
  newest := 0
  mem := []
  refresh := ⟨none, none⟩
  tare := List.replicate 20 0
  tareValid := ⟨false, false⟩
  siteTime := none
  window := none

/-- The Axle Evaluation Engine after START (R73). -/
def Engine.start : Engine := ⟨[], none, 0, 0, 0⟩

/-- The Report Builder after START (R115). -/
def Builder.start : Builder := ⟨none, [], 0, 0, 0⟩

/-- The Watch Unit after START (R179); the fields of the condition other than its tracks are a DESIGN CHOICE (log 22). -/
def Watch.start : Watch where
  state := .off
  cond := ⟨.none, .static, .one, .atLeast, 0, .oneShot, true⟩
  pendingCond := none
  slot := none
  matchCount := 0
  snapshot := ⟨.none, 0, 0, none⟩
  copy := none

/-- A port after START (R194). -/
def PortState.start : PortState := ⟨none, [], .empty, none, 0, 0⟩

/-- The part right after START on a retained region that was never initialised, with every input at rest (R206; log 22). -/
def State.reset : State where
  ts := ⟨Sequencer.start, Sequencer.start⟩
  cac := { Capture.start with refresh := ⟨some ⟨1, 0⟩, some ⟨1, 0⟩⟩ }
  aee := Engine.start
  tas := ⟨⟨none, none⟩, [], 0, 0, 0⟩
  rbu := Builder.start
  trs :=
    { axles := [], vehicles := [], headers := [], records := [], errors := [], capture := none, singles := 0,
      doubles := 0, reclaims := 0, evictions := 0, purges := 0, marker := .live, markerAtStart := .absent }
  alm := ⟨[], 0, .idle, false, 0, 0, 0, 0⟩
  wat := Watch.start
  settings := []
  ptu := ⟨PortState.start, PortState.start, PortState.start⟩
  sup := ⟨.run, false, false, none, none, none, .none, 0⟩
  lines := ⟨⟨false, false⟩, ⟨false, false⟩, false, false, ⟨false, false⟩⟩
  startCheck := false
  free := 0
  pending := []

end Sys2Proof.Machine
end

