-- ==== Sys2Proof/Machine/Ops.lean ====
section
/-! DEFINITION. The shared operations over the part's storage: lists kept by rising index, capture memory, the time base,
counters that hold at their end, and the raw reading and writing of settings. -/

namespace Sys2Proof.Machine

/-! ### Lists kept by rising index -/

/-- The value listed at an index. -/
def look {α : Type} : List (Nat × α) → Nat → Option α
  | [], _ => none
  | (k, v) :: m, n => if k = n then some v else look m n

/-- List a value at an index, in place of the one listed there. -/
def put {α : Type} : List (Nat × α) → Nat → α → List (Nat × α)
  | [], n, w => [(n, w)]
  | (k, v) :: m, n, w =>
    if n < k then (n, w) :: (k, v) :: m else if n = k then (n, w) :: m else (k, v) :: put m n w

/-- Take an index off the list. -/
def drop {α : Type} (m : List (Nat × α)) (n : Nat) : List (Nat × α) := m.filter fun e => e.1 != n

/-- Change the value listed at an index, where one is. -/
def adjust {α : Type} (m : List (Nat × α)) (n : Nat) (f : α → α) : List (Nat × α) :=
  m.map fun e => if e.1 = n then (e.1, f e.2) else e

/-- Indices strictly rising. -/
def rising {α : Type} : List (Nat × α) → Bool
  | [] => true
  | [_] => true
  | a :: b :: m => decide (a.1 < b.1) && rising (b :: m)

/-- The least number from `k` on that a rising list of numbers leaves out. -/
def firstGap : List Nat → Nat → Nat
  | [], k => k
  | n :: ns, k => if n = k then firstGap ns (k + 1) else k

/-- The lowest-numbered FREE place of a pool of `size` (R119). -/
def lowestFree {α : Type} (m : List (Nat × α)) (size : Nat) : Option Nat :=
  let k := firstGap (m.map (·.1)) 0
  if k < size then some k else none

/-! ### Capture memory (R30, R33, R44) -/

/-- The address of a row's sample in a column. -/
def cell (row column : Nat) : Nat := row * Config.columnCount + column

/-- The canonical form of capture memory: addresses rising and inside the memory, no sample listed that is 0, which is what
an unlisted address reads as (R44). -/
def Memory.wf (m : List (Nat × Sample)) : Bool :=
  rising m && m.all fun e => decide (e.1 < Config.rowCount * Config.columnCount) && e.2 != 0

/-- The sample at an address; START left 0 where nothing else was written (R31, R44). -/
def Memory.read (m : List (Nat × Sample)) (a : Nat) : Sample := (look m a).getD 0

/-- Write one sample; an address outside the 20 x 8192 samples does not exist. -/
def Memory.write (m : List (Nat × Sample)) (a : Nat) (v : Sample) : List (Nat × Sample) :=
  if a < Config.rowCount * Config.columnCount then (if v = 0 then drop m a else put m a v) else m

/-- Write the samples of some rows of one column. -/
def Memory.writeColumn (m : List (Nat × Sample)) (column : Nat) (rows : List Nat) (value : Nat → Sample) :
    List (Nat × Sample) :=
  rows.foldl (fun m r => Memory.write m (cell r column) (value r)) m

/-- The rolling column of a sample number (R30). -/
def rollingColumn (n : Nat) : Nat := Config.rollingFirst + n % Config.rollingCount

/-- All rows of capture memory. -/
def allRows : List Nat := List.range Config.rowCount

/-- The ten rows of a track: rail 1, rail 2, side 1, side 2 (R28). -/
def trackRows : Track → List Nat
  | .one => [0, 1, 2, 3, 4, 5, 6, 7, 16, 17]
  | .two => [8, 9, 10, 11, 12, 13, 14, 15, 18, 19]

/-- The track that owns a row (R28). -/
def rowTrack (r : Nat) : Track := if r < 8 || r = 16 || r = 17 then .one else .two

/-- Whether a sample is saturated (R28). -/
def saturated (v : Sample) : Bool := v.toInt == 32767 || v.toInt == -32768

/-! ### Counters -/

/-- The next value of a count that holds at 65535. -/
def bump (n : Nat) : Nat := min (n + 1) 65535

/-! ### The time base (R29, R32) -/

/-- Let the site microsecond count reach `now`; it does not run back, and holds at its last value (logs 1, 3). -/
def State.advance (s : State) (now : Nat) : State :=
  { s with cac.count := max s.cac.count (min now Config.countMax) }

/-- The time taken at a count, by the rule of R32. -/
def stampAt (siteTime : Option (Nat × Nat)) (c : Nat) : Stamp :=
  match siteTime with
  | some (secs, c0) =>
    { seconds := (secs + (c - c0) / 1000000) % 2 ^ 32, millis := (c - c0) / 1000 % 1000, unset := false }
  | none => { seconds := 0, millis := c / 1000 % 1000, unset := true }

/-- The time taken now. -/
def State.stamp (s : State) : Stamp := stampAt s.cac.siteTime s.cac.count

/-- Whether a sample number is present (R31): written, and not yet overwritten. Negative sample numbers do not exist. -/
def present (newest : Nat) (n : Int) : Bool :=
  decide (0 ≤ n) && decide (n ≤ newest) && decide ((newest : Int) - Config.rollingCount < n)

/-- The write pointer: the rolling column of the newest sample (R30; log 23). -/
def State.writePointer (s : State) : Nat := rollingColumn s.cac.newest

/-- Whether a track's converters are ON: its mode is not DORMANT (R28; log 23). -/
def State.convertersOn (s : State) (t : Track) : Bool := decide ((s.ts.get t).mode ≠ .dormant)

/-- The crossing timer: the age of the pending crossing, held at 16,777,215 (R4; log 23). -/
def State.crossingTimer (s : State) (t : Track) : Nat :=
  match (s.ts.get t).pending with
  | some (_, time) => min (s.cac.count - time) Config.crossingTimerMax
  | none => 0

/-! ### Settings, raw -/

/-- The stored value of a setting item. -/
def State.setting (s : State) (n : Nat) : Int := (look s.settings n).getD (settingDefault n)

/-- The stored value of an unsigned item. -/
def State.settingNat (s : State) (n : Nat) : Nat := (s.setting n).toNat

/-- Store a value, keeping the list free of defaults. -/
def putSetting (m : List (Nat × Int)) (n : Nat) (v : Int) : List (Nat × Int) :=
  if v = settingDefault n then drop m n else put m n v

/-- Whether a track's occupancy input is used (R3). -/
def State.fitted (s : State) (t : Track) : Bool := s.setting (itemFitted t) == 1

/-- Whether the geometry of a track obeys the constraints of R196 and R198. -/
def geometryOk (v : Nat → Int) (t : Track) : Bool :=
  let d := v (itemD t)
  let gs := v (itemGs t)
  let ge := v (itemGe t)
  let h := v (itemH t)
  let w := v (itemW t)
  decide (400 ≤ d ∧ d ≤ 1600) && decide (-6000 ≤ gs ∧ gs ≤ 6000) && decide (-6000 ≤ ge ∧ ge ≤ 6000)
    && decide (-6000 ≤ h ∧ h ≤ 6000) && decide (50 ≤ w ∧ w ≤ 400) && decide (gs < ge) && decide (ge - gs ≤ 3000)

/-! ### Parts of the state by track and port -/

/-- Change a track's Track Sequencer. -/
def State.onTrack (s : State) (t : Track) (f : Sequencer → Sequencer) : State :=
  { s with ts := s.ts.set t (f (s.ts.get t)) }

/-- Change a port. -/
def State.onPort (s : State) (p : Port) (f : PortState → PortState) : State :=
  { s with ptu := s.ptu.set p (f (s.ptu.get p)) }

/-- Both tracks, track 1 first. -/
def tracks : List Track := [.one, .two]

/-- All ports. -/
def allPorts : List Port := [.rp, .ap, .sp]

/-- The number next after `last` in 1..65535 that is not in use (R76, R148); `fuel` bounds the numbers skipped. -/
def nextNumber (used : List Nat) : (fuel : Nat) → (last : Nat) → Nat
  | 0, last => if last < 65535 then last + 1 else 1
  | fuel + 1, last =>
    let n := if last < 65535 then last + 1 else 1
    if used.contains n then nextNumber used fuel n else n

/-- A number 1 or 2 as it is coded for a track, rail or side (R190). -/
def twoCode : Two → Nat
  | .one => 1
  | .two => 2

/-- The track, rail or side of a coded number. -/
def twoOf : Nat → Option Two
  | 1 => some .one
  | 2 => some .two
  | _ => none

end Sys2Proof.Machine
end

