-- ==== Sys2Proof/Machine/Flags.lean ====
section
/-! DEFINITION. Severities and classes, the judgement of one value (R141, R142), and the output lines as the rules give them
(R43, R130, R158, R160, R161). -/

namespace Sys2Proof.Machine

/-- NONE < WATCH < ALERT < STOP (R107). -/
def sevRank : Severity → Nat
  | .none => 0
  | .watch => 1
  | .alert => 2
  | .stop => 3

/-- The higher of two severities. -/
def sevMax (a b : Severity) : Severity := if sevRank a < sevRank b then b else a

/-- The highest of some severities, NONE for none. -/
def sevMaxAll (l : List Severity) : Severity := l.foldl sevMax .none

/-- Judge one value of a class against three levels: the severity and the level crossed (R142). A level of 0 is disabled. -/
def judge (watch alert stop value : Nat) : ValueClass → Severity × Nat
  | .valid =>
    if stop ≠ 0 ∧ stop ≤ value then (.stop, stop)
    else if alert ≠ 0 ∧ alert ≤ value then (.alert, alert)
    else if watch ≠ 0 ∧ watch ≤ value then (.watch, watch)
    else (.none, 0)
  | .over =>
    if stop ≠ 0 then (.stop, stop)
    else if alert ≠ 0 then (.alert, alert)
    else if watch ≠ 0 then (.watch, watch)
    else (.none, 0)
  | _ => (.none, 0)

/-- Number of a judged kind in the threshold table (R141, R196); the codes of the kinds of R193. -/
def kindCode : AlarmKind → Nat
  | .wheelImpact => 0
  | .wheelRatio => 1
  | .wheelOverload => 2
  | .bearingHot => 3
  | .bearingCross => 4
  | .bearingRelative => 5
  | .vehicleOverload => 6
  | .vehicleImbalance => 7
  | .coverage => 8
  | .detectorFault => 9
  | .storeLoss => 10
  | .supply => 11

/-- Clamp to 0..65535 (R62). -/
def clamp16 (x : Int) : Nat := (min 65535 (max 0 x)).toNat

/-! ### The output lines -/

/-- An entry is signalled while RAISED or SEEN (R160). -/
def signalled (a : AlarmEntry) : Bool := a.state == .raised || a.state == .seen

/-- STOPn is asserted exactly when the list holds a STOP entry of track n in state RAISED or SEEN (R160). -/
def stopLine (s : State) (t : Track) : Bool :=
  s.alm.list.any fun a => a.severity == .stop && a.key.track == some t && signalled a

/-- WARNn: an ALERT entry of track n in state RAISED or SEEN, or unlisted judgements (R161). -/
def warnLine (s : State) (t : Track) : Bool :=
  (s.alm.list.any fun a => a.severity == .alert && a.key.track == some t && signalled a) || decide (0 < s.alm.unlisted)

/-- A track waiting for a train: ARMED or DORMANT. -/
def trackQuiet (s : State) (t : Track) : Bool := (s.ts.get t).mode == .armed || (s.ts.get t).mode == .dormant

/-- Whether a job of a track, live or service, is queued or in flight; a discarded job in flight counts (R43, R69). -/
def trackHasJob (s : State) (t : Track) : Bool :=
  (s.aee.queue.any fun j => j.track == t) || (match s.aee.inFlight with | some f => f.job.track == t | none => false)

/-- QUIETn (R43). -/
def quietLine (s : State) (t : Track) : Bool := trackQuiet s t && !trackHasJob s t

/-- Records whose holder set contains REPORT (R130). -/
def reportCount (s : State) : Nat := (s.trs.records.filter fun r => r.holders.report).length

/-- REPORT_READY (R130). -/
def reportLine (s : State) : Bool :=
  decide (s.settingNat itemReportLineCount ≤ reportCount s)
    || (decide (1 ≤ reportCount s) && trackQuiet s .one && trackQuiet s .two)

/-- The lines as the rules give them; during the START check all are negated (R206). -/
def linesOf (s : State) : Lines :=
  if s.startCheck then ⟨⟨false, false⟩, ⟨false, false⟩, false, false, ⟨false, false⟩⟩
  else
    { stop := ⟨stopLine s .one, stopLine s .two⟩
      warn := ⟨warnLine s .one, warnLine s .two⟩
      notice := s.alm.handshake == .notified
      reportReady := reportLine s
      quiet := ⟨quietLine s .one, quietLine s .two⟩ }

/-- Drive the lines after an event. -/
def State.driveLines (s : State) : State := { s with lines := linesOf s }

end Sys2Proof.Machine
end

