-- ==== Sys2Proof/Machine/Errors.lean ====
section
/-! DEFINITION. The SECDED rules that concern no train: counting and capturing an error (R131, R135), a checked read of
settings words (R134, R201) and of the words of the alarm list (R134, R153). An error mark stands for a word that carries an
error at present (log 10). -/

namespace Sys2Proof.Machine

/-- The error capture after an error is offered to it (R135). -/
def offerError (c : Option ErrorCapture) (double : Bool) (locus : Locus) : Option ErrorCapture :=
  match c with
  | none => some ⟨double, locus, false⟩
  | some k => if !k.double && double then some { k with doubleFollowed := true } else some k

/-- Count a found error (R131 to R134). -/
def State.countError (s : State) (e : WordError) : State :=
  { s with
    trs.singles := if e.double then s.trs.singles else bump s.trs.singles
    trs.doubles := if e.double then bump s.trs.doubles else s.trs.doubles }

/-- Offer a found error to the capture (R135). -/
def State.offer (s : State) (e : WordError) (owner : LocusOwner) : State :=
  { s with trs.capture := offerError s.trs.capture e.double ⟨e.area, e.index, owner⟩ }

/-- Count a found error and offer it to the capture. -/
def State.foundError (s : State) (e : WordError) (owner : LocusOwner) : State := (s.countError e).offer e owner

/-- A word rewritten is clean: its mark goes (6.6). -/
def State.cleanWord (s : State) (e : WordError) : State :=
  { s with trs.errors := s.trs.errors.filter fun x => !(x.area == e.area && x.index == e.index && x.word == e.word) }

/-- All words of an entry written: its marks go (R119). -/
def State.cleanEntry (s : State) (area : Area) (index : Nat) : State :=
  { s with trs.errors := s.trs.errors.filter fun e => !(e.area == area && e.index == index) }

/-- Read the words that `want` picks, one after another: each found error is handled by `fix`, unless an earlier one of the
same read has already rewritten its word. DESIGN CHOICE: the words are found in error in the order of the marks (log 46). -/
def State.checkWords (s : State) (want : WordError → Bool) (fix : State → WordError → State) : State :=
  (s.trs.errors.filter want).foldl (fun s e => if s.trs.errors.contains e then fix s e else s) s

/-- A settings word read with an error is counted, offered and rewritten; a double error takes its item to its default
(R131, R134). -/
def readSettingWord (s : State) (e : WordError) : State :=
  let s := (s.foundError e .absent).cleanWord e
  if e.double then { s with settings := drop s.settings e.index } else s

/-- The two items of a track that the constraints of R196 join: Gs and Ge. -/
def spanItems (t : Track) : List Nat := [itemGs t, itemGe t]

/-- The track whose Gs or Ge an item is. -/
def spanTrack (n : Nat) : Option Track :=
  if (spanItems .one).contains n then some .one else if (spanItems .two).contains n then some .two else none

/-- The constraints of R196 on the geometry of a track: Gs < Ge and Ge − Gs ≤ 3000. -/
def spanOk (v : Nat → Int) (t : Track) : Bool :=
  decide (v (itemGs t) < v (itemGe t)) && decide (v (itemGe t) - v (itemGs t) ≤ 3000)

/-- All geometry items of a track take their defaults, their words rewritten (R201). -/
def State.defaultGeometry (s : State) (t : Track) : State :=
  (geometryItems t).foldl (fun s k => State.cleanEntry { s with settings := drop s.settings k } .settings k) s

/-- The constraints of R196 tested after one of Gs and Ge took its default: the other is read through the check, and if they
are broken the track's other geometry items take their defaults at the same read (R201, log 50). -/
def State.settleSpan (s : State) (t : Track) (n : Nat) : State :=
  let s := s.checkWords (fun x => x.area == .settings && (spanItems t).contains x.index && x.index != n) readSettingWord
  if spanOk s.setting t then s else s.defaultGeometry t

/-- A settings word found with an error (R131, R134, R201). -/
def fixSetting (s : State) (e : WordError) : State :=
  let s := readSettingWord s e
  match spanTrack e.index with
  | some t => if e.double then s.settleSpan t e.index else s
  | none => s

/-- Read settings words through the SECDED check. -/
def State.checkSettings (s : State) (items : List Nat) : State :=
  s.checkWords (fun e => e.area == .settings && items.contains e.index) fixSetting

/-- The checked value of one setting item is read after its word has been checked. -/
def State.checkSetting (s : State) (item : Nat) : State := s.checkSettings [item]

/-! ### The alarm list's words -/

/-- Whether an entry of the list stands in a slot. -/
def slotListed (s : State) (slot : Nat) : Bool := s.alm.list.any fun a => a.slot == slot

/-- An alarm word found with an error: a double error drops the entry (R153); its slot is then free and is not read. -/
def fixAlarm (s : State) (e : WordError) : State :=
  if slotListed s e.index then
    let s := s.foundError e .absent
    if e.double then
      { s with alm.list := s.alm.list.filter (fun a => a.slot != e.index), alm.dropped := bump s.alm.dropped }
    else s.cleanWord e
  else s

/-- Read every listed entry of the alarm list through the SECDED check (R153; log 11). -/
def State.checkAlarms (s : State) : State := s.checkWords (fun e => e.area == .alarm) fixAlarm

end Sys2Proof.Machine
end

