-- ==== Sys2Proof/Machine/Alarms.lean ====
section
/-! DEFINITION. The alarm list: entering a judgement (R148 to R151), retirement (R152), record links (R155), and the
test of the handshake (R158). -/

namespace Sys2Proof.Machine

/-- RAISED above SEEN above CLEARED (R151). -/
def stateRank : AlarmState → Nat
  | .cleared => 0
  | .seen => 1
  | .raised => 2

/-- Severity first, then state (R151); age decides between equals. -/
def alarmScore (a : AlarmEntry) : Nat := 3 * sevRank a.severity + stateRank a.state

/-- The lowest-ranked entry: the oldest of the lowest severity and state (R151). -/
def lowestAlarm : List AlarmEntry → Option AlarmEntry
  | [] => none
  | a :: l =>
    match lowestAlarm l with
    | some b => if alarmScore b < alarmScore a then some b else some a
    | none => some a

/-- IDLE with TAKE LOW and a RAISED entry listed asserts NOTICE (R158, first row). -/
def State.testNotice (s : State) : State :=
  if s.alm.handshake = .idle ∧ s.alm.takeHigh = false ∧ s.alm.list.any (fun a => a.state == .raised) then
    { s with alm.handshake := .notified }
  else s

/-- Whether the store holds a closed record of a train. -/
def hasRecord (s : State) (n : Nat) : Bool := s.trs.records.any fun r => r.number == n

/-- The record link of a new entry (R150). -/
def linkAtInsertion (s : State) (j : Judgement) : RecordLink :=
  if (match j.key.train with | some n => hasRecord s n | none => false) then .present
  else if j.key.kind = .storeLoss ∧ j.reason = .evicted then .gone
  else .none

/-- A listed entry updated by a judgement of its key (R149). -/
def updatedAlarm (a : AlarmEntry) (j : Judgement) (time : Stamp) : AlarmEntry :=
  let a := { a with value := max a.value j.value, last := time }
  if sevRank a.severity < sevRank j.severity then
    { a with severity := j.severity, level := j.level, reason := j.reason, state := .raised, delivered := false }
  else if a.severity = j.severity then
    if a.state = .cleared then { a with reason := j.reason, state := .raised, delivered := false }
    else { a with reason := j.reason }
  else a

/-- The lowest-numbered free slot of the list (R150). -/
def freeSlot (l : List AlarmEntry) : Nat :=
  ((List.range Config.alarmListSize).find? fun k => !l.any fun a => a.slot == k).getD 0

/-- Insert a judgement of a new key as the newest entry (R148, R150). Its slot is written whole. -/
def State.insertAlarm (s : State) (j : Judgement) : State :=
  let n := nextNumber (s.alm.list.map (·.number)) Config.alarmListSize s.alm.lastNumber
  let slot := freeSlot s.alm.list
  let a : AlarmEntry :=
    { number := n, key := j.key, severity := j.severity, value := j.value, level := j.level, reason := j.reason,
      first := s.stamp, last := s.stamp, state := .raised, delivered := false, link := linkAtInsertion s j, slot := slot }
  { s.cleanEntry .alarm slot with
    alm := { s.alm with list := s.alm.list ++ [a], lastNumber := n } }

/-- Enter a judgement whose severity is not NONE, after the list has been searched (R149 to R151). -/
def State.enterListed (s : State) (j : Judgement) : State :=
  if s.alm.list.any fun a => a.key == j.key then
    let l := s.alm.list.map fun a => if a.key = j.key then updatedAlarm a j s.stamp else a
    { s with alm.list := l }
  else if s.alm.list.length < Config.alarmListSize then s.insertAlarm j
  else
    match lowestAlarm s.alm.list with
    | some low =>
      if sevRank low.severity ≤ sevRank j.severity then
        State.insertAlarm
          { s with alm.list := s.alm.list.filter (fun a => a.slot != low.slot), alm.evictions := bump s.alm.evictions } j
      else { s with alm.unlisted := bump s.alm.unlisted }
    | none => s

/-- Enter a judgement in the alarm list (R142, R146): NONE changes nothing; otherwise the list is searched, the judgement
is entered, and the handshake is tested (R158). -/
def State.enterAlarm (s : State) (j : Judgement) : State :=
  if j.severity = .none then s else ((s.checkAlarms).enterListed j).testNotice

/-- Retire every entry of an earlier train of the same number (R152). -/
def State.retireAlarms (s : State) (train : Nat) : State :=
  let gone := s.alm.list.filter fun a => a.key.train == some train
  { s with
    alm.list := s.alm.list.filter fun a => a.key.train != some train
    alm.retired := gone.foldl (fun n _ => bump n) s.alm.retired }

/-- A report of the store sets the record link of every entry of a train (R155). -/
def State.setLinks (s : State) (train : Nat) (link : RecordLink) : State :=
  { s with alm.list := s.alm.list.map fun a => if a.key.train = some train then { a with link := link } else a }

/-- The three levels of a judged kind, read from the Settings Store (R141). -/
def State.levels (s : State) (k : AlarmKind) : Nat × Nat × Nat :=
  (s.settingNat (itemLevel (kindCode k) 0), s.settingNat (itemLevel (kindCode k) 1), s.settingNat (itemLevel (kindCode k) 2))

/-- Judge a value of a key's kind and enter it; the severity returned (R142, R145). -/
def State.judgeValue (s : State) (key : AlarmKey) (value : Nat) (cls : ValueClass) : State × Severity :=
  let k := kindCode key.kind
  let s := s.checkSettings [itemLevel k 0, itemLevel k 1, itemLevel k 2]
  let (w, a, st) := s.levels key.kind
  let (sev, level) := judge w a st value cls
  (s.enterAlarm ⟨key, sev, value, level, .level⟩, sev)

end Sys2Proof.Machine
end

