-- ==== Sys2Proof/Machine/Store.lean ====
section
/-! DEFINITION. The Train Record Store: owners of entries, checked reads of axle, vehicle and header words (R131 to R133),
a record's leaving (R122), reclaiming and eviction (R123, R124), and the requests for axle entries, headers and vehicle
entries (R119, R125). -/

namespace Sys2Proof.Machine

/-! ### Trains and their entries -/

/-- The closing trains: the Closing List and the trains the Report Builder holds (R87). -/
def closingTrains (s : State) : List Train :=
  (s.tas.closing.map (·.train)) ++ (s.rbu.handOver.map (·.train))
    ++ (match s.rbu.closeOp with | some o => [o.closing.train] | none => [])

/-- The open trains. -/
def openTrains (s : State) : List Train := s.tas.opens.one.toList ++ s.tas.opens.two.toList

/-- Every train that is open or closing. -/
def liveTrains (s : State) : List Train := openTrains s ++ closingTrains s

/-- Who an axle entry in use belongs to, and its place (an axle index) there. -/
structure EntryOwner where
  train : Nat
  track : Track
  place : Nat
deriving DecidableEq, Repr

/-- The place of an entry in an axle stack, counted from 1. -/
def placeIn : List Nat → Nat → Option Nat
  | [], _ => none
  | k :: l, n => if k = n then some 1 else (placeIn l n).map (· + 1)

/-- The owner of an axle entry among trains and closed records (R131). -/
def axleOwner (s : State) (n : Nat) : Option EntryOwner :=
  let inTrains := (liveTrains s).findSome? fun t =>
    (placeIn (t.stack.map (·.entry)) n).map fun k => ⟨t.number, t.track, k⟩
  let inRecords := s.trs.records.findSome? fun r => (placeIn r.axles n).map fun k => ⟨r.number, r.track, k⟩
  inTrains.orElse fun _ => inRecords

/-- The record a vehicle entry belongs to, and its place there. -/
def vehicleOwner (s : State) (n : Nat) : Option EntryOwner :=
  s.trs.records.findSome? fun r => (placeIn r.vehicles n).map fun k => ⟨r.number, r.track, k⟩

/-- The record a header belongs to. -/
def headerOwner (s : State) (n : Nat) : Option RecordDir := s.trs.records.find? fun r => r.header == n

/-- The locus owner of an entry: its train, or POOL for a FREE entry (R131). -/
def ownerName (o : Option EntryOwner) : LocusOwner :=
  match o with
  | some w => .train w.train
  | none => .pool

/-- An axle entry whose fields have not been filled. -/
def blankRail (c : ValueClass) : RailResult := ⟨0, 0, 0, 0, c, c⟩

/-- The results of an axle with every class the same and every value 0. -/
def blankResults (c : ValueClass) : Pair RailResult × Pair SideResult :=
  (⟨blankRail c, blankRail c⟩, ⟨⟨0, c⟩, ⟨0, c⟩⟩)

/-- An axle entry that holds nothing. -/
def blankAxle : AxleEntry :=
  { index := 0, tOffset := 0, dt := 0, speed := 0, speedClass := .pending, spacing := 0,
    rails := (blankResults .pending).1, sides := (blankResults .pending).2, wheelMark := .none, bearingMark := .none,
    watched := false }

/-- The axle entry at a pool index. -/
def State.axle (s : State) (n : Nat) : AxleEntry := (look s.trs.axles n).getD blankAxle

/-- Change the axle entry at a pool index. -/
def State.onAxle (s : State) (n : Nat) (f : AxleEntry → AxleEntry) : State :=
  { s with trs.axles := adjust s.trs.axles n f }

/-- The header of a record, all fields 0 where none is listed. -/
def blankHeader : Header :=
  { number := 0, track := none, dir := .up, openTime := ⟨0, 0, false⟩, closeTime := ⟨0, 0, false⟩, reason := .normal,
    axleCount := 0, phantoms := 0, depth := 0, unwinds := 0, withdrawals := 0, minSpeed := 0, maxSpeed := 0,
    meanSpeed := 0, vehicleCount := 0, gross := 0, coverage := 0, worst := .none,
    flags := ⟨false, false, false, false, false, false, false⟩ }

/-- The header at an index. -/
def State.header (s : State) (n : Nat) : Header :=
  match look s.trs.headers n with
  | some (.record h) => h
  | _ => blankHeader

/-- Change the header at an index. -/
def State.onHeader (s : State) (n : Nat) (f : Header → Header) : State :=
  { s with trs.headers := adjust s.trs.headers n fun
      | .record h => .record (f h)
      | .allocated => .allocated }

/-- Set the DAMAGED flag of the record of a train, where it has one (R132, R133). -/
def State.flagDamaged (s : State) (train : Nat) : State :=
  match s.trs.records.find? fun r => r.number == train with
  | some r => s.onHeader r.header fun h => { h with flags.damaged := true }
  | none => s

/-- The STORE_LOSS judgement of reason DAMAGED (R132, R133, R146). -/
def damageAlarm (track : Track) (train : Nat) (axle : Option Nat) (value : Nat) : Judgement :=
  ⟨⟨some track, some train, axle, none, .storeLoss⟩, .watch, value, 0, .damaged⟩

/-! ### Words found with errors -/

/-- An axle entry rewritten after a double error (R132 step 1). -/
def damagedAxle (a : AxleEntry) (holds : List WordField) (place : Nat) : AxleEntry :=
  { index := if holds.contains .axleIndex then place else a.index
    tOffset := if holds.contains .tOffset then 0 else a.tOffset
    dt := if holds.contains .deltaT then 0 else a.dt
    speed := 0
    speedClass := .damaged
    spacing := 0
    rails := (blankResults .damaged).1
    sides := (blankResults .damaged).2
    wheelMark := .none
    bearingMark := .none
    watched := false }

/-- An axle word found with an error (R131, R132; the alarm of step 4 is sent before the offer of step 5). DESIGN CHOICE: the
rewriting at a double error cleans every other word of the entry unread, so a second word in error is not found (log 45). -/
def fixAxle (s : State) (e : WordError) : State :=
  let o := axleOwner s e.index
  if e.double then
    let place := match o with | some w => w.place | none => 0
    let s := (s.onAxle e.index fun a => damagedAxle a e.holds place).cleanEntry .axle e.index
    let s := match o with | some w => s.flagDamaged w.train | none => s
    let s := s.countError e
    let s := match o with
      | some w => s.enterAlarm (damageAlarm w.track w.train (some (s.axle e.index).index) e.index)
      | none => s
    s.offer e (ownerName o)
  else (s.foundError e (ownerName o)).cleanWord e

/-- Read the words of an axle entry that hold one of some fields, or all of them for none given, through the check. -/
def State.checkAxle (s : State) (n : Nat) (fields : List WordField) : State :=
  s.checkWords
    (fun e => e.area == .axle && e.index == n && (fields.isEmpty || fields.any fun f => e.holds.contains f)) fixAxle

/-- A vehicle entry rewritten after a double error (R133). -/
def damagedVehicle (v : VehicleEntry) (holds : List WordField) (place : Nat) : VehicleEntry :=
  { index := if holds.contains .vehicleIndex then place else v.index
    first := if holds.contains .firstAxle then 0 else v.first
    count := if holds.contains .axleCount then 0 else v.count
    sum1 := 0
    sum2 := 0
    gross := 0
    imbalance := 0
    incomplete := true
    worst := .none
    damaged := true }

/-- A vehicle word found with an error (R131, R133). -/
def fixVehicle (s : State) (e : WordError) : State :=
  let o := vehicleOwner s e.index
  let s := s.foundError e (ownerName o)
  if e.double then
    let place := match o with | some w => w.place | none => 0
    let s := { s with trs.vehicles := adjust s.trs.vehicles e.index fun v => damagedVehicle v e.holds place }
    let s := s.cleanEntry .vehicle e.index
    match o with
    | some w => (s.flagDamaged w.train).enterAlarm (damageAlarm w.track w.train none e.index)
    | none => s
  else s.cleanWord e

/-- Read the words of a vehicle entry through the check. -/
def State.checkVehicle (s : State) (n : Nat) : State :=
  s.checkWords (fun e => e.area == .vehicle && e.index == n) fixVehicle

/-- Rewrite as 0 the field of a header that lies in a damaged word (R133). -/
def zeroField (h : Header) : WordField → Header
  | .trainNumber => { h with number := 0 }
  | .track => { h with track := none }
  | .direction => { h with dir := .up }
  | .openTime => { h with openTime := ⟨0, 0, false⟩ }
  | .closeTime => { h with closeTime := ⟨0, 0, false⟩ }
  | .closeReason => { h with reason := .normal }
  | .headerAxleCount => { h with axleCount := 0 }
  | .phantomCount => { h with phantoms := 0 }
  | .stackDepth => { h with depth := 0 }
  | .unwindCount => { h with unwinds := 0 }
  | .withdrawalCount => { h with withdrawals := 0 }
  | .minSpeed => { h with minSpeed := 0 }
  | .maxSpeed => { h with maxSpeed := 0 }
  | .meanSpeed => { h with meanSpeed := 0 }
  | .vehicleCount => { h with vehicleCount := 0 }
  | .grossLoad => { h with gross := 0 }
  | .coverage => { h with coverage := 0 }
  | .worstSeverity => { h with worst := .none }
  | .flags => { h with flags := ⟨false, false, false, false, false, false, false⟩ }
  | _ => h

/-- A header after a double error in one of its words (R133). -/
def damagedHeader (h : Header) (holds : List WordField) : Header :=
  let h := holds.foldl zeroField h
  { h with flags.damaged := true }

/-- A header word found with an error (R131, R133). -/
def fixHeader (s : State) (e : WordError) : State :=
  let o := headerOwner s e.index
  let s := s.foundError e (match o with | some r => .train r.number | none => .pool)
  let s := s.cleanWord e
  if e.double then
    let s := s.onHeader e.index fun h => damagedHeader h e.holds
    match o with
    | some r => s.enterAlarm (damageAlarm r.track r.number none e.index)
    | none => s
  else s

/-- Read the words of a header that hold one of some fields, or all of them for none given, through the check. -/
def State.checkHeader (s : State) (n : Nat) (fields : List WordField) : State :=
  s.checkWords
    (fun e => e.area == .header && e.index == n && (fields.isEmpty || fields.any fun f => e.holds.contains f)) fixHeader

/-! ### Records leaving -/

/-- Take some indices off a pool. -/
def freeAll {α : Type} (m : List (Nat × α)) (l : List Nat) : List (Nat × α) := l.foldl drop m

/-- A record leaves the store (R122); REPORT_READY follows when the lines are driven. -/
def State.removeRecord (s : State) (r : RecordDir) : State :=
  State.setLinks
    { s with
      trs.records := s.trs.records.filter fun x => x.number != r.number
      trs.headers := drop s.trs.headers r.header
      trs.vehicles := freeAll s.trs.vehicles r.vehicles
      trs.axles := freeAll s.trs.axles r.axles }
    r.number .gone

/-- A record that no port holds (R120). -/
def released (r : RecordDir) : Bool := !r.holders.report && !r.holders.alarm

/-- Reclaim the oldest released record, again until there is room or none is released (R123). -/
def State.reclaim (s : State) (room : State → Bool) : (fuel : Nat) → State
  | 0 => s
  | fuel + 1 =>
    if room s then s
    else
      match s.trs.records.find? released with
      | some r =>
        let s := s.removeRecord r
        State.reclaim { s with trs.reclaims := bump s.trs.reclaims } room fuel
      | none => s

/-- Evict one record: it leaves, is counted, and its loss is reported (R124). -/
def State.evict (s : State) (r : RecordDir) : State :=
  let s := s.checkHeader r.header [.headerAxleCount]
  let count := (s.header r.header).axleCount
  let s := s.removeRecord r
  let s := { s with trs.evictions := bump s.trs.evictions }
  s.enterAlarm ⟨⟨some r.track, some r.number, none, none, .storeLoss⟩, .watch, count, 0, .evicted⟩

/-- Evict the oldest record, again until there is room or the store holds none (R124). -/
def State.evictFor (s : State) (room : State → Bool) : (fuel : Nat) → State
  | 0 => s
  | fuel + 1 =>
    if room s then s
    else
      match s.trs.records.head? with
      | some r => (s.evict r).evictFor room fuel
      | none => s

/-- KEEP_OLD is coded 1 (R196). -/
def keepOld (s : State) : Bool := s.setting itemRetentionPolicy == 1

/-- Make room for a request: reclaim, then under KEEP_NEW evict (R123 to R125). The policy is read when the request is
taken. -/
def State.makeRoom (s : State) (room : State → Bool) : State :=
  let s := s.checkSetting itemRetentionPolicy
  let old := keepOld s
  let s := s.reclaim room s.trs.records.length
  if old then s else s.evictFor room s.trs.records.length

/-- Room for one axle entry. -/
def axleRoom (s : State) : Bool := (lowestFree s.trs.axles Config.axlePoolSize).isSome

/-- Room for one header. -/
def headerRoom (s : State) : Bool := (lowestFree s.trs.headers Config.headerCount).isSome

/-- FREE vehicle entries. -/
def freeVehicles (s : State) : Nat := Config.vehiclePoolSize - s.trs.vehicles.length

/-- Take the lowest-numbered FREE vehicle entries for some vehicles, in order; every word is written (R119). -/
def State.takeVehicles (s : State) : List VehicleEntry → State × List Nat
  | [] => (s, [])
  | v :: l =>
    match lowestFree s.trs.vehicles Config.vehiclePoolSize with
    | some k =>
      let s := State.cleanEntry { s with trs.vehicles := put s.trs.vehicles k v } .vehicle k
      let (s, ks) := s.takeVehicles l
      (s, k :: ks)
    | none => (s, [])

end Sys2Proof.Machine
end

