-- ==== Sys2Proof/Machine/CloseWork.lean ====
section
/-! DEFINITION. The work of a close operation between its take and its end, piece by piece: grouping and totals (R97 to R103),
close judgements (R104 to R107), and the requests for a header and vehicle entries (R109, R110). -/

namespace Sys2Proof.Machine

/-! ### A judgement about an axle (R144) -/

/-- Raise an axle entry's mark of the kind's group to a higher severity (R144). -/
def raiseMark (k : AlarmKind) (sev : Severity) (a : AxleEntry) : AxleEntry :=
  match k with
  | .wheelImpact | .wheelRatio | .wheelOverload => { a with wheelMark := sevMax a.wheelMark sev }
  | .bearingHot | .bearingCross | .bearingRelative => { a with bearingMark := sevMax a.bearingMark sev }
  | _ => a

/-- Judge one quantity of an axle and raise the entry's mark; the entry's marks are read for it (R131, R144). DESIGN CHOICE: they
are read only for a severity above NONE, after the judgement is entered in the list (log 58). -/
def State.judgeAxle (s : State) (key : AlarmKey) (entry value : Nat) (cls : ValueClass) : State × Severity :=
  let (s, sev) := s.judgeValue key value cls
  if sev = .none then (s, sev) else ((s.checkAxle entry [.marks]).onAxle entry (raiseMark key.kind sev), sev)

/-! ### Grouping -/

/-- An entry whose speed class is DAMAGED: its spacing is taken as 0, its wheels as unmeasured, its marks as NONE (R97,
R132). Its bearings stand as they are (log 26). -/
def asRead (a : AxleEntry) : AxleEntry :=
  if a.speedClass = .damaged then
    { a with spacing := 0, rails := (blankResults .damaged).1, wheelMark := .none, bearingMark := .none }
  else a

/-- Bogies (R98): axle 1 begins the first, a spacing of at most B_max joins. Each bogie is not empty. -/
def bogies (bMax : Nat) : List HandAxle → List (List HandAxle)
  | [] => []
  | a :: l =>
    match l, bogies bMax l with
    | [], _ => [[a]]
    | b :: _, g :: gs => if b.axle.spacing ≤ bMax then (a :: g) :: gs else [a] :: g :: gs
    | _ :: _, [] => [[a]]

/-- The gap before a bogie: the spacing of its first axle (R98). -/
def gapOf (g : List HandAxle) : Nat :=
  match g with
  | a :: _ => a.axle.spacing
  | [] => 0

/-- Vehicles (R99): a bogie whose gap is at least V_min joins the vehicle of the bogie before it. -/
def vehicles (vMin : Nat) : List (List HandAxle) → List (List HandAxle)
  | [] => []
  | g :: gs =>
    match gs, vehicles vMin gs with
    | [], _ => [g]
    | g2 :: _, v :: vs => if vMin ≤ gapOf g2 then (g ++ v) :: vs else g :: v :: vs
    | _ :: _, [] => [g]

/-- Cut a vehicle list to `k` vehicles: the last takes in every axle after it (R99, R110). -/
def mergeFrom (k : Nat) (vs : List (List HandAxle)) : List (List HandAxle) :=
  if vs.length ≤ k then vs
  else
    match k with
    | 0 => []
    | k + 1 => vs.take k ++ [(vs.drop k).flatten]

/-- Sum of the static loads of a rail over the axles whose load class there is VALID (R100). -/
def validSum (r : Side) (l : List HandAxle) : Nat :=
  (l.map fun a => if (a.axle.rails.get r).loadClass = .valid then (a.axle.rails.get r).static else 0).sum

/-- Whether any wheel of some axles has a load class. -/
def anyWheel (p : ValueClass → Bool) (l : List HandAxle) : Bool :=
  l.any fun a => p (a.axle.rails.get .one).loadClass || p (a.axle.rails.get .two).loadClass

/-- Imbalance in per-mille, truncated (R101). -/
def imbalanceOf (s1 s2 : Nat) : Nat := if s1 + s2 = 0 then 0 else (max s1 s2 - min s1 s2) * 1000 / (s1 + s2)

/-- The fields of a vehicle formed at the end of grouping (R100, R101); `worst` is settled later (R107). -/
def vehicleOf (index : Nat) (l : List HandAxle) : VehicleEntry :=
  { index := index
    first := (l.head?.map fun a => a.axle.index).getD 0
    count := l.length
    sum1 := validSum .one l
    sum2 := validSum .two l
    gross := validSum .one l + validSum .two l
    imbalance := imbalanceOf (validSum .one l) (validSum .two l)
    incomplete := anyWheel (fun c => c != .valid) l
    worst := .none
    damaged := false }

/-- Train totals (R102, R103). -/
structure Totals where
  axleCount : Nat
  minSpeed : Nat
  maxSpeed : Nat
  meanSpeed : Nat
  gross : Nat
  coverage : Nat
deriving DecidableEq, Repr

/-- The VALID speeds of a train (R102). -/
def validSpeeds (l : List HandAxle) : List Nat :=
  (l.filter fun a => a.axle.speedClass == .valid).map fun a => a.axle.speed

/-- The least of some numbers, 0 for none. -/
def leastOf : List Nat → Nat
  | [] => 0
  | n :: l => l.foldl min n

/-- Unmeasured wheels: every wheel neither VALID nor OVER, and two for each phantom (R103). -/
def unmeasured (l : List HandAxle) (phantoms : Nat) : Nat :=
  let bad (c : ValueClass) : Nat := if c = .valid ∨ c = .over then 0 else 1
  (l.map fun a => bad (a.axle.rails.get .one).loadClass + bad (a.axle.rails.get .two).loadClass).sum + 2 * phantoms

/-- The totals of a train (R102, R103). -/
def totalsOf (l : List HandAxle) (phantoms : Nat) : Totals :=
  let speeds := validSpeeds l
  let count := l.length + phantoms
  { axleCount := count
    minSpeed := leastOf speeds
    maxSpeed := speeds.foldl max 0
    meanSpeed := speeds.sum / speeds.length
    gross := validSum .one l + validSum .two l
    coverage := unmeasured l phantoms * 1000 / (2 * count) }

/-! ### Close judgements -/

/-- The mean rise of a side's VALID bearings, absent with fewer than 4 of them (R104). -/
def sideMean (sd : Side) (l : List HandAxle) : Option Nat :=
  let rises := (l.filter fun a => (a.axle.sides.get sd).cls == .valid).map fun a => (a.axle.sides.get sd).rise
  if rises.length < 4 then none else some (rises.sum / rises.length)

/-- The BEARING_RELATIVE judgement of one bearing: value and class handed on (R104). -/
def relativeOf (mean : Nat) (b : SideResult) : Option (Nat × ValueClass) :=
  match b.cls with
  | .valid => if mean ≤ b.rise then some (b.rise - mean, .valid) else none
  | .over => some (b.rise - mean, .over)
  | _ => none

/-- The BEARING_RELATIVE judgements of one side, by ascending axle index; none for a side that is not judged (R104). -/
def relativeJudgements (tr : Train) (sd : Side) (l : List HandAxle) : List CloseJudgement :=
  match sideMean sd l with
  | some mean => l.filterMap fun a => (relativeOf mean (a.axle.sides.get sd)).map fun v =>
      ⟨.axle a.entry, ⟨some tr.track, some tr.number, some a.axle.index, some sd, .bearingRelative⟩, v.1, v.2⟩
  | none => []

/-- The class handed on for a vehicle's overload (R105). -/
def overloadClass (l : List HandAxle) : ValueClass :=
  if anyWheel (fun c => c == .over) l then .over
  else if anyWheel (fun c => c == .valid) l then .valid
  else .notMeasured

/-- The two judgements of a vehicle, overload before imbalance (R105). -/
def vehicleJudgements (tr : Train) (index : Nat) (l : List HandAxle) : List CloseJudgement :=
  let v := vehicleOf index l
  let key (k : AlarmKind) : AlarmKey := ⟨some tr.track, some tr.number, some v.first, none, k⟩
  [⟨.vehicle index, key .vehicleOverload, v.gross, overloadClass l⟩,
    ⟨.vehicle index, key .vehicleImbalance, v.imbalance, if v.incomplete then .notMeasured else .valid⟩]

/-- The vehicle list of the train in hand, before the cut to 160 (R98, R99). -/
def vehicleList (o : CloseOp) : List (List HandAxle) := vehicles o.vMin (bogies o.bMax o.read)

/-- The vehicle list as grouping leaves it (R99). -/
def groupsOf (o : CloseOp) : List (List HandAxle) := mergeFrom Config.vehicleLimit (vehicleList o)

/-- Whether the 160-vehicle limit merged vehicles (R99, R108). -/
def mergedVehicles (o : CloseOp) : Bool := decide (Config.vehicleLimit < (vehicleList o).length)

/-- The totals of the train in hand (R102, R103). -/
def trainTotals (o : CloseOp) : Totals := totalsOf o.read o.closing.train.phantoms

/-- The close judgements in the order of R104 and R105: side 1, side 2, the vehicles in order, coverage last. -/
def closeJudgements (o : CloseOp) : List CloseJudgement :=
  let tr := o.closing.train
  relativeJudgements tr .one o.read ++ relativeJudgements tr .two o.read
    ++ ((groupsOf o).zipIdx 1).flatMap (fun g => vehicleJudgements tr g.2 g.1)
    ++ [⟨.train, ⟨some tr.track, some tr.number, none, none, .coverage⟩, (trainTotals o).coverage, .valid⟩]

/-- The severities returned for what some close judgements are about (R106). -/
def severitiesOf (o : CloseOp) (about : CloseSubject → Bool) : List Severity :=
  (o.returned.filter fun r => about r.1.about).map (·.2)

/-- The worst severity of a vehicle: the marks of its axles, the BEARING_RELATIVE severities of its axles, and the severities
of its own judgements (R107). -/
def vehicleWorst (o : CloseOp) (index : Nat) (l : List HandAxle) : Severity :=
  sevMaxAll
    (severitiesOf o (fun x => x == .vehicle index) ++ (l.flatMap fun a => [a.axle.wheelMark, a.axle.bearingMark])
      ++ severitiesOf o fun x => l.any fun a => x == .axle a.entry)

/-- What a close reason adds to the train's worst severity (R107). -/
def reasonSeverity : CloseReason → Severity
  | .detectorFault => .alert
  | .power => .watch
  | .normal | .abandoned | .forced => .none

/-- The worst severity of the train: its vehicles, its COVERAGE judgement and its close reason (R107). -/
def trainWorst (o : CloseOp) : Severity :=
  sevMaxAll
    (severitiesOf o (fun x => x == .train) ++ reasonSeverity o.closing.reason
      :: ((groupsOf o).zipIdx 1).map fun g => vehicleWorst o g.2 g.1)

/-! ### GROUPING and JUDGING, piece by piece -/

/-- Set the close operation in flight. -/
def State.withOp (s : State) (o : CloseOp) : State := { s with rbu.closeOp := some o }

/-- An entry found DAMAGED by a read of the close operation (R97, R108). -/
def foundDamaged (s : State) (entry : Nat) : Bool := (s.axle entry).speedClass == .damaged

/-- GROUPING reads the next entry of the stack through the check (R97). -/
def State.readNext (s : State) (o : CloseOp) (i : StackItem) : State :=
  let s := s.checkAxle i.entry []
  s.withOp { o with read := o.read ++ [⟨i.entry, asRead (s.axle i.entry)⟩], damaged := o.damaged || foundDamaged s i.entry }

/-- GROUPING ends with the vehicles and totals formed; a merge at the limit is counted (R99, R104). -/
def State.endGrouping (s : State) (o : CloseOp) : State :=
  let s := if mergedVehicles o then { s with rbu.truncated := bump s.rbu.truncated } else s
  s.withOp { o with phase := .judging, todo := closeJudgements o }

/-- The Alarm Unit judges one close judgement; one about an axle raises that entry's mark (R104, R106, R145). -/
def State.judgeClose (s : State) (j : CloseJudgement) : State × Severity :=
  match j.about with
  | .axle n => s.judgeAxle j.key n j.value j.cls
  | .vehicle _ => s.judgeValue j.key j.value j.cls
  | .train => s.judgeValue j.key j.value j.cls

/-- Whether the entry a close judgement is about stands DAMAGED. -/
def damagedSubject (s : State) (j : CloseJudgement) : Bool :=
  match j.about with
  | .axle n => foundDamaged s n
  | .vehicle _ => false
  | .train => false

/-- JUDGING hands one judgement on and takes its severity; with the last one RECORDING begins (R106). DESIGN CHOICE: an entry whose
marks are found damaged only here counts with its loads and marks as GROUPING read them, and sets the DAMAGED flag (log 56). -/
def State.handOn (s : State) (o : CloseOp) (j : CloseJudgement) (rest : List CloseJudgement) : State :=
  let (s, sev) := s.judgeClose j
  s.withOp
    { o with
      phase := if rest.isEmpty then .recording else .judging
      todo := rest
      returned := o.returned ++ [(j, sev)]
      damaged := o.damaged || damagedSubject s j }

/-! ### RECORDING, piece by piece -/

/-- A free header is allocated (R109). -/
def State.allocateHeader (s : State) (k : Nat) : State :=
  State.cleanEntry { s with trs.headers := put s.trs.headers k .allocated } .header k

/-- The header request of RECORDING (R109): the state after it and the header it finds FREE. -/
def State.requestHeader (s : State) : State × Option Nat :=
  let s := s.makeRoom headerRoom
  (s, lowestFree s.trs.headers Config.headerCount)

/-- Ask for the header. A request that fails is DISCARDED_FULL's own event, so until then nothing is done (R109, R112). -/
def State.takeHeader (s : State) (o : CloseOp) : State :=
  match s.requestHeader with
  | (s1, some k) => (s1.allocateHeader k).withOp { o with header := some k }
  | (_, none) => s

/-- Room for a group of vehicle entries (R123). -/
def vehicleRoom (n : Nat) (s : State) : Bool := decide (n ≤ freeVehicles s)

/-- The vehicle entries of some groups, with their worst severities (R100, R107). -/
def vehicleEntries (o : CloseOp) (groups : List (List HandAxle)) : List VehicleEntry :=
  (groups.zipIdx 1).map fun g => { vehicleOf g.2 g.1 with worst := vehicleWorst o g.2 g.1 }

/-- Ask for the vehicle entries; under a shortage the list is cut and counted (R110). -/
def State.takeGroups (s : State) (o : CloseOp) : State :=
  let all := groupsOf o
  let s := s.makeRoom (vehicleRoom all.length)
  let cut := decide (freeVehicles s < all.length)
  let groups := if cut then mergeFrom (freeVehicles s) all else all
  let s := if cut then { s with rbu.truncated := bump s.rbu.truncated } else s
  let (s, refs) := s.takeVehicles (vehicleEntries o groups)
  s.withOp { o with vehicles := some refs, cut := cut }

/-! ### The pieces in order -/

/-- The next piece of work of the close operation in flight, up to the record's append (R97 to R110). -/
def State.closePiece (s : State) : State :=
  match s.rbu.closeOp with
  | none => s
  | some o =>
    match o.phase with
    | .grouping =>
      match o.closing.train.stack.drop o.read.length with
      | i :: _ => s.readNext o i
      | [] => s.endGrouping o
    | .judging =>
      match o.todo with
      | j :: rest => s.handOn o j rest
      | [] => s.withOp { o with phase := .recording }
    | .recording =>
      match o.header, o.vehicles with
      | none, _ => s.takeHeader o
      | some _, none => s.takeGroups o
      | some _, some _ => s

/-- Some pieces of work one after another. -/
def State.closePieces (s : State) : Nat → State
  | 0 => s
  | n + 1 => s.closePiece.closePieces n

/-- What the close operation in flight does after an event: some pieces of its work, how many is a free value (R96, R106, R113;
log 8). -/
def State.letClose (s : State) : State :=
  match s.rbu.closeOp with
  | some _ => State.closePieces { s with free := s.free + 1 } (Config.freeClose s.free)
  | none => s

/-- Judgements still to be handed on. -/
def judgementsLeft (s : State) : Nat :=
  match s.rbu.closeOp with
  | some o => o.todo.length
  | none => 0

/-- The rest of the work up to the append: the entries and the end of GROUPING, the judgements, then the two requests. -/
def State.finishPieces (s : State) (o : CloseOp) : State :=
  let s := s.closePieces (o.closing.train.stack.length + 1)
  s.closePieces (judgementsLeft s + 3)

end Sys2Proof.Machine
end

