-- ==== Sys2Proof/Machine/Events.lean ====
section
/-! DEFINITION. What the part answers to an event. -/

namespace Sys2Proof.Machine

/-- What the machine answers to an event: during the START check it is not seen (R206); an event that cannot fall in this
state changes nothing (log 4); otherwise the state after it, the close operation in flight gone on for a while (log 8), its
lines driven. -/
def whenUp (s : State) (r : Option State) : Host.Outcome State Fault Refusal :=
  if s.startCheck then .next s
  else
    match r with
    | some t => .next t.letClose.driveLines
    | none => .next s

end Sys2Proof.Machine
end

