-- ==== Sys2Proof/Machine/Handshake.lean ====
section
/-! DEFINITION. The two commands of the NOTICE/TAKE handshake: TAKE_RISES and TAKE_FALLS (R158, R159). -/

namespace Sys2Proof.Machine

/-- A SEEN or RAISED entry after a TAKE rise in NOTIFIED: a delivered RAISED entry becomes SEEN (R158). -/
def takenAlarm (a : AlarmEntry) : AlarmEntry :=
  if a.state = .raised ∧ a.delivered = true then { a with state := .seen } else a

/-- TAKE_RISES (R158, R159). -/
def execTakeRises (now : Nat) (s : State) : Host.Outcome State Fault Refusal :=
  let s1 := s.advance now
  let s2 := { s1 with alm.takeHigh := true }
  whenUp s <| some <|
    match s.alm.handshake with
    | .notified => { s2 with alm.list := s.alm.list.map takenAlarm, alm.handshake := .taken }
    | .idle => s2
    | .taken => s2

/-- TAKE_FALLS (R158). -/
def execTakeFalls (now : Nat) (s : State) : Host.Outcome State Fault Refusal :=
  let s1 := s.advance now
  let s2 := { s1 with alm.takeHigh := false }
  whenUp s <| some <|
    match s.alm.handshake with
    | .taken => State.testNotice { s2 with alm.handshake := .idle }
    | .idle => s2.testNotice
    | .notified => s2

end Sys2Proof.Machine
end

