-- ==== Sys2Proof/Machine/Engine.lean ====
section
/-! DEFINITION. The Axle Evaluation Engine: crossing arithmetic it shares with the sequencers (R8, R50), jobs (R47 to R52),
the evaluation of a rail and a side (R57 to R66), and what unwinding and cancelling do to jobs (R69, R70). -/

namespace Sys2Proof.Machine

/-! ### Speed and window arithmetic -/

/-- Speed and speed class of a crossing from the head spacing D, its Δt and V_low (R8). DEDUCED from the worked example of
chapter 1: what is held against 3000 is the quotient truncated, so one between 3000 and 3001 is not OVER (log 55). -/
def speedOf (d dt vLow : Nat) : Nat × ValueClass :=
  if dt = 0 then (3000, .over)
  else
    let q := 36000 * d / dt
    if 3000 < q then (3000, .over) else if q < vLow then (q, .lowSpeed) else (q, .valid)

/-- The time at which a wheel stands at coordinate `x` (R50). -/
def timeAt (dir : Direction) (tA dt d : Nat) (x : Int) : Int :=
  let sx : Int := match dir with | .up => x | .down => -x
  (tA : Int) + (sx * (dt : Int)).tdiv (d : Int)

/-- The sample number of a time: divided by 250, rounded toward minus infinity (R50). -/
def sampleOf (time : Int) : Int := time / 250

/-- Two sample numbers in ascending order. -/
def ascending (a b : Int) : Int × Int := (min a b, max a b)

/-- The range of samples between two coordinates (R50). -/
def gateOf (dir : Direction) (tA dt d : Nat) (x y : Int) : Int × Int :=
  ascending (sampleOf (timeAt dir tA dt d x)) (sampleOf (timeAt dir tA dt d y))

/-- The bearing gate of a track from its settings H and W (R50). -/
def bearingGate (s : State) (t : Track) (dir : Direction) (tA dt : Nat) : Int × Int :=
  let w := s.setting (itemW t) / 2
  gateOf dir tA dt (s.settingNat (itemD t)) (s.setting (itemH t) - w) (s.setting (itemH t) + w)

/-- The load window of a track from its settings Gs and Ge (R50). -/
def loadWindow (s : State) (t : Track) (dir : Direction) (tA dt : Nat) : Int × Int :=
  gateOf dir tA dt (s.settingNat (itemD t)) (s.setting (itemGs t)) (s.setting (itemGe t))

/-- Columns of a job's window: n = Le − Ls + 1. -/
def windowLength (j : Job) : Int := j.le - j.ls + 1

/-! ### Evaluation -/

/-- Sample numbers from `first`, `n` of them, ascending. -/
def sampleRange (first : Int) (n : Nat) : List Int := (List.range n).map fun i => first + (i : Int)

/-- The sample numbers of an inclusive range. -/
def samplesBetween (a b : Int) : List Int := sampleRange a (b - a + 1).toNat

/-- How an evaluation reads a sample: by its row's place among the track's ten rows, and its sample number. -/
abbrev Reader := Nat → Int → Sample

/-- A live job reads the rolling area (R56); a service job reads the columns that stand for its sample numbers (R51). -/
def readerOf (mem : List (Nat × Sample)) (j : Job) : Reader := fun i k =>
  let row := (trackRows j.track).getD i 0
  match j.owner with
  | .live _ _ _ => Memory.read mem (cell row (rollingColumn k.toNat))
  | .service _ c _ origin => Memory.read mem (cell row (c + (k - origin)).toNat)

/-- The rows of a rail among the track's ten (R57). -/
def railRows : Side → List Nat
  | .one => [0, 1, 2, 3]
  | .two => [4, 5, 6, 7]

/-- The scanner row of a side among the track's ten (R65). -/
def sideRow : Side → Nat
  | .one => 8
  | .two => 9

/-- The rows of a rail whose gain is not 0 (R57). -/
def activeRows (v : TakeValues) (r : Side) : List Nat := (railRows r).filter fun i => v.gains.getD i 0 != 0

/-- The zone sum F(k) of a rail (R58). -/
def zoneSum (v : TakeValues) (read : Reader) (r : Side) (k : Int) : Int :=
  ((activeRows v r).map fun i => ((read i k).toInt - v.tares.getD i 0) * (v.gains.getD i 0 : Int)).sum

/-- Round a sum in 1/65536 units to the nearest whole unit, a half upward (R60, R61, R65). -/
def round65536 (x : Int) : Int := (x + 32768) / 65536

/-- The first sample of the greatest value, and that value, over samples taken in order. -/
def firstGreatest (f : Int → Int) : List Int → Option (Int × Int)
  | [] => none
  | k :: l =>
    match firstGreatest f l with
    | some (m, x) => if f k < x then some (m, x) else some (k, f k)
    | none => some (k, f k)

/-- What a rail's evaluation gives, and the sample of its greatest zone sum (R58 to R64). -/
def evalRail (v : TakeValues) (read : Reader) (j : Job) (r : Side) : RailResult × Option Int :=
  let window := samplesBetween j.ls j.le
  let n := window.length
  let f := zoneSum v read r
  let trim := if n < 16 then 0 else n / 8
  let core := (window.drop trim).take (n - 2 * trim)
  let mean := ((core.map f).sum).tdiv (core.length : Int)
  let ps := round65536 mean
  let greatest := (firstGreatest f window).getD (j.ls, 0)
  let pp := round65536 greatest.2
  let sat := window.any fun k => (activeRows v r).any fun i => saturated (read i k)
  let cls : ValueClass :=
    if 65535 < ps ∨ 65535 < pp ∨ sat = true then .over
    else if n < 16 ∨ ps < 0 ∨ v.tareValid = false then .suspect
    else .valid
  let static := clamp16 ps
  let peak := clamp16 pp
  let ratio : Nat × ValueClass :=
    if static = 0 ∨ static < v.pMin then (0, .notMeasured)
    else
      let q := peak * 100 / static
      if 999 < q then (999, .over) else (q, cls)
  (⟨static, peak, peak - static, ratio.1, cls, ratio.2⟩, some greatest.1)

/-- A rail with a class given by a take check, or ABSENT with no gain, or evaluated (R55, R57, R62). -/
def railResult (v : TakeValues) (read : Reader) (j : Job) (check : Option ValueClass) (r : Side) :
    RailResult × Option Int :=
  if activeRows v r = [] then (blankRail .absent, none)
  else
    match check with
    | some c => (blankRail c, none)
    | none => evalRail v read j r

/-- The bearing of a side (R65, R66). -/
def sideResult (v : TakeValues) (read : Reader) (j : Job) (check : Option ValueClass) (sd : Side) : SideResult :=
  let i := sideRow sd
  let gain := v.gains.getD i 0
  if gain = 0 then ⟨0, .absent⟩
  else
    match check with
    | some c => ⟨0, c⟩
    | none =>
      let gate := samplesBetween j.bs j.be
      let m := ((firstGreatest (fun k => (read i k).toInt) gate).getD (j.bs, 0)).2
      let r := round65536 ((m - v.tares.getD i 0) * (gain : Int))
      let cls : ValueClass :=
        if gate.any fun k => saturated (read i k) then .over else if v.tareValid = false then .suspect else .valid
      ⟨r.toNat, cls⟩

/-- The take checks: the class they give the loads, and the class they give the bearings (R55). -/
def takeChecks (j : Job) (newest : Nat) : Option ValueClass × Option ValueClass :=
  if j.speedClass = .lowSpeed ∨ 6000 < windowLength j then (some .lowSpeed, some .lowSpeed)
  else
    match j.owner with
    | .service _ _ _ _ => (none, none)
    | .live _ _ _ =>
      if present newest j.ls = false then (some .stale, some .stale)
      else if present newest j.bs = false then (none, some .stale)
      else (none, none)

/-- The sample handed to the Watch Unit: of the rail with the greater peak, rail 1 where they are equal (R174). -/
def peakOf (a b : RailResult × Option Int) : Option Int :=
  match a.2, b.2 with
  | some k, some l => if a.1.peak < b.1.peak then some l else some k
  | some k, none => some k
  | none, some l => some l
  | none, none => none

/-- The results of a job with its take values (R55 to R66). -/
def evaluate (mem : List (Nat × Sample)) (v : TakeValues) (j : Job) : Results :=
  let (loads, bearings) := takeChecks j v.newest
  let read := readerOf mem j
  let r1 := railResult v read j loads .one
  let r2 := railResult v read j loads .two
  { rails := ⟨r1.1, r2.1⟩
    sides := ⟨sideResult v read j bearings .one, sideResult v read j bearings .two⟩
    peakSample := peakOf r1 r2 }

/-! ### The queue -/

/-- Whether a job is a live job of a train. -/
def isJobOf (n : Nat) (j : Job) : Bool :=
  match j.owner with
  | .live train _ _ => train == n
  | .service _ _ _ _ => false

/-- Whether a job is a live job. -/
def isLive (j : Job) : Bool :=
  match j.owner with
  | .live _ _ _ => true
  | .service _ _ _ _ => false

/-- Whether a job is the live job of an axle entry. -/
def isJobFor (entry : Nat) (j : Job) : Bool :=
  match j.owner with
  | .live _ e _ => e == entry
  | .service _ _ _ _ => false

/-- The axle entry of a live job. -/
def jobEntry (j : Job) : Option Nat :=
  match j.owner with
  | .live _ e _ => some e
  | .service _ _ _ _ => none

/-- Jobs of a train queued or counted in flight; a discarded job in flight is not counted (R69). -/
def jobCount (s : State) (train : Nat) : Nat :=
  (s.aee.queue.filter (isJobOf train)).length
    + (match s.aee.inFlight with | some f => if isJobOf train f.job && !f.discard then 1 else 0 | none => 0)

/-- Whether a service job exists, queued or in flight (R49). -/
def serviceJobExists (s : State) : Bool :=
  (s.aee.queue.any fun j => !isLive j) || (match s.aee.inFlight with | some f => !isLive f.job | none => false)

/-- Set an entry's load, ratio and bearing classes to one class with every value 0 (R48, R70). -/
def setResults (c : ValueClass) (a : AxleEntry) : AxleEntry :=
  { a with rails := (blankResults c).1, sides := (blankResults c).2 }

/-- The live job of a new axle entry (R47): its window and gate from the geometry as it stands, ready if its last sample is
already written (R52). -/
def liveJob (s : State) (train : Nat) (t : Track) (entry axle : Nat) (c : Crossing) (speed : Nat × ValueClass) : Job :=
  let load := loadWindow s t c.dir c.tA c.dt
  let gate := bearingGate s t c.dir c.tA c.dt
  { owner := .live train entry axle, track := t, dir := c.dir, dt := c.dt, tA := c.tA, speed := speed.1,
    speedClass := speed.2, ls := load.1, le := load.2, bs := gate.1, be := gate.2,
    ready := decide (max load.2 gate.2 ≤ (s.cac.newest : Int)) }

/-- Ask the engine for the live job of a pushed entry: a job while the queue has a place, NOT_MEASURED otherwise (R47, R48). -/
def State.requestJob (s : State) (train : Nat) (t : Track) (entry axle : Nat) (c : Crossing) (speed : Nat × ValueClass) :
    State :=
  if s.aee.queue.length < Config.queueSize then
    let s := s.checkSettings [itemD t, itemGs t, itemGe t, itemH t, itemW t]
    { s with aee.queue := s.aee.queue ++ [liveJob s train t entry axle c speed] }
  else
    { s.onAxle entry (setResults .notMeasured) with aee.queueFull := bump s.aee.queueFull }

/-- Mark the job in flight discarded where it is a live job that `p` picks and its mark is CLEAR (R69, R70). -/
def discardFlight (p : Job → Bool) (f : InFlight) : InFlight :=
  if isLive f.job && p f.job then { f with discard := true } else f

/-- What the unwind of an axle does to its job (R69): a queued job goes, a job in flight is marked. -/
def State.unwindJob (s : State) (entry : Nat) : State :=
  { s with
    aee.queue := s.aee.queue.filter fun j => !isJobFor entry j
    aee.inFlight := s.aee.inFlight.map (discardFlight (isJobFor entry)) }

/-- The entries of a train's jobs that are queued or counted in flight. -/
def jobEntries (s : State) (p : Job → Bool) : List Nat :=
  ((s.aee.queue.filter p).filterMap jobEntry)
    ++ (match s.aee.inFlight with | some f => if p f.job && !f.discard then (jobEntry f.job).toList else [] | none => [])

/-- Cancel a train's jobs (R70): queued jobs go, the job in flight is marked, their entries become NOT_MEASURED. -/
def State.cancelJobs (s : State) (train : Nat) : State :=
  let marked := (jobEntries s (isJobOf train)).foldl (fun s n => s.onAxle n (setResults .notMeasured)) s
  { marked with
    aee.queue := s.aee.queue.filter fun j => !isJobOf train j
    aee.inFlight := s.aee.inFlight.map (discardFlight (isJobOf train)) }

/-- The freeze removes every queued live job, its entry becoming NOT_MEASURED (R71). -/
def State.removeQueuedLive (s : State) : State :=
  let marked := ((s.aee.queue.filter isLive).filterMap jobEntry).foldl (fun s n => s.onAxle n (setResults .notMeasured)) s
  { marked with aee.queue := s.aee.queue.filter fun j => !isLive j }

end Sys2Proof.Machine
end

