-- ==== Sys2Proof/Machine/Watch.lean ====
section
/-! DEFINITION. The Watch Unit: the test of a delivered axle (R169), locking (R170, R171), the snapshot copy (R174 to R176)
and SNAPSHOT_COPY_END. -/

namespace Sys2Proof.Machine

/-- Whether a condition tests a track (R167). -/
def watchesTrack (c : Condition) (t : Track) : Bool :=
  match c.tracks, t with
  | .both, _ => true
  | .t1, .one => true
  | .t2, .two => true
  | _, _ => false

/-- A quantity of an axle entry, of one rail or side where it has one, with the class used (R167, R169). -/
def quantityOf (q : Quantity) (a : AxleEntry) (r : Side) : Nat × ValueClass :=
  match q with
  | .static => ((a.rails.get r).static, (a.rails.get r).loadClass)
  | .peak => ((a.rails.get r).peak, (a.rails.get r).loadClass)
  | .impact => ((a.rails.get r).impact, (a.rails.get r).loadClass)
  | .ratio => ((a.rails.get r).ratio, (a.rails.get r).ratioClass)
  | .bearingRise => ((a.sides.get r).rise, (a.sides.get r).cls)
  | .speed => (a.speed, a.speedClass)
  | .spacing => (a.spacing, .valid)
  | .axleIndex => (a.index, .valid)

/-- Whether a relation holds for one quantity (R169). -/
def relationHolds (r : Relation) (value : Nat) (q : Nat × ValueClass) : Bool :=
  let judged := q.2 == .valid || q.2 == .over
  match r with
  | .atLeast => judged && decide (value ≤ q.1)
  | .atMost => judged && decide (q.1 ≤ value)
  | .equal => judged && decide (q.1 = value)
  | .notValid => q.2 != .valid

/-- Whether an axle entry matches a condition (R169). -/
def axleMatches (c : Condition) (a : AxleEntry) : Bool :=
  let holds r := relationHolds c.relation c.value (quantityOf c.quantity a r)
  match c.side with
  | .one => holds .one
  | .two => holds .two
  | .either => holds .one || holds .two

/-- Whether a delivery on a track is tested at all: ARMED or LOCKED, and the track among the condition's (R169). -/
def watchTests (s : State) (t : Track) : Bool := s.wat.state != .off && watchesTrack s.wat.cond t

/-! ### The snapshot copy -/

/-- The first sample of the source range and its length (R174). -/
def sourceRange (j : Job) (peak : Option Int) : Int × Nat :=
  let n := windowLength j
  if n ≤ 512 then (j.ls, n.toNat)
  else
    let c := peak.getD ((j.ls + j.le) / 2)
    if c - 256 < j.ls then (j.ls, 512) else if j.le < c + 255 then (j.le - 511, 512) else (c - 256, 512)

/-- The samples of all 20 rows in a column of capture memory. -/
def columnSamples (mem : List (Nat × Sample)) (column : Nat) : List Sample :=
  allRows.map fun r => Memory.read mem (cell r column)

/-- The columns a copy writes: the present samples of its source range, each into its snapshot column (R174, R175). -/
def copyColumns (s : State) (first : Int) (length : Nat) : List (Nat × List Sample) :=
  ((sampleRange first length).filter (present s.cac.newest)).map fun k =>
    ((Config.snapshotFirst + (k - first)).toNat, columnSamples s.cac.mem (rollingColumn k.toNat))

/-- Settle the snapshot record at a lock, and begin a copy where it calls for one (R174, R175). DESIGN CHOICE: a SKIPPED or NONE
record has source first sample number 0 (log 52), and while a copy is in flight its record's written columns are empty (log
53). -/
def State.settleSnapshot (s : State) (j : Job) (peak : Option Int) : State :=
  if s.wat.cond.snapshot = false then { s with wat.snapshot := ⟨.none, 0, 0, none⟩ }
  else if s.sup.mode ≠ .run ∨ serviceJobExists s = true then { s with wat.snapshot := ⟨.skipped, 0, 0, none⟩ }
  else
    let (first, length) := sourceRange j peak
    let todo := copyColumns s first length
    let status : SnapshotStatus := if present s.cac.newest first then .copying else .torn
    let column := match todo with | c :: _ => c.1 | [] => Config.snapshotFirst
    { s with
      wat.snapshot := ⟨status, first, length, none⟩
      wat.copy := some ⟨s.cac.count, 0, column, todo⟩ }

/-- Write some columns, all 20 rows of each. -/
def writeColumns (mem : List (Nat × Sample)) (l : List (Nat × List Sample)) : List (Nat × Sample) :=
  l.foldl (fun m c => Memory.writeColumn m c.1 allRows fun r => c.2.getD r 0) mem

/-- The copy writes its next `k` columns. -/
def State.copyWrites (s : State) (c : SnapshotCopy) (k : Nat) : State :=
  { s with
    cac.mem := writeColumns s.cac.mem (c.todo.take k)
    wat.copy := some { c with done := c.done + k, todo := c.todo.drop k } }

/-- The columns a copy has written at this moment: at least one for each microsecond since the lock (R175), at most all; where
between is a free value (log 15). -/
def columnsByNow (s : State) (c : SnapshotCopy) : Nat :=
  let total := c.done + c.todo.length
  let least := max c.done (min total (s.cac.count - c.began))
  least + Config.freeProgress s.free % (total - least + 1)

/-- Bring a copy in flight up to this moment (R176). -/
def State.copyByNow (s : State) : State :=
  match s.wat.copy with
  | some c => { s.copyWrites c (columnsByNow s c - c.done) with free := s.free + 1 }
  | none => s

/-- The range of columns a copy has written, absent if none (R175, R176). -/
def writtenRange (c : SnapshotCopy) : Option (Nat × Nat) :=
  if c.done = 0 then none else some (c.firstColumn, c.firstColumn + c.done - 1)

/-- A copy in flight ends at once with status TORN (R176). -/
def State.tearCopy (s : State) : State :=
  let s := s.copyByNow
  match s.wat.copy with
  | some c => { s with wat.snapshot.status := .torn, wat.snapshot.written := writtenRange c, wat.copy := none }
  | none => s

/-- SNAPSHOT_COPY_END (R175): all columns are written, COPYING becomes COMPLETE, TORN stays. -/
def execSnapshotCopyEnd (now : Nat) (s : State) : Host.Outcome State Fault Refusal :=
  whenUp s <|
    match s.wat.copy with
    | some c =>
      let s := (s.advance now).copyWrites c c.todo.length
      some
        { s with
          wat.snapshot.status := if s.wat.snapshot.status = .copying then .complete else s.wat.snapshot.status
          wat.snapshot.written := writtenRange { c with done := c.done + c.todo.length }
          wat.copy := none }
    | none => none

/-! ### A match -/

/-- A match in ARMED locks the watch (R170). -/
def State.lockWatch (s : State) (j : Job) (train entry : Nat) (peak : Option Int) : State :=
  let s := s.onAxle entry fun a => { a with watched := true }
  let s := s.checkAxle entry []
  let s :=
    { s with
      wat.slot := some ⟨s.axle entry, train, j.track, j.ls, j.le, j.bs, j.be, s.stamp⟩
      wat.matchCount := 1
      wat.state := .locked }
  s.settleSnapshot j peak

/-- A match acts by the watch state (R169 to R171). -/
def State.actOnMatch (s : State) (j : Job) (train entry : Nat) (peak : Option Int) : State :=
  match s.wat.state with
  | .off => s
  | .armed => s.lockWatch j train entry peak
  | .locked =>
    { s.onAxle entry (fun a => { a with watched := true }) with wat.matchCount := min (s.wat.matchCount + 1) 255 }

/-- The results written into an axle entry (R67 step 1). -/
def writeResults (r : Results) (a : AxleEntry) : AxleEntry := { a with rails := r.rails, sides := r.sides }

/-- The Watch Unit tests a delivered axle and acts on a match: the values and classes are those that the delivery wrote, the
speed, spacing and axle index those of the entry as it stands (R169 to R171). DESIGN CHOICE: the test takes these three as they are
stored and reads no word through the check; the copy into the slot does (log 59). -/
def State.testWatch (s : State) (j : Job) (train entry : Nat) (r : Results) : State :=
  if axleMatches s.wat.cond (writeResults r (s.axle entry)) then s.actOnMatch j train entry r.peakSample else s

end Sys2Proof.Machine
end

