-- ==== Sys2Proof/Machine/Jobs.lean ====
section
/-! DEFINITION. The arbiter and the completion of jobs: JOB_TAKE (R53 to R55), LIVE_JOB_COMPLETE (R67, R69, R143, R144) and
SERVICE_JOB_COMPLETE (R68). -/

namespace Sys2Proof.Machine

/-- Answer the pending request of a port: its work slot becomes ANSWERED, the part pointer at part 1 (R184, R185). -/
def State.answer (s : State) (p : Port) (status : Status) (payload : Payload) : State :=
  s.onPort p fun u =>
    match u.slot with
    | .pending tag req _ => { u with slot := .answered tag req.row status payload 1 }
    | _ => u

/-! ### Delivery of a live job -/

/-- The nine judgements of a completed axle, in the order of R143. -/
def axleJudgements (r : Results) : List (AlarmKind × Option Side × Nat × ValueClass) :=
  let rail (sd : Side) := r.rails.get sd
  let side (sd : Side) := r.sides.get sd
  let wheel (sd : Side) :=
    [(AlarmKind.wheelImpact, some sd, (rail sd).impact, (rail sd).loadClass),
      (AlarmKind.wheelRatio, some sd, (rail sd).ratio, (rail sd).ratioClass),
      (AlarmKind.wheelOverload, some sd, (rail sd).static, (rail sd).loadClass)]
  let hot (sd : Side) := (AlarmKind.bearingHot, some sd, (side sd).rise, (side sd).cls)
  let r1 := (side .one).rise
  let r2 := (side .two).rise
  let cross : List (AlarmKind × Option Side × Nat × ValueClass) :=
    if (side .one).cls = .valid ∧ (side .two).cls = .valid then [(.bearingCross, none, max r1 r2 - min r1 r2, .valid)]
    else []
  wheel .one ++ wheel .two ++ [hot .one, hot .two] ++ cross

/-- The live judgement of a completed axle (R143). -/
def State.judgeLive (s : State) (t : Track) (train entry axle : Nat) (r : Results) : State :=
  (axleJudgements r).foldl
    (fun s q => (s.judgeAxle ⟨some t, some train, some axle, q.2.1, q.1⟩ entry q.2.2.1 q.2.2.2).1) s

/-- The delivery of a live job (R67): the entry is written, then the Alarm Unit judges the axle and the Watch Unit tests it, in
an order that is free where the watch tests at all (log 16). -/
def State.deliver (s : State) (j : Job) (train entry axle : Nat) (r : Results) : State :=
  let s := s.onAxle entry (writeResults r)
  if watchTests s j.track then
    let drawn := { s with free := s.free + 1 }
    if Config.freeWatchFirst s.free then
      (drawn.testWatch j train entry r).judgeLive j.track train entry axle r
    else (drawn.judgeLive j.track train entry axle r).testWatch j train entry r
  else s.judgeLive j.track train entry axle r

/-- The answer of an Evaluate Snapshot (R68). -/
def evaluationAnswer (f : InFlight) : EvaluationAnswer :=
  { speed := f.job.speed, speedClass := f.job.speedClass, rails := f.results.rails, sides := f.results.sides,
    ls := f.job.ls, le := f.job.le, bs := f.job.bs, be := f.job.be, columns := windowLength f.job,
    tareValid := f.take.tareValid }

/-- Whether the answer of a port's Evaluate Snapshot is still owed (R68). -/
def owesEvaluation (s : State) (p : Port) : Bool :=
  match (s.ptu.get p).slot with
  | .pending _ _ true => true
  | _ => false

/-- A job in flight ends: a live job delivers or is dropped (R67, R69), a service job answers its request if the answer is
owed (R68). -/
def State.complete (s : State) (f : InFlight) : State :=
  let s := { s with aee.inFlight := none }
  match f.job.owner with
  | .live train entry axle =>
    if f.discard then { s with aee.discards := bump s.aee.discards } else s.deliver f.job train entry axle f.results
  | .service p _ _ _ => if owesEvaluation s p then s.answer p .done (.evaluation (evaluationAnswer f)) else s

/-! ### The take -/

/-- The job the arbiter takes: the oldest ready live job, else the service job (R53). -/
def nextJob (s : State) : Option Job :=
  (s.aee.queue.find? fun j => isLive j && j.ready).orElse fun _ => s.aee.queue.find? fun j => !isLive j && j.ready

/-- The take values of a job (R54). -/
def takeValues (s : State) (j : Job) : TakeValues :=
  let rows := trackRows j.track
  { tares := rows.map fun r => s.cac.tare.getD r 0
    gains := rows.map fun r => s.settingNat (itemGain r)
    tareValid := s.cac.tareValid.get j.track
    pMin := s.settingNat itemPMin
    newest := s.cac.newest }

/-- A job taken (R53 to R55): it leaves the queue, its values are read, the take checks are applied, and it completes at the
take where they leave nothing to read. The results are those of the samples as they stand now (R56, log 9). -/
def State.takeJob (s : State) (j : Job) : State :=
  let s := s.checkSettings (((trackRows j.track).map itemGain) ++ [itemPMin])
  let v := takeValues s j
  let (loads, bearings) := takeChecks j v.newest
  let f : InFlight := ⟨j, v, evaluate s.cac.mem v j, false⟩
  let s :=
    { s with
      aee.queue := s.aee.queue.erase j
      aee.inFlight := some f
      aee.stale := if bearings = some .stale then bump s.aee.stale else s.aee.stale }
  if loads.isSome then s.complete f else s

/-- JOB_TAKE (R53): the arbiter hands the free engine to a ready job. -/
def execJobTake (s : State) : Host.Outcome State Fault Refusal :=
  whenUp s <|
    match s.aee.inFlight, nextJob s with
    | none, some j => some (s.takeJob j)
    | _, _ => none

/-- LIVE_JOB_COMPLETE (R67). -/
def execLiveJobComplete (now : Nat) (s : State) : Host.Outcome State Fault Refusal :=
  whenUp s <|
    match s.aee.inFlight with
    | some f => if isLive f.job then some ((s.advance now).complete f) else none
    | none => none

/-- SERVICE_JOB_COMPLETE (R68). -/
def execServiceJobComplete (now : Nat) (s : State) : Host.Outcome State Fault Refusal :=
  whenUp s <|
    match s.aee.inFlight with
    | some f => if isLive f.job then none else some ((s.advance now).complete f)
    | none => none

end Sys2Proof.Machine
end

