-- ==== Sys2Proof/Machine/Trains.lean ====
section
/-! DEFINITION. The Train Assembler: numbering and opening (R76, R77), forward and reverse crossings (R79 to R84), close
requests, the Closing List and its overflow (R85 to R88). -/

namespace Sys2Proof.Machine

/-- Change the open train of a track. -/
def State.onOpen (s : State) (t : Track) (f : Train → Train) : State :=
  { s with tas.opens := s.tas.opens.set t ((s.tas.opens.get t).map f) }

/-- Train numbers in use: trains open, closing, or stored (R76). -/
def numbersInUse (s : State) : List Nat := (liveTrains s).map (·.number) ++ s.trs.records.map (·.number)

/-- Give the next train number, and retire the alarms of an earlier train of that number (R76, R152). -/
def State.numberTrain (s : State) : State × Nat :=
  let used := numbersInUse s
  let n := nextNumber used used.length s.tas.lastTrain
  (State.retireAlarms { s with tas.lastTrain := n } n, n)

/-- The spacing of an axle pushed onto a stack (R9, R81). -/
def spacingOf (d : Nat) (c : Crossing) (stack : List StackItem) : Nat :=
  match stack.getLast? with
  | none => 0
  | some top => if c.dt = 0 then 65535 else min 65535 (d * (c.tA - top.tA) / c.dt)

/-- The new axle entry of a forward crossing (R81). -/
def newAxle (d : Nat) (c : Crossing) (speed : Nat × ValueClass) (tr : Train) : AxleEntry :=
  { index := tr.stack.length + 1
    tOffset := (c.tA - tr.openCount) / 1000
    dt := c.dt
    speed := speed.1
    speedClass := speed.2
    spacing := spacingOf d c tr.stack
    rails := (blankResults .pending).1
    sides := (blankResults .pending).2
    wheelMark := .none
    bearingMark := .none
    watched := false }

/-- A forward crossing counted as a phantom (R79). -/
def phantom (tr : Train) : Train := { tr with phantoms := tr.phantoms + 1 }

/-- Push a new axle entry at a FREE place of the pool and ask for its job (R81, R47, R48). -/
def State.pushAxle (s : State) (t : Track) (tr : Train) (c : Crossing) (speed : Nat × ValueClass) (k : Nat) : State :=
  let a := newAxle (s.settingNat (itemD t)) c speed tr
  let s := State.cleanEntry { s with trs.axles := put s.trs.axles k a } .axle k
  let s := s.onOpen t fun tr => { tr with stack := tr.stack ++ [⟨k, c.tA⟩] }
  s.requestJob tr.number t k a.index c speed

/-- A forward crossing of the open train of a track (R79, R80). -/
def State.forward (s : State) (t : Track) (tr : Train) (c : Crossing) (speed : Nat × ValueClass) : State :=
  if 0 < tr.phantoms then s.onOpen t phantom
  else if Config.stackSize ≤ tr.stack.length then s.onOpen t fun tr => { phantom tr with overlength := true }
  else
    let s := s.makeRoom axleRoom
    match lowestFree s.trs.axles Config.axlePoolSize with
    | none => s.onOpen t fun tr => { phantom tr with poolShort := true }
    | some k => s.pushAxle t tr c speed k

/-- Unwind the newest axle (R83): its job is dealt with, it leaves the stack, its entry returns to the pool. -/
def State.unwind (s : State) (t : Track) (top : StackItem) : State :=
  let s := s.unwindJob top.entry
  let s := s.onOpen t fun tr => { tr with stack := tr.stack.dropLast }
  { s with trs.axles := drop s.trs.axles top.entry }

/-- A reverse crossing of the open train of a track (R82 to R84). -/
def State.reverse (s : State) (t : Track) (tr : Train) : State :=
  let s := s.onOpen t fun tr => { tr with unwinds := bump tr.unwinds }
  if 0 < tr.phantoms then s.onOpen t fun tr => { tr with phantoms := tr.phantoms - 1 }
  else
    match tr.stack.getLast? with
    | some top => s.unwind t top
    | none => s.onOpen t fun tr => { tr with withdrawals := bump tr.withdrawals }

/-- A crossing handed to the Train Assembler for the open train of a track (R79, R82). -/
def State.handCrossing (s : State) (t : Track) (c : Crossing) (speed : Nat × ValueClass) : State :=
  match s.tas.opens.get t with
  | some tr => if c.dir = tr.dir then s.forward t tr c speed else s.reverse t tr
  | none => s

/-- Open a train on a track with its first crossing (R77). -/
def State.openTrain (s : State) (t : Track) (c : Crossing) (speed : Nat × ValueClass) : State :=
  let (s, n) := s.numberTrain
  let tr : Train :=
    { number := n, track := t, dir := c.dir, openTime := s.stamp, openCount := c.tA, stack := [], phantoms := 0,
      unwinds := 0, withdrawals := 0, poolShort := false, overlength := false, power := decide (s.sup.mode = .reduced) }
  State.handCrossing { s with tas.opens := s.tas.opens.set t (some tr) } t c speed

/-! ### Closing -/

/-- A train joins the Closing List; a full list first hands its head over to the Report Builder (R87, R88). -/
def State.joinClosing (s : State) (c : ClosingTrain) : State :=
  if s.tas.closing.length < Config.closingSize then { s with tas.closing := s.tas.closing ++ [c] }
  else
    match s.tas.closing with
    | head :: rest =>
      let s := s.cancelJobs head.train.number
      { s with
        tas.closing := rest ++ [c]
        tas.overflows := bump s.tas.overflows
        rbu.handOver := s.rbu.handOver ++ [head] }
    | [] => { s with tas.closing := [c] }

/-- A train that is discarded as WITHDRAWN at its close: an empty stack and no phantom (R86). -/
def emptyTrain (tr : Train) : Bool := tr.stack.isEmpty && tr.phantoms == 0

/-- A close request for a track that has an open train (R85, R86). -/
def State.closeTrain (s : State) (t : Track) (tr : Train) (reason : CloseReason) : State :=
  let left := { s with tas.opens := s.tas.opens.set t none }
  if emptyTrain tr then { left with tas.withdrawn := bump s.tas.withdrawn }
  else left.joinClosing ⟨tr, reason, s.stamp⟩

/-- A close request for a track; without an open train it has no effect (R85). -/
def State.closeRequest (s : State) (t : Track) (reason : CloseReason) : State :=
  match s.tas.opens.get t with
  | some tr => s.closeTrain t tr reason
  | none => s

/-- The axle count of a train: entries and phantoms (chapter 4). -/
def axleCountOf (tr : Train) : Nat := tr.stack.length + tr.phantoms

/-- POWER is set on every open train at the entry to REDUCED or FROZEN (R78). -/
def State.powerFlags (s : State) : State :=
  (s.onOpen .one fun tr => { tr with power := true }).onOpen .two fun tr => { tr with power := true }

end Sys2Proof.Machine
end

