-- ==== Sys2Proof/Machine/Tracks.lean ====
section
/-! DEFINITION. The Track Sequencers: timers (R10 to R14), modes (R15 to R23), crossing recognition (R4 to R7), and the
commands of the heads, approach contacts, occupancy inputs and track timers. -/

namespace Sys2Proof.Machine

/-! ### Timers -/

/-- A period of a timing item begun now (R10). -/
def State.timer (s : State) (item : Nat) : Timer := some (s.cac.count + s.settingNat item * Config.timingUnit)

/-- Start or restart T_stand (R12). -/
def State.startTStand (s : State) (t : Track) : State :=
  let s := s.checkSetting itemTStand
  s.onTrack t fun q => { q with tStand := s.timer itemTStand }

/-- Start or restart T_settle (R11). -/
def State.startTSettle (s : State) (t : Track) : State :=
  let s := s.checkSetting itemTSettle
  s.onTrack t fun q => { q with tSettle := s.timer itemTSettle }

/-- Start or restart T_end (R11). -/
def State.startTEnd (s : State) (t : Track) : State :=
  let s := s.checkSetting itemTEnd
  s.onTrack t fun q => { q with tEnd := s.timer itemTEnd }

/-- Start T_abandon (R12). -/
def State.startTAbandon (s : State) (t : Track) : State :=
  let s := s.checkSetting itemTAbandon
  s.onTrack t fun q => { q with tAbandon := s.timer itemTAbandon }

/-- Start or restart T_dormant (R13). -/
def State.startTDormant (s : State) (t : Track) : State :=
  let s := s.checkSetting itemTDormant
  s.onTrack t fun q => { q with tDormant := s.timer itemTDormant }

/-- Start T_retare (R13). -/
def State.startTRetare (s : State) (t : Track) : State :=
  let s := s.checkSetting itemTRetare
  s.onTrack t fun q => { q with tRetare := s.timer itemTRetare }

/-- The timing item of the stuck timers: T_stuck with occupancy fitted, T_abandon without (R14). -/
def stuckItem (s : State) (t : Track) : Nat := if s.fitted t then itemTStuck else itemTAbandon

/-- Start a head's stuck timer (R14). -/
def State.startStuck (s : State) (t : Track) (h : Head) : State :=
  let item := stuckItem s t
  let s := s.checkSetting item
  s.onTrack t fun q => { q with stuck := q.stuck.set (headIx h) (s.timer item) }

/-- The condition of R14 for a head that is ON: with occupancy fitted, occupancy CLEAR. -/
def stuckWatched (s : State) (t : Track) : Bool := !s.fitted t || !(s.ts.get t).occupied

/-- Start a head's stuck timer if it is ON under the condition of R14. -/
def State.startStuckIfOn (s : State) (t : Track) (h : Head) : State :=
  if (s.ts.get t).heads.get (headIx h) = true ∧ stuckWatched s t = true then s.startStuck t h else s

/-- Start a stuck timer for each head that is ON under the condition of R14 (R23, R25, R26, R27). -/
def State.resumeStuck (s : State) (t : Track) : State :=
  let s := s.checkSetting (itemFitted t)
  (s.startStuckIfOn t .a).startStuckIfOn t .b

/-- Stop the train timers. -/
def stopTrain (q : Sequencer) : Sequencer :=
  { q with tSettle := none, tEnd := none, tStand := none, tAbandon := none }

/-- Stop the idle timers. -/
def stopIdle (q : Sequencer) : Sequencer := { q with tDormant := none, tRetare := none }

/-- Stop both stuck timers. -/
def stopStuck (q : Sequencer) : Sequencer := { q with stuck := ⟨none, none⟩ }

/-! ### Modes -/

/-- A baseline refresh in flight is abandoned (R36). -/
def State.abandonRefresh (s : State) (t : Track) : State :=
  { s with cac.refresh := s.cac.refresh.set t none }

/-- A baseline refresh begins with the next sample (R34). -/
def State.beginRefresh (s : State) (t : Track) : State :=
  { s with cac.refresh := s.cac.refresh.set t (some ⟨s.cac.newest + 1, 0⟩) }

/-- Entry to ARMED: both idle timers are started (R17). -/
def State.enterArmed (s : State) (t : Track) : State :=
  let s := s.onTrack t fun q => { stopIdle (stopTrain q) with mode := .armed, recovery := none }
  (s.startTDormant t).startTRetare t

/-- Entry to ARMING: a refresh begins in RUN; in REDUCED and FROZEN the track goes to ARMED at once (R16). The timers of the
mode left are stopped (R10). -/
def State.enterArming (s : State) (t : Track) : State :=
  let s := s.onTrack t fun q => { stopIdle (stopTrain q) with mode := .arming, recovery := none }
  if s.sup.mode = .run then s.beginRefresh t else s.enterArmed t

/-- Start the timer of an open train that its occupancy setting and level call for (R11, R12, R18 to R20). DESIGN CHOICE: a T_end
that runs when a double error takes occupancy fitted to its default YES runs on beside them (log 42). -/
def State.startTrainTimer (s : State) (t : Track) : State :=
  if s.fitted t then (if (s.ts.get t).occupied then s.startTStand t else s.startTSettle t) else s.startTEnd t

/-- The open train of a track is closed and the track goes to ARMING (R21). -/
def State.closeToArming (s : State) (t : Track) (reason : CloseReason) : State :=
  (s.closeRequest t reason).enterArming t

/-- Whether a train is open as the track mode tells it. -/
def trainMode (m : TrackMode) : Bool := m == .passing || m == .standstill

/-! ### Crossings -/

/-- A crossing recognised on a track is disposed of by the device mode and the track mode (R7, R18 to R20). -/
def State.disposeCrossing (s : State) (t : Track) (c : Crossing) (speed : Nat × ValueClass) : State :=
  if s.sup.mode = .frozen then s.onTrack t fun q => { q with held := bump q.held }
  else
    match (s.ts.get t).mode with
    | .arming | .armed =>
      let s := (s.abandonRefresh t).openTrain t c speed
      (s.onTrack t fun q => { stopIdle q with mode := .passing }).startTrainTimer t
    | .passing => (s.handCrossing t c speed).startTrainTimer t
    | .standstill =>
      let s := s.handCrossing t c speed
      (s.onTrack t fun q => { q with mode := .passing, tAbandon := none }).startTrainTimer t
    | .dormant | .fault => s

/-- The crossing that the other head completes now (R6). -/
def crossingAt (first : Head) (pendingTime count : Nat) : Crossing :=
  { dir := match first with | .a => .up | .b => .down
    dt := min (count - pendingTime) Config.crossingTimerMax
    tA := match first with | .a => pendingTime | .b => count }

/-- A crossing is recognised (R6, R7): D and V_low are read, the crossing is counted, and it is disposed of. -/
def State.recognise (s : State) (t : Track) (first : Head) (pendingTime : Nat) : State :=
  let c := crossingAt first pendingTime s.cac.count
  let s := s.onTrack t fun q => { q with pending := none, crossings := bump q.crossings }
  let s := s.checkSettings [itemD t, itemVLow]
  s.disposeCrossing t c (speedOf (s.settingNat (itemD t)) c.dt (s.settingNat itemVLow))

/-- A head turning ON in crossing recognition (R4 to R6). -/
def State.headCrossing (s : State) (t : Track) (h : Head) : State :=
  match (s.ts.get t).pending with
  | none => s.onTrack t fun q => { q with pending := some (h, s.cac.count) }
  | some (first, time) =>
    if first = h then s.onTrack t fun q => { q with pending := some (h, s.cac.count), rock := bump q.rock }
    else s.recognise t first time

/-- Set the level of a head. -/
def setHead (h : Head) (on : Bool) (q : Sequencer) : Sequencer := { q with heads := q.heads.set (headIx h) on }

/-- A head turns ON outside FAULT: its stuck timer, a DORMANT track's way to ARMING, and recognition (R4, R14, R15). DESIGN
CHOICE: where it completes a crossing pending from before DORMANT, the track enters ARMING first (log 41). -/
def State.headOnActive (s : State) (t : Track) (h : Head) : State :=
  let s := s.startStuckIfOn t h
  let s := if (s.ts.get t).mode = .dormant then s.enterArming t else s
  s.headCrossing t h

/-! ### Commands -/

/-- An event of a Track Sequencer at a count: occupancy fitted is read (R3, R200). DESIGN CHOICE: which events these are, and that
the read comes first, is the model's list (log 49). -/
def State.atTrack (s : State) (t : Track) (now : Nat) : State := (s.advance now).checkSetting (itemFitted t)

/-- HEAD_ON (R4, R14, R23). -/
def execHeadOn (t : Track) (h : Head) (now : Nat) (s : State) : Host.Outcome State Fault Refusal :=
  let s1 := (s.atTrack t now).onTrack t (setHead h true)
  whenUp s <| some <|
    if (s1.ts.get t).mode = .fault then s1.onTrack t fun q => { q with recovery := none } else s1.headOnActive t h

/-- A head turned OFF in FAULT: the recovery timer starts when the second head turns OFF (R23). -/
def recoveryAfterOff (count : Nat) (q : Sequencer) : Sequencer :=
  if q.heads.one = false ∧ q.heads.two = false then { q with recovery := some (count + Config.recoveryPeriod) } else q

/-- HEAD_OFF (R14, R23). -/
def execHeadOff (t : Track) (h : Head) (now : Nat) (s : State) : Host.Outcome State Fault Refusal :=
  let s1 := (s.atTrack t now).onTrack t (setHead h false)
  whenUp s <| some <|
    if (s1.ts.get t).mode = .fault then s1.onTrack t (recoveryAfterOff s1.cac.count)
    else s1.onTrack t fun q => { q with stuck := q.stuck.set (headIx h) none }

/-- APPROACH_PULSE (R2). -/
def execApproachPulse (t : Track) (now : Nat) (s : State) : Host.Outcome State Fault Refusal :=
  let s1 := s.atTrack t now
  whenUp s <| some <|
    match (s.ts.get t).mode with
    | .dormant => s1.enterArming t
    | .armed => s1.startTDormant t
    | .arming | .passing | .standstill | .fault => s1

/-- Occupancy turns CLEAR on a fitted track outside FAULT (R11, R12, R14, R19, R20). -/
def State.occupancyClears (s : State) (t : Track) : State :=
  let s := (s.startStuckIfOn t .a).startStuckIfOn t .b
  match (s.ts.get t).mode with
  | .passing => (s.onTrack t fun q => { q with tStand := none }).startTSettle t
  | .standstill => s.startTSettle t
  | _ => s

/-- Occupancy turns OCCUPIED on a fitted track outside FAULT (R11, R12, R14, R19, R20). -/
def State.occupancyFills (s : State) (t : Track) : State :=
  let s := s.onTrack t stopStuck
  match (s.ts.get t).mode with
  | .passing => (s.onTrack t fun q => { q with tSettle := none }).startTStand t
  | .standstill => s.onTrack t fun q => { q with tSettle := none }
  | _ => s

/-- Set the occupancy level, shown in track status whatever the setting (R3). -/
def State.setOccupied (s : State) (t : Track) (level : Bool) : State :=
  s.onTrack t fun q => { q with occupied := level }

/-- Whether an occupancy event acts: occupancy fitted and the track not in FAULT (R3, R23). -/
def occupancyActs (s : State) (t : Track) : Bool := s.fitted t && (s.ts.get t).mode != .fault

/-- OCCUPANCY_CLEAR (R3). -/
def execOccupancyClear (t : Track) (now : Nat) (s : State) : Host.Outcome State Fault Refusal :=
  let s1 := (s.atTrack t now).setOccupied t false
  whenUp s <| some <| if occupancyActs s1 t then s1.occupancyClears t else s1

/-- OCCUPANCY_OCCUPIED (R3). -/
def execOccupancyOccupied (t : Track) (now : Nat) (s : State) : Host.Outcome State Fault Refusal :=
  let s1 := (s.atTrack t now).setOccupied t true
  whenUp s <| some <| if occupancyActs s1 t then s1.occupancyFills t else s1

/-- T_SETTLE_EXPIRY (R11): at the count of expiry the timer is stopped and its effect applied once (R10). -/
def execTSettleExpiry (t : Track) (s : State) : Host.Outcome State Fault Refusal :=
  whenUp s <| (s.ts.get t).tSettle.map fun e =>
    let s1 := (s.atTrack t e).onTrack t fun q => { q with tSettle := none }
    if trainMode (s1.ts.get t).mode then s1.closeToArming t .normal else s1

/-- T_END_EXPIRY (R11). -/
def execTEndExpiry (t : Track) (s : State) : Host.Outcome State Fault Refusal :=
  whenUp s <| (s.ts.get t).tEnd.map fun e =>
    let s1 := (s.atTrack t e).onTrack t fun q => { q with tEnd := none }
    if trainMode (s1.ts.get t).mode then s1.closeToArming t .normal else s1

/-- T_STAND_EXPIRY (R12, R20). -/
def execTStandExpiry (t : Track) (s : State) : Host.Outcome State Fault Refusal :=
  whenUp s <| (s.ts.get t).tStand.map fun e =>
    let s1 := (s.atTrack t e).onTrack t fun q => { q with tStand := none }
    if (s1.ts.get t).mode = .passing then
      (s1.onTrack t fun q => { q with mode := .standstill, tEnd := none }).startTAbandon t
    else s1

/-- T_ABANDON_EXPIRY (R12). -/
def execTAbandonExpiry (t : Track) (s : State) : Host.Outcome State Fault Refusal :=
  whenUp s <| (s.ts.get t).tAbandon.map fun e =>
    let s1 := (s.atTrack t e).onTrack t fun q => { q with tAbandon := none }
    if trainMode (s1.ts.get t).mode then s1.closeToArming t .abandoned else s1

/-- T_DORMANT_EXPIRY (R13): to DORMANT if dormancy is enabled at that moment. -/
def execTDormantExpiry (t : Track) (s : State) : Host.Outcome State Fault Refusal :=
  whenUp s <| (s.ts.get t).tDormant.map fun e =>
    let s1 := (s.atTrack t e).onTrack t fun q => { q with tDormant := none }
    let s2 := s1.checkSetting (itemDormancy t)
    if (s2.ts.get t).mode = .armed ∧ s2.setting (itemDormancy t) = 1 then
      s2.onTrack t fun q => { stopIdle q with mode := .dormant }
    else s2

/-- T_RETARE_EXPIRY (R13). -/
def execTRetareExpiry (t : Track) (s : State) : Host.Outcome State Fault Refusal :=
  whenUp s <| (s.ts.get t).tRetare.map fun e =>
    let s1 := (s.atTrack t e).onTrack t fun q => { q with tRetare := none }
    if (s1.ts.get t).mode = .armed then s1.enterArming t else s1

/-- The DETECTOR_FAULT alarm (R22 step 6, R146). -/
def faultAlarm (t : Track) (train : Option Nat) (h : Head) : Judgement :=
  ⟨⟨some t, train, none, none, .detectorFault⟩, .alert, twoCode (headIx h), 0, .stuckHead⟩

/-- Entry to FAULT, in the order of R22. -/
def State.enterFault (s : State) (t : Track) (h : Head) : State :=
  let train := (s.tas.opens.get t).map (·.number)
  let s := s.closeRequest t .detectorFault
  let s := s.abandonRefresh t
  let s := s.onTrack t fun q =>
    { stopStuck (stopIdle (stopTrain q)) with pending := none, faultHead := some h, mode := .fault }
  s.enterAlarm (faultAlarm t train h)

/-- STUCK_TIMER_EXPIRY (R14, R22). -/
def execStuckTimerExpiry (t : Track) (h : Head) (s : State) : Host.Outcome State Fault Refusal :=
  whenUp s <| ((s.ts.get t).stuck.get (headIx h)).map fun e =>
    let s1 := (s.atTrack t e).onTrack t fun q => { q with stuck := q.stuck.set (headIx h) none }
    if (s1.ts.get t).mode = .fault then s1 else s1.enterFault t h

/-- FAULT_RECOVERY_EXPIRY (R23): to ARMING, and stuck supervision resumes. -/
def execFaultRecoveryExpiry (t : Track) (s : State) : Host.Outcome State Fault Refusal :=
  whenUp s <| (s.ts.get t).recovery.map fun e =>
    let s1 := (s.atTrack t e).onTrack t fun q => { q with recovery := none }
    if (s1.ts.get t).mode = .fault then (s1.enterArming t).resumeStuck t else s1

end Sys2Proof.Machine
end

