-- ==== Sys2Proof/Machine/Sampler.lean ====
section
/-! DEFINITION. The sampler of the Capture Controller: SAMPLE_WRITE (R30), the baseline refresh it feeds (R35), and
REFRESH_COMPLETE, the sample write that completes a refresh (R35, log 7). -/

namespace Sys2Proof.Machine

/-- What each row gets at a sample write: its conversion, or 0 while its converters are OFF (R28, R30). -/
def rowSample (s : State) (samples : List Sample) (r : Nat) : Sample :=
  if s.convertersOn (rowTrack r) then samples.getD r 0 else 0

/-- The tare of a row from the baseline area: (sum + 32) div 64, toward minus infinity (R35). -/
def tareOf (mem : List (Nat × Sample)) (r : Nat) : Int :=
  (((List.range Config.refreshLength).map fun c => (Memory.read mem (cell r c)).toInt).sum + 32) / 64

/-- A refresh completes: the ten tares are replaced, the flag becomes VALID, the track goes to ARMED (R35). -/
def State.completeRefresh (s : State) (t : Track) : State :=
  let s := s.checkSetting (itemFitted t)
  let tare := allRows.map fun r => if rowTrack r = t then tareOf s.cac.mem r else s.cac.tare.getD r 0
  State.enterArmed
    { s with
      cac.tare := tare
      cac.tareValid := s.cac.tareValid.set t true
      cac.refresh := s.cac.refresh.set t none } t

/-- The sample just written goes into the next baseline column of a refresh in flight (R35). -/
def State.refreshStep (s : State) (t : Track) (value : Nat → Sample) : State :=
  match s.cac.refresh.get t with
  | some r =>
    if s.cac.newest = r.first + r.progress then
      let s := { s with cac.mem := Memory.writeColumn s.cac.mem r.progress (trackRows t) value }
      if r.progress + 1 = Config.refreshLength then s.completeRefresh t
      else { s with cac.refresh := s.cac.refresh.set t (some { r with progress := r.progress + 1 }) }
    else s
  | none => s

/-- The ready mark of a queued job after a sample write (R52). -/
def readyAt (newest : Nat) (j : Job) : Job :=
  if isLive j ∧ max j.le j.be ≤ (newest : Int) then { j with ready := true } else j

/-- The writing of the next sample number, at its count (R30, R31, R35, R52). DESIGN CHOICE: where it completes the refreshes of
both tracks, track 1 is taken before track 2 (log 40). -/
def State.writeSample (s : State) (samples : List Sample) : State :=
  let n := s.cac.newest + 1
  let value := rowSample s samples
  let s := s.advance (250 * n)
  let s :=
    { s with
      cac.newest := n
      cac.mem := Memory.writeColumn s.cac.mem (rollingColumn n) allRows value
      aee.queue := s.aee.queue.map (readyAt n) }
  (s.refreshStep .one value).refreshStep .two value

/-- SAMPLE_WRITE (R30). -/
def execSampleWrite (samples : List Sample) (s : State) : Host.Outcome State Fault Refusal :=
  whenUp s <| some (s.writeSample samples)

/-- Whether the next sample is the 64th of a track's refresh (R35). -/
def completesRefresh (s : State) (t : Track) : Bool :=
  match s.cac.refresh.get t with
  | some r => decide (r.progress + 1 = Config.refreshLength ∧ s.cac.newest + 1 = r.first + r.progress)
  | none => false

/-- REFRESH_COMPLETE (R35): the writing of the 64th sample of a track's refresh. -/
def execRefreshComplete (t : Track) (samples : List Sample) (s : State) : Host.Outcome State Fault Refusal :=
  whenUp s <| if completesRefresh s t then some (s.writeSample samples) else none

end Sys2Proof.Machine
end

