-- ==== Sys2Proof/Machine/Closing.lean ====
section
/-! DEFINITION. The Report Builder's commands: CLOSE_TAKE (R95, R96), and the two ends of a close operation, RECORD_APPEND (R108
to R111) and DISCARDED_FULL (R112). -/

namespace Sys2Proof.Machine

/-! ### The take -/

/-- The train the idle Report Builder takes: the oldest handed over, else the head of the Closing List if it has no job. -/
def State.takeClosing (s : State) : Option (ClosingTrain × State) :=
  match s.rbu.handOver, s.tas.closing with
  | c :: rest, _ => some (c, { s with rbu.handOver := rest })
  | [], c :: rest => if jobCount s c.train.number = 0 then some (c, { s with tas.closing := rest }) else none
  | [], [] => none

/-- A close operation as its take leaves it: phase GROUPING, the kept values, and nothing read yet (R96). -/
def freshOp (s : State) (c : ClosingTrain) (early : Bool) : CloseOp :=
  { closing := c, early := early, phase := .grouping, bMax := s.settingNat itemBMax, vMin := s.settingNat itemVMin,
    tareValid := s.cac.tareValid.get c.train.track, read := [], damaged := false, todo := [], returned := [],
    header := none, vehicles := none, cut := false }

/-- A close operation begins (R96). -/
def State.beginClose (s : State) (c : ClosingTrain) (early : Bool) : State :=
  let s := s.checkSettings [itemBMax, itemVMin]
  s.withOp (freshOp s c early)

/-- CLOSE_TAKE (R95). -/
def execCloseTake (s : State) : Host.Outcome State Fault Refusal :=
  whenUp s <|
    match s.rbu.closeOp, s.takeClosing with
    | none, some (c, s1) => some (s1.beginClose c (!s.rbu.handOver.isEmpty))
    | _, _ => none

/-! ### Making the record -/

/-- The severity AlarmHoldLevel names: NONE, WATCH, ALERT, STOP coded 0..3 (R196). -/
def holdLevel (s : State) : Severity :=
  match s.settingNat itemAlarmHoldLevel with
  | 0 => .none
  | 1 => .watch
  | 2 => .alert
  | _ => .stop

/-- The holder set fixed at the step that makes the record (R120). -/
def holdersFor (s : State) (worst : Severity) : Holders :=
  { report := s.setting itemReportHolder == 1
    alarm := holdLevel s != .none && decide (sevRank (holdLevel s) ≤ sevRank worst) }

/-- The record header (R111 step 1). -/
def headerOf (o : CloseOp) (vehicleCount : Nat) : Header :=
  let c := o.closing
  let tr := c.train
  let totals := trainTotals o
  { number := tr.number, track := some tr.track, dir := tr.dir, openTime := tr.openTime, closeTime := c.closeTime,
    reason := c.reason, axleCount := totals.axleCount, phantoms := tr.phantoms, depth := tr.stack.length,
    unwinds := tr.unwinds, withdrawals := tr.withdrawals, minSpeed := totals.minSpeed, maxSpeed := totals.maxSpeed,
    meanSpeed := totals.meanSpeed, vehicleCount := vehicleCount, gross := totals.gross, coverage := totals.coverage,
    worst := trainWorst o,
    flags :=
      { power := tr.power, overlength := tr.overlength, poolShort := tr.poolShort,
        vehiclesTruncated := mergedVehicles o || o.cut, damaged := o.damaged, untared := !o.tareValid,
        timeUnset := tr.openTime.unset || c.closeTime.unset } }

/-- The record is made of the header and vehicle entries allocated, and appended (R111). The header is written whole, so its
words are clean then (6.6, R133). DESIGN CHOICE: the vehicle entries hold their fields since their allocation (R119) and are not
written a second time here, so an error in one since then stays to be found (log 57). -/
def State.makeRecord (s : State) (o : CloseOp) (header : Nat) (refs : List Nat) : State :=
  let tr := o.closing.train
  let s := s.checkSettings [itemReportHolder, itemAlarmHoldLevel]
  let record : RecordDir :=
    ⟨tr.number, tr.track, holdersFor s (trainWorst o), header, tr.stack.map (·.entry), refs⟩
  let s :=
    { s with
      trs.headers := put s.trs.headers header (.record (headerOf o refs.length))
      trs.records := s.trs.records ++ [record]
      rbu.made := bump s.rbu.made
      rbu.closeOp := none }
  (s.cleanEntry .header header).setLinks tr.number .present

/-- RECORD_APPEND (R111): the end of a close operation whose header request is served. -/
def execRecordAppend (now : Nat) (s : State) : Host.Outcome State Fault Refusal :=
  whenUp s <| s.rbu.closeOp.bind fun o =>
    let s1 := (s.advance now).finishPieces o
    s1.rbu.closeOp.bind fun o =>
      match o.header, o.vehicles with
      | some k, some refs => some (s1.makeRecord o k refs)
      | _, _ => none

/-- The STORE_LOSS alarm of a discarded train (R112, R146). -/
def discardAlarm (tr : Train) (axleCount : Nat) : Judgement :=
  ⟨⟨some tr.track, some tr.number, none, none, .storeLoss⟩, .alert, axleCount, 0, .discardedFull⟩

/-- A train whose header request failed is discarded, in the order of R112. -/
def State.discardTrain (s : State) (o : CloseOp) : State :=
  let tr : Train := o.closing.train
  let s := { s with trs.axles := freeAll s.trs.axles (tr.stack.map StackItem.entry) }
  let s := s.enterAlarm (discardAlarm tr (trainTotals o).axleCount)
  let s := s.setLinks tr.number .none
  { s with rbu.discardedFull := bump s.rbu.discardedFull, rbu.closeOp := none }

/-- DISCARDED_FULL (R112): the end of a close operation whose header request fails. -/
def execDiscardedFull (now : Nat) (s : State) : Host.Outcome State Fault Refusal :=
  whenUp s <| s.rbu.closeOp.bind fun o =>
    let s1 := (s.advance now).finishPieces o
    s1.rbu.closeOp.bind fun o =>
      match o.header, s1.requestHeader with
      | none, (s2, none) => some (s2.discardTrain o)
      | _, _ => none

end Sys2Proof.Machine
end

