-- ==== Sys2Proof/WellFormed.lean ====
section
/-! DEFINITION. Which commands are well formed: stamps fit the 48-bit count, sample writes carry 20 samples, a request
period begins with the start code and a read period does not. -/

namespace Sys2Proof

/-- The start code of a link frame (R180, R190). -/
def startCode : Byte := 0xA5

/-- A stamp fits the 48-bit site microsecond count (R29). -/
def stampFits (now : Nat) : Bool := now < 2 ^ 48

/-- A sample write carries one sample for each of the 20 rows (R30). -/
def samplesFit (samples : List Sample) : Bool := samples.length == 20

/-- The well-formedness check of a command. -/
def Instr.wellFormed : Instr → Bool
  | .headOn _ _ now => stampFits now
  | .headOff _ _ now => stampFits now
  | .approachPulse _ now => stampFits now
  | .occupancyClear _ now => stampFits now
  | .occupancyOccupied _ now => stampFits now
  | .tSettleExpiry _ => true
  | .tEndExpiry _ => true
  | .tStandExpiry _ => true
  | .tAbandonExpiry _ => true
  | .tDormantExpiry _ => true
  | .tRetareExpiry _ => true
  | .stuckTimerExpiry _ _ => true
  | .faultRecoveryExpiry _ => true
  | .sampleWrite samples => samplesFit samples
  | .refreshComplete _ samples => samplesFit samples
  | .jobTake => true
  | .liveJobComplete now => stampFits now
  | .serviceJobComplete now => stampFits now
  | .snapshotCopyEnd now => stampFits now
  | .closeTake => true
  | .recordAppend now => stampFits now
  | .discardedFull now => stampFits now
  | .takeRises now => stampFits now
  | .takeFalls now => stampFits now
  | .supplyFailActive now => stampFits now
  | .supplyFailInactive now => stampFits now
  | .holdupLowActive now => stampFits now
  | .holdupLowInactive now => stampFits now
  | .failTimerExpiry => true
  | .recoveryTimerExpiry => true
  | .freezeComplete => true
  | .leaveTimerExpiry => true
  | .start => true
  | .startCheckEnd _ samples => samplesFit samples
  | .requestPeriod _ bytes => bytes.head? == some startCode
  | .answerFetch _ => true
  | .status _ now => stampFits now
  | .recordList _ now => stampFits now
  | .headerRead _ now => stampFits now
  | .axleRead _ now => stampFits now
  | .vehicleRead _ now => stampFits now
  | .releaseRecord _ now => stampFits now
  | .setSiteTime _ now => stampFits now
  | .alarmRead _ now => stampFits now
  | .clearAlarmNumber _ now => stampFits now
  | .clearAlarmTrack _ now => stampFits now
  | .clearUnlisted _ now => stampFits now
  | .liveAxleRead _ now => stampFits now
  | .setWindow _ now => stampFits now
  | .windowRead _ now => stampFits now
  | .windowWrite _ now => stampFits now
  | .setWatch _ now => stampFits now
  | .watchRead _ now => stampFits now
  | .releaseWatch _ now => stampFits now
  | .evaluateSnapshot _ now => stampFits now
  | .settingsRead _ now => stampFits now
  | .settingsWrite _ now => stampFits now
  | .setPermissions _ now => stampFits now
  | .forceClose _ now => stampFits now
  | .purgeRecord _ now => stampFits now
  | .clearErrorCapture _ now => stampFits now
  | .restart _ now => stampFits now
  | .readPeriodEnd _ bytes => bytes.head? != some startCode

end Sys2Proof
end

