-- ==== Sys2Proof/Machine/Operands.lean ====
section
/-! DEFINITION. What is carried on the ports: the check of a link frame (R181), the operands of the requests (catalogue 9.5,
codings of R190), and the bytes of answers (R184, R187, R190 to R193, R197). -/

namespace Sys2Proof.Machine

/-! ### Numbers -/

/-- The number some bytes spell, most significant byte first (R190). -/
def natOf (l : List Byte) : Nat := l.foldl (fun n b => 256 * n + b.toNat) 0

/-- The `width` low bytes of a number, most significant byte first (R190). -/
def bigEndian (width n : Nat) : List Byte := (List.range width).reverse.map fun i => BitVec.ofNat 8 (n / 256 ^ i)

/-- A number in a field of `width` bytes; what a field shows for a number too wide for it is open (log 14). -/
def number (width n : Nat) : List Byte := if n < 256 ^ width then bigEndian width n else Config.wideField width n

/-- One bit of a byte of flags. -/
def flagBit (bit : Nat) (b : Bool) : Nat := if b then 2 ^ bit else 0

/-! ### The check of a frame (R181) -/

/-- One bit of the CRC-16 with polynomial x^16 + x^12 + x^5 + 1. -/
def crcBit (c : BitVec 16) : BitVec 16 := if c.msb then (c <<< 1) ^^^ 0x1021#16 else c <<< 1

/-- One byte of the CRC-16, its most significant bit first. -/
def crcByte (c : BitVec 16) (b : Byte) : BitVec 16 :=
  (List.range 8).foldl (fun c _ => crcBit c) (c ^^^ (b.setWidth 16 <<< 8))

/-- The CRC-16 of some bytes, from the initial value FFFFh. -/
def crc16 (l : List Byte) : BitVec 16 := l.foldl crcByte 0xFFFF#16

/-! ### Requests -/

/-- Whether the catalogue allows a body length for a request code (9.5). -/
def lengthAllowed (row n : Nat) : Bool :=
  match row with
  | 1 | 2 | 11 | 13 | 22 => n == 2
  | 3 | 6 | 8 | 23 => n == 3
  | 4 | 7 => n == 5
  | 5 | 9 | 19 => n == 4
  | 10 | 16 | 17 | 24 | 25 => n == 1
  | 12 => n == 8
  | 14 => n % 2 == 1 && n ≤ 249
  | 15 => n == 9
  | 18 => n == 22
  | 20 => n % 6 == 1 && 7 ≤ n && n ≤ 247
  | 21 => n == 26
  | _ => false

/-- The number in a field of a request, given the field's place after the tag. -/
def fieldAt (l : List Byte) (offset width : Nat) : Nat := natOf ((l.drop offset).take width)

/-- The samples of a Window Write, 2 bytes each. -/
def samplesOf : List Byte → List Sample
  | a :: b :: l => BitVec.ofNat 16 (natOf [a, b]) :: samplesOf l
  | _ => []

/-- The pairs of a Settings Write: item number (2) and value (4). -/
def pairsOf : List Byte → List (Nat × Nat)
  | a :: b :: c :: d :: e :: f :: l => (natOf [a, b], natOf [c, d, e, f]) :: pairsOf l
  | _ => []

/-- The request of a code with the fields that follow the tag (9.5). -/
def requestOf (row : Nat) (l : List Byte) : Option Request :=
  let f := fieldAt l
  match row with
  | 1 => some (.status (f 0 1))
  | 2 => some (.recordList (f 0 1))
  | 3 => some (.headerRead (f 0 2))
  | 4 => some (.axleRead (f 0 2) (f 2 2))
  | 5 => some (.vehicleRead (f 0 2) (f 2 1))
  | 6 => some (.releaseRecord (f 0 2))
  | 7 => some (.setSiteTime (f 0 4))
  | 8 => some (.alarmRead (f 0 1) (f 1 1))
  | 9 => some (.clearAlarm (f 0 1) (f 1 2))
  | 10 => some .clearUnlisted
  | 11 => some (.liveAxleRead (f 0 1))
  | 12 => some (.setWindow (f 0 1) (f 1 1) (f 2 2) (f 4 2) (f 6 1))
  | 13 => some (.windowRead (f 0 1))
  | 14 => some (.windowWrite (samplesOf l))
  | 15 => some (.setWatch (f 0 1) (f 1 1) (f 2 1) (f 3 1) (f 4 2) (f 6 1) (f 7 1))
  | 16 => some .watchRead
  | 17 => some .releaseWatch
  | 18 => some (.evaluateSnapshot (f 0 1) (f 1 2) (f 3 2) (f 5 6) (f 11 1) (f 12 3) (f 15 6))
  | 19 => some (.settingsRead (f 0 2) (f 2 1))
  | 20 => some (.settingsWrite (pairsOf l))
  | 21 => some (.setPermissions (l.map (·.toNat)))
  | 22 => some (.forceClose (f 0 1))
  | 23 => some (.purgeRecord (f 0 2))
  | 24 => some .clearErrorCapture
  | 25 => some .restart
  | _ => none

/-- A good frame: its tag and its request (R181). -/
structure GoodFrame where
  tag : Nat
  req : Request
deriving DecidableEq, Repr

/-- Judge the bytes of a request period: a good frame, or none (R181). Bytes after the frame are ignored. -/
def goodFrame : List Byte → Option GoodFrame
  | start :: kind :: length :: rest =>
    let n := length.toNat
    let body := rest.take n
    let check := (rest.drop n).take 2
    if start = startCode ∧ check.length = 2 ∧ lengthAllowed kind.toNat n = true
        ∧ natOf check = (crc16 (kind :: length :: body)).toNat then
      match body with
      | tag :: fields => (requestOf kind.toNat fields).map fun r => ⟨tag.toNat, r⟩
      | [] => none
    else none
  | _ => none

/-! ### The frame a master sends (9.5, R190) -/

/-- The bytes of a request's fields after the tag (9.5). -/
def requestFields : Request → List Byte
  | .status n => bigEndian 1 n
  | .recordList n => bigEndian 1 n
  | .headerRead n => bigEndian 2 n
  | .axleRead n i => bigEndian 2 n ++ bigEndian 2 i
  | .vehicleRead n i => bigEndian 2 n ++ bigEndian 1 i
  | .releaseRecord n => bigEndian 2 n
  | .setSiteTime n => bigEndian 4 n
  | .alarmRead n i => bigEndian 1 n ++ bigEndian 1 i
  | .clearAlarm n i => bigEndian 1 n ++ bigEndian 2 i
  | .clearUnlisted => []
  | .liveAxleRead n => bigEndian 1 n
  | .setWindow a b c d e => bigEndian 1 a ++ bigEndian 1 b ++ bigEndian 2 c ++ bigEndian 2 d ++ bigEndian 1 e
  | .windowRead n => bigEndian 1 n
  | .windowWrite l => l.flatMap fun v => bigEndian 2 v.toNat
  | .setWatch a b c d e f g =>
    bigEndian 1 a ++ bigEndian 1 b ++ bigEndian 1 c ++ bigEndian 1 d ++ bigEndian 2 e ++ bigEndian 1 f ++ bigEndian 1 g
  | .watchRead => []
  | .releaseWatch => []
  | .evaluateSnapshot a b c d e f g =>
    bigEndian 1 a ++ bigEndian 2 b ++ bigEndian 2 c ++ bigEndian 6 d ++ bigEndian 1 e ++ bigEndian 3 f ++ bigEndian 6 g
  | .settingsRead n i => bigEndian 2 n ++ bigEndian 1 i
  | .settingsWrite l => l.flatMap fun e => bigEndian 2 e.1 ++ bigEndian 4 e.2
  | .setPermissions l => l.flatMap (bigEndian 1)
  | .forceClose n => bigEndian 1 n
  | .purgeRecord n => bigEndian 2 n
  | .clearErrorCapture => []
  | .restart => []

/-- The frame of a request: start code, kind, length, tag, fields, check (R190). -/
def requestFrame (tag : Nat) (r : Request) : List Byte :=
  let body := bigEndian 1 tag ++ requestFields r
  let checked := bigEndian 1 r.row ++ bigEndian 1 body.length ++ body
  startCode :: (checked ++ bigEndian 2 (crc16 checked).toNat)

/-- Whether the fields of a request fit the sizes the catalogue gives them (9.5). -/
def Request.fits : Request → Prop
  | .status n => n < 256
  | .recordList n => n < 256
  | .headerRead n => n < 65536
  | .axleRead n i => n < 65536 ∧ i < 65536
  | .vehicleRead n i => n < 65536 ∧ i < 256
  | .releaseRecord n => n < 65536
  | .setSiteTime n => n < 4294967296
  | .alarmRead n i => n < 256 ∧ i < 256
  | .clearAlarm n i => n < 256 ∧ i < 65536
  | .clearUnlisted => True
  | .liveAxleRead n => n < 256
  | .setWindow a b c d e => a < 256 ∧ b < 256 ∧ c < 65536 ∧ d < 65536 ∧ e < 256
  | .windowRead n => n < 256
  | .windowWrite l => l.length ≤ 124
  | .setWatch a b c d e f g => a < 256 ∧ b < 256 ∧ c < 256 ∧ d < 256 ∧ e < 65536 ∧ f < 256 ∧ g < 256
  | .watchRead => True
  | .releaseWatch => True
  | .evaluateSnapshot a b c d e f g =>
    a < 256 ∧ b < 65536 ∧ c < 65536 ∧ d < 281474976710656 ∧ e < 256 ∧ f < 16777216 ∧ g < 281474976710656
  | .settingsRead n i => n < 65536 ∧ i < 256
  | .settingsWrite l => 1 ≤ l.length ∧ l.length ≤ 41 ∧ ∀ e ∈ l, e.1 < 65536 ∧ e.2 < 4294967296
  | .setPermissions l => l.length = 25 ∧ ∀ e ∈ l, e < 256
  | .forceClose n => n < 256
  | .purgeRecord n => n < 65536
  | .clearErrorCapture => True
  | .restart => True

/-! ### Codings (R190, R193) -/

/-- Value classes, 0 to 8. -/
def classCode : ValueClass → Nat
  | .pending => 0
  | .valid => 1
  | .over => 2
  | .suspect => 3
  | .lowSpeed => 4
  | .stale => 5
  | .notMeasured => 6
  | .absent => 7
  | .damaged => 8

/-- Close reasons, 0 to 4. -/
def reasonCode : CloseReason → Nat
  | .normal => 0
  | .abandoned => 1
  | .detectorFault => 2
  | .forced => 3
  | .power => 4

/-- UP 0, DOWN 1, in the order R49 lists them (log 17). -/
def directionCode : Direction → Nat
  | .up => 0
  | .down => 1

/-- Reasons of alarm entries in the order of R147 (log 17). -/
def alarmReasonCode : AlarmReason → Nat
  | .level => 0
  | .stuckHead => 1
  | .evicted => 2
  | .discardedFull => 3
  | .damaged => 4
  | .freeze => 5
  | .uncleanStart => 6

/-- RAISED 0, SEEN 1, CLEARED 2 (R147, log 17). -/
def alarmStateCode : AlarmState → Nat
  | .raised => 0
  | .seen => 1
  | .cleared => 2

/-- PRESENT 0, GONE 1, NONE 2 (R147, log 17). -/
def linkCode : RecordLink → Nat
  | .present => 0
  | .gone => 1
  | .none => 2

/-- An absent track, side or rail is coded 0. -/
def twoOrNone : Option Two → Nat
  | some t => twoCode t
  | none => 0

/-- Statuses: 80h for DONE up to 8Dh for RESTARTED, in the order of the table of R188. -/
def statusCode : Status → Nat
  | .done => 0x80
  | .pending => 0x81
  | .denied => 0x82
  | .mode => 0x83
  | .busy => 0x84
  | .busyPort => 0x85
  | .busyTrain => 0x86
  | .gone => 0x87
  | .notHeld => 0x88
  | .notSeen => 0x89
  | .full => 0x8A
  | .badValue => 0x8B
  | .linkError => 0x8C
  | .restarted => 0x8D

/-! ### Layouts -/

/-- A time: seconds (4), milliseconds (2) (R190). -/
def timeBytes (t : Stamp) : List Byte := number 4 t.seconds ++ number 2 t.millis

/-- Holder set: bit 0 REPORT, bit 1 ALARM (R191). -/
def holderBits (h : Holders) : Nat := flagBit 0 h.report + flagBit 1 h.alarm

/-- Record flags (R191). -/
def recordFlagBits (f : RecordFlags) : Nat :=
  flagBit 0 f.power + flagBit 1 f.overlength + flagBit 2 f.poolShort + flagBit 3 f.vehiclesTruncated
    + flagBit 4 f.damaged + flagBit 5 f.untared + flagBit 6 f.timeUnset

/-- The axle count of a header, held at 4,294,967,295 (R191). -/
def heldCount (n : Nat) : Nat := min n 4294967295

/-- A record header: 48 bytes (R191). -/
def headerBytes (h : Header) (holders : Holders) (position : Nat) : List Byte :=
  number 2 h.number ++ number 1 (twoOrNone h.track) ++ number 1 (directionCode h.dir) ++ timeBytes h.openTime
    ++ timeBytes h.closeTime ++ number 1 (reasonCode h.reason) ++ number 4 (heldCount h.axleCount)
    ++ number 4 h.phantoms ++ number 2 h.depth ++ number 2 h.unwinds ++ number 2 h.withdrawals ++ number 2 h.minSpeed
    ++ number 2 h.maxSpeed ++ number 2 h.meanSpeed ++ number 1 h.vehicleCount ++ number 4 h.gross
    ++ number 2 h.coverage ++ number 1 (sevRank h.worst) ++ number 1 (recordFlagBits h.flags)
    ++ number 1 (holderBits holders) ++ number 1 position

/-- A Record List summary: 13 bytes (R191). -/
def summaryBytes (r : RecordSummary) : List Byte :=
  number 1 r.position ++ number 2 r.number ++ number 1 (twoCode r.track) ++ number 1 (directionCode r.dir)
    ++ number 1 (reasonCode r.reason) ++ number 4 (heldCount r.axleCount) ++ number 1 (sevRank r.worst)
    ++ number 1 (holderBits r.holders) ++ number 1 (flagBit 4 r.damaged)

/-- The fields of one rail of an axle entry: 10 bytes (R192). -/
def railBytes (r : RailResult) : List Byte :=
  number 2 r.static ++ number 2 r.peak ++ number 2 r.impact ++ number 2 r.ratio ++ number 1 (classCode r.loadClass)
    ++ number 1 (classCode r.ratioClass)

/-- The fields of one side of an axle entry: 3 bytes (R192). -/
def sideBytes (r : SideResult) : List Byte := number 2 r.rise ++ number 1 (classCode r.cls)

/-- An axle entry: 42 bytes (R192). -/
def axleBytes (a : AxleEntry) : List Byte :=
  number 2 a.index ++ number 4 a.tOffset ++ number 3 a.dt ++ number 2 a.speed ++ number 1 (classCode a.speedClass)
    ++ number 2 a.spacing ++ railBytes a.rails.one ++ railBytes a.rails.two ++ sideBytes a.sides.one
    ++ sideBytes a.sides.two ++ number 1 (16 * sevRank a.wheelMark + sevRank a.bearingMark)
    ++ number 1 (flagBit 0 a.watched)

/-- A vehicle entry: 21 bytes (R192). -/
def vehicleBytes (v : VehicleEntry) : List Byte :=
  number 1 v.index ++ number 2 v.first ++ number 2 v.count ++ number 4 v.sum1 ++ number 4 v.sum2 ++ number 4 v.gross
    ++ number 2 v.imbalance ++ number 1 (sevRank v.worst) ++ number 1 (flagBit 0 v.incomplete + flagBit 1 v.damaged)

/-- The 15 bytes that begin a Live Axle Read payload (R192). -/
def liveBytes (v : LiveView) : List Byte :=
  number 2 v.number ++ number 1 (directionCode v.dir) ++ number 2 v.depth ++ number 4 v.phantoms ++ number 2 v.unwinds
    ++ number 2 v.withdrawals ++ number 1 (flagBit 0 v.poolShort + flagBit 1 v.overlength + flagBit 2 v.power)
    ++ number 1 v.entries.length

/-- An alarm entry: 32 bytes (R193). -/
def alarmBytes (a : AlarmEntry) : List Byte :=
  number 2 a.number ++ number 1 (twoOrNone a.key.track) ++ number 2 (a.key.train.getD 0)
    ++ number 2 (a.key.axle.getD 0) ++ number 1 (twoOrNone a.key.side) ++ number 1 (kindCode a.key.kind)
    ++ number 1 (sevRank a.severity) ++ number 4 a.value ++ number 2 a.level ++ number 1 (alarmReasonCode a.reason)
    ++ timeBytes a.first ++ timeBytes a.last ++ number 1 (alarmStateCode a.state)
    ++ number 1 (flagBit 0 a.delivered + flagBit 1 (a.first.unset || a.last.unset)) ++ number 1 (linkCode a.link)

/-- An item number (2) and its value (4), coordinates in two's complement (R196, R197). -/
def itemBytes (e : Nat × Int) : List Byte := number 2 e.1 ++ number 4 (BitVec.ofInt 32 e.2).toNat

/-- The bytes of a Watch Read answer: where its axle entry stands among the other fields is open, its 42 bytes are not (R178,
R192; log 13). -/
def watchBytes (v : WatchView) : List Byte :=
  match v.slot with
  | some c => Config.openWatchHead v ++ axleBytes c.entry ++ Config.openWatchTail v
  | none => Config.openPayload (.watch v)

/-- The payload bytes of an answer (R187, R191 to R193, R197, R199); those of a payload whose layout the spec does not give
are open (log 13). -/
def payloadBytes (p : Payload) : List Byte :=
  match p with
  | .none => []
  | .recordList count rows => number 1 count ++ number 1 rows.length ++ rows.flatMap summaryBytes
  | .header h holders position => headerBytes h holders position
  | .axles depth phantoms entries =>
    number 2 depth ++ number 4 phantoms ++ number 1 entries.length ++ entries.flatMap axleBytes
  | .vehicles count entries => number 1 count ++ number 1 entries.length ++ entries.flatMap vehicleBytes
  | .live v => liveBytes v ++ v.entries.flatMap axleBytes
  | .alarms listed raised selected entries =>
    number 1 listed ++ number 1 raised ++ number 1 selected ++ entries.flatMap alarmBytes
  | .settings items => number 1 items.length ++ items.flatMap itemBytes
  | .permissions entries => entries.flatMap (number 1)
  | .watch v => watchBytes v
  | .status _ | .holders _ | .cleared _ _ | .unlisted _ | .noTrain | .windowRead _ | .windowWrite _ _ | .released _ _ _ | .evaluation _ | .forceClose _ | .errorCapture _ => Config.openPayload p

/-! ### Parts and frames -/

/-- The part count of a payload: an empty one has one part (R184). -/
def partCount (l : List Byte) : Nat := max 1 ((l.length + (Config.partSize - 1)) / Config.partSize)

/-- The bytes of a part, parts counted from 1 (R184). -/
def partBytes (l : List Byte) (k : Nat) : List Byte := (l.drop (Config.partSize * (k - 1))).take Config.partSize

/-- The bytes of an answer frame before its check: kind, length, part header, payload (R190). -/
def frameBody (f : Frame) : List Byte :=
  number 1 (statusCode f.status) ++ number 1 (4 + f.payload.length) ++ number 1 f.tag ++ number 1 f.row
    ++ number 1 f.part ++ number 1 f.parts ++ f.payload

/-- The bytes of an answer frame on data out (R190). -/
def frameBytes (f : Frame) : List Byte := startCode :: (frameBody f ++ bigEndian 2 (crc16 (frameBody f)).toNat)

/-- The bytes data out carries while `n` bytes are clocked: the answer frame, then fill bytes 00h until select is negated
(R180). -/
def dataOut (f : Frame) (n : Nat) : List Byte := (frameBytes f ++ List.replicate n 0).take n

/-- How many bytes an answer frame takes: start, kind, length, part header, payload, check (R190). -/
def frameLength (f : Frame) : Nat := 9 + f.payload.length

end Sys2Proof.Machine
end

