-- ==== Sys2Proof/Machine/Ports.lean ====
section
/-! DEFINITION. The receivers and work slots of the ports: ANSWER_FETCH (R183), REQUEST_PERIOD (R180 to R182) and
READ_PERIOD_END (R183, R184). -/

namespace Sys2Proof.Machine

/-- An answer frame without payload, part 1 of 1. -/
def shortFrame (status : Status) (tag row : Nat) : Frame := ⟨status, tag, row, 1, 1, []⟩

/-- The frame of one part of an answer (R184). -/
def partFrame (tag row : Nat) (status : Status) (payload : Payload) (part : Nat) : Frame :=
  let bytes := payloadBytes payload
  ⟨status, tag, row, part, partCount bytes, partBytes bytes part⟩

/-- The frame carried in a select period, by the state of the port when select is asserted: the five cases of R183. -/
def chooseFrame (checking : Bool) (u : PortState) : Period :=
  if checking then ⟨shortFrame .busy 0 0, .busy⟩
  else
    match u.note, u.slot with
    | some f, _ => ⟨f, .note⟩
    | none, .pending tag req _ => ⟨shortFrame .pending tag req.row, .pending⟩
    | none, .answered tag row status payload part => ⟨partFrame tag row status payload part, .part part⟩
    | none, .empty => ⟨shortFrame .done 0 0, .empty⟩

/-- The next part of an answer, and part 1 after the last (R184). -/
def nextPart (payload : Payload) (part : Nat) : Nat := if partCount (payloadBytes payload) ≤ part then 1 else part + 1

/-- What a frame shifted out whole does: a note is dropped (R183), the part pointer moves on (R184). -/
def shiftedOut (source : FrameSource) (u : PortState) : PortState :=
  match source, u.slot with
  | .note, _ => { u with note := none }
  | .part k, .answered tag row status payload part =>
    if part = k then { u with slot := .answered tag row status payload (nextPart payload part) } else u
  | _, _ => u

/-- A select period ends after some bytes were clocked: the frame chosen for it was shifted out whole if all its bytes were
(R180), and data out carried it and fill bytes after it. With no period recorded, the frame is the one the port would choose
now (log 19). -/
def endPeriod (checking : Bool) (clocked : Nat) (u : PortState) : PortState :=
  let period := u.period.getD (chooseFrame checking u)
  let u := { u with period := none, sent := dataOut period.frame clocked }
  if frameLength period.frame ≤ clocked then shiftedOut period.source u else u

/-- A frame that is not good: the LINK_ERROR note and the link-error count (R181). -/
def linkError (u : PortState) : PortState :=
  { u with note := some (shortFrame .linkError 0 0), linkErrors := bump u.linkErrors }

/-- A good frame is taken, or answered BUSY_PORT while a request is PENDING (R182). -/
def takeFrame (g : GoodFrame) (u : PortState) : PortState :=
  match u.slot with
  | .pending _ _ _ => { u with note := some (shortFrame .busyPort g.tag g.req.row) }
  | .empty => { u with slot := .pending g.tag g.req false, note := none }
  | .answered _ _ _ _ _ => { u with slot := .pending g.tag g.req false, note := none }

/-- The bytes received in a select period, judged at its end (R180, R181): only a period that begins with the start code
carries a frame. -/
def judgeFrame (bytes : List Byte) (u : PortState) : PortState :=
  if bytes.head? = some startCode then
    match goodFrame bytes with
    | some g => takeFrame g u
    | none => linkError u
  else u

/-- The end of a select period on a port; during the START check a frame is discarded (R194). -/
def State.endSelect (s : State) (p : Port) (bytes : List Byte) : State :=
  s.onPort p fun u =>
    let u := endPeriod s.startCheck bytes.length u
    if s.startCheck then u else judgeFrame bytes u

/-- ANSWER_FETCH (R183): select is asserted and the frame of the period is chosen. -/
def execAnswerFetch (p : Port) (s : State) : Host.Outcome State Fault Refusal :=
  .next (s.onPort p fun u => { u with period := some (chooseFrame s.startCheck u) })

/-- REQUEST_PERIOD (R181, R182): select is negated after a request period. -/
def execRequestPeriod (p : Port) (bytes : List Byte) (s : State) : Host.Outcome State Fault Refusal :=
  .next (s.endSelect p bytes)

/-- READ_PERIOD_END (R183, R184): select is negated after a read period; its bytes are ignored. -/
def execReadPeriodEnd (p : Port) (bytes : List Byte) (s : State) : Host.Outcome State Fault Refusal :=
  .next (s.onPort p (endPeriod s.startCheck bytes.length))

end Sys2Proof.Machine
end

