-- ==== Sys2Proof/Machine/Requests.lean ====
section
/-! DEFINITION. The work event of a request (R185 to R187) and the requests of the Train Record Store, the Alarm Unit, the
Train Assembler and site time. -/

namespace Sys2Proof.Machine

/-! ### The work event (R185) -/

/-- The request of a port whose work event has not fallen. -/
def waiting (s : State) (p : Port) : Option Request :=
  match (s.ptu.get p).slot with
  | .pending _ req false => some req
  | _ => none

/-- The bit of a port in a permission entry: bit 0 RP, bit 1 AP, bit 2 SP (R187). -/
def portBit : Port → Nat
  | .rp => 0
  | .ap => 1
  | .sp => 2

/-- Whether a port is in the entry of a request row (R185). -/
def permitted (s : State) (p : Port) (row : Nat) : Bool := (s.settingNat (itemPermission row)).testBit (portBit p)

/-- Whether a request is available in a device mode (R186). -/
def available (m : DeviceMode) (r : Request) : Bool :=
  match r with
  | .setSiteTime _ | .settingsWrite _ | .setPermissions _ | .forceClose _ | .purgeRecord _ | .restart => m != .frozen
  | .windowRead _ | .windowWrite _ | .evaluateSnapshot _ _ _ _ _ _ _ => m == .run
  | .setWatch _ _ _ _ _ _ snapshot => m == .run || snapshot != 0
  | _ => true

/-- The checks of the Port Unit, then the work of the request (R185). -/
def State.serve (s : State) (p : Port) (r : Request) (work : State → State) : State :=
  let s := s.checkSetting (itemPermission r.row)
  if permitted s p r.row = false then
    (s.onPort p fun u => { u with denials := bump u.denials }).answer p .denied .none
  else if available s.sup.mode r = false then s.answer p .mode .none
  else work s

/-- A work event on a port (R185): the request waiting there is served at this count if it is of the kind that `work` serves
(log 18). -/
def workEvent (p : Port) (now : Nat) (s : State) (work : Request → Option (State → State)) :
    Host.Outcome State Fault Refusal :=
  whenUp s <| (waiting s p).bind fun r => (work r).map fun f => (s.advance now).serve p r f

/-! ### Records (R121, R126 to R129) -/

/-- The record of a train number in the store. -/
def findRecord (s : State) (n : Nat) : Option RecordDir := s.trs.records.find? fun r => r.number == n

/-- The position of a record in the record order list, counted from 1 (R118). -/
def positionOf (s : State) (n : Nat) : Nat := (s.trs.records.takeWhile fun r => r.number != n).length + 1

/-- The header fields a Record List summary shows. -/
def summaryFields : List WordField := [.direction, .closeReason, .headerAxleCount, .worstSeverity, .flags]

/-- The summary of a record at a position (R127). -/
def summaryOf (s : State) (position : Nat) (r : RecordDir) : RecordSummary :=
  let h := s.header r.header
  ⟨position, r.number, r.track, h.dir, h.reason, h.axleCount, h.worst, r.holders, h.flags.damaged⟩

/-- The work of Record List (R127). -/
def State.recordList (s : State) (p : Port) (first : Nat) : State :=
  if first < 1 ∨ 32 < first then s.answer p .badValue .none
  else
    let shown := (s.trs.records.drop (first - 1)).take 16
    let s := shown.foldl (fun s r => s.checkHeader r.header summaryFields) s
    s.answer p .done
      (.recordList s.trs.records.length ((shown.zipIdx first).map fun r => summaryOf s r.2 r.1))

/-- RECORD_LIST (R127). -/
def execRecordList (p : Port) (now : Nat) (s : State) : Host.Outcome State Fault Refusal :=
  workEvent p now s fun
    | .recordList first => some (·.recordList p first)
    | _ => none

/-- The work of Header Read (R128). -/
def State.headerRead (s : State) (p : Port) (n : Nat) : State :=
  match findRecord s n with
  | some r =>
    let s := s.checkHeader r.header []
    s.answer p .done (.header (s.header r.header) r.holders (positionOf s n))
  | none => s.answer p .gone .none

/-- HEADER_READ (R128). -/
def execHeaderRead (p : Port) (now : Nat) (s : State) : Host.Outcome State Fault Refusal :=
  workEvent p now s fun
    | .headerRead n => some (·.headerRead p n)
    | _ => none

/-- The work of Axle Read (R129). -/
def State.axleRead (s : State) (p : Port) (n first : Nat) : State :=
  if first < 1 ∨ 512 < first then s.answer p .badValue .none
  else
    match findRecord s n with
    | some r =>
      let shown := (r.axles.drop (first - 1)).take 16
      let s := s.checkHeader r.header [.stackDepth, .phantomCount]
      let s := shown.foldl (fun s k => s.checkAxle k []) s
      let h := s.header r.header
      s.answer p .done (.axles h.depth h.phantoms (shown.map s.axle))
    | none => s.answer p .gone .none

/-- AXLE_READ (R129). -/
def execAxleRead (p : Port) (now : Nat) (s : State) : Host.Outcome State Fault Refusal :=
  workEvent p now s fun
    | .axleRead n first => some (·.axleRead p n first)
    | _ => none

/-- The vehicle entries at some pool indices. -/
def vehiclesAt (s : State) (l : List Nat) : List VehicleEntry := l.filterMap fun k => look s.trs.vehicles k

/-- The work of Vehicle Read (R129). -/
def State.vehicleRead (s : State) (p : Port) (n first : Nat) : State :=
  if first < 1 ∨ 160 < first then s.answer p .badValue .none
  else
    match findRecord s n with
    | some r =>
      let shown := (r.vehicles.drop (first - 1)).take 16
      let s := s.checkHeader r.header [.vehicleCount]
      let s := shown.foldl (fun s k => s.checkVehicle k) s
      s.answer p .done (.vehicles (s.header r.header).vehicleCount (vehiclesAt s shown))
    | none => s.answer p .gone .none

/-- VEHICLE_READ (R129). -/
def execVehicleRead (p : Port) (now : Nat) (s : State) : Host.Outcome State Fault Refusal :=
  workEvent p now s fun
    | .vehicleRead n first => some (·.vehicleRead p n first)
    | _ => none

/-- Whether a port's holder is in a holder set: the Report Port holds REPORT, the Alarm Port ALARM, the Service Port
nothing (R121). -/
def holds (p : Port) (h : Holders) : Bool :=
  match p with
  | .rp => h.report
  | .ap => h.alarm
  | .sp => false

/-- The holder set without a port's holder. -/
def releaseHolder (p : Port) (h : Holders) : Holders :=
  match p with
  | .rp => { h with report := false }
  | .ap => { h with alarm := false }
  | .sp => h

/-- The work of Release Record (R121). -/
def State.releaseRecord (s : State) (p : Port) (n : Nat) : State :=
  if n < 1 ∨ 65535 < n then s.answer p .badValue .none
  else
    match findRecord s n with
    | some r =>
      if holds p r.holders then
        let left := releaseHolder p r.holders
        State.answer
          { s with trs.records := s.trs.records.map fun x => if x.number = n then { x with holders := left } else x }
          p .done (.holders left)
      else s.answer p .notHeld .none
    | none => s.answer p .gone .none

/-- RELEASE_RECORD (R121). -/
def execReleaseRecord (p : Port) (now : Nat) (s : State) : Host.Outcome State Fault Refusal :=
  workEvent p now s fun
    | .releaseRecord n => some (·.releaseRecord p n)
    | _ => none

/-- The work of Purge Record (R126). -/
def State.purgeRecord (s : State) (p : Port) (n : Nat) : State :=
  if n < 1 ∨ 65535 < n then s.answer p .badValue .none
  else
    match findRecord s n with
    | some r =>
      let s := s.removeRecord r
      State.answer { s with trs.purges := bump s.trs.purges } p .done (.holders r.holders)
    | none => s.answer p .gone .none

/-- PURGE_RECORD (R126). -/
def execPurgeRecord (p : Port) (now : Nat) (s : State) : Host.Outcome State Fault Refusal :=
  workEvent p now s fun
    | .purgeRecord n => some (·.purgeRecord p n)
    | _ => none

/-- CLEAR_ERROR_CAPTURE (R136): the answer carries the capture as it stood. -/
def execClearErrorCapture (p : Port) (now : Nat) (s : State) : Host.Outcome State Fault Refusal :=
  workEvent p now s fun
    | .clearErrorCapture => some fun s =>
      State.answer { s with trs.capture := none } p .done (.errorCapture s.trs.capture)
    | _ => none

/-! ### Site time (R32) -/

/-- SET_SITE_TIME (R32). -/
def execSetSiteTime (p : Port) (now : Nat) (s : State) : Host.Outcome State Fault Refusal :=
  workEvent p now s fun
    | .setSiteTime secs => some fun s =>
      State.answer { s with cac.siteTime := some (secs, s.cac.count) } p .done .none
    | _ => none

/-! ### Alarms (R156, R157, R162, R163) -/

/-- Put an entry into a list in read order, before every entry that does not outrank it (R156). -/
def insertRead (a : AlarmEntry) : List AlarmEntry → List AlarmEntry
  | [] => [a]
  | b :: l => if alarmScore b ≤ alarmScore a then a :: b :: l else b :: insertRead a l

/-- Read order: severity, then state, then newest first (R156). The list is oldest first. -/
def readOrder (l : List AlarmEntry) : List AlarmEntry := l.reverse.foldr insertRead []

/-- The selected entries in read order: ALL 0, RAISED 1 (R156, log 17). -/
def selectedAlarms (s : State) (selection : Nat) : List AlarmEntry :=
  readOrder (s.alm.list.filter fun a => selection == 0 || a.state == .raised)

/-- How many entries of a list are RAISED. -/
def raisedCount (l : List AlarmEntry) : Nat := (l.filter fun a => a.state == .raised).length

/-- Set the delivered mark of the entries returned (R157). -/
def State.markDelivered (s : State) (shown : List AlarmEntry) : State :=
  { s with
    alm.list := s.alm.list.map fun a => if shown.any fun b => b.slot == a.slot then { a with delivered := true } else a }

/-- The work of Alarm Read (R156, R157). -/
def State.alarmRead (s : State) (p : Port) (selection first : Nat) : State :=
  if 1 < selection ∨ first < 1 ∨ 64 < first then s.answer p .badValue .none
  else
    let s := s.checkAlarms
    let selected := selectedAlarms s selection
    let shown := (selected.drop (first - 1)).take 6
    let s := if p = .ap then s.markDelivered shown else s
    let shown := if p = .ap then shown.map fun a => { a with delivered := true } else shown
    s.answer p .done (.alarms s.alm.list.length (raisedCount s.alm.list) selected.length shown)

/-- ALARM_READ (R156). -/
def execAlarmRead (p : Port) (now : Nat) (s : State) : Host.Outcome State Fault Refusal :=
  workEvent p now s fun
    | .alarmRead selection first => some (·.alarmRead p selection first)
    | _ => none

/-- An entry cleared: SEEN becomes CLEARED (R162). -/
def clearSeen (a : AlarmEntry) : AlarmEntry := if a.state = .seen then { a with state := .cleared } else a

/-- The work of Clear Alarm with a number (R162). -/
def State.clearNumber (s : State) (p : Port) (n : Nat) : State :=
  if n = 0 then s.answer p .badValue .none
  else
    let s := s.checkAlarms
    match s.alm.list.find? fun a => a.number == n with
    | some a =>
      if a.state = .raised then s.answer p .notSeen .none
      else
        State.answer { s with alm.list := s.alm.list.map fun b => if b.number = n then clearSeen b else b } p .done .none
    | none => s.answer p .gone .none

/-- The track a Clear Alarm selects: 1, 2, or 0 for NONE (R162). -/
def selectedTrack : Nat → Option (Option Track)
  | 0 => some none
  | 1 => some (some .one)
  | 2 => some (some .two)
  | _ => none

/-- The work of Clear Alarm with a track (R162). -/
def State.clearTrack (s : State) (p : Port) (n : Nat) : State :=
  match selectedTrack n with
  | some t =>
    let s := s.checkAlarms
    let mine := s.alm.list.filter fun a => a.key.track == t
    let cleared := (mine.filter fun a => a.state == .seen).length
    State.answer { s with alm.list := s.alm.list.map fun a => if a.key.track = t then clearSeen a else a } p .done
      (.cleared cleared (raisedCount mine))
  | none => s.answer p .badValue .none

/-- CLEAR_ALARM_NUMBER (R162): form NUMBER is coded 0; a form outside the two is BAD_VALUE (log 32). -/
def execClearAlarmNumber (p : Port) (now : Nat) (s : State) : Host.Outcome State Fault Refusal :=
  workEvent p now s fun
    | .clearAlarm form n =>
      match form with
      | 0 => some (·.clearNumber p n)
      | 1 => none
      | _ => some (·.answer p .badValue .none)
    | _ => none

/-- CLEAR_ALARM_TRACK (R162): form TRACK is coded 1; a form outside the two is BAD_VALUE (log 32). -/
def execClearAlarmTrack (p : Port) (now : Nat) (s : State) : Host.Outcome State Fault Refusal :=
  workEvent p now s fun
    | .clearAlarm form n =>
      match form with
      | 0 => none
      | 1 => some (·.clearTrack p n)
      | _ => some (·.answer p .badValue .none)
    | _ => none

/-- CLEAR_UNLISTED (R163). -/
def execClearUnlisted (p : Port) (now : Nat) (s : State) : Host.Outcome State Fault Refusal :=
  workEvent p now s fun
    | .clearUnlisted => some fun s => State.answer { s with alm.unlisted := 0 } p .done (.unlisted s.alm.unlisted)
    | _ => none

/-! ### Open trains (R89, R90) -/

/-- An evaluated entry: its load, ratio and bearing classes are no longer PENDING (R90). -/
def evaluated (a : AxleEntry) : Bool :=
  let railDone (r : RailResult) := r.loadClass != .pending && r.ratioClass != .pending
  railDone a.rails.one && railDone a.rails.two && a.sides.one.cls != .pending && a.sides.two.cls != .pending

/-- The last `n` of some things. -/
def lastOf {α : Type} (n : Nat) (l : List α) : List α := l.drop (l.length - n)

/-- The pool indices of the up to 8 evaluated entries with the highest axle indices (R90). -/
def shownEntries (s : State) (tr : Train) : List Nat :=
  lastOf 8 ((tr.stack.map StackItem.entry).filter fun k => evaluated (s.axle k))

/-- The answer of Live Axle Read for an open train (R90). -/
def liveView (s : State) (tr : Train) (shown : List Nat) : LiveView :=
  { number := tr.number, dir := tr.dir, depth := tr.stack.length, phantoms := tr.phantoms, unwinds := tr.unwinds,
    withdrawals := tr.withdrawals, poolShort := tr.poolShort, overlength := tr.overlength, power := tr.power,
    entries := shown.map s.axle }

/-- The work of Live Axle Read (R90). -/
def State.liveAxleRead (s : State) (p : Port) (n : Nat) : State :=
  match twoOf n with
  | none => s.answer p .badValue .none
  | some t =>
    match s.tas.opens.get t with
    | none => s.answer p .done .noTrain
    | some tr =>
      let shown := shownEntries s tr
      let s := shown.foldl (fun s k => s.checkAxle k []) s
      s.answer p .done (.live (liveView s tr shown))

/-- LIVE_AXLE_READ (R90). -/
def execLiveAxleRead (p : Port) (now : Nat) (s : State) : Host.Outcome State Fault Refusal :=
  workEvent p now s fun
    | .liveAxleRead n => some (·.liveAxleRead p n)
    | _ => none

/-- The work of Force Close (R89): the train is closed FORCED and the track goes to ARMING (R21). -/
def State.forceClose (s : State) (p : Port) (n : Nat) : State :=
  match twoOf n with
  | none => s.answer p .badValue .none
  | some t =>
    match s.tas.opens.get t with
    | none => s.answer p .done (.forceClose .noTrain)
    | some tr =>
      ((s.checkSetting (itemFitted t)).closeToArming t .forced).answer p .done
        (.forceClose (if emptyTrain tr then .withdrawn tr.number else .closed tr.number))

/-- FORCE_CLOSE (R89). -/
def execForceClose (p : Port) (now : Nat) (s : State) : Host.Outcome State Fault Refusal :=
  workEvent p now s fun
    | .forceClose n => some (·.forceClose p n)
    | _ => none

end Sys2Proof.Machine
end

