-- ==== Sys2Proof/Machine/Services.lean ====
section
/-! DEFINITION. The requests of the window (R38 to R42), the watch (R167, R168, R173, R178) and Evaluate Snapshot (R49). -/

namespace Sys2Proof.Machine

/-! ### Window (R38 to R42) -/

/-- Rows of a window (R39). -/
def Window.rows (w : Window) : Nat := w.lastRow - w.firstRow + 1

/-- Columns of a window (R39). -/
def Window.columns (w : Window) : Nat := w.lastColumn - w.firstColumn + 1

/-- Elements of a window (R39). -/
def Window.size (w : Window) : Nat := w.rows * w.columns

/-- The address of the sample that element `e` of a window names (R39). -/
def Window.address (w : Window) (e : Nat) : Nat :=
  match w.order with
  | .alongRow => cell (w.firstRow + e / w.columns) (w.firstColumn + e % w.columns)
  | .acrossRows => cell (w.firstRow + e % w.rows) (w.firstColumn + e / w.rows)

/-- The cursor after `m` more elements: 0 once the last is reached (R40, R42). -/
def Window.advance (w : Window) (m : Nat) : Window :=
  { w with cursor := if w.cursor + m < w.size then w.cursor + m else 0 }

/-- Whether a window includes a snapshot column (R40). -/
def Window.touchesSnapshot (w : Window) : Bool := decide (Config.snapshotFirst ≤ w.lastColumn)

/-- The order of a coded field: ALONG_ROW 0, ACROSS_ROWS 1 (R38, log 17). -/
def windowOrderOf : Nat → Option WindowOrder
  | 0 => some .alongRow
  | 1 => some .acrossRows
  | _ => none

/-- The window of the fields of a Set Window, absent where they are out of range or not in order (R38). -/
def windowOf (r1 r2 c1 c2 order : Nat) : Option Window :=
  if r2 < Config.rowCount ∧ c2 < Config.columnCount ∧ r1 ≤ r2 ∧ c1 ≤ c2 then
    (windowOrderOf order).map fun o => ⟨r1, r2, c1, c2, o, 0⟩
  else none

/-- SET_WINDOW (R38). -/
def execSetWindow (p : Port) (now : Nat) (s : State) : Host.Outcome State Fault Refusal :=
  workEvent p now s fun
    | .setWindow r1 r2 c1 c2 order => some fun s =>
      match windowOf r1 r2 c1 c2 order with
      | some w => State.answer { s with cac.window := some w } p .done .none
      | none => s.answer p .badValue .none
    | _ => none

/-- Whether a snapshot copy is in flight. -/
def copying (s : State) : Bool := s.wat.copy.isSome

/-- The samples a window read returns: elements from the cursor on (R40). -/
def windowSamples (s : State) (w : Window) (m : Nat) : List Sample :=
  (List.range m).map fun i => Memory.read s.cac.mem (w.address (w.cursor + i))

/-- The work of Window Read (R40). A copy in flight under the window is first brought up to this moment (log 15). -/
def State.windowRead (s : State) (p : Port) (count : Nat) : State :=
  match s.cac.window with
  | none => s.answer p .badValue .none
  | some w =>
    if count < 1 ∨ 120 < count then s.answer p .badValue .none
    else
      let seen := copying s && w.touchesSnapshot
      let s := if seen then s.copyByNow else s
      let left := w.size - w.cursor
      let m := min count left
      State.answer { s with cac.window := some (w.advance m) } p .done
        (.windowRead ⟨w.cursor, m, windowSamples s w m, s.cac.newest, decide (m = left), seen⟩)

/-- WINDOW_READ (R40). -/
def execWindowRead (p : Port) (now : Nat) (s : State) : Host.Outcome State Fault Refusal :=
  workEvent p now s fun
    | .windowRead count => some (·.windowRead p count)
    | _ => none

/-- Write samples into consecutive elements of a window (R42). -/
def writeElements (mem : List (Nat × Sample)) (w : Window) : Nat → List Sample → List (Nat × Sample)
  | _, [] => mem
  | e, v :: l => writeElements (Memory.write mem (w.address e) v) w (e + 1) l

/-- The work of Window Write (R41, R42). -/
def State.windowWrite (s : State) (p : Port) (samples : List Sample) : State :=
  match s.cac.window with
  | none => s.answer p .badValue .none
  | some w =>
    if samples = [] ∨ 120 < samples.length ∨ w.firstColumn < Config.snapshotFirst then s.answer p .badValue .none
    else if copying s || serviceJobExists s then s.answer p .busy .none
    else
      let left := w.size - w.cursor
      let k := min samples.length left
      State.answer
        { s with
          cac.mem := writeElements s.cac.mem w w.cursor (samples.take k)
          cac.window := some (w.advance k) }
        p .done (.windowWrite k (decide (k = left)))

/-- WINDOW_WRITE (R41, R42). -/
def execWindowWrite (p : Port) (now : Nat) (s : State) : Host.Outcome State Fault Refusal :=
  workEvent p now s fun
    | .windowWrite samples => some (·.windowWrite p samples)
    | _ => none

/-! ### Watch (R167, R168, R173, R178) -/

/-- Tracks of a condition, coded 0 to 3 (R167, log 17). -/
def watchTracksOf : Nat → Option WatchTracks
  | 0 => some .none
  | 1 => some .t1
  | 2 => some .t2
  | 3 => some .both
  | _ => none

/-- Quantities, coded 0 to 7 (R167, log 17). -/
def quantityCode : Nat → Option Quantity
  | 0 => some .static
  | 1 => some .peak
  | 2 => some .impact
  | 3 => some .ratio
  | 4 => some .bearingRise
  | 5 => some .speed
  | 6 => some .spacing
  | 7 => some .axleIndex
  | _ => none

/-- Rail or side, coded 0 to 2 (R167, log 17). -/
def watchSideOf : Nat → Option WatchSide
  | 0 => some .one
  | 1 => some .two
  | 2 => some .either
  | _ => none

/-- Relations, coded 0 to 3 (R167, log 17). -/
def relationOf : Nat → Option Relation
  | 0 => some .atLeast
  | 1 => some .atMost
  | 2 => some .equal
  | 3 => some .notValid
  | _ => none

/-- ONE_SHOT 0, REPEAT 1 (R167, log 17). -/
def watchModeOf : Nat → Option WatchMode
  | 0 => some .oneShot
  | 1 => some .repeating
  | _ => none

/-- YES 0, NO 1 (R167, log 17). -/
def snapshotOf : Nat → Option Bool
  | 0 => some true
  | 1 => some false
  | _ => none

/-- The condition of the fields of a Set Watch, absent where one is outside its values (R167). -/
def conditionOf (tracks quantity side relation value mode snapshot : Nat) : Option Condition :=
  match watchTracksOf tracks, quantityCode quantity, watchSideOf side, relationOf relation, watchModeOf mode,
    snapshotOf snapshot with
  | some t, some q, some sd, some r, some m, some sn => if value ≤ 65535 then some ⟨t, q, sd, r, value, m, sn⟩ else none
  | _, _, _, _, _, _ => none

/-- ARMED with tracks, OFF with none (R168, R173). -/
def stateFor (c : Condition) : WatchState := if c.tracks = .none then .off else .armed

/-- An accepted Set Watch (R168). -/
def State.setCondition (s : State) (c : Condition) : State :=
  match s.wat.state with
  | .locked => { s with wat.pendingCond := some c }
  | .off => { s with wat.cond := c, wat.state := stateFor c }
  | .armed => { s with wat.cond := c, wat.state := stateFor c }

/-- SET_WATCH (R167, R168). -/
def execSetWatch (p : Port) (now : Nat) (s : State) : Host.Outcome State Fault Refusal :=
  workEvent p now s fun
    | .setWatch tracks quantity side relation value mode snapshot => some fun s =>
      match conditionOf tracks quantity side relation value mode snapshot with
      | some c => (s.setCondition c).answer p .done .none
      | none => s.answer p .badValue .none
    | _ => none

/-- What Watch Read carries (R178). -/
def watchView (s : State) : WatchView :=
  { state := s.wat.state, cond := s.wat.cond, pendingCond := s.wat.pendingCond, slot := s.wat.slot,
    matchCount := s.wat.matchCount, snapshot := s.wat.snapshot, copyInFlight := copying s }

/-- WATCH_READ (R178). -/
def execWatchRead (p : Port) (now : Nat) (s : State) : Host.Outcome State Fault Refusal :=
  workEvent p now s fun
    | .watchRead => some fun s => s.answer p .done (.watch (watchView s))
    | _ => none

/-- The watch after a release from LOCKED with no copy in flight (R173). -/
def releasedWatch (w : Watch) : Watch :=
  match w.pendingCond with
  | some c => { w with cond := c, pendingCond := none, state := stateFor c }
  | none =>
    match w.cond.mode with
    | .oneShot => { w with state := .off }
    | .repeating => { w with state := .armed }

/-- The work of Release Watch (R173). -/
def State.releaseWatch (s : State) (p : Port) : State :=
  if s.wat.state ≠ .locked then s.answer p .done (.released true s.wat.matchCount s.wat.snapshot.status)
  else if copying s then s.answer p .busy .none
  else
    State.answer { s with wat := releasedWatch s.wat } p .done
      (.released false s.wat.matchCount s.wat.snapshot.status)

/-- RELEASE_WATCH (R173). -/
def execReleaseWatch (p : Port) (now : Nat) (s : State) : Host.Outcome State Fault Refusal :=
  workEvent p now s fun
    | .releaseWatch => some (·.releaseWatch p)
    | _ => none

/-! ### Evaluate Snapshot (R49, R51) -/

/-- Direction of a coded field: UP 0, DOWN 1 (R49, log 17). -/
def directionOf : Nat → Option Direction
  | 0 => some .up
  | 1 => some .down
  | _ => none

/-- The greatest origin of an Evaluate Snapshot (R49). -/
def originMax : Nat := 1125899906842

/-- The fields of an Evaluate Snapshot that lie in their ranges (R49). -/
structure SnapshotFields where
  track : Track
  first : Nat
  last : Nat
  origin : Nat
  dir : Direction
  dt : Nat
  tA : Nat
deriving DecidableEq, Repr

/-- Whether a column lies in the snapshot area. -/
def inSnapshot (c : Int) : Bool := decide ((Config.snapshotFirst : Int) ≤ c ∧ c ≤ (Config.snapshotLast : Int))

/-- The range checks of the fields themselves (R49, case 1). -/
def snapshotFields (track first last origin dir dt tA : Nat) : Option SnapshotFields :=
  match twoOf track, directionOf dir with
  | some t, some d =>
    if inSnapshot first = true ∧ inSnapshot last = true ∧ first ≤ last ∧ origin ≤ originMax ∧ dt ≤ Config.crossingTimerMax
        ∧ tA ≤ Config.countMax then
      some ⟨t, first, last, origin, d, dt, tA⟩
    else none
  | _, _ => none

/-- The column that stands for a sample number (R51). -/
def columnFor (f : SnapshotFields) (k : Int) : Int := f.first + (k - f.origin)

/-- Whether a bearing gate lies wholly in the snapshot area (R49, R51). -/
def gateInSnapshot (f : SnapshotFields) (gate : Int × Int) : Bool :=
  inSnapshot (columnFor f gate.1) && inSnapshot (columnFor f gate.2)

/-- The service job of a request, from its bearing gate and D as its check read them, and V_low (R49, R51). -/
def serviceJob (p : Port) (f : SnapshotFields) (gate : Int × Int) (d vLow : Nat) : Job :=
  let speed := speedOf d f.dt vLow
  { owner := .service p f.first f.last f.origin, track := f.track, dir := f.dir, dt := f.dt, tA := f.tA,
    speed := speed.1, speedClass := speed.2, ls := f.origin, le := (f.origin : Int) + f.last - f.first,
    bs := gate.1, be := gate.2, ready := true }

/-- The request stays PENDING, in service (R49, R185). -/
def markInService (u : PortState) : PortState :=
  match u.slot with
  | .pending tag req _ => { u with slot := .pending tag req true }
  | _ => u

/-- An accepted Evaluate Snapshot: Gs, Ge and V_low are read, and the service job joins the queue (R49, R200). -/
def State.acceptSnapshot (s : State) (p : Port) (f : SnapshotFields) (gate : Int × Int) (d : Nat) : State :=
  let s := s.checkSettings [itemGs f.track, itemGe f.track, itemVLow]
  State.onPort { s with aee.queue := s.aee.queue ++ [serviceJob p f gate d (s.settingNat itemVLow)] } p markInService

/-- The work of Evaluate Snapshot once its fields are in range (R49). DESIGN CHOICE: D, H and W are read for the gate that the
refusals need, and the job keeps that gate and that D (log 44). -/
def State.evaluateSnapshot (s : State) (p : Port) (f : SnapshotFields) : State :=
  let s := s.checkSettings [itemD f.track, itemH f.track, itemW f.track]
  let gate := bearingGate s f.track f.dir f.tA f.dt
  if gateInSnapshot f gate = false then s.answer p .badValue .none
  else if copying s then s.answer p .busy .none
  else if Config.queueSize ≤ s.aee.queue.length ∨ serviceJobExists s = true then s.answer p .full .none
  else s.acceptSnapshot p f gate (s.settingNat (itemD f.track))

/-- EVALUATE_SNAPSHOT (R49). -/
def execEvaluateSnapshot (p : Port) (now : Nat) (s : State) : Host.Outcome State Fault Refusal :=
  workEvent p now s fun
    | .evaluateSnapshot track first last origin dir dt tA => some fun s =>
      match snapshotFields track first last origin dir dt tA with
      | some f => s.evaluateSnapshot p f
      | none => s.answer p .badValue .none
    | _ => none

end Sys2Proof.Machine
end

