-- ==== Sys2Proof/Machine/SettingRequests.lean ====
section
/-! DEFINITION. The requests of the Settings Store (R197 to R199), of the permission map (R187), and RESTART (R26, R45, R70,
R93, R195, R207). -/

namespace Sys2Proof.Machine

/-! ### Settings Read (R197) -/

/-- The setting items whose numbers lie in a range, ascending. -/
def itemsFrom (first count : Nat) : List Nat := ((List.range count).map (first + ·)).filter isItem

/-- The work of Settings Read (R197). -/
def State.settingsRead (s : State) (p : Port) (first count : Nat) : State :=
  if first < 1 ∨ 125 < first ∨ count < 1 ∨ 41 < count then s.answer p .badValue .none
  else
    let items := itemsFrom first count
    let s := s.checkSettings items
    s.answer p .done (.settings (items.map fun n => (n, s.setting n)))

/-- SETTINGS_READ (R197). -/
def execSettingsRead (p : Port) (now : Nat) (s : State) : Host.Outcome State Fault Refusal :=
  workEvent p now s fun
    | .settingsRead first count => some (·.settingsRead p first count)
    | _ => none

/-! ### Settings Write (R198, R199) -/

/-- The signed items: coordinates (R196). -/
def isCoordinate (n : Nat) : Bool := [2, 3, 4, 12, 13, 14].contains n

/-- The value of a written item: two's complement for a coordinate, unsigned otherwise (R196, R199, log 34). -/
def writtenValue (n raw : Nat) : Int := if isCoordinate n then (BitVec.ofNat 32 raw).toInt else raw

/-- Range of the items that refuse a value outside it: the enumerated items, ReportLineCount, gains and levels (R198). -/
def refusedRange (n : Nat) : Option (Int × Int) :=
  if [6, 7, 16, 17, 91, 92].contains n then some (0, 1)
  else if n = 93 then some (0, 3)
  else if n = 94 then some (1, 2)
  else if 21 ≤ n ∧ n ≤ 67 then some (0, 65535)
  else none

/-- Whether a written value is inside the range that its item refuses to leave. -/
def valueOk (e : Nat × Int) : Bool :=
  match refusedRange e.1 with
  | some (low, high) => decide (low ≤ e.2 ∧ e.2 ≤ high)
  | none => true

/-- Whether some numbers are all different. -/
def allDifferent : List Nat → Bool
  | [] => true
  | n :: l => !l.contains n && allDifferent l

/-- The value an item would have after a write. -/
def wouldBe (s : State) (l : List (Nat × Int)) (n : Nat) : Int := ((l.find? fun e => e.1 == n).map (·.2)).getD (s.setting n)

/-- Whether a write names a geometry item of a track. -/
def namesGeometry (l : List (Nat × Int)) (t : Track) : Bool := l.any fun e => (geometryItems t).contains e.1

/-- Whether a write names a gain of a track (R198). -/
def namesGain (l : List (Nat × Int)) (t : Track) : Bool :=
  l.any fun e => decide (21 ≤ e.1 ∧ e.1 ≤ 40) && rowTrack (e.1 - 21) == t

/-- The checks of a write that need no stored value (R198, case 1). -/
def pairsOk (l : List (Nat × Int)) : Bool :=
  (l.all fun e => isItem e.1 && decide (e.1 ≤ 100) && valueOk e) && allDifferent (l.map (·.1)) && decide (1 ≤ l.length)
    && decide (l.length ≤ 41)

/-- Whether a track has an open or a closing train (R198, case 2). -/
def hasTrain (s : State) (t : Track) : Bool := (liveTrains s).any fun tr => tr.track == t

/-- The value a write stores: timing items and limits are clamped (R199). -/
def clamped (e : Nat × Int) : Nat × Int :=
  match clampRange e.1 with
  | some (low, high) => (e.1, min high (max low e.2))
  | none => e

/-- Store some items together; every word written is clean (R199, 6.6). -/
def State.storeItems (s : State) (l : List (Nat × Int)) : State :=
  l.foldl (fun s e => State.cleanEntry { s with settings := putSetting s.settings e.1 e.2 } .settings e.1) s

/-- A write of occupancy fitted: unless the track is in FAULT, each running stuck timer is stopped, and one is started for
each head ON under the condition of R14 for the new value (R3). -/
def State.rewatchStuck (s : State) (l : List (Nat × Int)) (t : Track) : State :=
  if (l.any fun e => e.1 == itemFitted t) && (s.ts.get t).mode != .fault then (s.onTrack t stopStuck).resumeStuck t else s

/-- The accepted write (R199). DESIGN CHOICE: where it names both occupancy-fitted items track 1 is taken before track 2 (log 40). -/
def State.applyWrite (s : State) (p : Port) (l : List (Nat × Int)) : State :=
  let stored := l.map clamped
  let s := s.storeItems stored
  ((s.rewatchStuck stored .one).rewatchStuck stored .two).answer p .done (.settings stored)

/-- The geometry items that the check of a write takes at their present values: of each track whose geometry it names, those
it does not name (R198). -/
def presentItems (l : List (Nat × Int)) : List Nat :=
  (tracks.flatMap fun t => if namesGeometry l t then geometryItems t else []).filter fun n => !(l.map (·.1)).contains n

/-- Read the items that the check of a write takes at their present values (R198, R201). -/
def State.readGeometry (s : State) (l : List (Nat × Int)) : State := s.checkSettings (presentItems l)

/-- The work of Settings Write (R198, R199). DESIGN CHOICE: a write refused for its pairs alone reads no stored word (log 54). -/
def State.settingsWrite (s : State) (p : Port) (pairs : List (Nat × Nat)) : State :=
  let l := pairs.map fun e => (e.1, writtenValue e.1 e.2)
  if pairsOk l = false then s.answer p .badValue .none
  else
    let s := s.readGeometry l
    if tracks.any fun t => namesGeometry l t && !geometryOk (wouldBe s l) t then s.answer p .badValue .none
    else if tracks.any fun t => (namesGeometry l t || namesGain l t) && hasTrain s t then s.answer p .busyTrain .none
    else s.applyWrite p l

/-- SETTINGS_WRITE (R198, R199). -/
def execSettingsWrite (p : Port) (now : Nat) (s : State) : Host.Outcome State Fault Refusal :=
  workEvent p now s fun
    | .settingsWrite pairs => some (·.settingsWrite p pairs)
    | _ => none

/-! ### Set Permissions (R187) -/

/-- The permission entry stored for a row: Status always includes SP, Set Permissions is SP alone (R187). -/
def adjustedEntry (row entry : Nat) : Nat := if row = 1 then entry ||| 4 else if row = 21 then 4 else entry

/-- The permission map as it would stand, entry by entry (R187). -/
def adjustedMap (entries : List Nat) : List Nat := (entries.zipIdx 1).map fun e => adjustedEntry e.2 e.1

/-- The work of Set Permissions (R187). -/
def State.setPermissions (s : State) (p : Port) (entries : List Nat) : State :=
  if entries.any fun e => decide (7 < e) then s.answer p .badValue .none
  else
    let map := adjustedMap entries
    let s := s.storeItems ((map.zipIdx 1).map fun e => (itemPermission e.2, (e.1 : Int)))
    s.answer p .done (.permissions map)

/-- SET_PERMISSIONS (R187). -/
def execSetPermissions (p : Port) (now : Nat) (s : State) : Host.Outcome State Fault Refusal :=
  workEvent p now s fun
    | .setPermissions entries => some (·.setPermissions p entries)
    | _ => none

/-! ### RESTART (R26, R45, R70, R93, R195, R207) -/

/-- Answer the pending request of a port RESTARTED. -/
def State.answerRestarted (s : State) (p : Port) : State := s.answer p .restarted .none

/-- Every other request that is PENDING is answered RESTARTED (R195). -/
def State.restartOthers (s : State) (p : Port) : State :=
  allPorts.foldl (fun s q => if q = p then s else s.answerRestarted q) s

/-- The Closing List is handed over in close order (R93 step 3). -/
def State.handOverAll (s : State) : State :=
  { s with rbu.handOver := s.rbu.handOver ++ s.tas.closing, tas.closing := [] }

/-- The Train Assembler and the engine at RESTART: the closes, the cancellations, the hand-over (R70, R93). DESIGN CHOICE: track
1's open train is closed before track 2's (log 40). -/
def State.restartTrains (s : State) : State :=
  let s := (s.closeRequest .one .forced).closeRequest .two .forced
  let s := (closingTrains s).foldl (fun s tr => s.cancelJobs tr.number) s
  State.handOverAll { s with aee.queue := [] }

/-- A Track Sequencer at RESTART (R26). -/
def State.restartTrack (s : State) (t : Track) : State :=
  let s := s.abandonRefresh t
  let s := s.onTrack t fun q => { stopStuck (stopIdle (stopTrain q)) with pending := none, recovery := none }
  (s.enterArming t).resumeStuck t

/-- The work of Restart (R207). -/
def State.restart (s : State) (p : Port) : State :=
  let s := s.restartTrains
  let s := (s.restartTrack .one).restartTrack .two
  (s.tearCopy.restartOthers p).answer p .done .none

/-- RESTART (R195, R207). -/
def execRestart (p : Port) (now : Nat) (s : State) : Host.Outcome State Fault Refusal :=
  workEvent p now s fun
    | .restart => some (·.restart p)
    | _ => none

end Sys2Proof.Machine
end

