-- ==== Sys2Proof/Machine/StatusRequest.lean ====
section
/-! DEFINITION. The Status request and its ten sections (R189; R24, R37, R39, R72, R91, R114, R137, R164, R178, R202). -/

namespace Sys2Proof.Machine

/-- The state of a work slot as status shows it (R189). -/
def slotState : WorkSlot → SlotState
  | .empty => .empty
  | .pending _ _ _ => .pending
  | .answered _ _ _ _ _ => .answered

/-- One thing for each port. -/
def eachPort {α : Type} (s : State) (f : PortState → α) : Ports α := ⟨f s.ptu.rp, f s.ptu.ap, f s.ptu.sp⟩

/-- The DEVICE section (R189, R202). -/
def deviceView (s : State) : DeviceView :=
  { mode := s.sup.mode, supplyFail := s.sup.supplyFail, holdupLow := s.sup.holdupLow, failTimer := s.sup.failTimer,
    recoveryTimer := s.sup.recoveryTimer, leaveTimer := s.sup.leaveTimer, freeze := s.sup.freeze,
    freezes := s.sup.freezes, slots := eachPort s fun u => slotState u.slot, denials := eachPort s (·.denials),
    linkErrors := eachPort s (·.linkErrors), reportReady := s.lines.reportReady }

/-- The TRACK_1 and TRACK_2 sections (R24). -/
def trackView (q : Sequencer) : TrackView :=
  { mode := q.mode, heads := q.heads, occupied := q.occupied, pending := q.pending.map (·.1), rock := q.rock,
    crossings := q.crossings, held := q.held, faultHead := q.faultHead }

/-- The CAPTURE section (R28, R29, R31, R32, R37, R39). -/
def captureView (s : State) : CaptureView :=
  { converters := ⟨s.convertersOn .one, s.convertersOn .two⟩, count := s.cac.count, newest := s.cac.newest,
    writePointer := s.writePointer, siteTime := s.cac.siteTime, time := s.stamp, tare := s.cac.tare,
    tareValid := s.cac.tareValid, refresh := s.cac.refresh, window := s.cac.window }

/-- Whether and where a service job exists (R72). -/
def serviceJobView (s : State) : ServiceJob :=
  if s.aee.queue.any fun j => !isLive j then .queued
  else
    match s.aee.inFlight with
    | some f => if isLive f.job then .none else .inFlight
    | none => .none

/-- The job in flight (R72). -/
def flightView : Option InFlight → FlightView
  | some f =>
    match f.job.owner with
    | .live train _ axle => .live f.job.track train axle f.discard
    | .service _ _ _ _ => .service f.job.track
  | none => .none

/-- The ENGINE section (R72). DESIGN CHOICE: a queued service job, ready at its creation (R52), counts among the queued jobs
marked READY (log 43). -/
def engineView (s : State) : EngineView :=
  { queueLength := s.aee.queue.length, service := serviceJobView s, inFlight := flightView s.aee.inFlight,
    readyJobs := (s.aee.queue.filter (·.ready)).length, queueFull := s.aee.queueFull, stale := s.aee.stale,
    discards := s.aee.discards }

/-- An open train in brief (R91). -/
def openView (tr : Train) : OpenView := ⟨tr.number, tr.dir, tr.stack.length, tr.phantoms⟩

/-- Trains handed over early and still held by the Report Builder: those on the hand-over list, and one taken from it until its
close operation ends (R87, R91; trains that RESTART hands over count too: log 39). -/
def heldEarly (s : State) : Nat :=
  s.rbu.handOver.length + (match s.rbu.closeOp with | some o => if o.early then 1 else 0 | none => 0)

/-- The TRAINS section (R91). -/
def trainsView (s : State) : TrainsView :=
  { opens := ⟨s.tas.opens.one.map openView, s.tas.opens.two.map openView⟩
    closing := s.tas.closing.map fun c => ⟨c.train.number, c.train.track, c.reason, jobCount s c.train.number⟩
    handedOver := heldEarly s
    lastTrain := s.tas.lastTrain
    overflows := s.tas.overflows
    withdrawn := s.tas.withdrawn }

/-- The BUILDER section (R114). -/
def builderView (s : State) : BuilderView :=
  { closeOp := s.rbu.closeOp.map fun o => (o.closing.train.number, o.closing.train.track, o.phase)
    handOver := s.rbu.handOver.map fun c => (c.train.number, c.train.track)
    made := s.rbu.made
    discardedFull := s.rbu.discardedFull
    truncated := s.rbu.truncated }

/-- The STORE section (R137). -/
def storeView (s : State) : StoreView :=
  { freeAxles := Config.axlePoolSize - s.trs.axles.length
    freeVehicles := freeVehicles s
    freeHeaders := Config.headerCount - s.trs.headers.length
    records := s.trs.records.length
    released := (s.trs.records.filter released).length
    holdingReport := reportCount s
    holdingAlarm := (s.trs.records.filter fun r => r.holders.alarm).length
    keepOld := keepOld s
    capture := s.trs.capture
    singles := s.trs.singles
    doubles := s.trs.doubles
    reclaims := s.trs.reclaims
    evictions := s.trs.evictions
    purges := s.trs.purges
    marker := s.trs.marker
    markerAtStart := s.trs.markerAtStart }

/-- How many entries of the alarm list are in a state. -/
def countIn (s : State) (st : AlarmState) : Nat := (s.alm.list.filter fun a => a.state == st).length

/-- The ALARMS section (R164). -/
def alarmsView (s : State) : AlarmsView :=
  { entries := s.alm.list.length, raised := countIn s .raised, seen := countIn s .seen, cleared := countIn s .cleared,
    lastNumber := s.alm.lastNumber, handshake := s.alm.handshake, takeHigh := s.alm.takeHigh, notice := s.lines.notice,
    stop := s.lines.stop, warn := s.lines.warn, unlisted := s.alm.unlisted, evictions := s.alm.evictions,
    retired := s.alm.retired, dropped := s.alm.dropped }

/-- The values of a section, the sections coded 0 to 9 in the order of R189. -/
def sectionView (s : State) : Nat → Option StatusView
  | 0 => some (.device (deviceView s))
  | 1 => some (.track (trackView s.ts.one))
  | 2 => some (.track (trackView s.ts.two))
  | 3 => some (.capture (captureView s))
  | 4 => some (.engine (engineView s))
  | 5 => some (.trains (trainsView s))
  | 6 => some (.builder (builderView s))
  | 7 => some (.store (storeView s))
  | 8 => some (.alarms (alarmsView s))
  | 9 => some (.watch ⟨s.wat.state, s.wat.matchCount, s.wat.snapshot.status⟩)
  | _ => none

/-- The work of Status (R189). The STORE section reads the retention policy through its check (R201). -/
def State.giveStatus (s : State) (p : Port) (sect : Nat) : State :=
  let s := if sect = 7 then s.checkSetting itemRetentionPolicy else s
  match sectionView s sect with
  | some v => s.answer p .done (.status v)
  | none => s.answer p .badValue .none

/-- STATUS (R189). -/
def execStatus (p : Port) (now : Nat) (s : State) : Host.Outcome State Fault Refusal :=
  workEvent p now s fun
    | .status sect => some (·.giveStatus p sect)
    | _ => none

end Sys2Proof.Machine
end

