-- ==== Sys2Proof/Machine/Power.lean ====
section
/-! DEFINITION. The Supply Monitor (R202 to R205), START and the end of the START check (R206; R25, R44, R73, R92, R115, R139,
R165, R179, R194). -/

namespace Sys2Proof.Machine

/-! ### The leave timer (R205) -/

/-- Start the leave timer where the freeze is COMPLETE, both inputs are INACTIVE, and it is stopped (R205). -/
def State.testLeave (s : State) : State :=
  if s.sup.mode = .frozen ∧ s.sup.freeze = .complete ∧ s.sup.holdupLow = false ∧ s.sup.supplyFail = false
      ∧ s.sup.leaveTimer = none then
    { s with sup.leaveTimer := some (s.cac.count + Config.supplyPeriod) }
  else s

/-! ### Input events (R202) -/

/-- SUPPLY_FAIL_ACTIVE (R202, R205). -/
def execSupplyFailActive (now : Nat) (s : State) : Host.Outcome State Fault Refusal :=
  let s1 := s.advance now
  let s2 := { s1 with sup.supplyFail := true }
  whenUp s <| some <|
    match s.sup.mode with
    | .run => { s2 with sup.failTimer := some (s2.cac.count + Config.failPeriod) }
    | .reduced => { s2 with sup.recoveryTimer := none }
    | .frozen => { s2 with sup.leaveTimer := none }

/-- SUPPLY_FAIL_INACTIVE (R202, R205). -/
def execSupplyFailInactive (now : Nat) (s : State) : Host.Outcome State Fault Refusal :=
  let s1 := s.advance now
  let s2 := { s1 with sup.supplyFail := false }
  whenUp s <| some <|
    match s.sup.mode with
    | .run => { s2 with sup.failTimer := none }
    | .reduced => { s2 with sup.recoveryTimer := some (s2.cac.count + Config.supplyPeriod) }
    | .frozen => s2.testLeave

/-! ### The freeze (R203) -/

/-- The SUPPLY alarm of a train closed by the freeze (R203 step 4, R146). -/
def freezeAlarm (t : Track) (tr : Train) : Judgement :=
  ⟨⟨some t, some tr.number, none, none, .supply⟩, .watch, axleCountOf tr, 0, .freeze⟩

/-- The freeze takes a track: a refresh in flight is abandoned and its track goes to ARMED (R27, R203 step 3), the open train
is closed POWER with its SUPPLY alarm (R203 step 4). -/
def State.freezeTrack (s : State) (t : Track) : State :=
  let s := s.checkSetting (itemFitted t)
  let s := if (s.ts.get t).mode = .arming then (s.abandonRefresh t).enterArmed t else s.abandonRefresh t
  match s.tas.opens.get t with
  | some tr => (s.closeToArming t .power).enterAlarm (freezeAlarm t tr)
  | none => s

/-- A pending Evaluate Snapshot whose service job exists is answered RESTARTED (R71, R203 step 1). -/
def State.restartEvaluations (s : State) : State :=
  allPorts.foldl (fun s p => if owesEvaluation s p then s.answerRestarted p else s) s

/-- The engine at the entry to FROZEN (R71, R203 step 1): its queue is emptied. -/
def State.freezeEngine (s : State) : State :=
  let s := s.removeQueuedLive
  State.restartEvaluations { s with aee.queue := [] }

/-- The entry to FROZEN (R78, R203). DESIGN CHOICE: track 1 is taken before track 2, so its train is first in close order and
its SUPPLY alarm the older one (log 40). -/
def State.freeze (s : State) : State :=
  let s :=
    { s with
      sup.mode := .frozen
      sup.failTimer := none
      sup.recoveryTimer := none
      sup.freeze := .inProgress
      sup.freezes := bump s.sup.freezes }
  let s := s.freezeEngine.tearCopy.powerFlags
  (s.freezeTrack .one).freezeTrack .two

/-- HOLDUP_LOW_ACTIVE (R202, R203, R205). -/
def execHoldupLowActive (now : Nat) (s : State) : Host.Outcome State Fault Refusal :=
  let s1 := s.advance now
  let s2 := { s1 with sup.holdupLow := true }
  whenUp s <| some <|
    match s.sup.mode with
    | .run => s2.freeze
    | .reduced => s2.freeze
    | .frozen => { s2 with sup.leaveTimer := none }

/-- HOLDUP_LOW_INACTIVE (R205). -/
def execHoldupLowInactive (now : Nat) (s : State) : Host.Outcome State Fault Refusal :=
  let s1 := s.advance now
  let s2 := { s1 with sup.holdupLow := false }
  whenUp s (some s2.testLeave)

/-! ### Timer expiries and the end of the freeze -/

/-- FAIL_TIMER_EXPIRY (R78, R202). -/
def execFailTimerExpiry (s : State) : Host.Outcome State Fault Refusal :=
  whenUp s <| s.sup.failTimer.map fun e =>
    let s1 := s.advance e
    let s2 := { s1 with sup.failTimer := none }
    if s.sup.mode = .run then State.powerFlags { s2 with sup.mode := .reduced, sup.recoveryTimer := none } else s2

/-- RECOVERY_TIMER_EXPIRY (R202). -/
def execRecoveryTimerExpiry (s : State) : Host.Outcome State Fault Refusal :=
  whenUp s <| s.sup.recoveryTimer.map fun e =>
    let s1 := s.advance e
    let s2 := { s1 with sup.recoveryTimer := none }
    if s.sup.mode = .reduced then { s2 with sup.mode := .run } else s2

/-- Whether the freeze has run down: no closing train and no job in flight (R204). -/
def freezeDone (s : State) : Bool :=
  decide (s.sup.freeze = .inProgress) && s.tas.closing.isEmpty && s.rbu.handOver.isEmpty && s.rbu.closeOp.isNone
    && s.aee.inFlight.isNone

/-- FREEZE_COMPLETE (R204, R205). -/
def execFreezeComplete (s : State) : Host.Outcome State Fault Refusal :=
  whenUp s <|
    if freezeDone s then some (State.testLeave { s with sup.freeze := .complete, trs.marker := .consistent }) else none

/-- A track leaving FROZEN enters ARMING from whatever mode it was in; one that leaves FAULT resumes stuck supervision
(R27). -/
def State.leaveTrack (s : State) (t : Track) : State :=
  let s := s.checkSetting (itemFitted t)
  let fault := decide ((s.ts.get t).mode = .fault)
  let s := s.enterArming t
  if fault then s.resumeStuck t else s

/-- LEAVE_TIMER_EXPIRY (R205). DESIGN CHOICE: track 1 is taken before track 2 (log 40). -/
def execLeaveTimerExpiry (s : State) : Host.Outcome State Fault Refusal :=
  whenUp s <| s.sup.leaveTimer.map fun e =>
    let s1 := s.advance e
    let s2 := { s1 with sup.leaveTimer := none }
    if s.sup.mode = .frozen then
      let s3 := { s2 with sup.mode := .run, sup.freeze := .none, trs.marker := .live }
      (s3.leaveTrack .one).leaveTrack .two
    else s2

/-! ### START (R206) -/

/-- A power-on or reset drops the select periods in progress. -/
def dropPeriod (u : PortState) : PortState := { u with period := none }

/-- START (R206): the START check begins, and the lines are negated. The marker stands as it is: no row of the table takes it to
ABSENT, which the loss of the retained supply does (R138, log 48). -/
def execStart (s : State) : Host.Outcome State Fault Refusal :=
  let s1 := ((s.onPort .rp dropPeriod).onPort .ap dropPeriod).onPort .sp dropPeriod
  .next (State.driveLines { s1 with startCheck := true })

/-- A port after the check: a select period in progress runs on (R194). -/
def checkedPort (u : PortState) : PortState := { PortState.start with period := u.period }

/-- Every block but the retained region in its state after START, at count 0 (R25, R44, R73, R92, R115, R179, R194). -/
def State.startBlocks (s : State) (inputs : Inputs) : State :=
  { s with
    ts :=
      ⟨{ Sequencer.start with heads := inputs.heads.one, occupied := inputs.occupied.one },
        { Sequencer.start with heads := inputs.heads.two, occupied := inputs.occupied.two }⟩
    cac := Capture.start
    aee := Engine.start
    tas := ⟨⟨none, none⟩, [], s.tas.lastTrain, 0, 0⟩
    rbu := Builder.start
    wat := Watch.start
    ptu := ⟨checkedPort s.ptu.rp, checkedPort s.ptu.ap, checkedPort s.ptu.sp⟩
    sup := ⟨.run, inputs.supplyFail, inputs.holdupLow, none, none, none, .none, 0⟩
    startCheck := false }

/-- The retained region cleared: marker ABSENT (R139). -/
def State.clearRegion (s : State) : State :=
  { s with
    tas.lastTrain := 0
    trs.axles := []
    trs.vehicles := []
    trs.headers := []
    trs.records := []
    alm.list := []
    alm.lastNumber := 0
    settings := [] }

/-- Read a closed record through: header, vehicle entries, axle entries (R139 step 1). -/
def State.readRecord (s : State) (r : RecordDir) : State :=
  let s := s.checkHeader r.header []
  let s := r.vehicles.foldl (fun s k => s.checkVehicle k) s
  r.axles.foldl (fun s k => s.checkAxle k []) s

/-- Keep only the listed places of a pool. -/
def keepOnly {α : Type} (m : List (Nat × α)) (l : List Nat) : List (Nat × α) := m.filter fun e => l.contains e.1

/-- Free what belongs to no closed record (R139 steps 2 and 3). -/
def State.freeRest (s : State) : State :=
  { s with
    trs.axles := keepOnly s.trs.axles (s.trs.records.flatMap (·.axles))
    trs.vehicles := keepOnly s.trs.vehicles (s.trs.records.flatMap (·.vehicles))
    trs.headers := keepOnly s.trs.headers (s.trs.records.map (·.header)) }

/-- All setting items (R196). -/
def allItems : List Nat := (List.range 126).filter isItem

/-- The retained region read through and kept: marker LIVE or CONSISTENT (R139, R165, R201). -/
def State.keepRegion (s : State) : State :=
  let s := s.trs.records.foldl State.readRecord s
  let s := s.freeRest.checkAlarms.checkSettings allItems
  { s with alm.list := s.alm.list.map fun a => { a with delivered := false } }

/-- The end of the store's and the Alarm Unit's part of the check: the counts, the capture, the marker, the handshake
(R139, R165). Every word has been read or rewritten, so none carries an error. -/
def State.endRegion (s : State) (take : Bool) : State :=
  { s with
    trs.errors := []
    trs.capture := none
    trs.singles := 0
    trs.doubles := 0
    trs.reclaims := 0
    trs.evictions := 0
    trs.purges := 0
    trs.marker := .live
    trs.markerAtStart := s.trs.marker
    alm := ⟨s.alm.list, s.alm.lastNumber, .idle, take, 0, 0, 0, 0⟩ }

/-- The store's part of the START check (R139). -/
def State.checkRegion (s : State) (take : Bool) : State :=
  (if s.trs.marker = .absent then s.clearRegion else s.keepRegion).endRegion take

/-- The device mode after the check (R206). -/
def State.startSupply (s : State) : State :=
  if s.sup.holdupLow then
    { s with sup.mode := .frozen, sup.freeze := .complete, sup.freezes := 1, trs.marker := .consistent }
  else if s.sup.supplyFail then { s with sup.failTimer := some (s.cac.count + Config.failPeriod) }
  else s

/-- A track after the check: DORMANT if its dormancy is enabled, otherwise ARMING; stuck timers for the heads that are ON
(R25). -/
def State.startTrack (s : State) (t : Track) : State :=
  let s :=
    if s.setting (itemDormancy t) = 1 then s.onTrack t fun q => { q with mode := .dormant } else s.enterArming t
  s.resumeStuck t

/-- Sample 0 is written to column 64 (R44). -/
def State.sampleZero (s : State) (samples : List Sample) : State :=
  { s with cac.mem := Memory.writeColumn s.cac.mem (rollingColumn 0) allRows (rowSample s samples) }

/-- The SUPPLY alarm of reason UNCLEAN_START (R146, R165, R206). -/
def uncleanStart : Judgement := ⟨⟨none, none, none, none, .supply⟩, .watch, 0, 0, .uncleanStart⟩

/-- The part is taken into service (R206). -/
def State.intoService (s : State) (inputs : Inputs) (samples : List Sample) : State :=
  let unclean := decide (s.trs.marker = .live)
  let s := ((s.startBlocks inputs).checkRegion inputs.take).startSupply
  let s := (s.startTrack .one).startTrack .two
  let s := (s.sampleZero samples).testNotice
  if unclean then s.enterAlarm uncleanStart else s

/-- START_CHECK_END (R206); there is none outside a check. -/
def execStartCheckEnd (inputs : Inputs) (samples : List Sample) (s : State) : Host.Outcome State Fault Refusal :=
  if s.startCheck then .next (s.intoService inputs samples).driveLines else .next s

end Sys2Proof.Machine
end

