-- ==== Sys2Proof/Machine/Dispatch.lean ====
section
/-! DEFINITION. The meaning of each command: one arm, one call. -/

namespace Sys2Proof.Machine

/-- The effect of a command on everything but the queue. -/
def exec (i : Instr) (s : State) : Host.Outcome State Fault Refusal :=
  match i with
  | .headOn t h now => Sys2Proof.Machine.execHeadOn t h now s
  | .headOff t h now => Sys2Proof.Machine.execHeadOff t h now s
  | .approachPulse t now => Sys2Proof.Machine.execApproachPulse t now s
  | .occupancyClear t now => Sys2Proof.Machine.execOccupancyClear t now s
  | .occupancyOccupied t now => Sys2Proof.Machine.execOccupancyOccupied t now s
  | .tSettleExpiry t => Sys2Proof.Machine.execTSettleExpiry t s
  | .tEndExpiry t => Sys2Proof.Machine.execTEndExpiry t s
  | .tStandExpiry t => Sys2Proof.Machine.execTStandExpiry t s
  | .tAbandonExpiry t => Sys2Proof.Machine.execTAbandonExpiry t s
  | .tDormantExpiry t => Sys2Proof.Machine.execTDormantExpiry t s
  | .tRetareExpiry t => Sys2Proof.Machine.execTRetareExpiry t s
  | .stuckTimerExpiry t h => Sys2Proof.Machine.execStuckTimerExpiry t h s
  | .faultRecoveryExpiry t => Sys2Proof.Machine.execFaultRecoveryExpiry t s
  | .sampleWrite samples => Sys2Proof.Machine.execSampleWrite samples s
  | .refreshComplete t samples => Sys2Proof.Machine.execRefreshComplete t samples s
  | .jobTake => Sys2Proof.Machine.execJobTake s
  | .liveJobComplete now => Sys2Proof.Machine.execLiveJobComplete now s
  | .serviceJobComplete now => Sys2Proof.Machine.execServiceJobComplete now s
  | .snapshotCopyEnd now => Sys2Proof.Machine.execSnapshotCopyEnd now s
  | .closeTake => Sys2Proof.Machine.execCloseTake s
  | .recordAppend now => Sys2Proof.Machine.execRecordAppend now s
  | .discardedFull now => Sys2Proof.Machine.execDiscardedFull now s
  | .takeRises now => Sys2Proof.Machine.execTakeRises now s
  | .takeFalls now => Sys2Proof.Machine.execTakeFalls now s
  | .supplyFailActive now => Sys2Proof.Machine.execSupplyFailActive now s
  | .supplyFailInactive now => Sys2Proof.Machine.execSupplyFailInactive now s
  | .holdupLowActive now => Sys2Proof.Machine.execHoldupLowActive now s
  | .holdupLowInactive now => Sys2Proof.Machine.execHoldupLowInactive now s
  | .failTimerExpiry => Sys2Proof.Machine.execFailTimerExpiry s
  | .recoveryTimerExpiry => Sys2Proof.Machine.execRecoveryTimerExpiry s
  | .freezeComplete => Sys2Proof.Machine.execFreezeComplete s
  | .leaveTimerExpiry => Sys2Proof.Machine.execLeaveTimerExpiry s
  | .start => Sys2Proof.Machine.execStart s
  | .startCheckEnd inputs samples => Sys2Proof.Machine.execStartCheckEnd inputs samples s
  | .requestPeriod p bytes => Sys2Proof.Machine.execRequestPeriod p bytes s
  | .answerFetch p => Sys2Proof.Machine.execAnswerFetch p s
  | .status p now => Sys2Proof.Machine.execStatus p now s
  | .recordList p now => Sys2Proof.Machine.execRecordList p now s
  | .headerRead p now => Sys2Proof.Machine.execHeaderRead p now s
  | .axleRead p now => Sys2Proof.Machine.execAxleRead p now s
  | .vehicleRead p now => Sys2Proof.Machine.execVehicleRead p now s
  | .releaseRecord p now => Sys2Proof.Machine.execReleaseRecord p now s
  | .setSiteTime p now => Sys2Proof.Machine.execSetSiteTime p now s
  | .alarmRead p now => Sys2Proof.Machine.execAlarmRead p now s
  | .clearAlarmNumber p now => Sys2Proof.Machine.execClearAlarmNumber p now s
  | .clearAlarmTrack p now => Sys2Proof.Machine.execClearAlarmTrack p now s
  | .clearUnlisted p now => Sys2Proof.Machine.execClearUnlisted p now s
  | .liveAxleRead p now => Sys2Proof.Machine.execLiveAxleRead p now s
  | .setWindow p now => Sys2Proof.Machine.execSetWindow p now s
  | .windowRead p now => Sys2Proof.Machine.execWindowRead p now s
  | .windowWrite p now => Sys2Proof.Machine.execWindowWrite p now s
  | .setWatch p now => Sys2Proof.Machine.execSetWatch p now s
  | .watchRead p now => Sys2Proof.Machine.execWatchRead p now s
  | .releaseWatch p now => Sys2Proof.Machine.execReleaseWatch p now s
  | .evaluateSnapshot p now => Sys2Proof.Machine.execEvaluateSnapshot p now s
  | .settingsRead p now => Sys2Proof.Machine.execSettingsRead p now s
  | .settingsWrite p now => Sys2Proof.Machine.execSettingsWrite p now s
  | .setPermissions p now => Sys2Proof.Machine.execSetPermissions p now s
  | .forceClose p now => Sys2Proof.Machine.execForceClose p now s
  | .purgeRecord p now => Sys2Proof.Machine.execPurgeRecord p now s
  | .clearErrorCapture p now => Sys2Proof.Machine.execClearErrorCapture p now s
  | .restart p now => Sys2Proof.Machine.execRestart p now s
  | .readPeriodEnd p bytes => Sys2Proof.Machine.execReadPeriodEnd p bytes s

end Sys2Proof.Machine
end

