-- ==== Sys2Proof/Machine/Clock.lean ====
section
/-! DEFINITION. What the part does while no command waits: time passes, unless an event is due (log 2). -/

namespace Sys2Proof.Machine

/-- The timers of a track. -/
def timersOf (q : Sequencer) : List Timer :=
  [q.tSettle, q.tEnd, q.tStand, q.tAbandon, q.tDormant, q.tRetare, q.stuck.one, q.stuck.two, q.recovery]

/-- All timers of the part (R10, R202, R205). -/
def allTimers (s : State) : List Timer :=
  timersOf s.ts.one ++ timersOf s.ts.two ++ [s.sup.failTimer, s.sup.recoveryTimer, s.sup.leaveTimer]

/-- Whether a timer has reached its count of expiry. -/
def expired (count : Nat) (t : Timer) : Bool := t.any fun e => decide (e ≤ count)

/-- Whether an event is due at this count: an expiry (R10), a sample (R30), a take of the engine (R53) or of the Report
Builder (R95), or the completion of the freeze (R204). -/
def eventDue (s : State) : Bool :=
  (allTimers s).any (expired s.cac.count) || decide (250 * (s.cac.newest + 1) ≤ s.cac.count)
    || (s.aee.inFlight.isNone && (nextJob s).isSome) || (s.rbu.closeOp.isNone && s.takeClosing.isSome) || freezeDone s

/-- With no command waiting, one microsecond passes and the close operation in flight goes on, unless an event is due or the
START check runs (logs 2 and 8). -/
def State.idle (s : State) : State :=
  if s.startCheck || eventDue s then s else (s.advance (s.cac.count + 1)).letClose.driveLines

end Sys2Proof.Machine
end

