-- ==== Sys2Proof/Safety.lean ====
section
/-! DEFINITION. The terms in which claims about the part are made: the invariants, what a port needs for its request to be
served, and what an answer looks like. -/

namespace Sys2Proof.Machine

/-! ### Invariants -/

/-- A window lies inside capture memory and its cursor inside the window (R38, R39). -/
def windowFits (w : Window) : Prop :=
  w.firstRow ≤ w.lastRow ∧ w.lastRow < Config.rowCount ∧ w.firstColumn ≤ w.lastColumn ∧
    w.lastColumn < Config.columnCount ∧ w.cursor < w.size

/-- A pool of the store: its places strictly rising, each inside the pool (R117, R119). -/
def poolFits {α : Type} (m : List (Nat × α)) (size : Nat) : Prop := rising m = true ∧ ∀ e ∈ m, e.1 < size

/-- The columns a snapshot copy has still to write lie in the snapshot area, none twice (R174, R175). -/
def copyFits (c : SnapshotCopy) : Prop :=
  (∀ x ∈ c.todo, Config.snapshotFirst ≤ x.1 ∧ x.1 < Config.columnCount) ∧ (c.todo.map (·.1)).Nodup

/-- A close operation as far as it has gone: it has read a beginning of its train's stack, all of it once GROUPING is over; no
judgement is left in RECORDING, and only there are entries asked for, the header first, which is one of the 32 (R96, R97, R106,
R109, R117). -/
structure OpSound (o : CloseOp) : Prop where
  read : o.read.map (·.entry) = (o.closing.train.stack.map (·.entry)).take o.read.length
  grouped : o.phase ≠ .grouping → o.read.length = o.closing.train.stack.length
  judged : o.phase = .recording → o.todo = []
  header : o.header ≠ none → o.phase = .recording
  vehicles : o.vehicles ≠ none → o.header ≠ none
  place : ∀ k, o.header = some k → k < Config.headerCount

/-- Capture memory keeps its canonical form, the window fits, the count fits 48 bits, the job queue, the stacks, the Closing
List, the three pools, the alarm list and the match count stay inside their sizes, the close operation is sound, a snapshot copy
keeps to the snapshot area, and the lines stand as the rules give them (R29, R33, R38, R43, R48, R79, R87, R117, R130, R148, R158,
R160, R161, R171, R174). -/
structure Bounded (s : State) : Prop where
  memory : Memory.wf s.cac.mem = true
  window : ∀ w, s.cac.window = some w → windowFits w
  count : s.cac.count ≤ Config.countMax
  queue : s.aee.queue.length ≤ Config.queueSize
  depth : ∀ t tr, s.tas.opens.get t = some tr → tr.stack.length ≤ Config.stackSize
  closing : s.tas.closing.length ≤ Config.closingSize
  op : ∀ o, s.rbu.closeOp = some o → OpSound o
  axles : poolFits s.trs.axles Config.axlePoolSize
  vehicles : poolFits s.trs.vehicles Config.vehiclePoolSize
  headers : poolFits s.trs.headers Config.headerCount
  alarms : s.alm.list.length ≤ Config.alarmListSize
  matched : s.wat.matchCount ≤ 255
  copy : ∀ c, s.wat.copy = some c → copyFits c
  lines : s.lines = linesOf s

/-- The alarm list holds at most 64 entries, each key once and each slot once (R148, R150). -/
structure AlarmsDistinct (s : State) : Prop where
  size : s.alm.list.length ≤ Config.alarmListSize
  keys : (s.alm.list.map (·.key)).Nodup
  slots : (s.alm.list.map (·.slot)).Nodup
  range : ∀ a ∈ s.alm.list, a.slot < Config.alarmListSize

/-- The Supply Monitor's values agree with each other and with the retention marker (R138, R202 to R205). -/
structure SupplyAgrees (s : State) : Prop where
  frozen : s.sup.mode = .frozen ↔ s.sup.freeze ≠ .none
  marker : s.trs.marker = .consistent → s.startCheck = true ∨ s.sup.freeze = .complete
  fail : s.sup.failTimer ≠ none → s.sup.mode = .run
  recovery : s.sup.recoveryTimer ≠ none → s.sup.mode = .reduced
  leave : s.sup.leaveTimer ≠ none →
    s.sup.freeze = .complete ∧ s.sup.holdupLow = false ∧ s.sup.supplyFail = false

/-- A track's mode agrees with its open train, its refresh, its timers and the device mode (R10, R15 to R23, R94). -/
structure TrackAgrees (s : State) (t : Track) : Prop where
  opened : (s.tas.opens.get t).isSome = trainMode (s.ts.get t).mode
  arming : (s.cac.refresh.get t).isSome = decide ((s.ts.get t).mode = .arming)
  frozen : s.sup.mode = .frozen → s.tas.opens.get t = none
  fault : (s.ts.get t).mode = .fault → (s.ts.get t).pending = none ∧ (s.ts.get t).stuck = ⟨none, none⟩
  head : (s.ts.get t).mode = .fault → (s.ts.get t).faultHead ≠ none
  recovery : (s.ts.get t).mode ≠ .fault → (s.ts.get t).recovery = none
  idle : (s.ts.get t).mode ≠ .armed → (s.ts.get t).tDormant = none ∧ (s.ts.get t).tRetare = none
  settle : trainMode (s.ts.get t).mode = false → (s.ts.get t).tSettle = none
  passing : (s.ts.get t).mode ≠ .passing → (s.ts.get t).tEnd = none ∧ (s.ts.get t).tStand = none
  standing : (s.ts.get t).mode ≠ .standstill → (s.ts.get t).tAbandon = none
  progress : ∀ r, s.cac.refresh.get t = some r → r.progress < Config.refreshLength

/-! ### Requests and answers -/

/-- A request waits on a port of a part in service, the port may send it, the device mode allows it, and no word of the
retained SRAM carries an error. -/
structure Ready (s : State) (p : Port) (tag : Nat) (r : Request) : Prop where
  up : s.startCheck = false
  clean : s.trs.errors = []
  slot : (s.ptu.get p).slot = .pending tag r false
  allowed : permitted s p r.row = true
  mode : available s.sup.mode r = true

/-- The work command of a request on a port. -/
def workCommand (p : Port) (now : Nat) : Request → Instr
  | .status _ => .status p now
  | .recordList _ => .recordList p now
  | .headerRead _ => .headerRead p now
  | .axleRead _ _ => .axleRead p now
  | .vehicleRead _ _ => .vehicleRead p now
  | .releaseRecord _ => .releaseRecord p now
  | .setSiteTime _ => .setSiteTime p now
  | .alarmRead _ _ => .alarmRead p now
  | .clearAlarm form _ => if form = 1 then .clearAlarmTrack p now else .clearAlarmNumber p now
  | .clearUnlisted => .clearUnlisted p now
  | .liveAxleRead _ => .liveAxleRead p now
  | .setWindow _ _ _ _ _ => .setWindow p now
  | .windowRead _ => .windowRead p now
  | .windowWrite _ => .windowWrite p now
  | .setWatch _ _ _ _ _ _ _ => .setWatch p now
  | .watchRead => .watchRead p now
  | .releaseWatch => .releaseWatch p now
  | .evaluateSnapshot _ _ _ _ _ _ _ => .evaluateSnapshot p now
  | .settingsRead _ _ => .settingsRead p now
  | .settingsWrite _ => .settingsWrite p now
  | .setPermissions _ => .setPermissions p now
  | .forceClose _ => .forceClose p now
  | .purgeRecord _ => .purgeRecord p now
  | .clearErrorCapture => .clearErrorCapture p now
  | .restart => .restart p now

/-- The site microsecond count after an event stamped `now` (log 1, log 3). -/
def countAt (s : State) (now : Nat) : Nat := max s.cac.count (min now Config.countMax)

/-- A state whose count has reached an event stamped `now`, nothing else touched. -/
def reached (s : State) (now : Nat) : State := { s with cac.count := countAt s now }

/-- A state in which a port's slot holds an answer at part 1, nothing else touched. -/
def answeredOn (s : State) (p : Port) (tag row : Nat) (status : Status) (payload : Payload) : State :=
  { s with ptu := s.ptu.set p { s.ptu.get p with slot := .answered tag row status payload 1 } }

/-- A state whose lines stand as the rules give them, nothing else touched. -/
def withLines (s : State) : State := { s with lines := linesOf s }

/-- A command leads from a state to exactly another one; then the close operation in flight, if one is, goes on with its own
work (log 8), and the lines are driven. -/
def LeadsTo (i : Instr) (s t : State) : Prop := exec i s = .next (withLines t.letClose)

/-- What the work of a close operation leaves alone: every block but the store, the alarms and the settings words it reads, and
of the Report Builder all but the operation's own progress and the truncation count (R96 to R110). -/
structure CloseWorkOnly (s t : State) : Prop where
  ts : t.ts = s.ts
  cac : t.cac = s.cac
  aee : t.aee = s.aee
  tas : t.tas = s.tas
  wat : t.wat = s.wat
  ptu : t.ptu = s.ptu
  sup : t.sup = s.sup
  lines : t.lines = s.lines
  startCheck : t.startCheck = s.startCheck
  pending : t.pending = s.pending
  handOver : t.rbu.handOver = s.rbu.handOver
  made : t.rbu.made = s.rbu.made
  discarded : t.rbu.discardedFull = s.rbu.discardedFull
  closing : (t.rbu.closeOp.map fun o => (o.closing, o.early)) = s.rbu.closeOp.map fun o => (o.closing, o.early)

end Sys2Proof.Machine
end

