-- ==== Sys2Proof/Certificates/Slice0/Obligations.lean ====
section
/-! DEFINITION. The statements for the provers: the step, the invariants every step keeps, what each command does and leaves
alone, and the shared computations. `countAt s now` is the count at an event stamped `now`; `LeadsTo i s t` says that command
`i` leads from `s` to exactly `t`, the close operation in flight then going on with its own work (what that can do:
`CloseWorkGoesOn`) and the lines driven, so what `t` takes from `s` is unchanged. -/

open Sys2Proof Sys2Proof.Machine

/-! ### The step and the whole machine -/

/-- The command at the front of the queue is the one that runs, on the state with the queue's rest. -/
def Obligations.StepRunsTheFrontCommand : Prop :=
  ∀ (c : Instr) (rest : List Instr) (s : State), s.pending = c :: rest → step s = exec c { s with pending := rest }

/-- With no command waiting one microsecond passes and the close operation in flight goes on, unless an event is due or the
START check runs: the model's choice (logs 2 and 8). -/
def Obligations.StepWithNoCommand : Prop :=
  ∀ s : State, s.pending = [] →
    (s.startCheck = true → step s = .next s) ∧ (eventDue s = true → step s = .next s) ∧
    (s.startCheck = false → eventDue s = false →
      step s = .next (withLines (reached s (s.cac.count + 1)).letClose))

/-- Every command answers a next state, and none touches the queue. -/
def Obligations.EveryCommandAnswers : Prop :=
  ∀ (i : Instr) (s : State), ∃ t, exec i s = .next t ∧ t.pending = s.pending

/-- The state after reset meets the four invariants, and holds what START leaves of the values the spec gives, with the inputs
at rest on a region never initialised (log 22; the bytes last sent, none: log 51). -/
def Obligations.ResetState : Prop :=
  let s := State.reset
  (Bounded s ∧ AlarmsDistinct s ∧ SupplyAgrees s ∧ ∀ t, TrackAgrees s t) ∧
  (∀ t, (s.ts.get t).mode = .arming ∧ (s.ts.get t).pending = none ∧ (s.ts.get t).crossings = 0 ∧ (s.ts.get t).rock = 0 ∧
    (s.ts.get t).held = 0 ∧ (s.ts.get t).faultHead = none ∧ s.cac.refresh.get t = some ⟨1, 0⟩ ∧
    s.cac.tareValid.get t = false ∧ s.tas.opens.get t = none) ∧
  s.cac.count = 0 ∧ s.cac.newest = 0 ∧ (∀ a, Memory.read s.cac.mem a = 0) ∧ (∀ r, s.cac.tare.getD r 0 = 0) ∧
  s.cac.siteTime = none ∧ s.cac.window = none ∧ s.aee = ⟨[], none, 0, 0, 0⟩ ∧ s.tas.closing = [] ∧ s.tas.lastTrain = 0 ∧
  s.rbu = ⟨none, [], 0, 0, 0⟩ ∧ s.trs.records = [] ∧ s.trs.capture = none ∧ s.trs.marker = .live ∧
  s.trs.markerAtStart = .absent ∧ s.alm.list = [] ∧ s.alm.handshake = .idle ∧ s.alm.unlisted = 0 ∧ s.wat.state = .off ∧
  s.wat.pendingCond = none ∧ s.wat.slot = none ∧ s.wat.matchCount = 0 ∧ s.wat.copy = none ∧
  (∀ n, s.setting n = settingDefault n) ∧ (∀ p, s.ptu.get p = ⟨none, [], .empty, none, 0, 0⟩) ∧ s.sup.mode = .run ∧
  s.sup.freeze = .none ∧ s.sup.freezes = 0 ∧ s.pending = []

/-- Every step keeps capture memory's canonical form, the window, the 48-bit count, the sizes of the job queue, the stacks, the
Closing List, the pools, the alarm list and the match count, the soundness of the close operation, and the lines. -/
def Obligations.BoundedKept : Prop :=
  ∀ s t : State, Bounded s → step s = .next t → Bounded t

/-- Every step keeps the alarm list to 64 entries, each key once and each slot once. -/
def Obligations.AlarmsDistinctKept : Prop :=
  ∀ s t : State, AlarmsDistinct s → step s = .next t → AlarmsDistinct t

/-- Every step keeps the Supply Monitor's values and the retention marker in agreement. -/
def Obligations.SupplyAgreesKept : Prop :=
  ∀ s t : State, SupplyAgrees s → step s = .next t → SupplyAgrees t

/-- Every step keeps each track's mode in agreement with its open train, its refresh, its timers, its fault head and the device
mode. -/
def Obligations.TracksAgreeKept : Prop :=
  ∀ s t : State, (∀ k, TrackAgrees s k) → step s = .next t → ∀ k, TrackAgrees t k

/-- The count runs back at no command but the end of a START check. -/
def Obligations.CountNeverRunsBack : Prop :=
  ∀ (i : Instr) (s t : State), (∀ inputs samples, i ≠ .startCheckEnd inputs samples) → exec i s = .next t →
    s.cac.count ≤ t.cac.count

/-- Where no word carries an error, the settings change at no command but Settings Write, Set Permissions and the end of a
START check. -/
def Obligations.SettingsKept : Prop :=
  ∀ (i : Instr) (s t : State), s.trs.errors = [] → (∀ p now, i ≠ .settingsWrite p now) →
    (∀ p now, i ≠ .setPermissions p now) → (∀ inputs samples, i ≠ .startCheckEnd inputs samples) → exec i s = .next t →
    t.settings = s.settings ∧ t.trs.errors = []

/-- After any command every line shows what the rules give it: STOP and WARN from the alarm list and the unlisted count,
NOTICE from the handshake, REPORT_READY and QUIET from the records, the modes and the jobs; during the START check each is negated. -/
def Obligations.LinesShown : Prop :=
  (∀ (i : Instr) (s t : State), s.lines = linesOf s → exec i s = .next t → ∀ k : Track,
     (t.startCheck = true → t.lines.stop.get k = false ∧ t.lines.warn.get k = false) ∧
     (t.startCheck = false →
       (t.lines.stop.get k = true ↔
         ∃ a ∈ t.alm.list, a.severity = .stop ∧ a.key.track = some k ∧ (a.state = .raised ∨ a.state = .seen)) ∧
       (t.lines.warn.get k = true ↔
         (∃ a ∈ t.alm.list, a.severity = .alert ∧ a.key.track = some k ∧ (a.state = .raised ∨ a.state = .seen)) ∨
           0 < t.alm.unlisted))) ∧
  (∀ (i : Instr) (s t : State), s.lines = linesOf s → exec i s = .next t →
     (t.startCheck = true → t.lines.reportReady = false ∧ t.lines.notice = false ∧ ∀ k, t.lines.quiet.get k = false) ∧
     (t.startCheck = false →
       (t.lines.notice = true ↔ t.alm.handshake = .notified) ∧
       (t.lines.reportReady = true ↔
         t.settingNat itemReportLineCount ≤ (t.trs.records.filter fun r => r.holders.report).length ∨
           (1 ≤ (t.trs.records.filter fun r => r.holders.report).length ∧
             ∀ k, (t.ts.get k).mode = .armed ∨ (t.ts.get k).mode = .dormant)) ∧
       ∀ k, t.lines.quiet.get k = true ↔
         ((t.ts.get k).mode = .armed ∨ (t.ts.get k).mode = .dormant) ∧ (∀ j ∈ t.aee.queue, j.track ≠ k) ∧
           ∀ f, t.aee.inFlight = some f → f.job.track ≠ k))

/-! ### Judgements and the alarm list -/

/-- A value judged against the three levels of its kind as they stand (threshold items 41 + 3 kind, watch, alert, stop). -/
def judgedNow (s : State) (key : AlarmKey) (value : Nat) (cls : ValueClass) : Judgement :=
  let k := 41 + 3 * kindCode key.kind
  let x := judge (s.settingNat k) (s.settingNat (k + 1)) (s.settingNat (k + 2)) value cls
  ⟨key, x.1, value, x.2, .level⟩

/-- The judgement of one value: the highest enabled level it reaches where it is VALID, the highest enabled level where it is
OVER, NONE for any other class; the level crossed gave the severity. -/
def ValueJudged : Prop :=
  ∀ w a st v : Nat,
    ((judge w a st v .valid).1 = .stop ↔ st ≠ 0 ∧ st ≤ v) ∧
    ((judge w a st v .valid).1 = .alert ↔ ¬ (st ≠ 0 ∧ st ≤ v) ∧ a ≠ 0 ∧ a ≤ v) ∧
    ((judge w a st v .valid).1 = .watch ↔ ¬ (st ≠ 0 ∧ st ≤ v) ∧ ¬ (a ≠ 0 ∧ a ≤ v) ∧ w ≠ 0 ∧ w ≤ v) ∧
    ((judge w a st v .over).1 = .stop ↔ st ≠ 0) ∧
    ((judge w a st v .over).1 = .alert ↔ st = 0 ∧ a ≠ 0) ∧
    ((judge w a st v .over).1 = .watch ↔ st = 0 ∧ a = 0 ∧ w ≠ 0) ∧
    (∀ c, c ≠ .valid → c ≠ .over → judge w a st v c = (.none, 0)) ∧
    ∀ c, (judge w a st v c).2 =
      match (judge w a st v c).1 with | .stop => st | .alert => a | .watch => w | .none => 0

/-- A listed entry after a judgement of its own key (R149). -/
def updatedBy (a : AlarmEntry) (j : Judgement) (time : Stamp) : AlarmEntry :=
  let b := { a with value := max a.value j.value, last := time }
  if sevRank a.severity < sevRank j.severity then
    { b with severity := j.severity, level := j.level, reason := j.reason, state := .raised, delivered := false }
  else if a.severity ≠ j.severity then b
  else if a.state = .cleared then { b with reason := j.reason, state := .raised, delivered := false }
  else { b with reason := j.reason }

/-- The entry a judgement of a new key becomes, in a list (R148, R150). -/
def NewEntry (s : State) (l : List AlarmEntry) (j : Judgement) (a : AlarmEntry) : Prop :=
  a.key = j.key ∧ a.severity = j.severity ∧ a.value = j.value ∧ a.level = j.level ∧ a.reason = j.reason ∧
  a.first = stampAt s.cac.siteTime s.cac.count ∧ a.last = a.first ∧ a.state = .raised ∧ a.delivered = false ∧
  a.number = nextNumber (l.map (·.number)) 64 s.alm.lastNumber ∧ (∀ b ∈ l, b.slot ≠ a.slot) ∧ a.slot < 64 ∧
  (∀ k, k < a.slot → ∃ b ∈ l, b.slot = k) ∧
  (a.link = .present ↔ ∃ n, j.key.train = some n ∧ ∃ r ∈ s.trs.records, r.number = n) ∧
  (a.link = .gone ↔ (∀ n, j.key.train = some n → ∀ r ∈ s.trs.records, r.number ≠ n) ∧ j.key.kind = .storeLoss ∧
    j.reason = .evicted)

/-- A value judged is entered with its severity, which is returned. A judgement on its way into the list: NONE changes nothing; a
listed key updates its entry in place; a new key joins as the newest entry; at 64 entries it takes the place of the
lowest-ranked one, unless that one's severity is higher: then it is unlisted and counted. The handshake becomes NOTIFIED or stays
as it is, the TAKE level and everything outside the Alarm Unit stay. -/
def Obligations.JudgementEntered : Prop :=
  ValueJudged ∧
  (∀ (s : State) (key : AlarmKey) (value : Nat) (cls : ValueClass), s.trs.errors = [] →
    s.judgeValue key value cls = (s.enterAlarm (judgedNow s key value cls), (judgedNow s key value cls).severity)) ∧
  ∀ (s : State) (j : Judgement), s.trs.errors = [] → AlarmsDistinct s →
    let u := s.enterAlarm j
    (j.severity = .none → u = s) ∧
    (j.severity ≠ .none →
      ((∃ a ∈ s.alm.list, a.key = j.key) →
        u.alm.list = s.alm.list.map (fun a => if a.key = j.key then updatedBy a j s.stamp else a) ∧
        u.alm.lastNumber = s.alm.lastNumber ∧ u.alm.evictions = s.alm.evictions ∧ u.alm.unlisted = s.alm.unlisted) ∧
      ((∀ a ∈ s.alm.list, a.key ≠ j.key) →
        (s.alm.list.length < 64 →
          ∃ a, NewEntry s s.alm.list j a ∧ u.alm.list = s.alm.list ++ [a] ∧ u.alm.lastNumber = a.number ∧
            u.alm.evictions = s.alm.evictions ∧ u.alm.unlisted = s.alm.unlisted) ∧
        (∀ l low l', s.alm.list.length = 64 → s.alm.list = l ++ low :: l' →
          (∀ b ∈ l, sevRank low.severity < sevRank b.severity ∨
            (low.severity = b.severity ∧ stateRank low.state < stateRank b.state)) →
          (∀ b ∈ l', sevRank low.severity < sevRank b.severity ∨
            (low.severity = b.severity ∧ stateRank low.state ≤ stateRank b.state)) →
          (sevRank low.severity ≤ sevRank j.severity →
            ∃ a, NewEntry s (l ++ l') j a ∧ u.alm.list = l ++ l' ++ [a] ∧ u.alm.lastNumber = a.number ∧
              u.alm.evictions = min (s.alm.evictions + 1) 65535 ∧ u.alm.unlisted = s.alm.unlisted) ∧
          (sevRank j.severity < sevRank low.severity →
            u.alm.list = s.alm.list ∧ u.alm.lastNumber = s.alm.lastNumber ∧ u.alm.evictions = s.alm.evictions ∧
              u.alm.unlisted = min (s.alm.unlisted + 1) 65535))) ∧
      (u.alm.handshake = .notified ↔ s.alm.handshake = .notified ∨
        (s.alm.handshake = .idle ∧ s.alm.takeHigh = false ∧ ∃ a ∈ u.alm.list, a.state = .raised))) ∧
    (u.alm.handshake = .notified ∨ u.alm.handshake = s.alm.handshake) ∧ u.alm.takeHigh = s.alm.takeHigh ∧
    u.alm.retired = s.alm.retired ∧ u.alm.dropped = s.alm.dropped ∧ u = { s with alm := u.alm }

/-! ### Room in the store -/

/-- A record gone from the store: its place in the order, its header and its entries freed, its alarms' links GONE. -/
def recordGone (s : State) (r : RecordDir) : State :=
  { s with
    trs :=
      { s.trs with
        records := s.trs.records.filter fun x => x.number != r.number
        headers := s.trs.headers.filter fun e => e.1 != r.header
        vehicles := s.trs.vehicles.filter fun e => !r.vehicles.contains e.1
        axles := s.trs.axles.filter fun e => !r.axles.contains e.1 }
    alm.list := s.alm.list.map fun a => if a.key.train = some r.number then { a with link := .gone } else a }

/-- The store makes room: it reclaims the oldest released record, and under KEEP_NEW, with none released, evicts the oldest
record, which raises a STORE_LOSS alarm of severity WATCH, reason EVICTED and the record's axle count, and does so again until
there is room; under KEEP_OLD, with none released, nothing more is done. `room` is what the request needs. -/
def Obligations.RoomMade : Prop :=
  ∀ (s : State) (room : State → Bool), s.trs.errors = [] →
    let kept := ∀ x ∈ s.trs.records, x.holders.report = true ∨ x.holders.alarm = true
    (room s = true → s.makeRoom room = s) ∧
    (∀ l r l', room s = false → s.trs.records = l ++ r :: l' →
      (∀ x ∈ l, x.holders.report = true ∨ x.holders.alarm = true) → r.holders = ⟨false, false⟩ →
      let u := { recordGone s r with trs.reclaims := min (s.trs.reclaims + 1) 65535 }
      (room u = true → s.makeRoom room = u) ∧ s.makeRoom room = u.makeRoom room) ∧
    (room s = false → kept → s.setting itemRetentionPolicy = 1 → s.makeRoom room = s) ∧
    (∀ r l, room s = false → kept → s.setting itemRetentionPolicy ≠ 1 → s.trs.records = r :: l →
      let gone := { recordGone s r with trs.evictions := min (s.trs.evictions + 1) 65535 }
      let u := gone.enterAlarm
        ⟨⟨some r.track, some r.number, none, none, .storeLoss⟩, .watch, (s.header r.header).axleCount, 0, .evicted⟩
      (room u = true → s.makeRoom room = u) ∧ s.makeRoom room = u.makeRoom room) ∧
    (room s = false → s.trs.records = [] → s.makeRoom room = s) ∧
    ∀ r, let u := recordGone s r
      look u.trs.headers r.header = none ∧ (∀ k ∈ r.axles, look u.trs.axles k = none) ∧
        (∀ k ∈ r.vehicles, look u.trs.vehicles k = none) ∧
        (∀ k, k ∉ r.axles → look u.trs.axles k = look s.trs.axles k) ∧
        (∀ k, k ∉ r.vehicles → look u.trs.vehicles k = look s.trs.vehicles k) ∧
        (∀ k, k ≠ r.header → look u.trs.headers k = look s.trs.headers k)

/-! ### Shared computations -/

/-- The frame a master sends for a request is judged good, with its tag and every field, whatever bytes follow it. -/
def FramesSent : Prop :=
  ∀ (tag : Nat) (r : Request) (rest : List Byte), tag < 256 → r.fits →
    goodFrame (requestFrame tag r) = some ⟨tag, r⟩ ∧ goodFrame (requestFrame tag r ++ rest) = some ⟨tag, r⟩

/-- The CRC-16 of R181: polynomial x^16 + x^12 + x^5 + 1, initial value FFFFh, each byte's most significant bit first. -/
def checkOf (l : List Byte) : BitVec 16 :=
  l.foldl
    (fun (c : BitVec 16) (b : Byte) =>
      (List.range 8).foldl (fun c _ => if 32768 ≤ c.toNat then (c <<< 1) ^^^ 0x1021#16 else c <<< 1)
        (c ^^^ (b.setWidth 16 <<< 8)))
    0xFFFF#16

/-- The body lengths that the catalogue allows for a kind (9.5). -/
def LengthAllowed (kind n : Nat) : Prop :=
  (n = 1 ∧ kind ∈ [10, 16, 17, 24, 25]) ∨ (n = 2 ∧ kind ∈ [1, 2, 11, 13, 22]) ∨ (n = 3 ∧ kind ∈ [3, 6, 8, 23]) ∨
    (n = 4 ∧ kind ∈ [5, 9, 19]) ∨ (n = 5 ∧ kind ∈ [4, 7]) ∨ (n = 8 ∧ kind = 12) ∨ (n = 9 ∧ kind = 15) ∨
    (n = 22 ∧ kind = 18) ∨ (n = 26 ∧ kind = 21) ∨ (kind = 14 ∧ n % 2 = 1 ∧ n ≤ 249) ∨
    (kind = 20 ∧ n % 6 = 1 ∧ 7 ≤ n ∧ n ≤ 247)

/-- A frame is good exactly where it begins with the start code, is whole, its kind is in the catalogue with that length, and its
check is the CRC-16 of kind, length and body; its kind and tag are read from it (R181). -/
def GoodFrames : Prop :=
  ∀ bytes : List Byte,
    (goodFrame bytes ≠ none ↔
      ∃ (kind length : Byte) (body : List Byte) (c d : Byte) (rest : List Byte),
        bytes = 0xA5#8 :: kind :: length :: (body ++ c :: d :: rest) ∧ body.length = length.toNat ∧
          LengthAllowed kind.toNat length.toNat ∧
          256 * c.toNat + d.toNat = (checkOf (kind :: length :: body)).toNat) ∧
    ∀ g, goodFrame bytes = some g →
      (bytes[1]?).map BitVec.toNat = some g.req.row ∧ (bytes[3]?).map BitVec.toNat = some g.tag

/-- Which frames are good, and that the frame a master sends for a request is one, with its tag and every field. -/
def Obligations.RequestFramesRead : Prop := FramesSent ∧ GoodFrames

/-- An axle entry whose fields fit takes 42 bytes, with each field where the layout has it. -/
def AxleLaidOut : Prop :=
  ∀ a : AxleEntry, a.index < 65536 → a.tOffset < 4294967296 → a.dt < 16777216 → a.speed < 65536 → a.spacing < 65536 →
    (∀ r, (a.rails.get r).static < 65536 ∧ (a.rails.get r).peak < 65536 ∧ (a.rails.get r).impact < 65536 ∧
      (a.rails.get r).ratio < 65536) → (∀ sd, (a.sides.get sd).rise < 65536) →
    let f := fieldAt (axleBytes a)
    (axleBytes a).length = 42 ∧ f 0 2 = a.index ∧ f 2 4 = a.tOffset ∧ f 6 3 = a.dt ∧ f 9 2 = a.speed ∧
      f 11 1 = classCode a.speedClass ∧ f 12 2 = a.spacing ∧ f 14 2 = a.rails.one.static ∧ f 16 2 = a.rails.one.peak ∧
      f 18 2 = a.rails.one.impact ∧ f 20 2 = a.rails.one.ratio ∧ f 22 1 = classCode a.rails.one.loadClass ∧
      f 23 1 = classCode a.rails.one.ratioClass ∧ f 24 2 = a.rails.two.static ∧ f 26 2 = a.rails.two.peak ∧
      f 28 2 = a.rails.two.impact ∧ f 30 2 = a.rails.two.ratio ∧ f 32 1 = classCode a.rails.two.loadClass ∧
      f 33 1 = classCode a.rails.two.ratioClass ∧ f 34 2 = a.sides.one.rise ∧ f 36 1 = classCode a.sides.one.cls ∧
      f 37 2 = a.sides.two.rise ∧ f 39 1 = classCode a.sides.two.cls ∧
      f 40 1 = 16 * sevRank a.wheelMark + sevRank a.bearingMark ∧ f 41 1 = (if a.watched then 1 else 0)

/-- A vehicle entry whose fields fit takes 21 bytes, with each field where the layout has it. -/
def VehicleLaidOut : Prop :=
  ∀ v : VehicleEntry, v.index < 256 → v.first < 65536 → v.count < 65536 → v.sum1 < 4294967296 → v.sum2 < 4294967296 →
    v.gross < 4294967296 → v.imbalance < 65536 →
    let f := fieldAt (vehicleBytes v)
    (vehicleBytes v).length = 21 ∧ f 0 1 = v.index ∧ f 1 2 = v.first ∧ f 3 2 = v.count ∧ f 5 4 = v.sum1 ∧
      f 9 4 = v.sum2 ∧ f 13 4 = v.gross ∧ f 17 2 = v.imbalance ∧ f 19 1 = sevRank v.worst ∧
      f 20 1 = (if v.incomplete then 1 else 0) + (if v.damaged then 2 else 0)

/-- A time that fits its 6 bytes. -/
def timeFits (t : Stamp) : Prop := t.seconds < 4294967296 ∧ t.millis < 65536

/-- A track, side or rail in one byte: its number, 0 where there is none. -/
def absentOr (t : Option Two) : Nat := match t with | none => 0 | some .one => 1 | some .two => 2

/-- A record header whose fields fit takes 48 bytes in a Header Read, with the axle count held at its end, the seven flags and the
two holders bit by bit, and the record's position last. -/
def HeaderLaidOut : Prop :=
  ∀ (h : Header) (holders : Holders) (position : Nat), h.number < 65536 → timeFits h.openTime → timeFits h.closeTime →
    h.phantoms < 4294967296 → h.depth < 65536 → h.unwinds < 65536 → h.withdrawals < 65536 → h.minSpeed < 65536 →
    h.maxSpeed < 65536 → h.meanSpeed < 65536 → h.vehicleCount < 256 → h.gross < 4294967296 → h.coverage < 65536 →
    position < 256 →
    let f := fieldAt (headerBytes h holders position)
    let bit (n : Nat) (b : Bool) : Nat := if b then n else 0
    (headerBytes h holders position).length = 48 ∧ f 0 2 = h.number ∧ f 2 1 = absentOr h.track ∧
      f 3 1 = (match h.dir with | .up => 0 | .down => 1) ∧ f 4 4 = h.openTime.seconds ∧ f 8 2 = h.openTime.millis ∧
      f 10 4 = h.closeTime.seconds ∧ f 14 2 = h.closeTime.millis ∧
      f 16 1 = (match h.reason with
        | .normal => 0 | .abandoned => 1 | .detectorFault => 2 | .forced => 3 | .power => 4) ∧
      f 17 4 = min h.axleCount 4294967295 ∧ f 21 4 = h.phantoms ∧ f 25 2 = h.depth ∧ f 27 2 = h.unwinds ∧
      f 29 2 = h.withdrawals ∧ f 31 2 = h.minSpeed ∧ f 33 2 = h.maxSpeed ∧ f 35 2 = h.meanSpeed ∧
      f 37 1 = h.vehicleCount ∧ f 38 4 = h.gross ∧ f 42 2 = h.coverage ∧ f 44 1 = sevRank h.worst ∧
      f 45 1 = bit 1 h.flags.power + bit 2 h.flags.overlength + bit 4 h.flags.poolShort
        + bit 8 h.flags.vehiclesTruncated + bit 16 h.flags.damaged + bit 32 h.flags.untared + bit 64 h.flags.timeUnset ∧
      f 46 1 = bit 1 holders.report + bit 2 holders.alarm ∧ f 47 1 = position

/-- An alarm entry whose fields fit takes 32 bytes, with each field where the layout has it, a part its key lacks coded 0. -/
def AlarmLaidOut : Prop :=
  ∀ a : AlarmEntry, a.number < 65536 → (a.key.train.getD 0) < 65536 → (a.key.axle.getD 0) < 65536 →
    a.value < 4294967296 → a.level < 65536 → timeFits a.first → timeFits a.last →
    let f := fieldAt (alarmBytes a)
    (alarmBytes a).length = 32 ∧ f 0 2 = a.number ∧ f 2 1 = absentOr a.key.track ∧ f 3 2 = a.key.train.getD 0 ∧
      f 5 2 = a.key.axle.getD 0 ∧ f 7 1 = absentOr a.key.side ∧ f 8 1 = kindCode a.key.kind ∧
      f 9 1 = sevRank a.severity ∧ f 10 4 = a.value ∧ f 14 2 = a.level ∧ f 16 1 = alarmReasonCode a.reason ∧
      f 17 4 = a.first.seconds ∧ f 21 2 = a.first.millis ∧ f 23 4 = a.last.seconds ∧ f 27 2 = a.last.millis ∧
      f 29 1 = (match a.state with | .raised => 0 | .seen => 1 | .cleared => 2) ∧
      f 30 1 = (if a.delivered then 1 else 0) + (if a.first.unset ∨ a.last.unset then 2 else 0) ∧
      f 31 1 = (match a.link with | .present => 0 | .gone => 1 | .none => 2)

/-- The bytes of an axle entry, a vehicle entry, a record header and an alarm entry in an answer (the codes of the lists that the
layouts do not number: log 17). -/
def Obligations.AxleEntryLayout : Prop := AxleLaidOut ∧ VehicleLaidOut ∧ HeaderLaidOut ∧ AlarmLaidOut

/-- Grouping puts every axle of a train into exactly one vehicle, in order, and leaves no vehicle empty: an axle joins the bogie
before it at a spacing of at most B_max, a bogie joins the vehicle before it at a gap of at least V_min; the cut to 160 vehicles
keeps every axle. -/
def Obligations.GroupingKeepsAxles : Prop :=
  ∀ (bMax vMin : Nat) (l : List HandAxle),
    let gap (g : List HandAxle) : Nat := (g.head?.map fun a => a.axle.spacing).getD 0
    let b := bogies bMax l
    let v := vehicles vMin b
    b.flatten = l ∧ (∀ g ∈ b, g ≠ [] ∧ ∀ a ∈ g.tail, a.axle.spacing ≤ bMax) ∧ (∀ g ∈ b.tail, bMax < gap g) ∧
    (∃ w : List (List (List HandAxle)), w.flatten = b ∧ v = w.map List.flatten ∧
      (∀ x ∈ w, x ≠ [] ∧ ∀ g ∈ x.tail, vMin ≤ gap g) ∧ ∀ x ∈ w.tail, ∀ g, x.head? = some g → gap g < vMin) ∧
    v.flatten = l ∧ (∀ g ∈ v, g ≠ []) ∧ (mergeFrom Config.vehicleLimit v).flatten = l ∧
    (mergeFrom Config.vehicleLimit v).length = min v.length 160 ∧
    (mergeFrom Config.vehicleLimit v).take 159 = v.take 159

/-- The static loads of a rail's VALID wheels. -/
def validLoads (r : Side) (l : List HandAxle) : List Nat :=
  (l.filter fun a => (a.axle.rails.get r).loadClass == .valid).map fun a => (a.axle.rails.get r).static

/-- The rises of a side's VALID bearings. -/
def validRises (sd : Side) (l : List HandAxle) : List Nat :=
  (l.filter fun a => (a.axle.sides.get sd).cls == .valid).map fun a => (a.axle.sides.get sd).rise

/-- The fields of a vehicle of the vehicle list (R100, R101). -/
def VehicleFields (i : Nat) (g : List HandAxle) : Prop :=
  let v := vehicleOf i g
  v.index = i ∧ (∀ a, g.head? = some a → v.first = a.axle.index) ∧ v.count = g.length ∧
  v.sum1 = (validLoads .one g).sum ∧ v.sum2 = (validLoads .two g).sum ∧ v.gross = v.sum1 + v.sum2 ∧
  (v.gross = 0 → v.imbalance = 0) ∧
  (0 < v.gross → v.imbalance = ((v.sum1 : Int) - v.sum2).natAbs * 1000 / v.gross) ∧ v.imbalance ≤ 1000 ∧
  (v.incomplete = true ↔ ∃ a ∈ g, ∃ r, (a.axle.rails.get r).loadClass ≠ .valid)

/-- The totals of a train (R102, R103): its speeds, its gross load as the sum of its vehicles', its coverage. -/
def TotalsFields (l : List HandAxle) (phantoms : Nat) : Prop :=
  let t := totalsOf l phantoms
  let speeds := (l.filter fun a => a.axle.speedClass == .valid).map fun a => a.axle.speed
  let measured (a : HandAxle) (r : Side) : Nat :=
    if (a.axle.rails.get r).loadClass = .valid ∨ (a.axle.rails.get r).loadClass = .over then 1 else 0
  t.axleCount = l.length + phantoms ∧
  (speeds = [] → t.minSpeed = 0 ∧ t.maxSpeed = 0 ∧ t.meanSpeed = 0) ∧
  (speeds ≠ [] → t.minSpeed ∈ speeds ∧ t.maxSpeed ∈ speeds ∧ (∀ v ∈ speeds, t.minSpeed ≤ v ∧ v ≤ t.maxSpeed) ∧
    t.meanSpeed = speeds.sum / speeds.length) ∧
  (∀ bMax vMin i, t.gross =
    ((mergeFrom 160 (vehicles vMin (bogies bMax l))).map fun g => (vehicleOf i g).gross).sum) ∧
  (0 < t.axleCount → t.coverage =
    (2 * t.axleCount - (l.map fun a => measured a .one + measured a .two).sum) * 1000 / (2 * t.axleCount) ∧
    t.coverage ≤ 1000)

/-- The BEARING_RELATIVE judgements of a side (R104): none with fewer than 4 VALID bearings, else the differences to their
mean, by ascending axle, of VALID bearings not below it and of OVER bearings (held at 0). -/
def RelativeFields (tr : Train) (sd : Side) (l : List HandAxle) : Prop :=
  let judged := relativeJudgements tr sd l
  let mean := (validRises sd l).sum / (validRises sd l).length
  let takes (a : HandAxle) : Bool :=
    let b := a.axle.sides.get sd
    b.cls == .over || (b.cls == .valid && decide (mean ≤ b.rise))
  ((validRises sd l).length < 4 → judged = []) ∧
  (4 ≤ (validRises sd l).length → judged = (l.filter takes).map fun a =>
    ⟨.axle a.entry, ⟨some tr.track, some tr.number, some a.axle.index, some sd, .bearingRelative⟩,
      (a.axle.sides.get sd).rise - mean, (a.axle.sides.get sd).cls⟩)

/-- The two judgements of a vehicle, overload before imbalance (R105). -/
def vehicleJudged (tr : Train) (i : Nat) (g : List HandAxle) : List CloseJudgement :=
  let v := vehicleOf i g
  let has (c : ValueClass) : Bool := g.any fun a => (a.axle.rails.get .one).loadClass == c || (a.axle.rails.get .two).loadClass == c
  [⟨.vehicle i, ⟨some tr.track, some tr.number, some v.first, none, .vehicleOverload⟩, v.gross,
      if has .over then .over else if has .valid then .valid else .notMeasured⟩,
    ⟨.vehicle i, ⟨some tr.track, some tr.number, some v.first, none, .vehicleImbalance⟩, v.imbalance,
      if v.incomplete then .notMeasured else .valid⟩]

/-- A severity is the highest of some, NONE for none. -/
def Highest (w : Severity) (l : List Severity) : Prop :=
  (∀ x ∈ l, sevRank x ≤ sevRank w) ∧ (w = .none ∨ w ∈ l)

/-- The worst severities of a vehicle and of the train (R107). -/
def WorstFields (o : CloseOp) : Prop :=
  let said (p : CloseJudgement → Bool) : List Severity := (o.returned.filter fun r => p r.1).map (·.2)
  (∀ i g, Highest (vehicleWorst o i g)
    (said (fun j => j.about == .vehicle i) ++ (g.flatMap fun a => [a.axle.wheelMark, a.axle.bearingMark])
      ++ said fun j => g.any fun a => j.about == .axle a.entry)) ∧
  Highest (trainWorst o)
    (((groupsOf o).zipIdx 1).map (fun x => vehicleWorst o x.2 x.1) ++ said (fun j => j.about == .train)
      ++ match o.closing.reason with | .detectorFault => [.alert] | .power => [.watch] | _ => [])

/-- What a close operation makes of the entries it has read: the vehicles' fields, the train's totals, the close judgements (side
1, side 2, the vehicles in order, coverage last), and the worst severities. -/
def Obligations.TotalsAndJudgements : Prop :=
  (∀ (i : Nat) (g : List HandAxle), VehicleFields i g) ∧
  (∀ (l : List HandAxle) (phantoms : Nat), TotalsFields l phantoms) ∧
  (∀ (tr : Train) (sd : Side) (l : List HandAxle), RelativeFields tr sd l) ∧
  ∀ o : CloseOp, WorstFields o ∧
    closeJudgements o =
      relativeJudgements o.closing.train .one o.read ++ relativeJudgements o.closing.train .two o.read
        ++ ((mergeFrom 160 (vehicles o.vMin (bogies o.bMax o.read))).zipIdx 1).flatMap
          (fun g => vehicleJudged o.closing.train g.2 g.1)
        ++ [⟨.train, ⟨some o.closing.train.track, some o.closing.train.number, none, none, .coverage⟩,
          (totalsOf o.read o.closing.train.phantoms).coverage, .valid⟩]

/-- An entry as the Report Builder uses it: of one whose speed class is DAMAGED the spacing is 0, the wheels unmeasured and the
marks NONE (R97); its bearings stand as they are, the model's reading (log 26). -/
def usedEntry (a : AxleEntry) : AxleEntry :=
  if a.speedClass = .damaged then
    { a with
      spacing := 0
      rails := ⟨⟨0, 0, 0, 0, .damaged, .damaged⟩, ⟨0, 0, 0, 0, .damaged, .damaged⟩⟩
      wheelMark := .none
      bearingMark := .none }
  else a

/-- A piece of JUDGING (R104 to R106): the judgement is made with the levels of that moment and entered, one about an axle raises
its bearing mark, and the severity is kept; with the last one RECORDING begins. -/
def HandedOn (s : State) (o : CloseOp) (j : CloseJudgement) (rest : List CloseJudgement) : Prop :=
  let said := judgedNow s j.key j.value j.cls
  let v := s.enterAlarm said
  let marked : State :=
    match j.about with
    | .axle n => if said.severity = .none then v else v.onAxle n (raiseMark j.key.kind said.severity)
    | .vehicle _ | .train => v
  let broken : Bool := match j.about with | .axle n => (s.axle n).speedClass == .damaged | .vehicle _ | .train => false
  s.closePiece =
    { marked with
      rbu.closeOp := some
        { o with
          phase := if rest = [] then .recording else .judging
          todo := rest
          returned := o.returned ++ [(j, said.severity)]
          damaged := o.damaged || broken } }

/-- The piece of RECORDING that asks for the vehicle entries (R100, R107, R110): as many as there are vehicles, or, where they
cannot be had, as many as are FREE, the list cut to them and the loss counted. A vehicle's worst severity is that of its place in
the list; for the last one of a cut list that is the model's reading (log 25). -/
def VehiclesTaken (s u : State) (o : CloseOp) : Prop :=
  let all := mergeFrom 160 (vehicles o.vMin (bogies o.bMax o.read))
  let left := 1024 - s.trs.vehicles.length
  let groups := if left < all.length then mergeFrom left all else all
  ∃ refs, u.rbu.closeOp = some { o with vehicles := some refs, cut := decide (left < all.length) } ∧
    refs.length = groups.length ∧ refs.Nodup ∧ (∀ k ∈ refs, look s.trs.vehicles k = none ∧ k < 1024) ∧
    (∀ i k g, refs[i]? = some k → groups[i]? = some g →
      look u.trs.vehicles k = some { vehicleOf (i + 1) g with worst := vehicleWorst o (i + 1) g }) ∧
    (∀ k, k ∉ refs → look u.trs.vehicles k = look s.trs.vehicles k) ∧
    u.rbu.truncated = (if left < all.length then min (s.rbu.truncated + 1) 65535 else s.rbu.truncated) ∧
    u.alm = s.alm ∧ u.trs.records = s.trs.records ∧ u.trs.headers = s.trs.headers ∧ u.trs.axles = s.trs.axles

/-- What a close operation does between events (log 8: how many pieces is open): nothing where none is in flight; else some pieces
of its work, which touch the store, the alarms, the settings words they read and its own progress only. Each piece: an entry read
by ascending axle (the bearings of a DAMAGED entry stand as they are: log 26; an entry counts as it was read: log 56), the end of
GROUPING, a judgement handed on, the header asked for, the vehicle entries asked for (the worst severity of a vehicle of a cut
list: log 25). -/
def Obligations.CloseWorkGoesOn : Prop :=
  (∀ s : State, CloseWorkOnly s s.letClose ∧ (s.rbu.closeOp = none → s.letClose = s) ∧
    (s.rbu.closeOp ≠ none → ∃ n, s.letClose = State.closePieces { s with free := s.free + 1 } n)) ∧
  ∀ (s : State) (o : CloseOp), s.trs.errors = [] → s.rbu.closeOp = some o →
    let stack := o.closing.train.stack
    let list := vehicles o.vMin (bogies o.bMax o.read)
    (o.phase = .grouping →
      (∀ i, stack[o.read.length]? = some i →
        s.closePiece = { s with
          rbu.closeOp := some
            { o with
              read := o.read ++ [⟨i.entry, usedEntry (s.axle i.entry)⟩]
              damaged := o.damaged || (s.axle i.entry).speedClass == .damaged } }) ∧
      (stack.length ≤ o.read.length →
        s.closePiece = { s with
          rbu :=
            { s.rbu with
              closeOp := some { o with phase := .judging, todo := closeJudgements o }
              truncated := if 160 < list.length then min (s.rbu.truncated + 1) 65535 else s.rbu.truncated } })) ∧
    (o.phase = .judging → ∀ j rest, o.todo = j :: rest → HandedOn s o j rest) ∧
    (o.phase = .recording → o.header = none →
      (∀ k, lowestFree s.trs.headers 32 = some k →
        s.closePiece = { s with
          trs.headers := put s.trs.headers k .allocated
          rbu.closeOp := some { o with header := some k } }) ∧
      (lowestFree s.trs.headers 32 = none → s.setting itemRetentionPolicy = 1 →
        (∀ r ∈ s.trs.records, r.holders.report = true ∨ r.holders.alarm = true) → s.closePiece = s)) ∧
    (o.phase = .recording → o.header ≠ none → o.vehicles = none → poolFits s.trs.vehicles 1024 →
      ((mergeFrom 160 list).length ≤ 1024 - s.trs.vehicles.length ∨
        (s.setting itemRetentionPolicy = 1 ∧ ∀ r ∈ s.trs.records, r.holders.report = true ∨ r.holders.alarm = true)) →
      VehiclesTaken s s.closePiece o)

/-- A wheel whose zone sum is the same F in 0..65535 units at every sample of a window of at least 16, nothing saturated and
the tare valid, has P_s = P_p = F rounded, impact 0, and (with a static load of at least 1 and P_min) a ratio of 100, all
VALID. -/
def WheelSteady : Prop :=
  ∀ (v : TakeValues) (read : Reader) (j : Job) (r : Side) (level : Int), v.tareValid = true → 16 ≤ windowLength j →
    (∀ k, j.ls ≤ k → k ≤ j.le →
      zoneSum v read r k = level ∧ ∀ i ∈ activeRows v r, saturated (read i k) = false) →
    0 ≤ level → (level + 32768) / 65536 ≤ 65535 →
    let load := ((level + 32768) / 65536).toNat
    let out := (evalRail v read j r).1
    out.static = load ∧ out.peak = load ∧ out.impact = 0 ∧ out.loadClass = .valid ∧
      (1 ≤ load → v.pMin ≤ load → out.ratio = 100 ∧ out.ratioClass = .valid)

/-- A bearing: from the greatest sample m of its row over the gate its rise is ((m − tare) gain + 32768) div 65536, held at 0;
its class is ABSENT with gain 0, that of a take check, OVER with a saturated sample, SUSPECT without a valid tare, else VALID. -/
def BearingEvaluated : Prop :=
  ∀ (v : TakeValues) (read : Reader) (j : Job) (sd : Side),
    let row := match sd with | .one => 8 | .two => 9
    let gain := v.gains.getD row 0
    (gain = 0 → ∀ c, sideResult v read j c sd = ⟨0, .absent⟩) ∧
    (gain ≠ 0 → ∀ c, sideResult v read j (some c) sd = ⟨0, c⟩) ∧
    (gain ≠ 0 → ∀ m : Int, (∀ k, j.bs ≤ k → k ≤ j.be → (read row k).toInt ≤ m) →
      (∃ k, j.bs ≤ k ∧ k ≤ j.be ∧ (read row k).toInt = m) →
      let out := sideResult v read j none sd
      out.rise = (((m - v.tares.getD row 0) * (gain : Int) + 32768) / 65536).toNat ∧
      ((∃ k, j.bs ≤ k ∧ k ≤ j.be ∧ ((read row k).toInt = 32767 ∨ (read row k).toInt = -32768)) → out.cls = .over) ∧
      ((∀ k, j.bs ≤ k → k ≤ j.be → (read row k).toInt ≠ 32767 ∧ (read row k).toInt ≠ -32768) →
        out.cls = if v.tareValid then .valid else .suspect))

/-- The zone sum F(k) of a rail: over its four rows but those with gain 0, the tared sample times the gain (R57, R58). -/
def zoneAt (v : TakeValues) (read : Reader) (r : Side) (k : Int) : Int :=
  ((List.range 4).map fun i =>
    let row := match r with | .one => i | .two => i + 4
    if v.gains.getD row 0 = 0 then 0 else ((read row k).toInt - v.tares.getD row 0) * (v.gains.getD row 0 : Int)).sum

/-- A wheel of any zone sum F over its window [Ls, Le] (R58 to R64): the mean of the core, which leaves n div 8 samples at each end
of a window of 16 or more, truncated toward zero and rounded; the greatest F rounded, and the first sample that reaches it; both
held to 0..65535; OVER before SUSPECT before VALID; the ratio NOT_MEASURED for a light wheel, held at 999 as OVER. -/
def WheelEvaluated : Prop :=
  ∀ (v : TakeValues) (read : Reader) (j : Job) (r : Side) (greatest first : Int),
    let f := zoneAt v read r
    let inWindow (k : Int) : Prop := j.ls ≤ k ∧ k ≤ j.le
    inWindow first → f first = greatest → (∀ k, inWindow k → f k ≤ greatest) →
    (∀ k, inWindow k → k < first → f k < greatest) →
    let n := (j.le - j.ls + 1).toNat
    let trim := if n < 16 then 0 else n / 8
    let sum := ((List.range (n - 2 * trim)).map fun i : Nat => f (j.ls + trim + i)).sum
    let cut := (n : Int) - 2 * trim
    let mean := if 0 ≤ sum then sum / cut else -(-sum / cut)
    let ps := (mean + 32768) / 65536
    let pp := (greatest + 32768) / 65536
    let held (x : Int) : Nat := (max 0 (min 65535 x)).toNat
    let hit := ∃ k, inWindow k ∧ ∃ i, i < 4 ∧
      let row := match r with | .one => i | .two => i + 4
      v.gains.getD row 0 ≠ 0 ∧ ((read row k).toInt = 32767 ∨ (read row k).toInt = -32768)
    let isOver := 65535 < ps ∨ 65535 < pp ∨ hit
    let suspect := n < 16 ∨ ps < 0 ∨ v.tareValid = false
    let out := (evalRail v read j r).1
    (evalRail v read j r).2 = some first ∧ out.static = held ps ∧ out.peak = held pp ∧ held ps ≤ held pp ∧
      out.impact = held pp - held ps ∧ (isOver → out.loadClass = .over) ∧ (¬ isOver → suspect → out.loadClass = .suspect) ∧
      (¬ isOver → ¬ suspect → out.loadClass = .valid) ∧
      (held ps = 0 ∨ held ps < v.pMin → out.ratio = 0 ∧ out.ratioClass = .notMeasured) ∧
      (0 < held ps → v.pMin ≤ held ps →
        100 ≤ held pp * 100 / held ps ∧
        (999 < held pp * 100 / held ps → out.ratio = 999 ∧ out.ratioClass = .over) ∧
        (held pp * 100 / held ps ≤ 999 → out.ratio = held pp * 100 / held ps ∧ out.ratioClass = out.loadClass))

/-- A wheel of any zone sum, one of constant zone sum, and a bearing. -/
def Obligations.SteadyWheel : Prop := WheelEvaluated ∧ WheelSteady ∧ BearingEvaluated

/-! ### Heads, crossings and trains -/

/-- A head turns OFF: outside FAULT its stuck timer stops; in FAULT the recovery timer starts with the second head OFF. -/
def HeadTurnsOff : Prop :=
  ∀ (s : State) (t : Track) (h : Head) (now : Nat), s.startCheck = false → s.trs.errors = [] →
    let q := s.ts.get t
    let off := q.heads.set (headIx h) false
    let after (q : Sequencer) : State := { reached s now with ts := s.ts.set t q }
    (q.mode ≠ .fault →
      LeadsTo (.headOff t h now) s (after { q with heads := off, stuck := q.stuck.set (headIx h) none })) ∧
    (q.mode = .fault → (off.one = true ∨ off.two = true) → LeadsTo (.headOff t h now) s (after { q with heads := off })) ∧
    (q.mode = .fault → off.one = false → off.two = false →
      LeadsTo (.headOff t h now) s
        (after { q with heads := off, recovery := some (countAt s now + 10000000) }))

/-- The stuck timers of a track when a head has turned ON: T_stuck with occupancy fitted and CLEAR, T_abandon with occupancy
not fitted, none started while OCCUPIED. -/
def stuckAfterOn (s : State) (t : Track) (h : Head) (now : Nat) : Pair Timer :=
  if s.setting (itemFitted t) = 1 then
    if (s.ts.get t).occupied then (s.ts.get t).stuck
    else (s.ts.get t).stuck.set (headIx h) (some (countAt s now + s.settingNat itemTStuck * 100000))
  else (s.ts.get t).stuck.set (headIx h) (some (countAt s now + s.settingNat itemTAbandon * 100000))

/-- A track that enters ARMING at a count: in RUN a refresh begins with the next sample, in REDUCED and FROZEN it goes on to
ARMED at once with both idle timers started; its other timers are stopped. -/
def armingOf (s : State) (t : Track) (count : Nat) (q : Sequencer) : State :=
  let stopped : Sequencer :=
    { q with
      tSettle := none, tEnd := none, tStand := none, tAbandon := none, tDormant := none, tRetare := none, recovery := none }
  if s.sup.mode = .run then
    { s with
      ts := s.ts.set t { stopped with mode := .arming }
      cac.refresh := s.cac.refresh.set t (some ⟨s.cac.newest + 1, 0⟩) }
  else
    { s with
      ts := s.ts.set t
        { stopped with
          mode := .armed
          tDormant := some (count + s.settingNat itemTDormant * 100000)
          tRetare := some (count + s.settingNat itemTRetare * 100000) } }

/-- A head turns ON. No crossing pending: the crossing becomes pending; in FAULT only the recovery timer stops. The first head again:
the new time replaces the old and the rock count rises. The second head in FROZEN: the crossing is counted and held, nothing
else. A DORMANT track goes to ARMING (in REDUCED and FROZEN on to ARMED) whichever of these the head is (what is done with a
crossing pending from before DORMANT, and when: log 41; outside FROZEN the second head opens a train: `CrossingOpensTrain`). -/
def HeadTurnsOn : Prop :=
  ∀ (s : State) (t : Track) (h : Head) (now : Nat), s.startCheck = false → s.trs.errors = [] →
    let q := s.ts.get t
    let on := q.heads.set (headIx h) true
    let stuck := stuckAfterOn s t h now
    let after (q : Sequencer) : State := { reached s now with ts := s.ts.set t q }
    (q.mode = .fault → LeadsTo (.headOn t h now) s (after { q with heads := on, recovery := none })) ∧
    (q.mode ≠ .fault → q.mode ≠ .dormant →
      (q.pending = none →
        LeadsTo (.headOn t h now) s
          (after { q with heads := on, stuck := stuck, pending := some (h, countAt s now) })) ∧
      (∀ time, q.pending = some (h, time) →
        LeadsTo (.headOn t h now) s
          (after
            { q with
              heads := on, stuck := stuck, pending := some (h, countAt s now), rock := min (q.rock + 1) 65535 })) ∧
      (∀ first time, s.sup.mode = .frozen → q.pending = some (first, time) → first ≠ h →
        LeadsTo (.headOn t h now) s
          (after
            { q with
              heads := on, stuck := stuck, pending := none, crossings := min (q.crossings + 1) 65535,
              held := min (q.held + 1) 65535 }))) ∧
    (q.mode = .dormant →
      let woken (q : Sequencer) : Prop := LeadsTo (.headOn t h now) s (armingOf (reached s now) t (countAt s now) q)
      let q' := { q with heads := on, stuck := stuck }
      (q.pending = none → woken { q' with pending := some (h, countAt s now) }) ∧
      (∀ time, q.pending = some (h, time) →
        woken { q' with pending := some (h, countAt s now), rock := min (q.rock + 1) 65535 }) ∧
      (∀ first time, s.sup.mode = .frozen → q.pending = some (first, time) → first ≠ h →
        woken
          { q' with pending := none, crossings := min (q.crossings + 1) 65535, held := min (q.held + 1) 65535 }))

/-- HEAD_OFF and HEAD_ON outside the recognition of a crossing that a train is concerned with. -/
def Obligations.HeadEvents : Prop := HeadTurnsOff ∧ HeadTurnsOn

/-- The speed of a crossing and its class: truncated, held at 3000 as OVER, LOW_SPEED below V_low (R8; that OVER is judged on the
truncated quotient: log 55). -/
def speedRule (d dt vLow : Nat) : Nat × ValueClass :=
  if dt = 0 then (3000, .over)
  else if 3000 < 36000 * d / dt then (3000, .over)
  else if 36000 * d / dt < vLow then (36000 * d / dt, .lowSpeed)
  else (36000 * d / dt, .valid)

/-- The time t(x) at which a wheel stands at a coordinate (R50): t_A and, for UP, or less, for DOWN, x times Δt over D truncated
toward zero. -/
def standsAt (dir : Direction) (tA dt d : Nat) (x : Int) : Int :=
  let moved : Int := if 0 ≤ x then x * dt / d else -(-x * dt / d)
  match dir with | .up => tA + moved | .down => tA - moved

/-- The sample numbers of two times, ascending, each its time div 250 toward minus infinity (R50). -/
def samplesFrom (a b : Int) : Int × Int := (min (a / 250) (b / 250), max (a / 250) (b / 250))

/-- The load window of a crossing: the samples of t(Gs) and t(Ge) (R50). -/
def loadSamples (s : State) (t : Track) (dir : Direction) (tA dt : Nat) : Int × Int :=
  let at' := standsAt dir tA dt (s.settingNat (itemD t))
  samplesFrom (at' (s.setting (itemGs t))) (at' (s.setting (itemGe t)))

/-- The bearing gate of a crossing: the samples of t(H − w) and t(H + w), w half of W (R50). -/
def gateSamples (s : State) (t : Track) (dir : Direction) (tA dt : Nat) : Int × Int :=
  let at' := standsAt dir tA dt (s.settingNat (itemD t))
  let w := s.setting (itemW t) / 2
  samplesFrom (at' (s.setting (itemH t) - w)) (at' (s.setting (itemH t) + w))

/-- The crossing that a second head completes. -/
def completedCrossing (s : State) (first : Head) (time now : Nat) : Crossing :=
  { dir := if first = .a then .up else .down
    dt := min (countAt s now - time) 16777215
    tA := if first = .a then time else countAt s now }

/-- A crossing of a track is recognised now: another head completes the one pending, outside FROZEN, where no word carries an
error. -/
def Crosses (s : State) (t : Track) (h first : Head) (time : Nat) : Prop :=
  s.startCheck = false ∧ s.trs.errors = [] ∧ s.sup.mode ≠ .frozen ∧ (s.ts.get t).pending = some (first, time) ∧ first ≠ h

/-- The timer of an open train that a crossing starts or restarts (R11, R12, R18 to R20). -/
def trainTimers (s : State) (t : Track) (count : Nat) (q : Sequencer) : Sequencer :=
  if s.setting (itemFitted t) = 1 then
    if (s.ts.get t).occupied then { q with tStand := some (count + s.settingNat itemTStand * 100000) }
    else { q with tSettle := some (count + s.settingNat itemTSettle * 100000) }
  else { q with tEnd := some (count + s.settingNat itemTEnd * 100000) }

/-- The number a train takes: the next after the last, 1 to 65535 and then 1 again, the numbers in use skipped (R76). -/
def NumberGiven : Prop :=
  ∀ (used : List Nat) (last : Nat), last ≤ 65535 → used.length < 65535 →
    ∃ d, d ≤ used.length ∧ nextNumber used used.length last = (last + d) % 65535 + 1 ∧
      nextNumber used used.length last ∉ used ∧ ∀ i, i < d → (last + i) % 65535 + 1 ∈ used

/-- Room for one axle entry. -/
def oneAxle (s : State) : Bool := (lowestFree s.trs.axles 4096).isSome

/-- The new axle entry of a forward crossing, its results PENDING or, without a job, NOT_MEASURED (R9, R48, R81). -/
def pushedEntry (s : State) (t : Track) (tr : Train) (c : Crossing) (speed : Nat × ValueClass) : AxleEntry :=
  let cls : ValueClass := if s.aee.queue.length < 16 then .pending else .notMeasured
  { index := tr.stack.length + 1
    tOffset := (c.tA - tr.openCount) / 1000
    dt := c.dt
    speed := speed.1
    speedClass := speed.2
    spacing :=
      match tr.stack.getLast? with
      | none => 0
      | some top => if c.dt = 0 then 65535 else min 65535 (s.settingNat (itemD t) * (c.tA - top.tA) / c.dt)
    rails := ⟨⟨0, 0, 0, 0, cls, cls⟩, ⟨0, 0, 0, 0, cls, cls⟩⟩
    sides := ⟨⟨0, cls⟩, ⟨0, cls⟩⟩
    wheelMark := .none
    bearingMark := .none
    watched := false }

/-- The live job of a new axle entry (R47, R50, R52). -/
def pushedJob (s : State) (t : Track) (tr : Train) (c : Crossing) (speed : Nat × ValueClass) (k : Nat) : Job :=
  let load := loadSamples s t c.dir c.tA c.dt
  let gate := gateSamples s t c.dir c.tA c.dt
  { owner := .live tr.number k (tr.stack.length + 1), track := t, dir := c.dir, dt := c.dt, tA := c.tA,
    speed := speed.1, speedClass := speed.2, ls := load.1, le := load.2, bs := gate.1, be := gate.2,
    ready := decide (max load.2 gate.2 ≤ (s.cac.newest : Int)) }

/-- An axle pushed onto the stack of an open train: its entry stands at place k alone, its job joins the queue's tail, or the queue
is full and that is counted; nothing else changes (R47, R48, R81). -/
def Pushed (s u : State) (t : Track) (tr : Train) (c : Crossing) (speed : Nat × ValueClass) (k : Nat) : Prop :=
  look u.trs.axles k = some (pushedEntry s t tr c speed) ∧
  (∀ k', k' ≠ k → look u.trs.axles k' = look s.trs.axles k') ∧
  u = { s with
    tas.opens := s.tas.opens.set t (some { tr with stack := tr.stack ++ [⟨k, c.tA⟩] })
    trs.axles := u.trs.axles
    aee :=
      if s.aee.queue.length < 16 then { s.aee with queue := s.aee.queue ++ [pushedJob s t tr c speed k] }
      else { s.aee with queueFull := min (s.aee.queueFull + 1) 65535 } }

/-- A train's number is the next one free. A crossing in ARMING, ARMED or, from a crossing pending before it, DORMANT (log 41) opens
a train in PASSING: that number, an earlier train's alarms of it retired, the crossing's direction, t_A as its open count, the
train timer its occupancy calls for, and one axle, pushed at the lowest FREE place. Where the pool is full the store makes room
(`RoomMade`: reclaiming, or eviction under KEEP_NEW); where it cannot, the train's first axle is a phantom, POOL_SHORT. -/
def Obligations.CrossingOpensTrain : Prop :=
  NumberGiven ∧
  ∀ (s : State) (t : Track) (h first : Head) (now time : Nat), Crosses s t h first time →
    let q := s.ts.get t
    (q.mode = .armed ∨ q.mode = .arming ∨ q.mode = .dormant) →
      let c := completedCrossing s first time now
      let used := (liveTrains s).map (·.number) ++ s.trs.records.map (·.number)
      let n := nextNumber used used.length s.tas.lastTrain
      let speed := speedRule (s.settingNat (itemD t)) c.dt (s.settingNat itemVLow)
      let tr : Train :=
        ⟨n, t, c.dir, stampAt s.cac.siteTime (countAt s now), c.tA, [], 0, 0, 0, false, false, decide (s.sup.mode = .reduced)⟩
      let left : Sequencer :=
        if q.mode = .dormant then
          { q with tSettle := none, tEnd := none, tStand := none, tAbandon := none, recovery := none }
        else q
      let moved : Sequencer :=
        trainTimers s t (countAt s now)
          { left with
            heads := q.heads.set (headIx h) true
            stuck := stuckAfterOn s t h now
            pending := none
            crossings := min (q.crossings + 1) 65535
            mode := .passing
            tDormant := none
            tRetare := none }
      let numbered : State :=
        { reached s now with
          ts := s.ts.set t moved
          cac.refresh := s.cac.refresh.set t none
          tas := { s.tas with lastTrain := n, opens := s.tas.opens.set t (some tr) }
          alm.list := s.alm.list.filter (fun x => x.key.train != some n)
          alm.retired := (s.alm.list.filter fun x => x.key.train == some n).foldl (fun m _ => min (m + 1) 65535)
            s.alm.retired }
      let v := numbered.makeRoom oneAxle
      (∀ k, lowestFree v.trs.axles 4096 = some k → ∃ u, LeadsTo (.headOn t h now) s u ∧ Pushed v u t tr c speed k) ∧
      (lowestFree v.trs.axles 4096 = none →
        LeadsTo (.headOn t h now) s
          { v with tas.opens := v.tas.opens.set t (some { tr with phantoms := 1, poolShort := true }) })

/-- A crossing in PASSING or STANDSTILL is handed to the Train Assembler (what that does to the open train: `ForwardCrossing` and
`ReverseCrossing`), restarts the train timer its occupancy calls for, and takes STANDSTILL back to PASSING with T_abandon
stopped. -/
def Obligations.CrossingJoinsTrain : Prop :=
  ∀ (s : State) (t : Track) (h first : Head) (now time : Nat), Crosses s t h first time →
    let q := s.ts.get t
    let c := completedCrossing s first time now
    let counted : Sequencer :=
      { q with
        heads := q.heads.set (headIx h) true
        stuck := stuckAfterOn s t h now
        pending := none
        crossings := min (q.crossings + 1) 65535 }
    let base : State := { reached s now with ts := s.ts.set t counted }
    let v := base.handCrossing t c (speedRule (s.settingNat (itemD t)) c.dt (s.settingNat itemVLow))
    v.ts = base.ts ∧
    (q.mode = .passing →
      LeadsTo (.headOn t h now) s { v with ts := s.ts.set t (trainTimers s t (countAt s now) counted) }) ∧
    (q.mode = .standstill →
      LeadsTo (.headOn t h now) s
        { v with
          ts := s.ts.set t
            (trainTimers s t (countAt s now) { counted with mode := .passing, tAbandon := none }) })

/-- A forward crossing of an open train: a phantom while there are phantoms, or at a full stack (OVERLENGTH); else an axle, pushed
at the lowest FREE place. Where the pool is full the store makes room (`RoomMade`: reclaiming, or eviction under KEEP_NEW); where
it cannot, under KEEP_OLD with every record held or with no record left, a phantom (POOL_SHORT). -/
def Obligations.ForwardCrossing : Prop :=
  ∀ (s : State) (t : Track) (tr : Train) (c : Crossing) (speed : Nat × ValueClass), s.trs.errors = [] →
    s.tas.opens.get t = some tr → c.dir = tr.dir →
    let u := s.handCrossing t c speed
    let left (s : State) (tr : Train) : State := { s with tas.opens := s.tas.opens.set t (some tr) }
    let v := s.makeRoom oneAxle
    (0 < tr.phantoms → u = left s { tr with phantoms := tr.phantoms + 1 }) ∧
    (tr.phantoms = 0 → 512 ≤ tr.stack.length → u = left s { tr with phantoms := 1, overlength := true }) ∧
    (tr.phantoms = 0 → tr.stack.length < 512 →
      (∀ k, lowestFree v.trs.axles 4096 = some k → Pushed v u t tr c speed k) ∧
      (lowestFree v.trs.axles 4096 = none → u = left v { tr with phantoms := 1, poolShort := true }))

/-- A reverse crossing of an open train: a phantom goes first, then the newest axle with its job, else a withdrawal; nothing else
changes. -/
def Obligations.ReverseCrossing : Prop :=
  ∀ (s : State) (t : Track) (tr : Train) (c : Crossing) (speed : Nat × ValueClass),
    s.tas.opens.get t = some tr → c.dir ≠ tr.dir →
    let u := s.handCrossing t c speed
    let counted : Train := { tr with unwinds := min (tr.unwinds + 1) 65535 }
    let left (tr' : Train) : State := { s with tas.opens := s.tas.opens.set t (some tr') }
    let isJob (e : Nat) (j : Job) : Bool := match j.owner with | .live _ e' _ => e' == e | .service _ _ _ _ => false
    (0 < tr.phantoms → u = left { counted with phantoms := tr.phantoms - 1 }) ∧
    (tr.phantoms = 0 → tr.stack = [] → u = left { counted with withdrawals := min (tr.withdrawals + 1) 65535 }) ∧
    (∀ l top, tr.phantoms = 0 → tr.stack = l ++ [top] →
      look u.trs.axles top.entry = none ∧ (∀ k, k ≠ top.entry → look u.trs.axles k = look s.trs.axles k) ∧
      u = { left { counted with stack := l } with
        trs.axles := u.trs.axles
        aee.queue := s.aee.queue.filter fun j => !isJob top.entry j
        aee.inFlight := s.aee.inFlight.map fun f => if isJob top.entry f.job then { f with discard := true } else f })

/-- An approach pulse takes a DORMANT track to ARMING (in RUN with a refresh; in REDUCED and FROZEN on to ARMED at once), restarts
T_dormant in ARMED, and does nothing in the other modes. -/
def ApproachPulseActs : Prop :=
  ∀ (s : State) (t : Track) (now : Nat), s.startCheck = false → s.trs.errors = [] →
    let q := s.ts.get t
    (q.mode = .dormant → LeadsTo (.approachPulse t now) s (armingOf (reached s now) t (countAt s now) q)) ∧
    (q.mode = .armed →
      LeadsTo (.approachPulse t now) s
        { reached s now with
          ts := s.ts.set t { q with tDormant := some (countAt s now + s.settingNat itemTDormant * 100000) } }) ∧
    (q.mode = .arming ∨ q.mode = .passing ∨ q.mode = .standstill ∨ q.mode = .fault →
      LeadsTo (.approachPulse t now) s (reached s now))

/-- Occupancy events of a fitted track act on T_stand, T_settle and the stuck timers by its mode; of a track not fitted, or in
FAULT, they change the level alone. -/
def OccupancyActs : Prop :=
  ∀ (s : State) (t : Track) (now : Nat), s.startCheck = false → s.trs.errors = [] →
    let q := s.ts.get t
    let settle := some (countAt s now + s.settingNat itemTSettle * 100000)
    let stand := some (countAt s now + s.settingNat itemTStand * 100000)
    let stuck := some (countAt s now + s.settingNat itemTStuck * 100000)
    let after (q : Sequencer) : State := { reached s now with ts := s.ts.set t q }
    (s.setting (itemFitted t) ≠ 1 ∨ q.mode = .fault →
      LeadsTo (.occupancyClear t now) s (after { q with occupied := false }) ∧
      LeadsTo (.occupancyOccupied t now) s (after { q with occupied := true })) ∧
    (s.setting (itemFitted t) = 1 → q.mode ≠ .fault →
      LeadsTo (.occupancyClear t now) s
        (after
          { q with
            occupied := false
            tStand := if q.mode = .passing then none else q.tStand
            tSettle := if trainMode q.mode then settle else q.tSettle
            stuck :=
              ⟨if q.heads.one then stuck else q.stuck.one, if q.heads.two then stuck else q.stuck.two⟩ }) ∧
      LeadsTo (.occupancyOccupied t now) s
        (after
          { q with
            occupied := true
            tSettle := if trainMode q.mode then none else q.tSettle
            tStand := if q.mode = .passing then stand else q.tStand
            stuck := ⟨none, none⟩ }))

/-- Approach pulses and occupancy events. -/
def Obligations.ApproachAndOccupancy : Prop := ApproachPulseActs ∧ OccupancyActs

/-- Whether a job is a live job of a train. -/
def liveOf (n : Nat) (j : Job) : Bool := match j.owner with | .live n' _ _ => n' == n | .service _ _ _ _ => false

/-- Whether a job is the live job of an axle entry. -/
def liveFor (k : Nat) (j : Job) : Bool := match j.owner with | .live _ k' _ => k' == k | .service _ _ _ _ => false

/-- A train's jobs cancelled (R70): its queued jobs go, its job in flight is marked discarded, the entries of these jobs (but not of
one already discarded) become NOT_MEASURED with values 0; every other job and entry stays. -/
def jobsCancelled (s : State) (n : Nat) : State :=
  let hit (k : Nat) : Bool :=
    (s.aee.queue.any fun j => liveOf n j && liveFor k j) ||
      (s.aee.inFlight.any fun f => liveOf n f.job && liveFor k f.job && !f.discard)
  { s with
    aee.queue := s.aee.queue.filter fun j => !liveOf n j
    aee.inFlight := s.aee.inFlight.map fun f => if liveOf n f.job then { f with discard := true } else f
    trs.axles := s.trs.axles.map fun e =>
      if hit e.1 then
        (e.1,
          { e.2 with
            rails := ⟨⟨0, 0, 0, 0, .notMeasured, .notMeasured⟩, ⟨0, 0, 0, 0, .notMeasured, .notMeasured⟩⟩
            sides := ⟨⟨0, .notMeasured⟩, ⟨0, .notMeasured⟩⟩ })
      else e }

/-- The close of the open train of a track (R85 to R88): an empty train is WITHDRAWN; another joins the Closing List, a full list
first handing its head over to the Report Builder with its jobs cancelled; nothing else changes. -/
def trainClosed (s : State) (t : Track) (tr : Train) (reason : CloseReason) (time : Stamp) : State :=
  let gone : State := { s with tas.opens := s.tas.opens.set t none }
  let newcomer : ClosingTrain := ⟨tr, reason, time⟩
  if tr.stack = [] ∧ tr.phantoms = 0 then { gone with tas.withdrawn := min (s.tas.withdrawn + 1) 65535 }
  else if s.tas.closing.length < 4 then { gone with tas.closing := s.tas.closing ++ [newcomer] }
  else
    match s.tas.closing with
    | [] => { gone with tas.closing := [newcomer] }
    | head :: rest =>
      { jobsCancelled gone head.train.number with
        tas := { gone.tas with closing := rest ++ [newcomer], overflows := min (s.tas.overflows + 1) 65535 }
        rbu.handOver := s.rbu.handOver ++ [head] }

/-- T_settle and T_end expiries close the open train NORMAL, a T_abandon expiry ABANDONED, with what its close does to a full
Closing List, and the track goes to ARMING, in REDUCED on to ARMED; nothing else changes. -/
def Obligations.CloseTimersExpire : Prop :=
  ∀ (s : State) (t : Track) (tr : Train) (e : Nat), s.startCheck = false → s.trs.errors = [] →
    let q := s.ts.get t
    (q.mode = .passing ∨ q.mode = .standstill) → s.tas.opens.get t = some tr →
    let time := stampAt s.cac.siteTime (countAt s e)
    let closed (reason : CloseReason) : State :=
      armingOf (trainClosed (reached s e) t tr reason time) t (countAt s e) q
    (q.tSettle = some e → LeadsTo (.tSettleExpiry t) s (closed .normal)) ∧
    (q.tEnd = some e → LeadsTo (.tEndExpiry t) s (closed .normal)) ∧
    (q.tAbandon = some e → LeadsTo (.tAbandonExpiry t) s (closed .abandoned))

/-- T_stand takes PASSING to STANDSTILL and starts T_abandon; T_dormant takes ARMED to DORMANT where dormancy is enabled;
T_retare takes ARMED to ARMING, in RUN with a refresh, in REDUCED and FROZEN back to ARMED with both idle timers restarted. -/
def Obligations.ModeTimersExpire : Prop :=
  ∀ (s : State) (t : Track) (e : Nat), s.startCheck = false → s.trs.errors = [] →
    let q := s.ts.get t
    let after (q : Sequencer) : State := { reached s e with ts := s.ts.set t q }
    (q.tStand = some e → q.mode = .passing →
      LeadsTo (.tStandExpiry t) s
        (after
          { q with
            tStand := none
            tEnd := none
            mode := .standstill
            tAbandon := some (countAt s e + s.settingNat itemTAbandon * 100000) })) ∧
    (q.tDormant = some e → q.mode = .armed → s.setting (itemDormancy t) = 1 →
      LeadsTo (.tDormantExpiry t) s (after { q with tDormant := none, tRetare := none, mode := .dormant })) ∧
    (q.tDormant = some e → q.mode = .armed → s.setting (itemDormancy t) ≠ 1 →
      LeadsTo (.tDormantExpiry t) s (after { q with tDormant := none })) ∧
    (q.tRetare = some e → q.mode = .armed →
      LeadsTo (.tRetareExpiry t) s (armingOf (reached s e) t (countAt s e) q))

/-- A stuck timer's expiry takes the track to FAULT: its train closed DETECTOR_FAULT, its refresh abandoned, its timers and its
pending crossing gone, the fault head set, and a DETECTOR_FAULT alarm of severity ALERT and value 1 for head A or 2 for head
B entered, as a new entry, as an update of the one listed under its key, or into a full list (`JudgementEntered`). The recovery
timer's expiry takes it to ARMING, in REDUCED and FROZEN on to ARMED, with a stuck timer for each head that is ON where the
condition of the stuck timers holds. -/
def Obligations.FaultTimersExpire : Prop :=
  ∀ (s : State) (t : Track) (h : Head) (e : Nat), s.startCheck = false → s.trs.errors = [] →
    let q := s.ts.get t
    (q.stuck.get (headIx h) = some e → q.mode ≠ .fault →
      let key : AlarmKey := ⟨some t, (s.tas.opens.get t).map (·.number), none, none, .detectorFault⟩
      let v : State :=
        match s.tas.opens.get t with
        | some tr => trainClosed (reached s e) t tr .detectorFault (stampAt s.cac.siteTime (countAt s e))
        | none => reached s e
      ∃ u, LeadsTo (.stuckTimerExpiry t h) s u ∧
        u = { v with
          ts := s.ts.set t
            { q with
              mode := .fault, faultHead := some h, pending := none, stuck := ⟨none, none⟩, tSettle := none, tEnd := none,
              tStand := none, tAbandon := none, tDormant := none, tRetare := none }
          cac.refresh := s.cac.refresh.set t none
          alm := u.alm } ∧
        u.alm = (v.enterAlarm ⟨key, .alert, (match h with | .a => 1 | .b => 2), 0, .stuckHead⟩).alm ∧
        ((∃ a ∈ s.alm.list, a.key = key) →
          u.alm.list = s.alm.list.map fun a =>
            if a.key = key then
              updatedBy a ⟨key, .alert, (match h with | .a => 1 | .b => 2), 0, .stuckHead⟩
                (stampAt s.cac.siteTime (countAt s e))
            else a) ∧
        ((∀ a ∈ s.alm.list, a.key ≠ key) → s.alm.list.length < 64 →
          ∃ a, u.alm.list = s.alm.list ++ [a] ∧ a.key = key ∧ a.severity = .alert ∧ a.state = .raised ∧
            a.value = (match h with | .a => 1 | .b => 2) ∧ a.reason = .stuckHead ∧ a.level = 0)) ∧
    (q.recovery = some e → q.mode = .fault →
      let begun (g : Head) : Timer :=
        if q.heads.get (headIx g) = true ∧ (s.setting (itemFitted t) ≠ 1 ∨ q.occupied = false) then
          some (countAt s e +
            s.settingNat (if s.setting (itemFitted t) = 1 then itemTStuck else itemTAbandon) * 100000)
        else q.stuck.get (headIx g)
      LeadsTo (.faultRecoveryExpiry t) s
        (armingOf (reached s e) t (countAt s e) { q with stuck := ⟨begun .a, begun .b⟩ }))

/-! ### Capture memory and the engine -/

/-- A sample write puts each row's sample (0 while its converters are OFF) into the rolling column of the next sample number,
and leaves every other rolling and snapshot column alone; a refresh in flight whose next sample this is gets it in its next
baseline column; waiting live jobs become READY. -/
def SampleWritten : Prop :=
  ∀ (s : State) (samples : List Sample), s.startCheck = false → s.trs.errors = [] → samples.length = 20 →
    (∀ t, TrackAgrees s t) →
    let n := s.cac.newest + 1
    let value (r : Nat) : Sample := if (s.ts.get (rowTrack r)).mode = .dormant then 0 else samples.getD r 0
    ∃ u, LeadsTo (.sampleWrite samples) s u ∧ u.cac.newest = n ∧ u.cac.count = countAt s (250 * n) ∧
      (∀ r, r < 20 → Memory.read u.cac.mem (cell r (64 + n % 7616)) = value r) ∧
      (∀ r c, r < 20 → 64 ≤ c → c < 8192 → c ≠ 64 + n % 7616 →
        Memory.read u.cac.mem (cell r c) = Memory.read s.cac.mem (cell r c)) ∧
      (∀ t f, s.cac.refresh.get t = some f → n = f.first + f.progress →
        (∀ r, r < 20 → rowTrack r = t → Memory.read u.cac.mem (cell r f.progress) = value r) ∧
        (∀ r c, r < 20 → rowTrack r = t → c < 64 → c ≠ f.progress →
          Memory.read u.cac.mem (cell r c) = Memory.read s.cac.mem (cell r c)) ∧
        (f.progress < 63 →
          u.cac.refresh.get t = some ⟨f.first, f.progress + 1⟩ ∧ u.ts.get t = s.ts.get t ∧
            u.cac.tareValid.get t = s.cac.tareValid.get t)) ∧
      (∀ t, (∀ f, s.cac.refresh.get t = some f → n ≠ f.first + f.progress) →
        u.cac.refresh.get t = s.cac.refresh.get t ∧ u.ts.get t = s.ts.get t ∧
        ∀ r c, r < 20 → rowTrack r = t → c < 64 → Memory.read u.cac.mem (cell r c) = Memory.read s.cac.mem (cell r c)) ∧
      u.aee.queue = s.aee.queue.map (fun j => if isLive j ∧ max j.le j.be ≤ (n : Int) then { j with ready := true } else j) ∧
      u.aee.inFlight = s.aee.inFlight ∧ u.tas = s.tas ∧ u.rbu = s.rbu ∧ u.trs = s.trs ∧ u.alm = s.alm ∧
      u.wat = s.wat ∧ u.settings = s.settings ∧ u.ptu = s.ptu ∧ u.sup = s.sup ∧ u.cac.window = s.cac.window ∧
      u.cac.siteTime = s.cac.siteTime

/-- The 64th sample of a refresh completes it, on one track or on both at once: each tare of the track is its row's baseline sum
plus 32, divided by 64 toward minus infinity, the flag becomes VALID, and the track goes to ARMED with both idle timers
started. The completion of either track stands for that same event. -/
def RefreshCompletes : Prop :=
  ∀ (s : State) (samples : List Sample), s.startCheck = false → s.trs.errors = [] → samples.length = 20 →
    let completes (t : Track) : Prop :=
      ∃ r, s.cac.refresh.get t = some r ∧ r.progress = 63 ∧ s.cac.newest + 1 = r.first + 63
    let count := countAt s (250 * (s.cac.newest + 1))
    ∃ u, LeadsTo (.sampleWrite samples) s u ∧ (∀ t, completes t → LeadsTo (.refreshComplete t samples) s u) ∧
      u.cac.newest = s.cac.newest + 1 ∧ u.cac.count = count ∧
      (∀ t, completes t →
        u.ts.get t = { s.ts.get t with
          mode := .armed, recovery := none, tSettle := none, tEnd := none, tStand := none, tAbandon := none,
          tDormant := some (count + s.settingNat itemTDormant * 100000),
          tRetare := some (count + s.settingNat itemTRetare * 100000) } ∧
        u.cac.refresh.get t = none ∧ u.cac.tareValid.get t = true ∧
        (∀ k, k < 20 → rowTrack k = t → u.cac.tare.getD k 0 =
          (((List.range 64).map fun c => (Memory.read u.cac.mem (cell k c)).toInt).sum + 32) / 64) ∧
        (∀ k c, k < 20 → rowTrack k = t → c < 63 →
          Memory.read u.cac.mem (cell k c) = Memory.read s.cac.mem (cell k c)) ∧
        (∀ k, k < 20 → rowTrack k = t → Memory.read u.cac.mem (cell k 63) =
          if (s.ts.get t).mode = .dormant then 0 else samples.getD k 0)) ∧
      (∀ t, ¬ completes t → (∀ r, s.cac.refresh.get t = some r → r.progress ≤ 63) →
        u.ts.get t = s.ts.get t ∧ u.cac.tareValid.get t = s.cac.tareValid.get t ∧
        ∀ k, k < 20 → rowTrack k = t → u.cac.tare.getD k 0 = s.cac.tare.getD k 0) ∧
      u.tas = s.tas ∧ u.rbu = s.rbu ∧ u.trs = s.trs ∧ u.alm = s.alm ∧ u.wat = s.wat ∧ u.settings = s.settings ∧
      u.ptu = s.ptu ∧ u.sup = s.sup ∧ u.cac.siteTime = s.cac.siteTime ∧ u.cac.window = s.cac.window

/-- A sample write and the baseline refreshes it feeds. -/
def Obligations.SamplesAndRefresh : Prop := SampleWritten ∧ RefreshCompletes

/-- Where an evaluation reads a sample (R51, R56, R58): the place `i` names a row of the job's track, rails 1 and 2 and then the two
sides; a live job reads sample k in rolling column 64 + k mod 7616, a service job in the column that stands for k. -/
def SamplesRead : Prop :=
  ∀ (mem : List (Nat × Sample)) (j : Job) (i : Nat) (k : Int), i < 10 →
    let row := match j.track with | .one => if i < 8 then i else i + 8 | .two => if i < 8 then i + 8 else i + 10
    (∀ n e x, j.owner = .live n e x → 0 ≤ k → readerOf mem j i k = Memory.read mem (cell row (64 + k.toNat % 7616))) ∧
    (∀ p c l o, j.owner = .service p c l o → readerOf mem j i k = Memory.read mem (cell row ((c : Int) + (k - o)).toNat))

/-- The free engine takes the oldest ready live job, else a ready service job, with the tares, gains, tare-valid flag, P_min and
newest sample of that moment; the job leaves the queue. A live job whose bearing gate alone is no longer present is taken with
its loads evaluated and its bearings STALE, and counted. The sample handed to the Watch Unit is that of the rail with the greater
peak, rail 1 at equal ones. The results are those of the samples at the take (log 9). -/
def EngineTakes : Prop :=
  ∀ (s : State) (j : Job), s.startCheck = false → s.trs.errors = [] → s.aee.inFlight = none →
    let live := s.aee.queue.find? fun j => isLive j && j.ready
    let service := s.aee.queue.find? fun j => !isLive j && j.ready
    (live = some j ∨ (live = none ∧ service = some j)) → j.speedClass ≠ .lowSpeed → windowLength j ≤ 6000 →
    (isLive j = true → present s.cac.newest j.ls = true) →
      let take : TakeValues :=
        { tares := (trackRows j.track).map fun r => s.cac.tare.getD r 0
          gains := (trackRows j.track).map fun r => s.settingNat (21 + r)
          tareValid := s.cac.tareValid.get j.track
          pMin := s.settingNat 82
          newest := s.cac.newest }
      let gone := isLive j = true ∧ present s.cac.newest j.bs = false
      ∃ f, f = ⟨j, take, evaluate s.cac.mem take j, false⟩ ∧
        LeadsTo .jobTake s
          { s with
            aee :=
              { s.aee with
                queue := s.aee.queue.erase j
                inFlight := some f
                stale := if gone then min (s.aee.stale + 1) 65535 else s.aee.stale } } ∧
        (gone → ∀ sd, (f.results.sides.get sd) =
          ⟨0, if take.gains.getD (match sd with | .one => 8 | .two => 9) 0 = 0 then .absent else .stale⟩) ∧
        (¬ gone → ∀ sd, f.results.sides.get sd = sideResult take (readerOf s.cac.mem j) j none sd) ∧
        (∀ r, (∀ i, i < 4 → take.gains.getD (match r with | .one => i | .two => i + 4) 0 = 0) →
          f.results.rails.get r = ⟨0, 0, 0, 0, .absent, .absent⟩) ∧
        (∀ r, (∃ i, i < 4 ∧ take.gains.getD (match r with | .one => i | .two => i + 4) 0 ≠ 0) →
          f.results.rails.get r = (evalRail take (readerOf s.cac.mem j) j r).1) ∧
        let evaluated (r : Side) : Prop := ∃ i, i < 4 ∧ take.gains.getD (match r with | .one => i | .two => i + 4) 0 ≠ 0
        let peakAt (r : Side) : Option Int := (evalRail take (readerOf s.cac.mem j) j r).2
        (evaluated .one → evaluated .two →
          f.results.peakSample =
            if (f.results.rails.get .one).peak < (f.results.rails.get .two).peak then peakAt .two else peakAt .one) ∧
        (evaluated .one → ¬ evaluated .two → f.results.peakSample = peakAt .one) ∧
        (¬ evaluated .one → evaluated .two → f.results.peakSample = peakAt .two) ∧
        (¬ evaluated .one → ¬ evaluated .two → f.results.peakSample = none)

/-- A job taken, and the samples that its evaluation reads. -/
def Obligations.JobTaken : Prop := SamplesRead ∧ EngineTakes

/-- The results of a job that a take check ends: each rail and side takes the class, or ABSENT exactly where every gain of it is 0,
with values 0 (R55, R57, R66). -/
def checkedResults (s : State) (t : Track) (cls : ValueClass) : Results :=
  let gain (i : Nat) : Nat := s.settingNat (21 + (trackRows t).getD i 0)
  let railClass (first : Nat) : ValueClass :=
    if gain first = 0 ∧ gain (first + 1) = 0 ∧ gain (first + 2) = 0 ∧ gain (first + 3) = 0 then .absent else cls
  let sideClass (i : Nat) : ValueClass := if gain i = 0 then .absent else cls
  { rails := ⟨⟨0, 0, 0, 0, railClass 0, railClass 0⟩, ⟨0, 0, 0, 0, railClass 4, railClass 4⟩⟩
    sides := ⟨⟨0, sideClass 8⟩, ⟨0, sideClass 9⟩⟩
    peakSample := none }

/-- A live job that is LOW_SPEED, too long or STALE at its take completes there: its entry takes that class, a STALE one is counted;
nothing is judged. Where the watch is armed or locked for its track the axle is tested (`WatchMatches`); else nothing else
changes. -/
def LiveTakeCheck : Prop :=
  ∀ (s : State) (j : Job) (train entry axle : Nat) (a : AxleEntry), s.startCheck = false → s.trs.errors = [] →
    s.aee.inFlight = none →
    (s.aee.queue.find? fun j => isLive j && j.ready) = some j → j.owner = .live train entry axle →
    look s.trs.axles entry = some a →
    let slow := j.speedClass = .lowSpeed ∨ 6000 < windowLength j
    let cls : ValueClass := if j.speedClass = .lowSpeed ∨ 6000 < windowLength j then .lowSpeed else .stale
    let r := checkedResults s j.track cls
    let checked : State :=
      { s with
        aee :=
          { s.aee with
            queue := s.aee.queue.erase j
            stale :=
              if j.speedClass = .lowSpeed ∨ 6000 < windowLength j then s.aee.stale else min (s.aee.stale + 1) 65535 }
        trs.axles := adjust s.trs.axles entry fun a => { a with rails := r.rails, sides := r.sides } }
    (slow ∨ present s.cac.newest j.ls = false) →
      (s.wat.state = .off ∨ watchesTrack s.wat.cond j.track = false → LeadsTo .jobTake s checked) ∧
      (s.wat.state ≠ .off → watchesTrack s.wat.cond j.track = true →
        LeadsTo .jobTake s (State.testWatch { checked with free := s.free + 1 } j train entry r)) ∧
      ∀ b, look (adjust s.trs.axles entry fun _ => b) entry = some b ∧
        ∀ k, k ≠ entry → look (adjust s.trs.axles entry fun _ => b) k = look s.trs.axles k

/-- A service job that is LOW_SPEED or too long at its take completes there: its Evaluate Snapshot is answered DONE with these
classes while the answer is owed; nothing else changes. -/
def ServiceTakeCheck : Prop :=
  ∀ (s : State) (j : Job) (p : Port) (c l o : Nat), s.startCheck = false → s.trs.errors = [] → s.aee.inFlight = none →
    (∀ j ∈ s.aee.queue, isLive j = true → j.ready = false) →
    (s.aee.queue.find? fun j => !isLive j && j.ready) = some j → j.owner = .service p c l o →
    (j.speedClass = .lowSpeed ∨ 6000 < windowLength j) →
    let r := checkedResults s j.track .lowSpeed
    let free : State := { s with aee.queue := s.aee.queue.erase j }
    (∀ tag q, (s.ptu.get p).slot = .pending tag q true →
      LeadsTo .jobTake s
        (answeredOn free p tag q.row .done
          (.evaluation
            { speed := j.speed, speedClass := j.speedClass, rails := r.rails, sides := r.sides, ls := j.ls, le := j.le,
              bs := j.bs, be := j.be, columns := j.le - j.ls + 1, tareValid := s.cac.tareValid.get j.track }))) ∧
    ((∀ tag q, (s.ptu.get p).slot ≠ .pending tag q true) → LeadsTo .jobTake s free)

/-- A live or service job that the take checks end. -/
def Obligations.TakeCheckCompletes : Prop := LiveTakeCheck ∧ ServiceTakeCheck

/-- The judgements of a completed axle (R143): the three of rail 1, the three of rail 2, the two bearings, and the cross
judgement where both bearings are VALID. -/
def liveJudgements (s : State) (t : Track) (train axle : Nat) (r : Results) : List Judgement :=
  let key (k : AlarmKind) (sd : Option Side) : AlarmKey := ⟨some t, some train, some axle, sd, k⟩
  let wheel (sd : Side) : List Judgement :=
    [judgedNow s (key .wheelImpact (some sd)) (r.rails.get sd).impact (r.rails.get sd).loadClass,
      judgedNow s (key .wheelRatio (some sd)) (r.rails.get sd).ratio (r.rails.get sd).ratioClass,
      judgedNow s (key .wheelOverload (some sd)) (r.rails.get sd).static (r.rails.get sd).loadClass]
  wheel .one ++ wheel .two
    ++ [judgedNow s (key .bearingHot (some .one)) r.sides.one.rise r.sides.one.cls,
      judgedNow s (key .bearingHot (some .two)) r.sides.two.rise r.sides.two.cls]
    ++ if r.sides.one.cls = .valid ∧ r.sides.two.cls = .valid then
        [judgedNow s (key .bearingCross none) ((r.sides.one.rise : Int) - r.sides.two.rise).natAbs .valid]
      else []

/-- The highest of a mark and the severities of some judgements (R144). -/
def markAfter (mark : Severity) (l : List Judgement) : Severity :=
  l.foldl (fun m j => if sevRank m < sevRank j.severity then j.severity else m) mark

/-- A live job's completion where the Watch Unit does not test it: dropped and counted with its discard mark SET, else its
results stand in its entry alone, its judgements are entered one after another, and its marks rise to them. -/
def LiveJobDelivers : Prop :=
  ∀ (s : State) (f : InFlight) (train entry axle now : Nat), s.startCheck = false → s.trs.errors = [] →
    s.aee.inFlight = some f → f.job.owner = .live train entry axle →
    let free : State := { reached s now with aee.inFlight := none }
    (f.discard = true →
      LeadsTo (.liveJobComplete now) s { free with aee.discards := min (s.aee.discards + 1) 65535 }) ∧
    (∀ a, f.discard = false → (s.wat.state = .off ∨ watchesTrack s.wat.cond f.job.track = false) →
      look s.trs.axles entry = some a →
      let judged := liveJudgements s f.job.track train axle f.results
      ∃ u, LeadsTo (.liveJobComplete now) s u ∧
        u = { free with alm := u.alm, trs.axles := u.trs.axles } ∧
        u.alm = (judged.foldl State.enterAlarm free).alm ∧
        look u.trs.axles entry = some
          { a with
            rails := f.results.rails
            sides := f.results.sides
            wheelMark := markAfter a.wheelMark (judged.take 6)
            bearingMark := markAfter a.bearingMark (judged.drop 6) } ∧
        ∀ k, k ≠ entry → look u.trs.axles k = look s.trs.axles k)

/-- A service job's completion answers its Evaluate Snapshot DONE while the answer is owed, and drops the results otherwise. -/
def ServiceJobAnswers : Prop :=
  ∀ (s : State) (f : InFlight) (p : Port) (c l o now : Nat), s.startCheck = false →
    s.aee.inFlight = some f → f.job.owner = .service p c l o →
    let free : State := { reached s now with aee.inFlight := none }
    (∀ tag r, (s.ptu.get p).slot = .pending tag r true →
      LeadsTo (.serviceJobComplete now) s
        (answeredOn free p tag r.row .done
          (.evaluation
            { speed := f.job.speed, speedClass := f.job.speedClass, rails := f.results.rails, sides := f.results.sides,
              ls := f.job.ls, le := f.job.le, bs := f.job.bs, be := f.job.be, columns := f.job.le - f.job.ls + 1,
              tareValid := f.take.tareValid }))) ∧
    ((∀ tag r, (s.ptu.get p).slot ≠ .pending tag r true) → LeadsTo (.serviceJobComplete now) s free)

/-- A job's completion delivers, drops or answers its results. -/
def Obligations.JobCompletes : Prop := LiveJobDelivers ∧ ServiceJobAnswers

/-! ### The watch -/

/-- Whether a relation holds for a value of a class: the three comparisons for VALID and OVER only (R169). -/
def Holds (r : Relation) (value : Nat) (x : Nat) (c : ValueClass) : Prop :=
  match r with
  | .atLeast => (c = .valid ∨ c = .over) ∧ value ≤ x
  | .atMost => (c = .valid ∨ c = .over) ∧ x ≤ value
  | .equal => (c = .valid ∨ c = .over) ∧ x = value
  | .notValid => c ≠ .valid

/-- Whether an axle matches a condition: rail or side 1, 2, or either of them; speed, spacing and axle index have none (R169). -/
def Matches (c : Condition) (a : AxleEntry) : Prop :=
  let of (f : Side → Nat × ValueClass) : Prop :=
    ∃ sd : Side, (c.side = .one → sd = .one) ∧ (c.side = .two → sd = .two) ∧ Holds c.relation c.value (f sd).1 (f sd).2
  match c.quantity with
  | .static => of fun r => ((a.rails.get r).static, (a.rails.get r).loadClass)
  | .peak => of fun r => ((a.rails.get r).peak, (a.rails.get r).loadClass)
  | .impact => of fun r => ((a.rails.get r).impact, (a.rails.get r).loadClass)
  | .ratio => of fun r => ((a.rails.get r).ratio, (a.rails.get r).ratioClass)
  | .bearingRise => of fun r => ((a.sides.get r).rise, (a.sides.get r).cls)
  | .speed => Holds c.relation c.value a.speed a.speedClass
  | .spacing => Holds c.relation c.value a.spacing .valid
  | .axleIndex => Holds c.relation c.value a.index .valid

/-- The first sample and the length of a copy's source range: the window, or 512 samples about the peak sample, shifted to lie
within it (R174). -/
def sourceOf (j : Job) (peak : Option Int) : Int × Nat :=
  let n := j.le - j.ls + 1
  let c := match peak with | some c => c | none => (j.ls + j.le) / 2
  if n ≤ 512 then (j.ls, n.toNat) else (max j.ls (min (c - 256) (j.le - 511)), 512)

/-- The snapshot record and the copy in flight after a lock (R174, R175). The source first sample number 0 of a NONE or SKIPPED
record (log 52) and the empty written columns while the copy is in flight (log 53) are the model's choice. -/
def SnapshotSettled (s u : State) (j : Job) (peak : Option Int) : Prop :=
  let busy := s.sup.mode ≠ .run ∨ serviceJobExists s = true
  (s.wat.cond.snapshot = false → u.wat.snapshot = ⟨.none, 0, 0, none⟩ ∧ u.wat.copy = s.wat.copy) ∧
  (s.wat.cond.snapshot = true → busy → u.wat.snapshot = ⟨.skipped, 0, 0, none⟩ ∧ u.wat.copy = s.wat.copy) ∧
  (s.wat.cond.snapshot = true → ¬ busy →
    let first := (sourceOf j peak).1
    let length := (sourceOf j peak).2
    let samples := (List.range length).map fun i => first + (i : Int)
    let there := samples.filter fun k => present s.cac.newest k
    u.wat.snapshot = ⟨if present s.cac.newest first then .copying else .torn, first, length, none⟩ ∧
    ∃ c, u.wat.copy = some c ∧ c.began = s.cac.count ∧ c.done = 0 ∧
      c.todo = there.map (fun k =>
        ((7680 + (k - first)).toNat,
          (List.range 20).map fun r => Memory.read s.cac.mem (cell r (64 + k.toNat % 7616)))) ∧
      ∀ x l, c.todo = x :: l → c.firstColumn = x.1)

/-- The Watch Unit at a delivery: a match in ARMED sets the WATCHED mark, fills the slot with the entry, counts 1, locks and
settles the snapshot; a match in LOCKED sets the mark and counts, up to 255; no match does nothing. A delivery that the
condition's tracks take in is judged and tested in one order or the other (log 16). Of the snapshot record, the source first sample
number 0 where it is NONE or SKIPPED and the empty written columns during a copy are the model's choice (logs 52 and 53); that the
test reads no word through the check is too (log 59). -/
def Obligations.WatchMatches : Prop :=
  (∀ (s : State) (j : Job) (train entry : Nat) (r : Results) (a : AxleEntry), s.trs.errors = [] →
    look s.trs.axles entry = some a →
    let tested : AxleEntry := { a with rails := r.rails, sides := r.sides }
    let u := s.testWatch j train entry r
    let marked : State := { s with trs.axles := adjust s.trs.axles entry fun a => { a with watched := true } }
    (¬ Matches s.wat.cond tested → u = s) ∧
    (Matches s.wat.cond tested → s.wat.state = .locked →
      u = { marked with wat.matchCount := min (s.wat.matchCount + 1) 255 }) ∧
    (Matches s.wat.cond tested → s.wat.state = .armed →
      SnapshotSettled s u j r.peakSample ∧
      u = { marked with
        wat :=
          { s.wat with
            state := .locked
            matchCount := 1
            slot := some
              ⟨{ a with watched := true }, train, j.track, j.ls, j.le, j.bs, j.be, stampAt s.cac.siteTime s.cac.count⟩
            snapshot := u.wat.snapshot
            copy := u.wat.copy } })) ∧
  ∀ (s : State) (f : InFlight) (train entry axle now : Nat), s.startCheck = false → s.trs.errors = [] →
    s.aee.inFlight = some f → f.job.owner = .live train entry axle → f.discard = false → s.wat.state ≠ .off →
    (s.wat.cond.tracks = .both ∨ (s.wat.cond.tracks = .t1 ∧ f.job.track = .one) ∨
      (s.wat.cond.tracks = .t2 ∧ f.job.track = .two)) →
    let delivered : State :=
      { reached s now with
        aee.inFlight := none
        trs.axles := adjust s.trs.axles entry fun a => { a with rails := f.results.rails, sides := f.results.sides }
        free := s.free + 1 }
    let judge (s : State) : State := s.judgeLive f.job.track train entry axle f.results
    let test (s : State) : State := s.testWatch f.job train entry f.results
    LeadsTo (.liveJobComplete now) s (test (judge delivered)) ∨ LeadsTo (.liveJobComplete now) s (judge (test delivered))

/-- Capture memory after some columns of a copy are written, each inside the snapshot area and none twice: every row of a column
written reads as the copy's sample of it, every other cell as before (R174, R175). -/
def ColumnsStand (before after : List (Nat × Sample)) (l : List (Nat × List Sample)) : Prop :=
  (∀ x ∈ l, 7680 ≤ x.1 ∧ x.1 < 8192) → (l.map (·.1)).Nodup →
    (∀ x ∈ l, ∀ r, r < 20 → Memory.read after (cell r x.1) = x.2.getD r 0) ∧
    ∀ r c, r < 20 → c < 8192 → (∀ x ∈ l, x.1 ≠ c) → Memory.read after (cell r c) = Memory.read before (cell r c)

/-- The end of a snapshot copy: its remaining columns are written, all 20 rows of each and nothing else, COPYING becomes COMPLETE
and TORN stays, and the written range covers every column the copy wrote. -/
def Obligations.SnapshotCopyEnds : Prop :=
  ∀ (s : State) (c : SnapshotCopy) (now : Nat), s.startCheck = false → s.wat.copy = some c →
    let total := c.done + c.todo.length
    LeadsTo (.snapshotCopyEnd now) s
      { reached s now with
        cac.mem := writeColumns s.cac.mem c.todo
        wat :=
          { s.wat with
            copy := none
            snapshot :=
              { s.wat.snapshot with
                status := if s.wat.snapshot.status = .copying then .complete else s.wat.snapshot.status
                written := if total = 0 then none else some (c.firstColumn, c.firstColumn + total - 1) } } } ∧
    ColumnsStand s.cac.mem (writeColumns s.cac.mem c.todo) c.todo

/-- A snapshot copy ended at once by the entry to FROZEN or by RESTART (R176): the columns it has written by then, at least one for
each microsecond since the lock (how many: log 15), stand; its status is TORN and the written range covers every column it wrote. -/
def CopyTorn (s u : State) (now : Nat) : Prop :=
  (s.wat.copy = none → u.wat = s.wat ∧ u.cac.mem = s.cac.mem) ∧
  ∀ c, s.wat.copy = some c →
    ∃ k, k ≤ c.todo.length ∧ min (c.done + c.todo.length) (countAt s now - c.began) ≤ c.done + k ∧
      u.cac.mem = writeColumns s.cac.mem (c.todo.take k) ∧ ColumnsStand s.cac.mem u.cac.mem (c.todo.take k) ∧
      u.wat =
        { s.wat with
          copy := none
          snapshot :=
            { s.wat.snapshot with
              status := .torn
              written := if c.done + k = 0 then none else some (c.firstColumn, c.firstColumn + (c.done + k) - 1) } }

/-! ### Closing a train -/

/-- The idle Report Builder takes the oldest handed-over train, else the head of the Closing List once it has no job, with which
of the two it was, B_max, V_min and the tare-valid flag of that moment, and begins GROUPING with nothing read. -/
def Obligations.CloseTaken : Prop :=
  ∀ (s : State) (c : ClosingTrain) (rest : List ClosingTrain), s.startCheck = false → s.trs.errors = [] →
    s.rbu.closeOp = none →
    let op (early : Bool) : CloseOp :=
      { closing := c, early := early, phase := .grouping, bMax := s.settingNat itemBMax, vMin := s.settingNat itemVMin,
        tareValid := s.cac.tareValid.get c.train.track, read := [], damaged := false, todo := [], returned := [],
        header := none, vehicles := none, cut := false }
    (s.rbu.handOver = c :: rest →
      LeadsTo .closeTake s { s with rbu.handOver := rest, rbu.closeOp := some (op true) }) ∧
    (s.rbu.handOver = [] → s.tas.closing = c :: rest → jobCount s c.train.number = 0 →
      LeadsTo .closeTake s { s with tas.closing := rest, rbu.closeOp := some (op false) }) ∧
    (s.rbu.handOver = [] → s.tas.closing = c :: rest → 0 < jobCount s c.train.number → exec .closeTake s = .next s)

/-- The close operation as it stands once it has read every entry of its train and handed on every judgement, where no word carries
an error and the levels stay as they are (R97, R104 to R106). -/
def finishedOp (s : State) (o : CloseOp) : CloseOp :=
  let unread := o.closing.train.stack.drop o.read.length
  let whole : CloseOp := { o with read := o.read ++ unread.map fun i => ⟨i.entry, usedEntry (s.axle i.entry)⟩ }
  let todo := if o.phase = .grouping then closeJudgements whole else o.todo
  let broken (k : Nat) : Bool := (s.axle k).speedClass == .damaged
  { whole with
    returned := o.returned ++ todo.map fun j => (j, (judgedNow s j.key j.value j.cls).severity)
    damaged :=
      o.damaged || (unread.any fun i => broken i.entry)
        || todo.any fun j => match j.about with | .axle k => broken k | .vehicle _ | .train => false }

/-- The header of the record of a finished close operation (R108, R111): what the train and its close say of it, the totals, the
worst severity, and the flags, `cut` where the vehicle list was cut for want of FREE entries. -/
def HeaderOf (o : CloseOp) (vehicles : Nat) (merged cut : Bool) (h : Header) : Prop :=
  let tr := o.closing.train
  let totals := totalsOf o.read tr.phantoms
  h.number = tr.number ∧ h.track = some tr.track ∧ h.dir = tr.dir ∧ h.openTime = tr.openTime ∧
  h.closeTime = o.closing.closeTime ∧ h.reason = o.closing.reason ∧ h.axleCount = tr.stack.length + tr.phantoms ∧
  h.phantoms = tr.phantoms ∧ h.depth = tr.stack.length ∧ h.unwinds = tr.unwinds ∧ h.withdrawals = tr.withdrawals ∧
  h.minSpeed = totals.minSpeed ∧ h.maxSpeed = totals.maxSpeed ∧ h.meanSpeed = totals.meanSpeed ∧
  h.vehicleCount = vehicles ∧ h.gross = totals.gross ∧ h.coverage = totals.coverage ∧ h.worst = trainWorst o ∧
  h.flags = ⟨tr.power, tr.overlength, tr.poolShort, merged || cut, o.damaged, !o.tareValid,
    tr.openTime.unset || o.closing.closeTime.unset⟩

/-- The close operation of a train whose header is allocated, or can be had, ends by appending its record: number, track, axle
entries in order, every header field with its totals (`TotalsAndJudgements`), holder set, and the vehicle entries with their
fields, written at their allocation (log 57). What the store first reclaims or evicts for the header and the vehicle entries is
`RoomMade`; where the entries cannot be had the list is cut to those FREE. No other record is touched, and its links read PRESENT. -/
def Obligations.RecordMade : Prop :=
  ∀ (s : State) (o : CloseOp) (k now : Nat), s.startCheck = false → s.trs.errors = [] → s.rbu.closeOp = some o →
    OpSound o → poolFits s.trs.headers 32 → poolFits s.trs.vehicles 1024 →
    let tr := o.closing.train
    let w := finishedOp s o
    let list := vehicles o.vMin (bogies o.bMax w.read)
    let all := mergeFrom 160 list
    let withHeader := if o.header = none then s.makeRoom (fun x => (lowestFree x.trs.headers 32).isSome) else s
    let v :=
      if o.vehicles = none then withHeader.makeRoom (fun x => decide (all.length ≤ 1024 - x.trs.vehicles.length))
      else withHeader
    let left := 1024 - v.trs.vehicles.length
    let cut := if o.vehicles = none then decide (left < all.length) else o.cut
    let groups := if left < all.length then mergeFrom left all else all
    let counted (b : Bool) (n : Nat) : Nat := if b then min (n + 1) 65535 else n
    (o.header = some k ∨ (o.header = none ∧ lowestFree withHeader.trs.headers 32 = some k)) →
    ∃ u r h, LeadsTo (.recordAppend now) s u ∧ u.rbu.closeOp = none ∧ u.rbu.made = min (s.rbu.made + 1) 65535 ∧
      u.rbu.truncated =
        counted (o.vehicles.isNone && cut) (counted (o.phase == .grouping && decide (160 < list.length)) s.rbu.truncated) ∧
      u.trs.records = v.trs.records ++ [r] ∧ r.number = tr.number ∧ r.track = tr.track ∧ r.header = k ∧
      r.axles = tr.stack.map StackItem.entry ∧ look u.trs.headers k = some (.record h) ∧
      (∀ n, n ≠ k → look u.trs.headers n = look v.trs.headers n) ∧
      HeaderOf w r.vehicles.length (decide (160 < list.length)) cut h ∧
      (∀ refs, o.vehicles = some refs → r.vehicles = refs ∧ ∀ n, look u.trs.vehicles n = look v.trs.vehicles n) ∧
      (o.vehicles = none →
        r.vehicles.length = groups.length ∧ r.vehicles.Nodup ∧
        (∀ n ∈ r.vehicles, look v.trs.vehicles n = none ∧ n < 1024) ∧
        (∀ i n g, r.vehicles[i]? = some n → groups[i]? = some g →
          look u.trs.vehicles n = some { vehicleOf (i + 1) g with worst := vehicleWorst w (i + 1) g }) ∧
        ∀ n, n ∉ r.vehicles → look u.trs.vehicles n = look v.trs.vehicles n) ∧
      (r.holders.report = true ↔ s.setting itemReportHolder = 1) ∧
      (s.settingNat itemAlarmHoldLevel ≤ 3 →
        (r.holders.alarm = true ↔
          s.settingNat itemAlarmHoldLevel ≠ 0 ∧ s.settingNat itemAlarmHoldLevel ≤ sevRank h.worst)) ∧
      (∀ a ∈ u.alm.list, a.key.train = some tr.number → a.link = .present) ∧ u.trs.reclaims = v.trs.reclaims ∧
      u.trs.evictions = v.trs.evictions ∧ u.trs.errors = [] ∧ u.ts = s.ts ∧ u.aee = s.aee ∧ u.tas = s.tas ∧
      u.rbu.handOver = s.rbu.handOver ∧ u.rbu.discardedFull = s.rbu.discardedFull ∧ u.wat = s.wat ∧
      u.settings = s.settings ∧ u.ptu = s.ptu ∧ u.sup = s.sup ∧ u.cac = (reached s now).cac

/-- Under KEEP_OLD, with no FREE header and no released record, the train is discarded: its entries are freed, no record
changes, and a STORE_LOSS alarm of severity ALERT with its axle count is entered, or, in a list of 64 STOP entries, counted as
unlisted. -/
def Obligations.TrainDiscardedFull : Prop :=
  ∀ (s : State) (o : CloseOp) (now : Nat), s.startCheck = false → s.trs.errors = [] → AlarmsDistinct s →
    s.rbu.closeOp = some o → OpSound o → o.header = none →
    s.setting itemRetentionPolicy = 1 → lowestFree s.trs.headers 32 = none →
    (∀ r ∈ s.trs.records, r.holders.report = true ∨ r.holders.alarm = true) →
    let tr := o.closing.train
    let key : AlarmKey := ⟨some tr.track, some tr.number, none, none, .storeLoss⟩
    ∃ u, LeadsTo (.discardedFull now) s u ∧ u.rbu.closeOp = none ∧
      u.rbu.discardedFull = min (s.rbu.discardedFull + 1) 65535 ∧ u.rbu.made = s.rbu.made ∧
      (∀ i ∈ tr.stack, look u.trs.axles i.entry = none) ∧ u.trs.records = s.trs.records ∧
      u.trs.headers = s.trs.headers ∧ u.trs.vehicles = s.trs.vehicles ∧
      (∀ a ∈ u.alm.list, a.key.train = some tr.number → a.link = .none) ∧
      ((∃ a ∈ u.alm.list, a.key = key ∧ tr.stack.length + tr.phantoms ≤ a.value ∧
          sevRank .alert ≤ sevRank a.severity ∧ (a.severity = .alert → a.reason = .discardedFull)) ∨
        (u.alm.list.length = 64 ∧ (∀ a ∈ u.alm.list, a.severity = .stop) ∧ 1 ≤ u.alm.unlisted)) ∧
      u.ts = s.ts ∧ u.aee = s.aee ∧ u.tas = s.tas ∧ u.rbu.handOver = s.rbu.handOver ∧ u.wat = s.wat ∧
      u.settings = s.settings ∧ u.ptu = s.ptu ∧ u.sup = s.sup ∧ u.cac = (reached s now).cac

/-! ### Handshake, supply and START -/

/-- The alarm list after a TAKE rise in NOTIFIED: every delivered RAISED entry is SEEN. -/
def seenList (l : List AlarmEntry) : List AlarmEntry :=
  l.map fun a => if a.state = .raised ∧ a.delivered = true then { a with state := .seen } else a

/-- The NOTICE/TAKE handshake: a rise in NOTIFIED makes delivered RAISED entries SEEN and gives TAKEN; a fall in TAKEN or IDLE
gives NOTIFIED if a RAISED entry is listed, else IDLE; any other TAKE event changes the level alone. No
command leaves IDLE with TAKE LOW and a RAISED entry listed. -/
def Obligations.TakeHandshake : Prop :=
  (∀ (s : State) (now : Nat), s.startCheck = false →
     let raised := ∃ a ∈ s.alm.list, a.state = .raised
     let after (a : Alarms) : State := { reached s now with alm := a }
     (s.alm.handshake = .notified →
       LeadsTo (.takeRises now) s
         (after { s.alm with list := seenList s.alm.list, handshake := .taken, takeHigh := true }) ∧
       LeadsTo (.takeFalls now) s (after { s.alm with takeHigh := false })) ∧
     (s.alm.handshake ≠ .notified → LeadsTo (.takeRises now) s (after { s.alm with takeHigh := true })) ∧
     (s.alm.handshake ≠ .notified → raised →
       LeadsTo (.takeFalls now) s (after { s.alm with handshake := .notified, takeHigh := false })) ∧
     (s.alm.handshake ≠ .notified → ¬ raised →
       LeadsTo (.takeFalls now) s (after { s.alm with handshake := .idle, takeHigh := false }))) ∧
  (∀ (i : Instr) (s u : State),
     (s.alm.handshake = .idle → s.alm.takeHigh = false → ∀ a ∈ s.alm.list, a.state ≠ .raised) → exec i s = .next u →
     u.alm.handshake = .idle → u.alm.takeHigh = false → ∀ a ∈ u.alm.list, a.state ≠ .raised)

/-- The open trains of a part, track 1 first, as a close of some reason that marks them POWER or not puts them after the closing
trains; one that is empty is WITHDRAWN (R86; the order of the tracks: log 40). -/
def closedTrains (s : State) (power : Bool) (reason : CloseReason) (time : Stamp) : List ClosingTrain :=
  ((s.tas.opens.one.toList ++ s.tas.opens.two.toList).filter fun tr => !(tr.stack.isEmpty && tr.phantoms == 0)).map fun tr =>
    ⟨if power then { tr with power := true } else tr, reason, time⟩

/-- HOLDUP_LOW in RUN or REDUCED freezes the part: each open train is closed POWER (track 1 first: log 40) with a SUPPLY alarm of
reason FREEZE and severity WATCH, one that overflows the Closing List handing its head over with its jobs cancelled; the entries of
queued live jobs become NOT_MEASURED and no job stays queued, a copy ends TORN, no track keeps a refresh; the freeze is IN_PROGRESS
and counted, the supply timers stop, and every owed Evaluate Snapshot whose job exists is RESTARTED (one whose work event has not
fallen waits on: log 38). Nothing else changes. -/
def Obligations.FreezeBegins : Prop :=
  ∀ (s : State) (now : Nat), s.startCheck = false → s.trs.errors = [] → s.sup.mode ≠ .frozen →
    (∀ t, TrackAgrees s t) →
    let count (n : Nat) : Nat := min (n + 1) 65535
    let key (t : Track) (tr : Train) : AlarmKey := ⟨some t, some tr.number, none, none, .supply⟩
    let alarm (t : Track) (tr : Train) : Judgement := ⟨key t tr, .watch, tr.stack.length + tr.phantoms, 0, .freeze⟩
    let empty := (s.tas.opens.one.toList ++ s.tas.opens.two.toList).filter fun tr => tr.stack.isEmpty && tr.phantoms == 0
    let closed := closedTrains s true .power (stampAt s.cac.siteTime (countAt s now))
    let spill := min closed.length (s.tas.closing.length + closed.length - 4)
    let early := (s.tas.closing ++ closed).take spill
    let ofEarly (n : Nat) : Bool := early.any fun c => c.train.number == n
    let unmeasured (k : Nat) : Prop :=
      (∃ j ∈ s.aee.queue, ∃ n i, j.owner = .live n k i) ∨
        ∃ f n i, s.aee.inFlight = some f ∧ f.discard = false ∧ f.job.owner = .live n k i ∧ ofEarly n = true
    ∃ u, LeadsTo (.holdupLowActive now) s u ∧
      u = { reached s now with
        ts := u.ts
        cac := { (reached s now).cac with mem := u.cac.mem, refresh := ⟨none, none⟩ }
        aee := { s.aee with queue := [], inFlight := u.aee.inFlight }
        tas :=
          { s.tas with
            opens := ⟨none, none⟩
            closing := (s.tas.closing ++ closed).drop spill
            overflows := (List.range spill).foldl (fun n _ => count n) s.tas.overflows
            withdrawn := empty.foldl (fun n _ => count n) s.tas.withdrawn }
        rbu.handOver := s.rbu.handOver ++ early
        trs.axles := u.trs.axles
        alm := u.alm
        wat := u.wat
        ptu := u.ptu
        sup :=
          { s.sup with
            mode := .frozen, holdupLow := true, failTimer := none, recoveryTimer := none, freeze := .inProgress,
            freezes := count s.sup.freezes }
        free := u.free } ∧
      (∀ t, let q := s.ts.get t
        u.ts.get t =
          if q.mode = .arming ∨ q.mode = .passing ∨ q.mode = .standstill then
            { q with
              mode := .armed, tSettle := none, tEnd := none, tStand := none, tAbandon := none, recovery := none,
              tDormant := some (countAt s now + s.settingNat itemTDormant * 100000),
              tRetare := some (countAt s now + s.settingNat itemTRetare * 100000) }
          else q) ∧
      u.aee.inFlight = s.aee.inFlight.map (fun f =>
        match f.job.owner with
        | .live n _ _ => { f with discard := f.discard || ofEarly n }
        | .service _ _ _ _ => f) ∧
      (∀ k a, unmeasured k → look s.trs.axles k = some a →
        look u.trs.axles k = some { a with
          rails := ⟨⟨0, 0, 0, 0, .notMeasured, .notMeasured⟩, ⟨0, 0, 0, 0, .notMeasured, .notMeasured⟩⟩
          sides := ⟨⟨0, .notMeasured⟩, ⟨0, .notMeasured⟩⟩ }) ∧
      (∀ k, ¬ unmeasured k → look u.trs.axles k = look s.trs.axles k) ∧
      u.alm = (((s.tas.opens.one.map (alarm .one)).toList ++ (s.tas.opens.two.map (alarm .two)).toList).foldl
        State.enterAlarm (reached s now)).alm ∧
      (s.alm.list.length ≤ 62 →
        (∀ t tr, s.tas.opens.get t = some tr → ∀ a ∈ s.alm.list, a.key ≠ key t tr) →
        ∃ l, u.alm.list = s.alm.list ++ l ∧
          l.map (·.key) = (s.tas.opens.one.map (key .one)).toList ++ (s.tas.opens.two.map (key .two)).toList ∧
          ∀ a ∈ l, a.severity = .watch ∧ a.reason = .freeze ∧ a.level = 0 ∧ a.state = .raised ∧
            ∃ t tr, s.tas.opens.get t = some tr ∧ a.key = key t tr ∧ a.value = tr.stack.length + tr.phantoms) ∧
      CopyTorn s u now ∧
      (∀ p tag r, (s.ptu.get p).slot = .pending tag r true →
        u.ptu.get p = { s.ptu.get p with slot := .answered tag r.row .restarted .none 1 }) ∧
      (∀ p, (∀ tag r, (s.ptu.get p).slot ≠ .pending tag r true) → u.ptu.get p = s.ptu.get p)

/-- The supply inputs and timers by the device mode: SUPPLY_FAIL runs the fail timer in RUN and the recovery timer in REDUCED; in
FROZEN an ACTIVE input stops the leave timer, and it starts once the freeze is COMPLETE with both inputs INACTIVE; the fail
timer takes RUN to REDUCED and marks the open trains POWER, the recovery timer REDUCED to RUN. -/
def Obligations.SupplyEvents : Prop :=
  (∀ (s : State) (now : Nat), s.startCheck = false →
     let c := countAt s now
     let after (x : Supply) : State := { reached s now with sup := x }
     (s.sup.mode = .run →
       LeadsTo (.supplyFailActive now) s (after { s.sup with supplyFail := true, failTimer := some (c + 100000) }) ∧
       LeadsTo (.supplyFailInactive now) s (after { s.sup with supplyFail := false, failTimer := none })) ∧
     (s.sup.mode = .reduced →
       LeadsTo (.supplyFailActive now) s (after { s.sup with supplyFail := true, recoveryTimer := none }) ∧
       LeadsTo (.supplyFailInactive now) s
         (after { s.sup with supplyFail := false, recoveryTimer := some (c + 2000000) })) ∧
     (s.sup.mode ≠ .frozen → LeadsTo (.holdupLowInactive now) s (after { s.sup with holdupLow := false })) ∧
     (s.sup.mode = .frozen →
       LeadsTo (.supplyFailActive now) s (after { s.sup with supplyFail := true, leaveTimer := none }) ∧
       LeadsTo (.holdupLowActive now) s (after { s.sup with holdupLow := true, leaveTimer := none }) ∧
       (s.sup.freeze = .complete → s.sup.leaveTimer = none →
         (s.sup.holdupLow = false →
           LeadsTo (.supplyFailInactive now) s
             (after { s.sup with supplyFail := false, leaveTimer := some (c + 2000000) })) ∧
         (s.sup.supplyFail = false →
           LeadsTo (.holdupLowInactive now) s
             (after { s.sup with holdupLow := false, leaveTimer := some (c + 2000000) }))) ∧
       (s.sup.freeze ≠ .complete ∨ s.sup.holdupLow = true →
         LeadsTo (.supplyFailInactive now) s (after { s.sup with supplyFail := false })) ∧
       (s.sup.freeze ≠ .complete ∨ s.sup.supplyFail = true →
         LeadsTo (.holdupLowInactive now) s (after { s.sup with holdupLow := false })))) ∧
  (∀ (s : State) (e : Nat), s.startCheck = false →
     (s.sup.failTimer = some e → s.sup.mode = .run →
       LeadsTo .failTimerExpiry s
         { reached s e with
           sup := { s.sup with mode := .reduced, failTimer := none, recoveryTimer := none }
           tas.opens :=
             ⟨s.tas.opens.one.map fun tr => { tr with power := true },
               s.tas.opens.two.map fun tr => { tr with power := true }⟩ }) ∧
     (s.sup.recoveryTimer = some e → s.sup.mode = .reduced →
       LeadsTo .recoveryTimerExpiry s { reached s e with sup := { s.sup with mode := .run, recoveryTimer := none } }))

/-- The freeze completes once no closing train and no job in flight remains, with the marker CONSISTENT; the leave timer's
expiry gives RUN, freeze NONE and the marker LIVE, and both tracks begin a refresh, one that leaves FAULT with its stuck timers
begun again; their train and idle timers stop, the rest of each track stays. -/
def Obligations.FreezeEnds : Prop :=
  ∀ (s : State) (e : Nat), s.startCheck = false → s.sup.mode = .frozen →
    (s.sup.freeze = .inProgress → s.tas.closing = [] → s.rbu.handOver = [] → s.rbu.closeOp = none →
      s.aee.inFlight = none →
      ((s.sup.holdupLow = true ∨ s.sup.supplyFail = true) →
        LeadsTo .freezeComplete s { s with sup.freeze := .complete, trs.marker := .consistent }) ∧
      (s.sup.holdupLow = false → s.sup.supplyFail = false → s.sup.leaveTimer = none →
        LeadsTo .freezeComplete s
          { s with
            sup.freeze := .complete
            sup.leaveTimer := some (s.cac.count + 2000000)
            trs.marker := .consistent })) ∧
    (s.sup.leaveTimer = some e → s.trs.errors = [] →
      ∃ u, LeadsTo .leaveTimerExpiry s u ∧
        u = { reached s e with
          sup := { s.sup with mode := .run, freeze := .none, leaveTimer := none }
          trs.marker := .live
          ts := u.ts
          cac := { (reached s e).cac with
            refresh := ⟨some ⟨s.cac.newest + 1, 0⟩, some ⟨s.cac.newest + 1, 0⟩⟩ } } ∧
        ∀ t, let q := s.ts.get t
          let begun (h : Head) : Timer :=
            if q.heads.get (headIx h) = true ∧ (s.setting (itemFitted t) ≠ 1 ∨ q.occupied = false) then
              some (countAt s e +
                s.settingNat (if s.setting (itemFitted t) = 1 then itemTStuck else itemTAbandon) * 100000)
            else q.stuck.get (headIx h)
          u.ts.get t =
            { q with
              mode := .arming, tSettle := none, tEnd := none, tStand := none, tAbandon := none, tDormant := none,
              tRetare := none, recovery := none,
              stuck := if q.mode = .fault then ⟨begun .a, begun .b⟩ else q.stuck })

/-- START begins the START check: lines negated, select periods in progress dropped. Until the check ends, every command but a
port's periods and START changes nothing. -/
def Obligations.StartCheckShutsOut : Prop :=
  (∀ (i : Instr) (s : State), s.startCheck = true →
     (∀ p, i ≠ .answerFetch p) → (∀ p l, i ≠ .requestPeriod p l) → (∀ p l, i ≠ .readPeriodEnd p l) → i ≠ .start →
     (∀ inputs samples, i ≠ .startCheckEnd inputs samples) → exec i s = .next s) ∧
  (∀ s : State,
     exec .start s = .next
       { s with
         startCheck := true
         lines := ⟨⟨false, false⟩, ⟨false, false⟩, false, false, ⟨false, false⟩⟩
         ptu := ⟨{ s.ptu.rp with period := none }, { s.ptu.ap with period := none }, { s.ptu.sp with period := none }⟩ })

/-- A track after a START check (R25): the levels of the inputs, nothing pending or counted, DORMANT or ARMING by its dormancy, or
ARMED with both idle timers where the part starts in FROZEN, and a stuck timer for each head that is ON where the condition of the
stuck timers holds. -/
def startedTrack (s : State) (inputs : Inputs) (t : Track) : Sequencer :=
  let fitted : Bool := s.setting (itemFitted t) == 1
  let heads := inputs.heads.get t
  let occupied := inputs.occupied.get t
  let mode : TrackMode :=
    if s.setting (itemDormancy t) = 1 then .dormant else if inputs.holdupLow then .armed else .arming
  let idle (item : Nat) : Timer := if mode = .armed then some (s.settingNat item * 100000) else none
  let begun (h : Head) : Timer :=
    if heads.get (headIx h) = true ∧ (fitted = false ∨ occupied = false) then
      some (s.settingNat (if fitted then itemTStuck else itemTAbandon) * 100000)
    else none
  { heads := heads, occupied := occupied, pending := none, mode := mode, tSettle := none, tEnd := none, tStand := none,
    tAbandon := none, tDormant := idle itemTDormant, tRetare := idle itemTRetare, stuck := ⟨begun .a, begun .b⟩,
    recovery := none, rock := 0, crossings := 0, held := 0, faultHead := none }

/-- Every block but the retained region at the end of a START check (R25, R44, R73, R92, R115, R165, R179, R194, R206; that no port has
sent bytes: log 51). -/
def InService (s u : State) (inputs : Inputs) (samples : List Sample) : Prop :=
  u.startCheck = false ∧ (∀ t, u.ts.get t = startedTrack u inputs t) ∧
  (u.cac.count = 0 ∧ u.cac.newest = 0 ∧ u.cac.siteTime = none ∧ u.cac.window = none ∧
    (∀ t, u.cac.tareValid.get t = false) ∧ (∀ r, u.cac.tare.getD r 0 = 0) ∧
    (∀ t, u.cac.refresh.get t = if (u.ts.get t).mode = .arming then some ⟨1, 0⟩ else none) ∧
    (∀ r, r < 20 → Memory.read u.cac.mem (cell r 64) =
      if (u.ts.get (rowTrack r)).mode = .dormant then 0 else samples.getD r 0) ∧
    ∀ r c, r < 20 → c < 8192 → c ≠ 64 → Memory.read u.cac.mem (cell r c) = 0) ∧
  u.aee = ⟨[], none, 0, 0, 0⟩ ∧ u.rbu = ⟨none, [], 0, 0, 0⟩ ∧ u.tas = ⟨⟨none, none⟩, [], u.tas.lastTrain, 0, 0⟩ ∧
  (u.wat.state = .off ∧ u.wat.cond.tracks = .none ∧ u.wat.pendingCond = none ∧ u.wat.slot = none ∧
    u.wat.matchCount = 0 ∧ u.wat.copy = none ∧ u.wat.snapshot.status = .none ∧ u.wat.snapshot.length = 0 ∧
    u.wat.snapshot.written = none) ∧
  (∀ p, u.ptu.get p = ⟨(s.ptu.get p).period, [], .empty, none, 0, 0⟩) ∧
  u.trs.capture = none ∧ u.trs.singles = 0 ∧ u.trs.doubles = 0 ∧ u.trs.reclaims = 0 ∧ u.trs.evictions = 0 ∧
  u.trs.purges = 0 ∧ u.trs.markerAtStart = s.trs.marker ∧
  u.sup =
    { mode := if inputs.holdupLow then .frozen else .run
      supplyFail := inputs.supplyFail
      holdupLow := inputs.holdupLow
      failTimer := if inputs.holdupLow = false ∧ inputs.supplyFail = true then some 100000 else none
      recoveryTimer := none
      leaveTimer := none
      freeze := if inputs.holdupLow then .complete else .none
      freezes := if inputs.holdupLow then 1 else 0 } ∧
  u.trs.marker = if inputs.holdupLow then .consistent else .live

/-- The end of a START check that found the marker ABSENT: the region cleared and every setting at its default, every block in
its state after START, the inputs read as levels, with a stuck timer for a head that is ON; in RUN both tracks refresh, with
HOLDUP_LOW ACTIVE the part is FROZEN with its freeze COMPLETE. -/
def Obligations.StartCheckEndsBlank : Prop :=
  ∀ (s : State) (inputs : Inputs) (samples : List Sample), s.startCheck = true → s.trs.marker = .absent →
    samples.length = 20 →
    ∃ u, exec (.startCheckEnd inputs samples) s = .next u ∧ InService s u inputs samples ∧ u.tas.lastTrain = 0 ∧
      u.trs.axles = [] ∧ u.trs.vehicles = [] ∧ u.trs.headers = [] ∧ u.trs.records = [] ∧
      u.alm = ⟨[], 0, .idle, inputs.take, 0, 0, 0, 0⟩ ∧ (∀ n, u.setting n = settingDefault n) ∧
      ∀ t, (u.ts.get t).mode = if inputs.holdupLow then .armed else .arming

/-- The end of a START check that found the marker LIVE or CONSISTENT and no damaged word: every block but the retained region as
after START, with a stuck timer for a head that is ON; records, settings and the last train number kept, every entry of no closed
record freed, counts and capture cleared, the alarm list kept undelivered with its counts 0 and the handshake tested, and after LIVE
a SUPPLY alarm of reason UNCLEAN_START (what entering it does: `JudgementEntered`). -/
def Obligations.StartCheckEndsKept : Prop :=
  ∀ (s : State) (inputs : Inputs) (samples : List Sample), s.startCheck = true → s.trs.marker ≠ .absent →
    s.trs.errors = [] → samples.length = 20 →
    let kept := s.alm.list.map fun a => { a with delivered := false }
    let key : AlarmKey := ⟨none, none, none, none, .supply⟩
    let asserted : Bool := !inputs.take && kept.any fun a => a.state == .raised
    let listed : Alarms := ⟨kept, s.alm.lastNumber, if asserted then .notified else .idle, inputs.take, 0, 0, 0, 0⟩
    ∃ u, exec (.startCheckEnd inputs samples) s = .next u ∧ InService s u inputs samples ∧
      u.trs.records = s.trs.records ∧ u.settings = s.settings ∧ u.tas.lastTrain = s.tas.lastTrain ∧
      (∀ k, (∃ r ∈ s.trs.records, k ∈ r.axles) → look u.trs.axles k = look s.trs.axles k) ∧
      (∀ k, (∀ r ∈ s.trs.records, k ∉ r.axles) → look u.trs.axles k = none) ∧
      (∀ k, (∃ r ∈ s.trs.records, k ∈ r.vehicles) → look u.trs.vehicles k = look s.trs.vehicles k) ∧
      (∀ k, (∀ r ∈ s.trs.records, k ∉ r.vehicles) → look u.trs.vehicles k = none) ∧
      (∀ k, (∃ r ∈ s.trs.records, k = r.header) → look u.trs.headers k = look s.trs.headers k) ∧
      (∀ k, (∀ r ∈ s.trs.records, k ≠ r.header) → look u.trs.headers k = none) ∧ u.trs.errors = [] ∧
      (s.trs.marker = .consistent → u.alm = listed) ∧
      (s.trs.marker = .live →
        u.alm = (State.enterAlarm { u with alm := listed } ⟨key, .watch, 0, 0, .uncleanStart⟩).alm) ∧
      (s.trs.marker = .live → s.alm.list.length < 64 → (∀ a ∈ s.alm.list, a.key ≠ key) →
        ∃ a, u.alm.list = kept ++ [a] ∧ a.key = key ∧ a.severity = .watch ∧ a.value = 0 ∧ a.level = 0 ∧
          a.reason = .uncleanStart ∧ a.state = .raised) ∧
      ∀ t, (u.ts.get t).mode =
        if s.setting (itemDormancy t) = 1 then .dormant else if inputs.holdupLow then .armed else .arming

/-! ### The ports -/

/-- The bytes that data out carries while `n` bytes are clocked: the answer frame, then fill bytes 00h (R180). -/
def carried (f : Frame) (n : Nat) : List Byte := (frameBytes f ++ List.replicate n 0).take n

/-- A request period that carries a good frame: taken where the slot is EMPTY or ANSWERED, answered BUSY_PORT where it is
PENDING. One whose frame is not good: LINK_ERROR noted and counted, the slot kept. One that ends inside the START check: its
frame is discarded. -/
def Obligations.FramesJudged : Prop :=
  (∀ (s : State) (p : Port) (bytes : List Byte), s.startCheck = false → bytes.head? = some 0xA5#8 →
    let before := s.ptu.get p
    ∃ after, exec (.requestPeriod p bytes) s = .next { s with ptu := s.ptu.set p after } ∧
      after.period = none ∧ after.denials = before.denials ∧ after.sent.length = bytes.length ∧
      (∀ f src, before.period = some ⟨f, src⟩ → after.sent = carried f bytes.length) ∧
      (∀ g, goodFrame bytes = some g →
        after.linkErrors = before.linkErrors ∧
        ((before.slot = .empty ∨ ∃ a b c d e, before.slot = .answered a b c d e) →
          after.slot = .pending g.tag g.req false ∧ after.note = none) ∧
        (∀ tag r v, before.slot = .pending tag r v →
          after.slot = .pending tag r v ∧ after.note = some ⟨.busyPort, g.tag, g.req.row, 1, 1, []⟩)) ∧
      (goodFrame bytes = none →
        after.linkErrors = min (before.linkErrors + 1) 65535 ∧ after.note = some ⟨.linkError, 0, 0, 1, 1, []⟩ ∧
        (before.slot = .empty → after.slot = .empty) ∧
        (∀ tag r v, before.slot = .pending tag r v → after.slot = .pending tag r v) ∧
        (∀ tag row st pl k, before.slot = .answered tag row st pl k →
          ∃ k', after.slot = .answered tag row st pl k'))) ∧
  ∀ (s : State) (p : Port) (bytes : List Byte) (f : Frame), s.startCheck = true →
    (s.ptu.get p).period = some ⟨f, .busy⟩ →
    exec (.requestPeriod p bytes) s = .next
      { s with ptu := s.ptu.set p { s.ptu.get p with period := none, sent := carried f bytes.length } }

/-- The frame of a select period is chosen when select is asserted, in the five cases of the rule, and no command but the end of the
period, another fetch on the port or START changes it. Parts of at most 246 bytes give the payload when joined; a slot that
becomes ANSWERED points at part 1; data out carries the frame and then fill bytes; a part shifted out whole moves the pointer on,
from the last back to part 1; a note shifted out whole is dropped; a frame not shifted out whole changes nothing. An answer and
its part pointer stand until a period of the port or the end of a START check. -/
def Obligations.AnswersCarried : Prop :=
  (∀ (s : State) (p : Port),
     let before := s.ptu.get p
     let chosen (f : Frame) (src : FrameSource) : Prop :=
       exec (.answerFetch p) s = .next { s with ptu := s.ptu.set p { before with period := some ⟨f, src⟩ } }
     (s.startCheck = true → chosen ⟨.busy, 0, 0, 1, 1, []⟩ .busy) ∧
     (s.startCheck = false →
       (∀ f, before.note = some f → chosen f .note) ∧
       (before.note = none →
         (∀ tag r v, before.slot = .pending tag r v → chosen ⟨.pending, tag, r.row, 1, 1, []⟩ .pending) ∧
         (∀ tag row st pl k, before.slot = .answered tag row st pl k →
           chosen ⟨st, tag, row, k, partCount (payloadBytes pl), partBytes (payloadBytes pl) k⟩ (.part k)) ∧
         (before.slot = .empty → chosen ⟨.done, 0, 0, 1, 1, []⟩ .empty)))) ∧
  ((∀ l : List Byte,
      ((List.range (partCount l)).flatMap fun k => partBytes l (k + 1)) = l ∧
      (∀ k, (partBytes l k).length ≤ 246) ∧ (l = [] → partCount l = 1) ∧
      (l ≠ [] → ∀ k, 1 ≤ k → k ≤ partCount l → partBytes l k ≠ [])) ∧
   (∀ (s : State) (p : Port) (bytes : List Byte) (f : Frame) (src : FrameSource),
      (s.ptu.get p).period = some ⟨f, src⟩ →
      let u := { s.ptu.get p with period := none, sent := carried f bytes.length }
      let ends (after : PortState) : Prop := exec (.readPeriodEnd p bytes) s = .next { s with ptu := s.ptu.set p after }
      (bytes.length < 9 + f.payload.length → ends u) ∧
      (9 + f.payload.length ≤ bytes.length →
        (src = .note → ends { u with note := none }) ∧
        (src = .busy ∨ src = .pending ∨ src = .empty → ends u) ∧
        (∀ k tag row st pl, src = .part k → u.slot = .answered tag row st pl k →
          ends { u with slot := .answered tag row st pl (if partCount (payloadBytes pl) ≤ k then 1 else k + 1) })))) ∧
  (∀ (i : Instr) (s u : State) (p : Port), exec i s = .next u →
     (i ≠ .answerFetch p → (∀ l, i ≠ .requestPeriod p l) → (∀ l, i ≠ .readPeriodEnd p l) → i ≠ .start →
       (u.ptu.get p).period = (s.ptu.get p).period) ∧
     (∀ tag row st pl k, (u.ptu.get p).slot = .answered tag row st pl k →
       (∀ tag' row' st' pl' k', (s.ptu.get p).slot ≠ .answered tag' row' st' pl' k') → k = 1) ∧
     ∀ tag row st pl k, (s.ptu.get p).slot = .answered tag row st pl k →
       (∀ l, i ≠ .requestPeriod p l) → (∀ l, i ≠ .readPeriodEnd p l) → (∀ x l, i ≠ .startCheckEnd x l) →
       (u.ptu.get p).slot = .answered tag row st pl k)

/-- Whether a port may send a request: its bit in the request's permission entry, setting item 100 + row, bit 0 for RP, bit 1 for
AP, bit 2 for SP; and the default map (R187). -/
def PermissionsGiven : Prop :=
  (∀ (s : State) (row : Nat),
    (permitted s .rp row = true ↔ s.settingNat (100 + row) % 2 = 1) ∧
    (permitted s .ap row = true ↔ s.settingNat (100 + row) / 2 % 2 = 1) ∧
    (permitted s .sp row = true ↔ s.settingNat (100 + row) / 4 % 2 = 1)) ∧
  (List.range 25).map (fun k => settingDefault (101 + k)) =
    [7, 7, 7, 7, 7, 3, 5, 6, 6, 2, 7, 4, 4, 4, 4, 4, 4, 4, 4, 4, 4, 4, 4, 4, 4]

/-- A request from a port outside its permission entry is answered DENIED and counted; one not available in the device mode is
answered MODE; every other block stays as it was. -/
def RequestsTurnedAway : Prop :=
  ∀ (s : State) (p : Port) (tag now : Nat) (r : Request), s.startCheck = false → s.trs.errors = [] →
    (s.ptu.get p).slot = .pending tag r false →
    let port := s.ptu.get p
    (permitted s p r.row = false →
      LeadsTo (workCommand p now r) s
        { reached s now with
          ptu := s.ptu.set p
            { port with slot := .answered tag r.row .denied .none 1, denials := min (port.denials + 1) 65535 } }) ∧
    (permitted s p r.row = true →
      (s.sup.mode = .frozen ∧ (r.row = 7 ∨ r.row = 20 ∨ r.row = 21 ∨ r.row = 22 ∨ r.row = 23 ∨ r.row = 25)) ∨
      (s.sup.mode ≠ .run ∧ (r.row = 13 ∨ r.row = 14 ∨ r.row = 18 ∨ ∃ a b c d e f, r = .setWatch a b c d e f 0)) →
      LeadsTo (workCommand p now r) s (answeredOn (reached s now) p tag r.row .mode .none))

/-- Which port may send a request, and what becomes of one that may not be sent, or not in this device mode. -/
def Obligations.DeniedOrMode : Prop := PermissionsGiven ∧ RequestsTurnedAway

/-! ### Requests -/

/-! ### Requests -/

/-- The values of each section of Status (R24, R72, R91, R114, R137, R164, R178, R189, R202; a queued service job counts among
the ready ones: log 43, the trains that RESTART handed over among those handed over early: log 39, the values worked out from others: log 23). -/
def sectionValues (s : State) : Nat → Option StatusView
  | 0 => some (.device
      { mode := s.sup.mode, supplyFail := s.sup.supplyFail, holdupLow := s.sup.holdupLow, failTimer := s.sup.failTimer,
        recoveryTimer := s.sup.recoveryTimer, leaveTimer := s.sup.leaveTimer, freeze := s.sup.freeze,
        freezes := s.sup.freezes,
        slots := ⟨slotState s.ptu.rp.slot, slotState s.ptu.ap.slot, slotState s.ptu.sp.slot⟩,
        denials := ⟨s.ptu.rp.denials, s.ptu.ap.denials, s.ptu.sp.denials⟩,
        linkErrors := ⟨s.ptu.rp.linkErrors, s.ptu.ap.linkErrors, s.ptu.sp.linkErrors⟩,
        reportReady := s.lines.reportReady })
  | 1 => some (.track
      { mode := s.ts.one.mode, heads := s.ts.one.heads, occupied := s.ts.one.occupied,
        pending := s.ts.one.pending.map (·.1), rock := s.ts.one.rock, crossings := s.ts.one.crossings,
        held := s.ts.one.held, faultHead := s.ts.one.faultHead })
  | 2 => some (.track
      { mode := s.ts.two.mode, heads := s.ts.two.heads, occupied := s.ts.two.occupied,
        pending := s.ts.two.pending.map (·.1), rock := s.ts.two.rock, crossings := s.ts.two.crossings,
        held := s.ts.two.held, faultHead := s.ts.two.faultHead })
  | 3 => some (.capture
      { converters := ⟨decide (s.ts.one.mode ≠ .dormant), decide (s.ts.two.mode ≠ .dormant)⟩, count := s.cac.count,
        newest := s.cac.newest, writePointer := 64 + s.cac.newest % 7616, siteTime := s.cac.siteTime,
        time := stampAt s.cac.siteTime s.cac.count, tare := s.cac.tare, tareValid := s.cac.tareValid,
        refresh := s.cac.refresh, window := s.cac.window })
  | 4 => some (.engine
      { queueLength := s.aee.queue.length,
        service :=
          if ∃ j ∈ s.aee.queue, isLive j = false then .queued
          else if ∃ f, s.aee.inFlight = some f ∧ isLive f.job = false then .inFlight else .none,
        inFlight :=
          match s.aee.inFlight with
          | none => .none
          | some f =>
            match f.job.owner with
            | .live train _ axle => .live f.job.track train axle f.discard
            | .service _ _ _ _ => .service f.job.track
        readyJobs := (s.aee.queue.filter (·.ready)).length, queueFull := s.aee.queueFull, stale := s.aee.stale,
        discards := s.aee.discards })
  | 5 => some (.trains
      { opens :=
          ⟨s.tas.opens.one.map fun tr => ⟨tr.number, tr.dir, tr.stack.length, tr.phantoms⟩,
            s.tas.opens.two.map fun tr => ⟨tr.number, tr.dir, tr.stack.length, tr.phantoms⟩⟩,
        closing := s.tas.closing.map fun c => ⟨c.train.number, c.train.track, c.reason, jobCount s c.train.number⟩,
        handedOver :=
          s.rbu.handOver.length + (match s.rbu.closeOp with | some o => if o.early then 1 else 0 | none => 0), lastTrain := s.tas.lastTrain, overflows := s.tas.overflows,
        withdrawn := s.tas.withdrawn })
  | 6 => some (.builder
      { closeOp := s.rbu.closeOp.map fun o => (o.closing.train.number, o.closing.train.track, o.phase),
        handOver := s.rbu.handOver.map fun c => (c.train.number, c.train.track), made := s.rbu.made,
        discardedFull := s.rbu.discardedFull, truncated := s.rbu.truncated })
  | 7 => some (.store
      { freeAxles := 4096 - s.trs.axles.length, freeVehicles := 1024 - s.trs.vehicles.length,
        freeHeaders := 32 - s.trs.headers.length, records := s.trs.records.length,
        released := (s.trs.records.filter fun r => !r.holders.report && !r.holders.alarm).length,
        holdingReport := (s.trs.records.filter (·.holders.report)).length,
        holdingAlarm := (s.trs.records.filter (·.holders.alarm)).length,
        keepOld := decide (s.setting itemRetentionPolicy = 1), capture := s.trs.capture, singles := s.trs.singles,
        doubles := s.trs.doubles, reclaims := s.trs.reclaims, evictions := s.trs.evictions, purges := s.trs.purges,
        marker := s.trs.marker, markerAtStart := s.trs.markerAtStart })
  | 8 => some (.alarms
      { entries := s.alm.list.length, raised := (s.alm.list.filter (·.state == .raised)).length,
        seen := (s.alm.list.filter (·.state == .seen)).length,
        cleared := (s.alm.list.filter (·.state == .cleared)).length, lastNumber := s.alm.lastNumber,
        handshake := s.alm.handshake, takeHigh := s.alm.takeHigh, notice := s.lines.notice, stop := s.lines.stop,
        warn := s.lines.warn, unlisted := s.alm.unlisted, evictions := s.alm.evictions, retired := s.alm.retired,
        dropped := s.alm.dropped })
  | 9 => some (.watch ⟨s.wat.state, s.wat.matchCount, s.wat.snapshot.status⟩)
  | _ => none

/-- Status answers each of its ten sections with its values of that moment, and BAD_VALUE for any other section. -/
def Obligations.StatusAnswered : Prop :=
  ∀ (s : State) (p : Port) (tag sect now : Nat), Ready s p tag (.status sect) →
    (∀ v, sectionValues (reached s now) sect = some v →
      LeadsTo (.status p now) s (answeredOn (reached s now) p tag 1 .done (.status v))) ∧
    (sect < 10 → sectionValues (reached s now) sect ≠ none) ∧
    (10 ≤ sect → LeadsTo (.status p now) s (answeredOn (reached s now) p tag 1 .badValue .none))

/-- Record List, Header Read, Axle Read and Vehicle Read answer from the record as it stands; a number with no record is GONE,
and a first position or index out of its range is BAD_VALUE. -/
def Obligations.RecordsRead : Prop :=
  ∀ (s : State) (p : Port) (tag n i now : Nat),
    let gives (row : Nat) (st : Status) (pl : Payload) : State := answeredOn (reached s now) p tag row st pl
    let missing := ∀ r ∈ s.trs.records, r.number ≠ n
    (Ready s p tag (.recordList i) →
      (1 ≤ i → i ≤ 32 →
        LeadsTo (.recordList p now) s
          (gives 2 .done
            (.recordList s.trs.records.length
              ((((s.trs.records.drop (i - 1)).take 16).zipIdx i).map fun r =>
                let h := s.header r.1.header
                ⟨r.2, r.1.number, r.1.track, h.dir, h.reason, h.axleCount, h.worst, r.1.holders, h.flags.damaged⟩)))) ∧
      (i = 0 ∨ 32 < i → LeadsTo (.recordList p now) s (gives 2 .badValue .none))) ∧
    (Ready s p tag (.headerRead n) →
      (∀ l r l', s.trs.records = l ++ r :: l' → r.number = n → (∀ x ∈ l, x.number ≠ n) →
        LeadsTo (.headerRead p now) s (gives 3 .done (.header (s.header r.header) r.holders (l.length + 1)))) ∧
      (missing → LeadsTo (.headerRead p now) s (gives 3 .gone .none))) ∧
    (Ready s p tag (.axleRead n i) →
      (∀ r, 1 ≤ i → i ≤ 512 → findRecord s n = some r →
        LeadsTo (.axleRead p now) s
          (gives 4 .done
            (.axles (s.header r.header).depth (s.header r.header).phantoms
              (((r.axles.drop (i - 1)).take 16).map s.axle)))) ∧
      (i = 0 ∨ 512 < i → LeadsTo (.axleRead p now) s (gives 4 .badValue .none)) ∧
      (1 ≤ i → i ≤ 512 → missing → LeadsTo (.axleRead p now) s (gives 4 .gone .none))) ∧
    (Ready s p tag (.vehicleRead n i) →
      (∀ r, 1 ≤ i → i ≤ 160 → findRecord s n = some r →
        LeadsTo (.vehicleRead p now) s
          (gives 5 .done
            (.vehicles (s.header r.header).vehicleCount
              (((r.vehicles.drop (i - 1)).take 16).filterMap fun k => look s.trs.vehicles k)))) ∧
      (i = 0 ∨ 160 < i → LeadsTo (.vehicleRead p now) s (gives 5 .badValue .none)) ∧
      (1 ≤ i → i ≤ 160 → missing → LeadsTo (.vehicleRead p now) s (gives 5 .gone .none)))

/-- Release Record takes the sending port's holder out of the record's holder set; without it the answer is NOT_HELD. -/
def Obligations.RecordReleased : Prop :=
  ∀ (s : State) (p : Port) (tag n now : Nat), Ready s p tag (.releaseRecord n) →
    let gives (s : State) (st : Status) (pl : Payload) : State := answeredOn s p tag 6 st pl
    let held (h : Holders) : Bool := match p with | .rp => h.report | .ap => h.alarm | .sp => false
    let left (h : Holders) : Holders :=
      match p with | .rp => { h with report := false } | .ap => { h with alarm := false } | .sp => h
    (n = 0 ∨ 65535 < n → LeadsTo (.releaseRecord p now) s (gives (reached s now) .badValue .none)) ∧
    (1 ≤ n → n ≤ 65535 → (∀ r ∈ s.trs.records, r.number ≠ n) →
      LeadsTo (.releaseRecord p now) s (gives (reached s now) .gone .none)) ∧
    (∀ r, 1 ≤ n → n ≤ 65535 → findRecord s n = some r → held r.holders = false →
      LeadsTo (.releaseRecord p now) s (gives (reached s now) .notHeld .none)) ∧
    (∀ r, 1 ≤ n → n ≤ 65535 → findRecord s n = some r → held r.holders = true →
      LeadsTo (.releaseRecord p now) s
        (gives
          { reached s now with
            trs.records := s.trs.records.map fun x => if x.number = n then { x with holders := left r.holders } else x }
          .done (.holders (left r.holders))))

/-- The time taken at a count (R32): from the pair of a Set Site Time, seconds modulo 2^32 and milliseconds; while site time is UNSET
the milliseconds of the count, flagged TIME_UNSET. -/
def TimesTaken : Prop :=
  (∀ secs c0 c : Nat, c0 ≤ c →
    stampAt (some (secs, c0)) c = ⟨(secs + (c - c0) / 1000000) % 4294967296, (c - c0) / 1000 % 1000, false⟩) ∧
  (∀ c : Nat, stampAt none c = ⟨0, c / 1000 % 1000, true⟩) ∧
  ∀ s : State, s.stamp = stampAt s.cac.siteTime s.cac.count

/-- Purge Record removes the record whatever its holders and frees what it held; Clear Error Capture empties the capture; Set
Site Time sets the pair of its seconds and the count of its work event (log 37). -/
def PurgeAndClear : Prop :=
  ∀ (s : State) (p : Port) (tag n now : Nat),
    (Ready s p tag (.purgeRecord n) →
      (n = 0 ∨ 65535 < n → LeadsTo (.purgeRecord p now) s (answeredOn (reached s now) p tag 23 .badValue .none)) ∧
      (1 ≤ n → n ≤ 65535 → (∀ r ∈ s.trs.records, r.number ≠ n) →
        LeadsTo (.purgeRecord p now) s (answeredOn (reached s now) p tag 23 .gone .none)) ∧
      (∀ r, 1 ≤ n → n ≤ 65535 → findRecord s n = some r →
        LeadsTo (.purgeRecord p now) s
          (answeredOn { recordGone (reached s now) r with trs.purges := min (s.trs.purges + 1) 65535 } p tag 23 .done
            (.holders r.holders)))) ∧
    (Ready s p tag .clearErrorCapture →
      LeadsTo (.clearErrorCapture p now) s
        (answeredOn { reached s now with trs.capture := none } p tag 24 .done (.errorCapture s.trs.capture))) ∧
    (Ready s p tag (.setSiteTime n) →
      LeadsTo (.setSiteTime p now) s
        (answeredOn { reached s now with cac.siteTime := some (n, countAt s now) } p tag 7 .done .none))

/-- Purge Record, Clear Error Capture, Set Site Time, and the times taken from it. -/
def Obligations.PurgeCaptureTime : Prop := TimesTaken ∧ PurgeAndClear

/-- Read order keeps the entries and ranks them: severity first, then state, then the newest. Alarm Read returns up to 6 of the
selected entries in that order with the three counts, and marks them delivered on the Alarm Port alone. -/
def AlarmsRead : Prop :=
  (∀ l : List AlarmEntry,
     (readOrder l).Perm l ∧
     ((readOrder l).Pairwise fun a b =>
       sevRank b.severity < sevRank a.severity ∨
         (a.severity = b.severity ∧ stateRank b.state ≤ stateRank a.state)) ∧
     ∀ v st, ((readOrder l).filter fun a => a.severity == v && a.state == st)
       = (l.filter fun a => a.severity == v && a.state == st).reverse) ∧
  (∀ (s : State) (p : Port) (tag selection first now : Nat), Ready s p tag (.alarmRead selection first) →
     let chosen := readOrder (s.alm.list.filter fun a => selection == 0 || a.state == .raised)
     let shown := (chosen.drop (first - 1)).take 6
     let raised := (s.alm.list.filter fun a => a.state == .raised).length
     let gives (s : State) (st : Status) (pl : Payload) : State := answeredOn s p tag 8 st pl
     (1 < selection ∨ first = 0 ∨ 64 < first →
       LeadsTo (.alarmRead p now) s (gives (reached s now) .badValue .none)) ∧
     (selection ≤ 1 → 1 ≤ first → first ≤ 64 →
       (p ≠ .ap →
         LeadsTo (.alarmRead p now) s
           (gives (reached s now) .done (.alarms s.alm.list.length raised chosen.length shown))) ∧
       (p = .ap →
         LeadsTo (.alarmRead p now) s
           (gives
             { reached s now with
               alm.list := s.alm.list.map fun a =>
                 if shown.any fun b => b.slot == a.slot then { a with delivered := true } else a }
             .done (.alarms s.alm.list.length raised chosen.length (shown.map fun a => { a with delivered := true }))))))

/-- Clear Alarm by number and by track, and Clear Unlisted. -/
def AlarmsCleared : Prop :=
  ∀ (s : State) (p : Port) (tag n now : Nat),
    let gives (s : State) (row : Nat) (st : Status) (pl : Payload) : State := answeredOn s p tag row st pl
    let cleared (a : AlarmEntry) : AlarmEntry := if a.state = .seen then { a with state := .cleared } else a
    (Ready s p tag (.clearAlarm 0 n) →
      (n = 0 → LeadsTo (.clearAlarmNumber p now) s (gives (reached s now) 9 .badValue .none)) ∧
      (1 ≤ n → (∀ a ∈ s.alm.list, a.number ≠ n) →
        LeadsTo (.clearAlarmNumber p now) s (gives (reached s now) 9 .gone .none)) ∧
      (∀ a, 1 ≤ n → (s.alm.list.find? fun a => a.number == n) = some a → a.state = .raised →
        LeadsTo (.clearAlarmNumber p now) s (gives (reached s now) 9 .notSeen .none)) ∧
      (∀ a, 1 ≤ n → (s.alm.list.find? fun a => a.number == n) = some a → a.state ≠ .raised →
        LeadsTo (.clearAlarmNumber p now) s
          (gives
            { reached s now with alm.list := s.alm.list.map fun b => if b.number = n then cleared b else b } 9 .done
            .none))) ∧
    (Ready s p tag (.clearAlarm 1 n) →
      (∀ t, selectedTrack n = some t →
        LeadsTo (.clearAlarmTrack p now) s
          (gives
            { reached s now with alm.list := s.alm.list.map fun a => if a.key.track = t then cleared a else a } 9 .done
            (.cleared (s.alm.list.filter fun a => a.key.track == t && a.state == .seen).length
              (s.alm.list.filter fun a => a.key.track == t && a.state == .raised).length))) ∧
      (2 < n → LeadsTo (.clearAlarmTrack p now) s (gives (reached s now) 9 .badValue .none))) ∧
    (Ready s p tag .clearUnlisted →
      LeadsTo (.clearUnlisted p now) s
        (gives { reached s now with alm.unlisted := 0 } 10 .done (.unlisted s.alm.unlisted)))

/-- Alarm Read, Clear Alarm and Clear Unlisted. -/
def Obligations.AlarmRequests : Prop := AlarmsRead ∧ AlarmsCleared

/-- Live Axle Read shows the open train with its last up to 8 evaluated entries and changes nothing else; Force Close closes it
FORCED, with what its close does to a full Closing List, and takes the track to ARMING, in REDUCED on to ARMED; nothing else
changes. -/
def Obligations.OpenTrainRequests : Prop :=
  ∀ (s : State) (p : Port) (tag n now : Nat),
    let gives (row : Nat) (st : Status) (pl : Payload) : State := answeredOn (reached s now) p tag row st pl
    (Ready s p tag (.liveAxleRead n) →
      (n ≠ 1 → n ≠ 2 → LeadsTo (.liveAxleRead p now) s (gives 11 .badValue .none)) ∧
      (∀ t, twoOf n = some t → s.tas.opens.get t = none → LeadsTo (.liveAxleRead p now) s (gives 11 .done .noTrain)) ∧
      (∀ t tr, twoOf n = some t → s.tas.opens.get t = some tr →
        let entries := (tr.stack.map fun i => s.axle i.entry).filter evaluated
        LeadsTo (.liveAxleRead p now) s
          (gives 11 .done
            (.live ⟨tr.number, tr.dir, tr.stack.length, tr.phantoms, tr.unwinds, tr.withdrawals, tr.poolShort,
              tr.overlength, tr.power, entries.drop (entries.length - 8)⟩)))) ∧
    (Ready s p tag (.forceClose n) →
      (n ≠ 1 → n ≠ 2 → LeadsTo (.forceClose p now) s (gives 22 .badValue .none)) ∧
      (∀ t, twoOf n = some t → s.tas.opens.get t = none →
        LeadsTo (.forceClose p now) s (gives 22 .done (.forceClose .noTrain))) ∧
      (∀ t tr, twoOf n = some t → s.tas.opens.get t = some tr →
        let closed := trainClosed (reached s now) t tr .forced (stampAt s.cac.siteTime (countAt s now))
        LeadsTo (.forceClose p now) s
          (answeredOn (armingOf closed t (countAt s now) (s.ts.get t)) p tag 22 .done
            (.forceClose (if tr.stack = [] ∧ tr.phantoms = 0 then .withdrawn tr.number else .closed tr.number)))))

/-- The sample that element `e` of a window names. -/
def elementAddress (w : Window) (e : Nat) : Nat :=
  let nrow := w.lastRow - w.firstRow + 1
  let ncol := w.lastColumn - w.firstColumn + 1
  match w.order with
  | .alongRow => cell (w.firstRow + e / ncol) (w.firstColumn + e % ncol)
  | .acrossRows => cell (w.firstRow + e % nrow) (w.firstColumn + e / nrow)

/-- The elements of a window that remain from its cursor on. -/
def elementsLeft (w : Window) : Nat :=
  (w.lastRow - w.firstRow + 1) * (w.lastColumn - w.firstColumn + 1) - w.cursor

/-- Set Window sets the window with its cursor at element 0, or refuses; Window Read returns the elements from the cursor on,
never past the last, and moves the cursor on, back to 0 after the last with WRAPPED. Under a copy in flight a window that includes a
snapshot column is read part old and part copied, with COPYING (how far the copy has come: log 15). -/
def WindowSetAndRead : Prop :=
  ∀ (s : State) (p : Port) (tag now : Nat),
    (∀ a b c d e o, Ready s p tag (.setWindow a b c d e) →
      (b < 20 → d < 8192 → a ≤ b → c ≤ d → windowOrderOf e = some o →
        LeadsTo (.setWindow p now) s
          (answeredOn { reached s now with cac.window := some ⟨a, b, c, d, o, 0⟩ } p tag 12 .done .none)) ∧
      (20 ≤ b ∨ 8192 ≤ d ∨ b < a ∨ d < c ∨ 1 < e →
        LeadsTo (.setWindow p now) s (answeredOn (reached s now) p tag 12 .badValue .none))) ∧
    (∀ n, Ready s p tag (.windowRead n) →
      (s.cac.window = none ∨ n = 0 ∨ 120 < n →
        LeadsTo (.windowRead p now) s (answeredOn (reached s now) p tag 13 .badValue .none)) ∧
      (∀ w, s.cac.window = some w → windowFits w → 1 ≤ n → n ≤ 120 →
        let m := min n (elementsLeft w)
        let moved (mem : List (Nat × Sample)) : State :=
          { reached s now with
            cac :=
              { (reached s now).cac with
                mem := mem
                window := some { w with cursor := if m = elementsLeft w then 0 else w.cursor + m } } }
        let read (mem : List (Nat × Sample)) (copying : Bool) : Payload :=
          .windowRead
            { firstElement := w.cursor, count := m,
              samples := (List.range m).map fun i => Memory.read mem (elementAddress w (w.cursor + i)),
              newest := s.cac.newest, wrapped := decide (m = elementsLeft w), copying := copying }
        (s.wat.copy = none ∨ w.lastColumn < 7680 →
          LeadsTo (.windowRead p now) s
            (answeredOn (moved s.cac.mem) p tag 13 .done (read s.cac.mem false))) ∧
        (∀ c, s.wat.copy = some c → 7680 ≤ w.lastColumn →
          ∃ k, k ≤ c.todo.length ∧ min (c.done + c.todo.length) (countAt s now - c.began) ≤ c.done + k ∧
            let mem := writeColumns s.cac.mem (c.todo.take k)
            ColumnsStand s.cac.mem mem (c.todo.take k) ∧
            LeadsTo (.windowRead p now) s
              (answeredOn
                { moved mem with
                  wat.copy := some { c with done := c.done + k, todo := c.todo.drop k }
                  free := s.free + 1 }
                p tag 13 .done (read mem true)))))

/-- Window Write: BAD_VALUE and BUSY in the order of the rule; else the samples stand in the elements from the cursor on, those
beyond the last are ignored, and every other sample is as it was. -/
def WindowWritten : Prop :=
  ∀ (s : State) (p : Port) (tag now : Nat) (l : List Sample), Ready s p tag (.windowWrite l) →
    (s.cac.window = none ∨ l = [] ∨ 120 < l.length ∨ (∃ w, s.cac.window = some w ∧ w.firstColumn < 7680) →
      LeadsTo (.windowWrite p now) s (answeredOn (reached s now) p tag 14 .badValue .none)) ∧
    (∀ w, s.cac.window = some w → l ≠ [] → l.length ≤ 120 → 7680 ≤ w.firstColumn →
      (s.wat.copy ≠ none ∨ serviceJobExists s = true →
        LeadsTo (.windowWrite p now) s (answeredOn (reached s now) p tag 14 .busy .none)) ∧
      (windowFits w → s.wat.copy = none → serviceJobExists s = false →
        let k := min l.length (elementsLeft w)
        ∃ u, LeadsTo (.windowWrite p now) s u ∧
          (∀ i, i < k → Memory.read u.cac.mem (elementAddress w (w.cursor + i)) = l.getD i 0) ∧
          (∀ a, (∀ i, i < k → a ≠ elementAddress w (w.cursor + i)) → Memory.read u.cac.mem a = Memory.read s.cac.mem a) ∧
          u = answeredOn
            { reached s now with
              cac :=
                { (reached s now).cac with
                  mem := u.cac.mem
                  window := some { w with cursor := if k = elementsLeft w then 0 else w.cursor + k } } }
            p tag 14 .done (.windowWrite k (decide (k = elementsLeft w)))))

/-- Set Window, Window Read and Window Write. -/
def Obligations.WindowRequests : Prop := WindowSetAndRead ∧ WindowWritten

/-- Set Watch acts by the watch state (LOCKED keeps the condition in force and takes the new one as pending), Watch Read changes
nothing, and Release Watch acts by the state, the copy in flight, the pending condition and the mode. -/
def Obligations.WatchRequests : Prop :=
  ∀ (s : State) (p : Port) (tag now : Nat),
    let armedFor (c : Condition) : WatchState := if c.tracks = .none then .off else .armed
    let gives (w : Watch) (row : Nat) (st : Status) (pl : Payload) : State :=
      answeredOn { reached s now with wat := w } p tag row st pl
    (∀ a b c d e f g, Ready s p tag (.setWatch a b c d e f g) →
      (∀ x, conditionOf a b c d e f g = some x →
        (s.wat.state ≠ .locked →
          LeadsTo (.setWatch p now) s (gives { s.wat with cond := x, state := armedFor x } 15 .done .none)) ∧
        (s.wat.state = .locked →
          LeadsTo (.setWatch p now) s (gives { s.wat with pendingCond := some x } 15 .done .none))) ∧
      (3 < a ∨ 7 < b ∨ 2 < c ∨ 3 < d ∨ 65535 < e ∨ 1 < f ∨ 1 < g →
        LeadsTo (.setWatch p now) s (gives s.wat 15 .badValue .none))) ∧
    (Ready s p tag .watchRead →
      LeadsTo (.watchRead p now) s
        (gives s.wat 16 .done
          (.watch ⟨s.wat.state, s.wat.cond, s.wat.pendingCond, s.wat.slot, s.wat.matchCount, s.wat.snapshot,
            s.wat.copy.isSome⟩))) ∧
    (Ready s p tag .releaseWatch →
      let answer (notLocked : Bool) : Payload := .released notLocked s.wat.matchCount s.wat.snapshot.status
      (s.wat.state ≠ .locked → LeadsTo (.releaseWatch p now) s (gives s.wat 17 .done (answer true))) ∧
      (s.wat.state = .locked → s.wat.copy ≠ none → LeadsTo (.releaseWatch p now) s (gives s.wat 17 .busy .none)) ∧
      (s.wat.state = .locked → s.wat.copy = none →
        (∀ x, s.wat.pendingCond = some x →
          LeadsTo (.releaseWatch p now) s
            (gives { s.wat with cond := x, pendingCond := none, state := armedFor x } 17 .done (answer false))) ∧
        (s.wat.pendingCond = none →
          LeadsTo (.releaseWatch p now) s
            (gives { s.wat with state := if s.wat.cond.mode = .oneShot then .off else .armed } 17 .done
              (answer false)))))

/-- The load window and the bearing gate of a crossing, as the rule of the two times has them (R50). -/
def WindowsFormed : Prop :=
  ∀ (s : State) (t : Track) (dir : Direction) (tA dt : Nat),
    loadWindow s t dir tA dt = loadSamples s t dir tA dt ∧ bearingGate s t dir tA dt = gateSamples s t dir tA dt

/-- Evaluate Snapshot: a field or its bearing gate out of range is BAD_VALUE, a copy in flight BUSY, a full queue or an existing
service job FULL, in that order; else a ready service job joins the queue's tail and the request stays PENDING. -/
def SnapshotAsked : Prop :=
  ∀ (s : State) (p : Port) (tag now a c l o d dt tA : Nat), Ready s p tag (.evaluateSnapshot a c l o d dt tA) →
    let no (st : Status) : Prop := LeadsTo (.evaluateSnapshot p now) s (answeredOn (reached s now) p tag 18 st .none)
    ((a ≠ 1 ∧ a ≠ 2) ∨ c < 7680 ∨ 8191 < l ∨ l < c ∨ 1125899906842 < o ∨ 1 < d ∨ 16777215 < dt ∨ 281474976710655 < tA →
      no .badValue) ∧
    (∀ t dir, twoOf a = some t → directionOf d = some dir → 7680 ≤ c → c ≤ l → l ≤ 8191 → o ≤ 1125899906842 →
      dt ≤ 16777215 → tA ≤ 281474976710655 →
      let gate := gateSamples s t dir tA dt
      let inside := 7680 ≤ (c : Int) + (gate.1 - o) ∧ (c : Int) + (gate.2 - o) ≤ 8191
      (¬ inside → no .badValue) ∧ (inside → s.wat.copy ≠ none → no .busy) ∧
      (inside → s.wat.copy = none → 16 ≤ s.aee.queue.length ∨ serviceJobExists s = true → no .full) ∧
      (inside → s.wat.copy = none → s.aee.queue.length < 16 → serviceJobExists s = false →
        let speed := speedRule (s.settingNat (itemD t)) dt (s.settingNat itemVLow)
        let job : Job :=
          { owner := .service p c l o, track := t, dir := dir, dt := dt, tA := tA, speed := speed.1,
            speedClass := speed.2, ls := o, le := (o : Int) + (l - c), bs := gate.1, be := gate.2, ready := true }
        LeadsTo (.evaluateSnapshot p now) s
          { reached s now with
            aee.queue := s.aee.queue ++ [job]
            ptu := s.ptu.set p
              { s.ptu.get p with slot := .pending tag (.evaluateSnapshot a c l o d dt tA) true } }))

/-- The windows of a crossing, and Evaluate Snapshot. -/
def Obligations.SnapshotEvaluated : Prop := WindowsFormed ∧ SnapshotAsked

/-! ### Settings -/

/-- The numbers of the setting items, as ranges (R196). -/
def itemRanges : List (Nat × Nat) := [(1, 7), (11, 17), (21, 67), (71, 77), (81, 84), (91, 94), (101, 125)]

/-- Whether a number is a setting item. -/
def settingItem (n : Nat) : Bool := itemRanges.any fun r => decide (r.1 ≤ n ∧ n ≤ r.2)

/-- A written value of 4 bytes as its item reads it: coordinates in two's complement (log 34), the others unsigned. -/
def readValue (n raw : Nat) : Int :=
  if n = 2 ∨ n = 3 ∨ n = 4 ∨ n = 12 ∨ n = 13 ∨ n = 14 then
    if raw % 4294967296 < 2147483648 then (raw % 4294967296 : Nat) else (raw % 4294967296 : Nat) - 4294967296
  else raw

/-- Whether a pair may stand in a Settings Write, whatever is stored (R198). -/
def PairFits (n : Nat) (v : Int) : Prop :=
  settingItem n = true ∧ n ≤ 100 ∧ ((n = 6 ∨ n = 7 ∨ n = 16 ∨ n = 17 ∨ n = 91 ∨ n = 92) → v = 0 ∨ v = 1) ∧
    (n = 93 → 0 ≤ v ∧ v ≤ 3) ∧ (n = 94 → 1 ≤ v ∧ v ≤ 2) ∧ (21 ≤ n → n ≤ 67 → 0 ≤ v ∧ v ≤ 65535)

/-- The value an item would have after a write: the written one, or the present one of an item not written (R198). -/
def valueAfter (s : State) (l : List (Nat × Int)) (n : Nat) : Int :=
  match l.find? fun e => e.1 == n with | some e => e.2 | none => s.setting n

/-- The geometry of a track in its ranges and constraints, for some values (R196, R198). -/
def GeometryFits (v : Nat → Int) (t : Track) : Prop :=
  let item (k : Nat) : Int := v (match t with | .one => k | .two => k + 10)
  400 ≤ item 1 ∧ item 1 ≤ 1600 ∧ -6000 ≤ item 2 ∧ item 2 ≤ 6000 ∧ -6000 ≤ item 3 ∧ item 3 ≤ 6000 ∧ -6000 ≤ item 4 ∧
    item 4 ≤ 6000 ∧ 50 ≤ item 5 ∧ item 5 ≤ 400 ∧ item 2 < item 3 ∧ item 3 - item 2 ≤ 3000

/-- Whether an item is one of a track's geometry (R196). -/
def GeometryItem (t : Track) (n : Nat) : Prop := match t with | .one => 1 ≤ n ∧ n ≤ 6 | .two => 11 ≤ n ∧ n ≤ 16

/-- Whether an item is the gain of one of a track's rows (R198). -/
def GainItem (t : Track) (n : Nat) : Prop :=
  match t with
  | .one => (21 ≤ n ∧ n ≤ 28) ∨ n = 37 ∨ n = 38
  | .two => (29 ≤ n ∧ n ≤ 36) ∨ n = 39 ∨ n = 40

/-- The range that a timing item or a limit is held to when it is stored (R196, R199); the other items have none. -/
def heldRange : Nat → Option (Int × Int)
  | 71 => some (2, 100)
  | 72 => some (20, 1200)
  | 73 => some (20, 1200)
  | 74 => some (600, 72000)
  | 75 => some (100, 36000)
  | 76 => some (300, 36000)
  | 77 => some (10, 600)
  | 81 => some (10, 300)
  | 82 => some (0, 1000)
  | 83 => some (1000, 4000)
  | 84 => some (3000, 15000)
  | _ => none

/-- The value that a write stores (R199). -/
def storedValue (n : Nat) (v : Int) : Int :=
  match heldRange n with
  | some (low, high) => if v < low then low else if high < v then high else v
  | none => v

/-- Settings Read returns the setting items of its range with their values. A Settings Write with a pair that does not fit, an item
named twice, or a geometry out of its ranges or constraints is answered BAD_VALUE, one of a geometry item or gain of a track
with an open or closing train BUSY_TRAIN, and neither changes anything. Any other stores every item it names, timing items and
limits held to their ranges, and no other item, and a write of occupancy fitted begins the stuck timers again. -/
def SettingsRequests : Prop :=
  ∀ (s : State) (p : Port) (tag now : Nat),
    (∀ f n, Ready s p tag (.settingsRead f n) →
      (f = 0 ∨ 125 < f ∨ n = 0 ∨ 41 < n →
        LeadsTo (.settingsRead p now) s (answeredOn (reached s now) p tag 19 .badValue .none)) ∧
      (1 ≤ f → f ≤ 125 → 1 ≤ n → n ≤ 41 →
        LeadsTo (.settingsRead p now) s
          (answeredOn (reached s now) p tag 19 .done
            (.settings ((((List.range n).map (f + ·)).filter settingItem).map fun k => (k, s.setting k)))))) ∧
    (∀ pairs, Ready s p tag (.settingsWrite pairs) →
      let l := pairs.map fun e => (e.1, readValue e.1 e.2)
      let stored := l.map fun e => (e.1, storedValue e.1 e.2)
      let fits := 1 ≤ l.length ∧ l.length ≤ 41 ∧ (∀ e ∈ l, PairFits e.1 e.2) ∧ (l.map (·.1)).Nodup ∧
        ∀ t, (∃ e ∈ l, GeometryItem t e.1) → GeometryFits (valueAfter s l) t
      let busyTrain := ∃ t, (∃ e ∈ l, GeometryItem t e.1 ∨ GainItem t e.1) ∧ ∃ tr ∈ liveTrains s, tr.track = t
      (¬ fits → LeadsTo (.settingsWrite p now) s (answeredOn (reached s now) p tag 20 .badValue .none)) ∧
      (fits → busyTrain → LeadsTo (.settingsWrite p now) s (answeredOn (reached s now) p tag 20 .busyTrain .none)) ∧
      (fits → ¬ busyTrain →
        let begun (t : Track) (h : Head) : Timer :=
          let q := s.ts.get t
          let fitted := valueAfter s stored (itemFitted t)
          if (∀ e ∈ l, e.1 ≠ itemFitted t) ∨ q.mode = .fault then q.stuck.get (headIx h)
          else if q.heads.get (headIx h) = true ∧ (fitted ≠ 1 ∨ q.occupied = false) then
            some (countAt s now + (valueAfter s stored (if fitted = 1 then itemTStuck else itemTAbandon)).toNat * 100000)
          else none
        ∃ u, LeadsTo (.settingsWrite p now) s u ∧ (∀ e ∈ l, u.setting e.1 = storedValue e.1 e.2) ∧
          (∀ n, (∀ e ∈ l, e.1 ≠ n) → u.setting n = s.setting n) ∧
          (∀ t, u.ts.get t = { s.ts.get t with stuck := ⟨begun t .a, begun t .b⟩ }) ∧
          u = answeredOn { reached s now with ts := u.ts, settings := u.settings } p tag 20 .done (.settings stored)))

/-- Set Permissions replaces the 25 entries together, with SP kept in the entry of Status and SP alone in the entry of Set
Permissions; an entry above 7 refuses the whole. -/
def PermissionsSet : Prop :=
  ∀ (s : State) (p : Port) (tag now : Nat) (l : List Nat), Ready s p tag (.setPermissions l) → l.length = 25 →
    let entry (row : Nat) : Nat := l.getD (row - 1) 0
    let stored (row : Nat) : Nat := if row = 1 then entry 1 ||| 4 else if row = 21 then 4 else entry row
    ((∃ e ∈ l, 7 < e) → LeadsTo (.setPermissions p now) s (answeredOn (reached s now) p tag 21 .badValue .none)) ∧
    ((∀ e ∈ l, e ≤ 7) →
      ∃ u, LeadsTo (.setPermissions p now) s u ∧
        (∀ row, 1 ≤ row → row ≤ 25 → u.setting (100 + row) = stored row) ∧
        (∀ n, n ≤ 100 ∨ 125 < n → u.setting n = s.setting n) ∧
        u = answeredOn { reached s now with settings := u.settings } p tag 21 .done
          (.permissions ((List.range 25).map fun k => stored (k + 1))))

/-- Settings Read, Settings Write and Set Permissions. -/
def Obligations.SettingsAndPermissions : Prop := SettingsRequests ∧ PermissionsSet


/-- The trains that are closing after RESTART: those handed over, and the train of the close operation in flight. -/
def heldTrains (u : State) : List Train :=
  u.rbu.handOver.map (·.train) ++ (u.rbu.closeOp.map (·.closing.train)).toList

/-- The axles whose live jobs RESTART cancels: queued, or in flight and not discarded, of a train that is closing then. -/
def Cancelled (s u : State) (k : Nat) : Prop :=
  ∃ n i, (∃ tr ∈ heldTrains u, tr.number = n) ∧
    ((∃ j ∈ s.aee.queue, j.owner = .live n k i) ∨ ∃ f, s.aee.inFlight = some f ∧ f.discard = false ∧ f.job.owner = .live n k i)

/-- A track after RESTART: timers stopped, no crossing pending, gone to ARMING (in REDUCED on to ARMED), a stuck timer begun for
each head that is ON where the condition of the stuck timers holds; counts, fault head and inputs kept. -/
def restartedTrack (s : State) (t : Track) (count : Nat) : Sequencer :=
  let q := s.ts.get t
  let begun (h : Head) : Timer :=
    if q.heads.get (headIx h) = true ∧ (s.setting (itemFitted t) ≠ 1 ∨ q.occupied = false) then
      some (count + s.settingNat (if s.setting (itemFitted t) = 1 then itemTStuck else itemTAbandon) * 100000)
    else none
  (armingOf s t count { q with pending := none, stuck := ⟨begun .a, begun .b⟩ }).ts.get t

/-- RESTART: every open train closed FORCED (an empty one WITHDRAWN) and every closing train handed over in close order, on the
hand-over list and no longer in the Closing List; the queue emptied, the closing trains' live jobs cancelled, a copy in flight
TORN, every other pending request RESTARTED, both tracks in ARMING with a new refresh in RUN; nothing else changes. -/
def Obligations.RestartDone : Prop :=
  ∀ (s : State) (p : Port) (tag now : Nat), Ready s p tag .restart →
    let empty := (s.tas.opens.one.toList ++ s.tas.opens.two.toList).filter fun tr => tr.stack.isEmpty && tr.phantoms == 0
    let closed := closedTrains s false .forced (stampAt s.cac.siteTime (countAt s now))
    let count (n : Nat) : Nat := min (n + 1) 65535
    ∃ u, LeadsTo (.restart p now) s u ∧
      u = { reached s now with
        ts := ⟨restartedTrack s .one (countAt s now), restartedTrack s .two (countAt s now)⟩
        cac :=
          { (reached s now).cac with
            mem := u.cac.mem
            refresh :=
              if s.sup.mode = .run then ⟨some ⟨s.cac.newest + 1, 0⟩, some ⟨s.cac.newest + 1, 0⟩⟩ else ⟨none, none⟩ }
        aee := { s.aee with queue := [], inFlight := u.aee.inFlight }
        tas :=
          { s.tas with
            opens := ⟨none, none⟩
            closing := []
            overflows := u.tas.overflows
            withdrawn := empty.foldl (fun n _ => count n) s.tas.withdrawn }
        rbu := { s.rbu with handOver := s.rbu.handOver ++ s.tas.closing ++ closed }
        trs.axles := u.trs.axles
        wat := u.wat
        ptu := u.ptu
        free := u.free } ∧
      (s.tas.closing.length ≤ 4 →
        u.tas.overflows =
          (List.range (s.tas.closing.length + closed.length - 4)).foldl (fun n _ => count n) s.tas.overflows) ∧
      u.aee.inFlight = s.aee.inFlight.map (fun f =>
        match f.job.owner with
        | .live n _ _ => { f with discard := f.discard || (heldTrains u).any fun tr => tr.number == n }
        | .service _ _ _ _ => f) ∧
      (∀ k a, Cancelled s u k → look s.trs.axles k = some a →
        look u.trs.axles k = some { a with
          rails := ⟨⟨0, 0, 0, 0, .notMeasured, .notMeasured⟩, ⟨0, 0, 0, 0, .notMeasured, .notMeasured⟩⟩
          sides := ⟨⟨0, .notMeasured⟩, ⟨0, .notMeasured⟩⟩ }) ∧
      (∀ k, ¬ Cancelled s u k → look u.trs.axles k = look s.trs.axles k) ∧
      CopyTorn s u now ∧
      u.ptu.get p = { s.ptu.get p with slot := .answered tag 25 .done .none 1 } ∧
      ∀ q, q ≠ p →
        (∀ tag' r v, (s.ptu.get q).slot = .pending tag' r v →
          u.ptu.get q = { s.ptu.get q with slot := .answered tag' r.row .restarted .none 1 }) ∧
        ((∀ tag' r v, (s.ptu.get q).slot ≠ .pending tag' r v) → u.ptu.get q = s.ptu.get q)

/-! ### SECDED -/

/-- The error capture takes the first error; a double after a captured single sets DOUBLE_FOLLOWED; nothing else changes it. -/
def CaptureOffered : Prop :=
  (∀ d l, offerError none d l = some ⟨d, l, false⟩) ∧
  (∀ c l, c.double = false →
    offerError (some c) false l = some c ∧ offerError (some c) true l = some { c with doubleFollowed := true }) ∧
  ∀ c d l, c.double = true → offerError (some c) d l = some c

/-- A state whose one erroneous word has been found: counted, offered with its owner, and its mark gone or, for a word that is
not rewritten, kept. -/
def foundIn (s : State) (e : WordError) (owner : LocusOwner) (left : List WordError) : State :=
  { s with
    trs.errors := left
    trs.singles := if e.double then s.trs.singles else min (s.trs.singles + 1) 65535
    trs.doubles := if e.double then min (s.trs.doubles + 1) 65535 else s.trs.doubles
    trs.capture := offerError s.trs.capture e.double ⟨e.area, e.index, owner⟩ }

/-- Whether the geometry of a track stands in its constraints for some values: Gs below Ge, by at most 3000 mm. -/
def spanHolds (v : Nat → Int) (t : Track) : Prop := v (itemGs t) < v (itemGe t) ∧ v (itemGe t) - v (itemGs t) ≤ 3000

/-- Settings words read with errors: a single error is corrected and changes no setting; a double error gives the item its default
and, for Gs or Ge where the constraints are then broken, the track's other geometry items theirs (what the constraints read: log
50; the order of the words: log 46). Words not read keep their errors. -/
def SettingsWordsRead : Prop :=
  (∀ (s : State) (items : List Nat), (∀ e ∈ s.trs.errors, e.area = .settings → e.index ∉ items) →
     s.checkSettings items = s) ∧
  (∀ (s : State) (e : WordError) (items : List Nat), s.trs.errors = [e] → e.area = .settings → e.index ∈ items →
     let u := s.checkSettings items
     let alone (n : Nat) : Int := if n = e.index then settingDefault n else s.setting n
     u = { foundIn s e .absent [] with settings := u.settings } ∧
     (e.double = false → u.settings = s.settings) ∧
     (e.double = true →
       ((∀ t, e.index = itemGs t ∨ e.index = itemGe t → spanHolds alone t) → ∀ n, u.setting n = alone n) ∧
       ∀ t, e.index = itemGs t ∨ e.index = itemGe t → ¬ spanHolds alone t →
         ∀ n, u.setting n = if n ∈ geometryItems t then settingDefault n else s.setting n)) ∧
  ∀ (s : State) (t : Track) (e f : WordError) (items : List Nat), s.trs.errors = [e, f] → e.area = .settings →
    f.area = .settings → e.double = true → f.double = true → e.index = itemGs t → f.index = itemGe t →
    itemGs t ∈ items →
    let u := s.checkSettings items
    u.trs.errors = [] ∧ u.trs.doubles = min (min (s.trs.doubles + 1) 65535 + 1) 65535 ∧ u.trs.singles = s.trs.singles ∧
    ∀ n, u.setting n = if n = itemGs t ∨ n = itemGe t then settingDefault n else s.setting n

/-- Words of the alarm list read: a single error is corrected; a double error drops the entry of that slot, which is counted and
raises no alarm; a word of a slot that holds no entry is not read. -/
def AlarmWordsRead : Prop :=
  ∀ (s : State) (e : WordError), s.trs.errors = [e] → e.area = .alarm →
    ((∀ a ∈ s.alm.list, a.slot ≠ e.index) → s.checkAlarms = s) ∧
    ((∃ a ∈ s.alm.list, a.slot = e.index) →
      (e.double = false → s.checkAlarms = foundIn s e .absent []) ∧
      (e.double = true → s.checkAlarms =
        { foundIn s e .absent [e] with
          alm.list := s.alm.list.filter fun a => a.slot != e.index
          alm.dropped := min (s.alm.dropped + 1) 65535 }))

/-- A request waits on a port of a part in service, the port may send it and the device mode allows it; words may carry errors. -/
def Awaited (s : State) (p : Port) (tag : Nat) (r : Request) : Prop :=
  s.startCheck = false ∧ (s.ptu.get p).slot = .pending tag r false ∧ permitted s p r.row = true ∧
    available s.sup.mode r = true

/-- Settings Read finds the error in a word of its range, and Alarm Read that in a word of a listed entry, and each answers from what
stands after it (R131, R134, R153). -/
def RegionReadsFind : Prop :=
  (∀ (s : State) (p : Port) (tag first n now : Nat) (e : WordError), Awaited s p tag (.settingsRead first n) →
    s.trs.errors = [e] → e.area = .settings → settingItem e.index = true → first ≤ e.index → e.index < first + n →
    1 ≤ first → 1 ≤ n → n ≤ 41 → first ≤ 125 →
    let v := State.checkSettings (reached s now) [e.index]
    permitted v p 19 = true →
    v.trs.errors = [] ∧
      LeadsTo (.settingsRead p now) s
        (answeredOn v p tag 19 .done
          (.settings ((((List.range n).map (first + ·)).filter settingItem).map fun k => (k, v.setting k))))) ∧
  ∀ (s : State) (p : Port) (tag selection first now : Nat) (e : WordError),
    Awaited s p tag (.alarmRead selection first) → s.trs.errors = [e] → e.area = .alarm →
    (∃ a ∈ s.alm.list, a.slot = e.index) → selection ≤ 1 → 1 ≤ first → first ≤ 64 →
    let v := State.checkAlarms (reached s now)
    let chosen := readOrder (v.alm.list.filter fun a => selection == 0 || a.state == .raised)
    let shown := (chosen.drop (first - 1)).take 6
    let raised := (v.alm.list.filter fun a => a.state == .raised).length
    (e.double = true → ∀ a ∈ v.alm.list, a.slot ≠ e.index) ∧
    (p ≠ .ap →
      LeadsTo (.alarmRead p now) s
        (answeredOn v p tag 8 .done (.alarms v.alm.list.length raised chosen.length shown))) ∧
    (p = .ap →
      LeadsTo (.alarmRead p now) s
        (answeredOn
          { v with
            alm.list := v.alm.list.map fun a =>
              if shown.any fun b => b.slot == a.slot then { a with delivered := true } else a }
          p tag 8 .done
          (.alarms v.alm.list.length raised chosen.length (shown.map fun a => { a with delivered := true }))))

/-- Errors in settings words and in words of the alarm list, and the error capture. -/
def Obligations.RegionWordsRead : Prop := CaptureOffered ∧ SettingsWordsRead ∧ AlarmWordsRead ∧ RegionReadsFind

/-- The owner of an axle entry: the train in whose stack it stands, else the record whose references name it, with its place
there; none exactly for an entry of no train and no record. -/
def OwnerFound : Prop :=
  ∀ (s : State) (n : Nat),
    (∀ w, axleOwner s n = some w → 1 ≤ w.place ∧
      ((∃ tr ∈ liveTrains s, tr.number = w.train ∧ tr.track = w.track ∧
          (tr.stack.map (·.entry))[w.place - 1]? = some n) ∨
        ∃ r ∈ s.trs.records, r.number = w.train ∧ r.track = w.track ∧ r.axles[w.place - 1]? = some n)) ∧
    (axleOwner s n = none ↔
      (∀ tr ∈ liveTrains s, ∀ i ∈ tr.stack, i.entry ≠ n) ∧ ∀ r ∈ s.trs.records, n ∉ r.axles)

/-- The STORE_LOSS alarm of a damaged entry, entered (what entering does: `JudgementEntered`). -/
def lossOf (s : State) (track : Track) (train : Nat) (axle : Option Nat) (value : Nat) : Alarms :=
  (State.enterAlarm { s with trs.errors := [] }
    ⟨⟨some track, some train, axle, none, .storeLoss⟩, .watch, value, 0, .damaged⟩).alm

/-- The headers with the DAMAGED flag of one train's record set, where it has a record. -/
def flaggedHeaders (s : State) (train : Nat) : List (Nat × HeaderSlot) :=
  match s.trs.records.find? fun r => r.number == train with
  | some r =>
    adjust s.trs.headers r.header fun
      | .record h => .record { h with flags.damaged := true }
      | .allocated => .allocated
  | none => s.trs.headers

/-- An axle word read with an error: a single error is corrected; a double error rewrites the entry DAMAGED with its kept fields
(but not one in the damaged word), flags its record and enters its STORE_LOSS alarm, none for a FREE entry. -/
def AxleWordRead : Prop :=
  ∀ (s : State) (e : WordError), s.trs.errors = [e] → e.area = .axle →
    let o := axleOwner s e.index
    let found := foundIn s e (match o with | some w => .train w.train | none => .pool) []
    (e.double = false → s.checkAxle e.index [] = found) ∧
    (e.double = true →
      let rewritten (a : AxleEntry) : AxleEntry :=
        { a with
          index := if e.holds.contains .axleIndex then (match o with | some w => w.place | none => 0) else a.index
          tOffset := if e.holds.contains .tOffset then 0 else a.tOffset
          dt := if e.holds.contains .deltaT then 0 else a.dt
          speed := 0
          speedClass := .damaged
          spacing := 0
          rails := ⟨⟨0, 0, 0, 0, .damaged, .damaged⟩, ⟨0, 0, 0, 0, .damaged, .damaged⟩⟩
          sides := ⟨⟨0, .damaged⟩, ⟨0, .damaged⟩⟩
          wheelMark := .none
          bearingMark := .none
          watched := false }
      let axles := adjust s.trs.axles e.index rewritten
      (o = none → s.checkAxle e.index [] = { found with trs.axles := axles }) ∧
      (o = none → look s.trs.axles e.index = none → axles = s.trs.axles) ∧
      ∀ a w, look s.trs.axles e.index = some a → o = some w → s.checkAxle e.index [] =
        { found with
          trs.axles := axles
          trs.headers := flaggedHeaders s w.train
          alm := lossOf s w.track w.train (some (rewritten a).index) e.index })

/-- A vehicle word read with an error: a single error is corrected; a double error rewrites the entry with its DAMAGED mark, flags
its record and enters its STORE_LOSS alarm. -/
def VehicleWordRead : Prop :=
  ∀ (s : State) (e : WordError), s.trs.errors = [e] → e.area = .vehicle →
    let o := vehicleOwner s e.index
    let found := foundIn s e (match o with | some w => .train w.train | none => .pool) []
    (e.double = false → s.checkVehicle e.index = found) ∧
    ∀ w, e.double = true → o = some w → s.checkVehicle e.index =
      { found with
        trs.vehicles := adjust s.trs.vehicles e.index fun v =>
          { index := if e.holds.contains .vehicleIndex then w.place else v.index
            first := if e.holds.contains .firstAxle then 0 else v.first
            count := if e.holds.contains .axleCount then 0 else v.count
            sum1 := 0, sum2 := 0, gross := 0, imbalance := 0, incomplete := true, worst := .none, damaged := true }
        trs.headers := flaggedHeaders s w.train
        alm := lossOf s w.track w.train none e.index }

/-- A header after a double error: the fields of the damaged word 0, the DAMAGED flag set. -/
def headerAfter (h : Header) (holds : List WordField) : Header :=
  let hit (f : WordField) : Bool := holds.contains f
  { number := if hit .trainNumber then 0 else h.number
    track := if hit .track then none else h.track
    dir := if hit .direction then .up else h.dir
    openTime := if hit .openTime then ⟨0, 0, false⟩ else h.openTime
    closeTime := if hit .closeTime then ⟨0, 0, false⟩ else h.closeTime
    reason := if hit .closeReason then .normal else h.reason
    axleCount := if hit .headerAxleCount then 0 else h.axleCount
    phantoms := if hit .phantomCount then 0 else h.phantoms
    depth := if hit .stackDepth then 0 else h.depth
    unwinds := if hit .unwindCount then 0 else h.unwinds
    withdrawals := if hit .withdrawalCount then 0 else h.withdrawals
    minSpeed := if hit .minSpeed then 0 else h.minSpeed
    maxSpeed := if hit .maxSpeed then 0 else h.maxSpeed
    meanSpeed := if hit .meanSpeed then 0 else h.meanSpeed
    vehicleCount := if hit .vehicleCount then 0 else h.vehicleCount
    gross := if hit .grossLoad then 0 else h.gross
    coverage := if hit .coverage then 0 else h.coverage
    worst := if hit .worstSeverity then .none else h.worst
    flags :=
      { (if hit .flags then ⟨false, false, false, false, false, false, false⟩ else h.flags) with damaged := true } }

/-- A header word read with an error: a single error is corrected; a double error rewrites the fields of that word as 0, sets the
DAMAGED flag and enters the record's STORE_LOSS alarm; the directory is kept. -/
def HeaderWordRead : Prop :=
  ∀ (s : State) (e : WordError), s.trs.errors = [e] → e.area = .header →
    let o := s.trs.records.find? fun r => r.header == e.index
    let found := foundIn s e (match o with | some r => .train r.number | none => .pool) []
    (e.double = false → s.checkHeader e.index [] = found) ∧
    ∀ r, e.double = true → o = some r → s.checkHeader e.index [] =
      { found with
        trs.headers := adjust s.trs.headers e.index fun
          | .record h => .record (headerAfter h e.holds)
          | .allocated => .allocated
        alm := lossOf s r.track r.number none e.index }

/-- Header Read, Axle Read and Vehicle Read find the error in a word of the header, or of an entry, that they read, and answer from
what stands after it (R131 to R133). -/
def RecordReadsFind : Prop :=
  ∀ (s : State) (p : Port) (tag n i now : Nat) (r : RecordDir) (e : WordError), s.trs.errors = [e] →
    findRecord s n = some r →
    (Awaited s p tag (.headerRead n) → e.area = .header → e.index = r.header →
      let v := State.checkHeader (reached s now) e.index []
      ∀ l l', s.trs.records = l ++ r :: l' → (∀ x ∈ l, x.number ≠ n) →
        LeadsTo (.headerRead p now) s
          (answeredOn v p tag 3 .done (.header (v.header r.header) r.holders (l.length + 1)))) ∧
    (Awaited s p tag (.axleRead n i) → 1 ≤ i → i ≤ 512 → e.area = .axle → e.index ∈ (r.axles.drop (i - 1)).take 16 →
      let v := State.checkAxle (reached s now) e.index []
      LeadsTo (.axleRead p now) s
        (answeredOn v p tag 4 .done
          (.axles (v.header r.header).depth (v.header r.header).phantoms
            (((r.axles.drop (i - 1)).take 16).map v.axle)))) ∧
    (Awaited s p tag (.vehicleRead n i) → 1 ≤ i → i ≤ 160 → e.area = .vehicle →
      e.index ∈ (r.vehicles.drop (i - 1)).take 16 →
      let v := State.checkVehicle (reached s now) e.index
      LeadsTo (.vehicleRead p now) s
        (answeredOn v p tag 5 .done
          (.vehicles (v.header r.header).vehicleCount
            (((r.vehicles.drop (i - 1)).take 16).filterMap fun k => look v.trs.vehicles k))))

/-- RECORD_APPEND, where a header can be had, finds the error in a word of an axle entry that GROUPING has still to read, and acts as
on the state that the finding leaves (R97, R131, R132; what it does there: `RecordMade`). -/
def AppendFinds : Prop :=
  ∀ (s : State) (o : CloseOp) (e : WordError) (now : Nat), s.startCheck = false → s.rbu.closeOp = some o →
    o.phase = .grouping → s.trs.errors = [e] → e.area = .axle →
    (∃ x ∈ o.closing.train.stack.drop o.read.length, x.entry = e.index) →
    let v := State.checkAxle (reached s now) e.index []
    lowestFree (v.makeRoom fun x => (lowestFree x.trs.headers 32).isSome).trs.headers 32 ≠ none →
    v.trs.errors = [] ∧ v.rbu = s.rbu ∧ exec (.recordAppend now) s = exec (.recordAppend now) v

/-- Errors in words of axle entries, vehicle entries and headers, and the commands that find them. -/
def Obligations.StoredWordsRead : Prop :=
  OwnerFound ∧ AxleWordRead ∧ VehicleWordRead ∧ HeaderWordRead ∧ RecordReadsFind ∧ AppendFinds
end

