-- ==== Sys2Proof/Laws/State.lean ====
section
/-! SUPPORT. The state under each update: one lemma per field that the update leaves alone, and what it writes. -/

namespace Sys2Proof.Machine

variable (s : State)

/-! ### `State.advance` -/

@[simp] theorem State.advance_ts (now : Nat) : (s.advance now).ts = s.ts := rfl
@[simp] theorem State.advance_cac (now : Nat) : (s.advance now).cac = { s.cac with count := max s.cac.count (min now Config.countMax) } := rfl
@[simp] theorem State.advance_aee (now : Nat) : (s.advance now).aee = s.aee := rfl
@[simp] theorem State.advance_tas (now : Nat) : (s.advance now).tas = s.tas := rfl
@[simp] theorem State.advance_rbu (now : Nat) : (s.advance now).rbu = s.rbu := rfl
@[simp] theorem State.advance_trs (now : Nat) : (s.advance now).trs = s.trs := rfl
@[simp] theorem State.advance_alm (now : Nat) : (s.advance now).alm = s.alm := rfl
@[simp] theorem State.advance_wat (now : Nat) : (s.advance now).wat = s.wat := rfl
@[simp] theorem State.advance_settings (now : Nat) : (s.advance now).settings = s.settings := rfl
@[simp] theorem State.advance_ptu (now : Nat) : (s.advance now).ptu = s.ptu := rfl
@[simp] theorem State.advance_sup (now : Nat) : (s.advance now).sup = s.sup := rfl
@[simp] theorem State.advance_lines (now : Nat) : (s.advance now).lines = s.lines := rfl
@[simp] theorem State.advance_startCheck (now : Nat) : (s.advance now).startCheck = s.startCheck := rfl
@[simp] theorem State.advance_free (now : Nat) : (s.advance now).free = s.free := rfl
@[simp] theorem State.advance_pending (now : Nat) : (s.advance now).pending = s.pending := rfl

/-! ### `State.onTrack` -/

@[simp] theorem State.onTrack_ts (t : Track) (f : Sequencer → Sequencer) : (s.onTrack t f).ts = s.ts.set t (f (s.ts.get t)) := rfl
@[simp] theorem State.onTrack_cac (t : Track) (f : Sequencer → Sequencer) : (s.onTrack t f).cac = s.cac := rfl
@[simp] theorem State.onTrack_aee (t : Track) (f : Sequencer → Sequencer) : (s.onTrack t f).aee = s.aee := rfl
@[simp] theorem State.onTrack_tas (t : Track) (f : Sequencer → Sequencer) : (s.onTrack t f).tas = s.tas := rfl
@[simp] theorem State.onTrack_rbu (t : Track) (f : Sequencer → Sequencer) : (s.onTrack t f).rbu = s.rbu := rfl
@[simp] theorem State.onTrack_trs (t : Track) (f : Sequencer → Sequencer) : (s.onTrack t f).trs = s.trs := rfl
@[simp] theorem State.onTrack_alm (t : Track) (f : Sequencer → Sequencer) : (s.onTrack t f).alm = s.alm := rfl
@[simp] theorem State.onTrack_wat (t : Track) (f : Sequencer → Sequencer) : (s.onTrack t f).wat = s.wat := rfl
@[simp] theorem State.onTrack_settings (t : Track) (f : Sequencer → Sequencer) : (s.onTrack t f).settings = s.settings := rfl
@[simp] theorem State.onTrack_ptu (t : Track) (f : Sequencer → Sequencer) : (s.onTrack t f).ptu = s.ptu := rfl
@[simp] theorem State.onTrack_sup (t : Track) (f : Sequencer → Sequencer) : (s.onTrack t f).sup = s.sup := rfl
@[simp] theorem State.onTrack_lines (t : Track) (f : Sequencer → Sequencer) : (s.onTrack t f).lines = s.lines := rfl
@[simp] theorem State.onTrack_startCheck (t : Track) (f : Sequencer → Sequencer) : (s.onTrack t f).startCheck = s.startCheck := rfl
@[simp] theorem State.onTrack_free (t : Track) (f : Sequencer → Sequencer) : (s.onTrack t f).free = s.free := rfl
@[simp] theorem State.onTrack_pending (t : Track) (f : Sequencer → Sequencer) : (s.onTrack t f).pending = s.pending := rfl

/-! ### `State.onPort` -/

@[simp] theorem State.onPort_ts (p : Port) (f : PortState → PortState) : (s.onPort p f).ts = s.ts := rfl
@[simp] theorem State.onPort_cac (p : Port) (f : PortState → PortState) : (s.onPort p f).cac = s.cac := rfl
@[simp] theorem State.onPort_aee (p : Port) (f : PortState → PortState) : (s.onPort p f).aee = s.aee := rfl
@[simp] theorem State.onPort_tas (p : Port) (f : PortState → PortState) : (s.onPort p f).tas = s.tas := rfl
@[simp] theorem State.onPort_rbu (p : Port) (f : PortState → PortState) : (s.onPort p f).rbu = s.rbu := rfl
@[simp] theorem State.onPort_trs (p : Port) (f : PortState → PortState) : (s.onPort p f).trs = s.trs := rfl
@[simp] theorem State.onPort_alm (p : Port) (f : PortState → PortState) : (s.onPort p f).alm = s.alm := rfl
@[simp] theorem State.onPort_wat (p : Port) (f : PortState → PortState) : (s.onPort p f).wat = s.wat := rfl
@[simp] theorem State.onPort_settings (p : Port) (f : PortState → PortState) : (s.onPort p f).settings = s.settings := rfl
@[simp] theorem State.onPort_ptu (p : Port) (f : PortState → PortState) : (s.onPort p f).ptu = s.ptu.set p (f (s.ptu.get p)) := rfl
@[simp] theorem State.onPort_sup (p : Port) (f : PortState → PortState) : (s.onPort p f).sup = s.sup := rfl
@[simp] theorem State.onPort_lines (p : Port) (f : PortState → PortState) : (s.onPort p f).lines = s.lines := rfl
@[simp] theorem State.onPort_startCheck (p : Port) (f : PortState → PortState) : (s.onPort p f).startCheck = s.startCheck := rfl
@[simp] theorem State.onPort_free (p : Port) (f : PortState → PortState) : (s.onPort p f).free = s.free := rfl
@[simp] theorem State.onPort_pending (p : Port) (f : PortState → PortState) : (s.onPort p f).pending = s.pending := rfl

/-! ### `State.answer` -/

@[simp] theorem State.answer_ts (p : Port) (st : Status) (pl : Payload) : (s.answer p st pl).ts = s.ts := rfl
@[simp] theorem State.answer_cac (p : Port) (st : Status) (pl : Payload) : (s.answer p st pl).cac = s.cac := rfl
@[simp] theorem State.answer_aee (p : Port) (st : Status) (pl : Payload) : (s.answer p st pl).aee = s.aee := rfl
@[simp] theorem State.answer_tas (p : Port) (st : Status) (pl : Payload) : (s.answer p st pl).tas = s.tas := rfl
@[simp] theorem State.answer_rbu (p : Port) (st : Status) (pl : Payload) : (s.answer p st pl).rbu = s.rbu := rfl
@[simp] theorem State.answer_trs (p : Port) (st : Status) (pl : Payload) : (s.answer p st pl).trs = s.trs := rfl
@[simp] theorem State.answer_alm (p : Port) (st : Status) (pl : Payload) : (s.answer p st pl).alm = s.alm := rfl
@[simp] theorem State.answer_wat (p : Port) (st : Status) (pl : Payload) : (s.answer p st pl).wat = s.wat := rfl
@[simp] theorem State.answer_settings (p : Port) (st : Status) (pl : Payload) : (s.answer p st pl).settings = s.settings := rfl
@[simp] theorem State.answer_sup (p : Port) (st : Status) (pl : Payload) : (s.answer p st pl).sup = s.sup := rfl
@[simp] theorem State.answer_lines (p : Port) (st : Status) (pl : Payload) : (s.answer p st pl).lines = s.lines := rfl
@[simp] theorem State.answer_startCheck (p : Port) (st : Status) (pl : Payload) : (s.answer p st pl).startCheck = s.startCheck := rfl
@[simp] theorem State.answer_free (p : Port) (st : Status) (pl : Payload) : (s.answer p st pl).free = s.free := rfl
@[simp] theorem State.answer_pending (p : Port) (st : Status) (pl : Payload) : (s.answer p st pl).pending = s.pending := rfl

/-! ### `State.driveLines` -/

@[simp] theorem State.driveLines_ts : (s.driveLines).ts = s.ts := rfl
@[simp] theorem State.driveLines_cac : (s.driveLines).cac = s.cac := rfl
@[simp] theorem State.driveLines_aee : (s.driveLines).aee = s.aee := rfl
@[simp] theorem State.driveLines_tas : (s.driveLines).tas = s.tas := rfl
@[simp] theorem State.driveLines_rbu : (s.driveLines).rbu = s.rbu := rfl
@[simp] theorem State.driveLines_trs : (s.driveLines).trs = s.trs := rfl
@[simp] theorem State.driveLines_alm : (s.driveLines).alm = s.alm := rfl
@[simp] theorem State.driveLines_wat : (s.driveLines).wat = s.wat := rfl
@[simp] theorem State.driveLines_settings : (s.driveLines).settings = s.settings := rfl
@[simp] theorem State.driveLines_ptu : (s.driveLines).ptu = s.ptu := rfl
@[simp] theorem State.driveLines_sup : (s.driveLines).sup = s.sup := rfl
@[simp] theorem State.driveLines_lines : (s.driveLines).lines = linesOf s := rfl
@[simp] theorem State.driveLines_startCheck : (s.driveLines).startCheck = s.startCheck := rfl
@[simp] theorem State.driveLines_free : (s.driveLines).free = s.free := rfl
@[simp] theorem State.driveLines_pending : (s.driveLines).pending = s.pending := rfl

/-! ### `State.onAxle` -/

@[simp] theorem State.onAxle_ts (n : Nat) (f : AxleEntry → AxleEntry) : (s.onAxle n f).ts = s.ts := rfl
@[simp] theorem State.onAxle_cac (n : Nat) (f : AxleEntry → AxleEntry) : (s.onAxle n f).cac = s.cac := rfl
@[simp] theorem State.onAxle_aee (n : Nat) (f : AxleEntry → AxleEntry) : (s.onAxle n f).aee = s.aee := rfl
@[simp] theorem State.onAxle_tas (n : Nat) (f : AxleEntry → AxleEntry) : (s.onAxle n f).tas = s.tas := rfl
@[simp] theorem State.onAxle_rbu (n : Nat) (f : AxleEntry → AxleEntry) : (s.onAxle n f).rbu = s.rbu := rfl
@[simp] theorem State.onAxle_alm (n : Nat) (f : AxleEntry → AxleEntry) : (s.onAxle n f).alm = s.alm := rfl
@[simp] theorem State.onAxle_wat (n : Nat) (f : AxleEntry → AxleEntry) : (s.onAxle n f).wat = s.wat := rfl
@[simp] theorem State.onAxle_settings (n : Nat) (f : AxleEntry → AxleEntry) : (s.onAxle n f).settings = s.settings := rfl
@[simp] theorem State.onAxle_ptu (n : Nat) (f : AxleEntry → AxleEntry) : (s.onAxle n f).ptu = s.ptu := rfl
@[simp] theorem State.onAxle_sup (n : Nat) (f : AxleEntry → AxleEntry) : (s.onAxle n f).sup = s.sup := rfl
@[simp] theorem State.onAxle_lines (n : Nat) (f : AxleEntry → AxleEntry) : (s.onAxle n f).lines = s.lines := rfl
@[simp] theorem State.onAxle_startCheck (n : Nat) (f : AxleEntry → AxleEntry) : (s.onAxle n f).startCheck = s.startCheck := rfl
@[simp] theorem State.onAxle_free (n : Nat) (f : AxleEntry → AxleEntry) : (s.onAxle n f).free = s.free := rfl
@[simp] theorem State.onAxle_pending (n : Nat) (f : AxleEntry → AxleEntry) : (s.onAxle n f).pending = s.pending := rfl

/-! ### `State.onHeader` -/

@[simp] theorem State.onHeader_ts (n : Nat) (f : Header → Header) : (s.onHeader n f).ts = s.ts := rfl
@[simp] theorem State.onHeader_cac (n : Nat) (f : Header → Header) : (s.onHeader n f).cac = s.cac := rfl
@[simp] theorem State.onHeader_aee (n : Nat) (f : Header → Header) : (s.onHeader n f).aee = s.aee := rfl
@[simp] theorem State.onHeader_tas (n : Nat) (f : Header → Header) : (s.onHeader n f).tas = s.tas := rfl
@[simp] theorem State.onHeader_rbu (n : Nat) (f : Header → Header) : (s.onHeader n f).rbu = s.rbu := rfl
@[simp] theorem State.onHeader_alm (n : Nat) (f : Header → Header) : (s.onHeader n f).alm = s.alm := rfl
@[simp] theorem State.onHeader_wat (n : Nat) (f : Header → Header) : (s.onHeader n f).wat = s.wat := rfl
@[simp] theorem State.onHeader_settings (n : Nat) (f : Header → Header) : (s.onHeader n f).settings = s.settings := rfl
@[simp] theorem State.onHeader_ptu (n : Nat) (f : Header → Header) : (s.onHeader n f).ptu = s.ptu := rfl
@[simp] theorem State.onHeader_sup (n : Nat) (f : Header → Header) : (s.onHeader n f).sup = s.sup := rfl
@[simp] theorem State.onHeader_lines (n : Nat) (f : Header → Header) : (s.onHeader n f).lines = s.lines := rfl
@[simp] theorem State.onHeader_startCheck (n : Nat) (f : Header → Header) : (s.onHeader n f).startCheck = s.startCheck := rfl
@[simp] theorem State.onHeader_free (n : Nat) (f : Header → Header) : (s.onHeader n f).free = s.free := rfl
@[simp] theorem State.onHeader_pending (n : Nat) (f : Header → Header) : (s.onHeader n f).pending = s.pending := rfl

/-! ### `State.cleanEntry` -/

@[simp] theorem State.cleanEntry_ts (a : Area) (n : Nat) : (s.cleanEntry a n).ts = s.ts := rfl
@[simp] theorem State.cleanEntry_cac (a : Area) (n : Nat) : (s.cleanEntry a n).cac = s.cac := rfl
@[simp] theorem State.cleanEntry_aee (a : Area) (n : Nat) : (s.cleanEntry a n).aee = s.aee := rfl
@[simp] theorem State.cleanEntry_tas (a : Area) (n : Nat) : (s.cleanEntry a n).tas = s.tas := rfl
@[simp] theorem State.cleanEntry_rbu (a : Area) (n : Nat) : (s.cleanEntry a n).rbu = s.rbu := rfl
@[simp] theorem State.cleanEntry_alm (a : Area) (n : Nat) : (s.cleanEntry a n).alm = s.alm := rfl
@[simp] theorem State.cleanEntry_wat (a : Area) (n : Nat) : (s.cleanEntry a n).wat = s.wat := rfl
@[simp] theorem State.cleanEntry_settings (a : Area) (n : Nat) : (s.cleanEntry a n).settings = s.settings := rfl
@[simp] theorem State.cleanEntry_ptu (a : Area) (n : Nat) : (s.cleanEntry a n).ptu = s.ptu := rfl
@[simp] theorem State.cleanEntry_sup (a : Area) (n : Nat) : (s.cleanEntry a n).sup = s.sup := rfl
@[simp] theorem State.cleanEntry_lines (a : Area) (n : Nat) : (s.cleanEntry a n).lines = s.lines := rfl
@[simp] theorem State.cleanEntry_startCheck (a : Area) (n : Nat) : (s.cleanEntry a n).startCheck = s.startCheck := rfl
@[simp] theorem State.cleanEntry_free (a : Area) (n : Nat) : (s.cleanEntry a n).free = s.free := rfl
@[simp] theorem State.cleanEntry_pending (a : Area) (n : Nat) : (s.cleanEntry a n).pending = s.pending := rfl

/-! ### `State.cleanWord` -/

@[simp] theorem State.cleanWord_ts (e : WordError) : (s.cleanWord e).ts = s.ts := rfl
@[simp] theorem State.cleanWord_cac (e : WordError) : (s.cleanWord e).cac = s.cac := rfl
@[simp] theorem State.cleanWord_aee (e : WordError) : (s.cleanWord e).aee = s.aee := rfl
@[simp] theorem State.cleanWord_tas (e : WordError) : (s.cleanWord e).tas = s.tas := rfl
@[simp] theorem State.cleanWord_rbu (e : WordError) : (s.cleanWord e).rbu = s.rbu := rfl
@[simp] theorem State.cleanWord_alm (e : WordError) : (s.cleanWord e).alm = s.alm := rfl
@[simp] theorem State.cleanWord_wat (e : WordError) : (s.cleanWord e).wat = s.wat := rfl
@[simp] theorem State.cleanWord_settings (e : WordError) : (s.cleanWord e).settings = s.settings := rfl
@[simp] theorem State.cleanWord_ptu (e : WordError) : (s.cleanWord e).ptu = s.ptu := rfl
@[simp] theorem State.cleanWord_sup (e : WordError) : (s.cleanWord e).sup = s.sup := rfl
@[simp] theorem State.cleanWord_lines (e : WordError) : (s.cleanWord e).lines = s.lines := rfl
@[simp] theorem State.cleanWord_startCheck (e : WordError) : (s.cleanWord e).startCheck = s.startCheck := rfl
@[simp] theorem State.cleanWord_free (e : WordError) : (s.cleanWord e).free = s.free := rfl
@[simp] theorem State.cleanWord_pending (e : WordError) : (s.cleanWord e).pending = s.pending := rfl

/-! ### `State.foundError` -/

@[simp] theorem State.foundError_ts (e : WordError) (o : LocusOwner) : (s.foundError e o).ts = s.ts := rfl
@[simp] theorem State.foundError_cac (e : WordError) (o : LocusOwner) : (s.foundError e o).cac = s.cac := rfl
@[simp] theorem State.foundError_aee (e : WordError) (o : LocusOwner) : (s.foundError e o).aee = s.aee := rfl
@[simp] theorem State.foundError_tas (e : WordError) (o : LocusOwner) : (s.foundError e o).tas = s.tas := rfl
@[simp] theorem State.foundError_rbu (e : WordError) (o : LocusOwner) : (s.foundError e o).rbu = s.rbu := rfl
@[simp] theorem State.foundError_alm (e : WordError) (o : LocusOwner) : (s.foundError e o).alm = s.alm := rfl
@[simp] theorem State.foundError_wat (e : WordError) (o : LocusOwner) : (s.foundError e o).wat = s.wat := rfl
@[simp] theorem State.foundError_settings (e : WordError) (o : LocusOwner) : (s.foundError e o).settings = s.settings := rfl
@[simp] theorem State.foundError_ptu (e : WordError) (o : LocusOwner) : (s.foundError e o).ptu = s.ptu := rfl
@[simp] theorem State.foundError_sup (e : WordError) (o : LocusOwner) : (s.foundError e o).sup = s.sup := rfl
@[simp] theorem State.foundError_lines (e : WordError) (o : LocusOwner) : (s.foundError e o).lines = s.lines := rfl
@[simp] theorem State.foundError_startCheck (e : WordError) (o : LocusOwner) : (s.foundError e o).startCheck = s.startCheck := rfl
@[simp] theorem State.foundError_free (e : WordError) (o : LocusOwner) : (s.foundError e o).free = s.free := rfl
@[simp] theorem State.foundError_pending (e : WordError) (o : LocusOwner) : (s.foundError e o).pending = s.pending := rfl

/-! ### `State.setLinks` -/

@[simp] theorem State.setLinks_ts (n : Nat) (l : RecordLink) : (s.setLinks n l).ts = s.ts := rfl
@[simp] theorem State.setLinks_cac (n : Nat) (l : RecordLink) : (s.setLinks n l).cac = s.cac := rfl
@[simp] theorem State.setLinks_aee (n : Nat) (l : RecordLink) : (s.setLinks n l).aee = s.aee := rfl
@[simp] theorem State.setLinks_tas (n : Nat) (l : RecordLink) : (s.setLinks n l).tas = s.tas := rfl
@[simp] theorem State.setLinks_rbu (n : Nat) (l : RecordLink) : (s.setLinks n l).rbu = s.rbu := rfl
@[simp] theorem State.setLinks_trs (n : Nat) (l : RecordLink) : (s.setLinks n l).trs = s.trs := rfl
@[simp] theorem State.setLinks_wat (n : Nat) (l : RecordLink) : (s.setLinks n l).wat = s.wat := rfl
@[simp] theorem State.setLinks_settings (n : Nat) (l : RecordLink) : (s.setLinks n l).settings = s.settings := rfl
@[simp] theorem State.setLinks_ptu (n : Nat) (l : RecordLink) : (s.setLinks n l).ptu = s.ptu := rfl
@[simp] theorem State.setLinks_sup (n : Nat) (l : RecordLink) : (s.setLinks n l).sup = s.sup := rfl
@[simp] theorem State.setLinks_lines (n : Nat) (l : RecordLink) : (s.setLinks n l).lines = s.lines := rfl
@[simp] theorem State.setLinks_startCheck (n : Nat) (l : RecordLink) : (s.setLinks n l).startCheck = s.startCheck := rfl
@[simp] theorem State.setLinks_free (n : Nat) (l : RecordLink) : (s.setLinks n l).free = s.free := rfl
@[simp] theorem State.setLinks_pending (n : Nat) (l : RecordLink) : (s.setLinks n l).pending = s.pending := rfl

/-! ### `State.retireAlarms` -/

@[simp] theorem State.retireAlarms_ts (n : Nat) : (s.retireAlarms n).ts = s.ts := rfl
@[simp] theorem State.retireAlarms_cac (n : Nat) : (s.retireAlarms n).cac = s.cac := rfl
@[simp] theorem State.retireAlarms_aee (n : Nat) : (s.retireAlarms n).aee = s.aee := rfl
@[simp] theorem State.retireAlarms_tas (n : Nat) : (s.retireAlarms n).tas = s.tas := rfl
@[simp] theorem State.retireAlarms_rbu (n : Nat) : (s.retireAlarms n).rbu = s.rbu := rfl
@[simp] theorem State.retireAlarms_trs (n : Nat) : (s.retireAlarms n).trs = s.trs := rfl
@[simp] theorem State.retireAlarms_wat (n : Nat) : (s.retireAlarms n).wat = s.wat := rfl
@[simp] theorem State.retireAlarms_settings (n : Nat) : (s.retireAlarms n).settings = s.settings := rfl
@[simp] theorem State.retireAlarms_ptu (n : Nat) : (s.retireAlarms n).ptu = s.ptu := rfl
@[simp] theorem State.retireAlarms_sup (n : Nat) : (s.retireAlarms n).sup = s.sup := rfl
@[simp] theorem State.retireAlarms_lines (n : Nat) : (s.retireAlarms n).lines = s.lines := rfl
@[simp] theorem State.retireAlarms_startCheck (n : Nat) : (s.retireAlarms n).startCheck = s.startCheck := rfl
@[simp] theorem State.retireAlarms_free (n : Nat) : (s.retireAlarms n).free = s.free := rfl
@[simp] theorem State.retireAlarms_pending (n : Nat) : (s.retireAlarms n).pending = s.pending := rfl

/-! ### `State.onOpen` -/

@[simp] theorem State.onOpen_ts (t : Track) (f : Train → Train) : (s.onOpen t f).ts = s.ts := rfl
@[simp] theorem State.onOpen_cac (t : Track) (f : Train → Train) : (s.onOpen t f).cac = s.cac := rfl
@[simp] theorem State.onOpen_aee (t : Track) (f : Train → Train) : (s.onOpen t f).aee = s.aee := rfl
@[simp] theorem State.onOpen_rbu (t : Track) (f : Train → Train) : (s.onOpen t f).rbu = s.rbu := rfl
@[simp] theorem State.onOpen_trs (t : Track) (f : Train → Train) : (s.onOpen t f).trs = s.trs := rfl
@[simp] theorem State.onOpen_alm (t : Track) (f : Train → Train) : (s.onOpen t f).alm = s.alm := rfl
@[simp] theorem State.onOpen_wat (t : Track) (f : Train → Train) : (s.onOpen t f).wat = s.wat := rfl
@[simp] theorem State.onOpen_settings (t : Track) (f : Train → Train) : (s.onOpen t f).settings = s.settings := rfl
@[simp] theorem State.onOpen_ptu (t : Track) (f : Train → Train) : (s.onOpen t f).ptu = s.ptu := rfl
@[simp] theorem State.onOpen_sup (t : Track) (f : Train → Train) : (s.onOpen t f).sup = s.sup := rfl
@[simp] theorem State.onOpen_lines (t : Track) (f : Train → Train) : (s.onOpen t f).lines = s.lines := rfl
@[simp] theorem State.onOpen_startCheck (t : Track) (f : Train → Train) : (s.onOpen t f).startCheck = s.startCheck := rfl
@[simp] theorem State.onOpen_free (t : Track) (f : Train → Train) : (s.onOpen t f).free = s.free := rfl
@[simp] theorem State.onOpen_pending (t : Track) (f : Train → Train) : (s.onOpen t f).pending = s.pending := rfl

/-! ### `State.powerFlags` -/

@[simp] theorem State.powerFlags_ts : (s.powerFlags).ts = s.ts := rfl
@[simp] theorem State.powerFlags_cac : (s.powerFlags).cac = s.cac := rfl
@[simp] theorem State.powerFlags_aee : (s.powerFlags).aee = s.aee := rfl
@[simp] theorem State.powerFlags_rbu : (s.powerFlags).rbu = s.rbu := rfl
@[simp] theorem State.powerFlags_trs : (s.powerFlags).trs = s.trs := rfl
@[simp] theorem State.powerFlags_alm : (s.powerFlags).alm = s.alm := rfl
@[simp] theorem State.powerFlags_wat : (s.powerFlags).wat = s.wat := rfl
@[simp] theorem State.powerFlags_settings : (s.powerFlags).settings = s.settings := rfl
@[simp] theorem State.powerFlags_ptu : (s.powerFlags).ptu = s.ptu := rfl
@[simp] theorem State.powerFlags_sup : (s.powerFlags).sup = s.sup := rfl
@[simp] theorem State.powerFlags_lines : (s.powerFlags).lines = s.lines := rfl
@[simp] theorem State.powerFlags_startCheck : (s.powerFlags).startCheck = s.startCheck := rfl
@[simp] theorem State.powerFlags_free : (s.powerFlags).free = s.free := rfl
@[simp] theorem State.powerFlags_pending : (s.powerFlags).pending = s.pending := rfl

/-! ### `State.abandonRefresh` -/

@[simp] theorem State.abandonRefresh_ts (t : Track) : (s.abandonRefresh t).ts = s.ts := rfl
@[simp] theorem State.abandonRefresh_aee (t : Track) : (s.abandonRefresh t).aee = s.aee := rfl
@[simp] theorem State.abandonRefresh_tas (t : Track) : (s.abandonRefresh t).tas = s.tas := rfl
@[simp] theorem State.abandonRefresh_rbu (t : Track) : (s.abandonRefresh t).rbu = s.rbu := rfl
@[simp] theorem State.abandonRefresh_trs (t : Track) : (s.abandonRefresh t).trs = s.trs := rfl
@[simp] theorem State.abandonRefresh_alm (t : Track) : (s.abandonRefresh t).alm = s.alm := rfl
@[simp] theorem State.abandonRefresh_wat (t : Track) : (s.abandonRefresh t).wat = s.wat := rfl
@[simp] theorem State.abandonRefresh_settings (t : Track) : (s.abandonRefresh t).settings = s.settings := rfl
@[simp] theorem State.abandonRefresh_ptu (t : Track) : (s.abandonRefresh t).ptu = s.ptu := rfl
@[simp] theorem State.abandonRefresh_sup (t : Track) : (s.abandonRefresh t).sup = s.sup := rfl
@[simp] theorem State.abandonRefresh_lines (t : Track) : (s.abandonRefresh t).lines = s.lines := rfl
@[simp] theorem State.abandonRefresh_startCheck (t : Track) : (s.abandonRefresh t).startCheck = s.startCheck := rfl
@[simp] theorem State.abandonRefresh_free (t : Track) : (s.abandonRefresh t).free = s.free := rfl
@[simp] theorem State.abandonRefresh_pending (t : Track) : (s.abandonRefresh t).pending = s.pending := rfl

/-! ### `State.beginRefresh` -/

@[simp] theorem State.beginRefresh_ts (t : Track) : (s.beginRefresh t).ts = s.ts := rfl
@[simp] theorem State.beginRefresh_aee (t : Track) : (s.beginRefresh t).aee = s.aee := rfl
@[simp] theorem State.beginRefresh_tas (t : Track) : (s.beginRefresh t).tas = s.tas := rfl
@[simp] theorem State.beginRefresh_rbu (t : Track) : (s.beginRefresh t).rbu = s.rbu := rfl
@[simp] theorem State.beginRefresh_trs (t : Track) : (s.beginRefresh t).trs = s.trs := rfl
@[simp] theorem State.beginRefresh_alm (t : Track) : (s.beginRefresh t).alm = s.alm := rfl
@[simp] theorem State.beginRefresh_wat (t : Track) : (s.beginRefresh t).wat = s.wat := rfl
@[simp] theorem State.beginRefresh_settings (t : Track) : (s.beginRefresh t).settings = s.settings := rfl
@[simp] theorem State.beginRefresh_ptu (t : Track) : (s.beginRefresh t).ptu = s.ptu := rfl
@[simp] theorem State.beginRefresh_sup (t : Track) : (s.beginRefresh t).sup = s.sup := rfl
@[simp] theorem State.beginRefresh_lines (t : Track) : (s.beginRefresh t).lines = s.lines := rfl
@[simp] theorem State.beginRefresh_startCheck (t : Track) : (s.beginRefresh t).startCheck = s.startCheck := rfl
@[simp] theorem State.beginRefresh_free (t : Track) : (s.beginRefresh t).free = s.free := rfl
@[simp] theorem State.beginRefresh_pending (t : Track) : (s.beginRefresh t).pending = s.pending := rfl

/-! ### `State.insertAlarm` -/

@[simp] theorem State.insertAlarm_ts (j : Judgement) : (s.insertAlarm j).ts = s.ts := rfl
@[simp] theorem State.insertAlarm_cac (j : Judgement) : (s.insertAlarm j).cac = s.cac := rfl
@[simp] theorem State.insertAlarm_aee (j : Judgement) : (s.insertAlarm j).aee = s.aee := rfl
@[simp] theorem State.insertAlarm_tas (j : Judgement) : (s.insertAlarm j).tas = s.tas := rfl
@[simp] theorem State.insertAlarm_rbu (j : Judgement) : (s.insertAlarm j).rbu = s.rbu := rfl
@[simp] theorem State.insertAlarm_wat (j : Judgement) : (s.insertAlarm j).wat = s.wat := rfl
@[simp] theorem State.insertAlarm_settings (j : Judgement) : (s.insertAlarm j).settings = s.settings := rfl
@[simp] theorem State.insertAlarm_ptu (j : Judgement) : (s.insertAlarm j).ptu = s.ptu := rfl
@[simp] theorem State.insertAlarm_sup (j : Judgement) : (s.insertAlarm j).sup = s.sup := rfl
@[simp] theorem State.insertAlarm_lines (j : Judgement) : (s.insertAlarm j).lines = s.lines := rfl
@[simp] theorem State.insertAlarm_startCheck (j : Judgement) : (s.insertAlarm j).startCheck = s.startCheck := rfl
@[simp] theorem State.insertAlarm_free (j : Judgement) : (s.insertAlarm j).free = s.free := rfl
@[simp] theorem State.insertAlarm_pending (j : Judgement) : (s.insertAlarm j).pending = s.pending := rfl

/-! ### `State.removeRecord` -/

@[simp] theorem State.removeRecord_ts (r : RecordDir) : (s.removeRecord r).ts = s.ts := rfl
@[simp] theorem State.removeRecord_cac (r : RecordDir) : (s.removeRecord r).cac = s.cac := rfl
@[simp] theorem State.removeRecord_aee (r : RecordDir) : (s.removeRecord r).aee = s.aee := rfl
@[simp] theorem State.removeRecord_tas (r : RecordDir) : (s.removeRecord r).tas = s.tas := rfl
@[simp] theorem State.removeRecord_rbu (r : RecordDir) : (s.removeRecord r).rbu = s.rbu := rfl
@[simp] theorem State.removeRecord_wat (r : RecordDir) : (s.removeRecord r).wat = s.wat := rfl
@[simp] theorem State.removeRecord_settings (r : RecordDir) : (s.removeRecord r).settings = s.settings := rfl
@[simp] theorem State.removeRecord_ptu (r : RecordDir) : (s.removeRecord r).ptu = s.ptu := rfl
@[simp] theorem State.removeRecord_sup (r : RecordDir) : (s.removeRecord r).sup = s.sup := rfl
@[simp] theorem State.removeRecord_lines (r : RecordDir) : (s.removeRecord r).lines = s.lines := rfl
@[simp] theorem State.removeRecord_startCheck (r : RecordDir) : (s.removeRecord r).startCheck = s.startCheck := rfl
@[simp] theorem State.removeRecord_free (r : RecordDir) : (s.removeRecord r).free = s.free := rfl
@[simp] theorem State.removeRecord_pending (r : RecordDir) : (s.removeRecord r).pending = s.pending := rfl

/-! ### `State.withOp` -/

@[simp] theorem State.withOp_ts (o : CloseOp) : (s.withOp o).ts = s.ts := rfl
@[simp] theorem State.withOp_cac (o : CloseOp) : (s.withOp o).cac = s.cac := rfl
@[simp] theorem State.withOp_aee (o : CloseOp) : (s.withOp o).aee = s.aee := rfl
@[simp] theorem State.withOp_tas (o : CloseOp) : (s.withOp o).tas = s.tas := rfl
@[simp] theorem State.withOp_trs (o : CloseOp) : (s.withOp o).trs = s.trs := rfl
@[simp] theorem State.withOp_alm (o : CloseOp) : (s.withOp o).alm = s.alm := rfl
@[simp] theorem State.withOp_wat (o : CloseOp) : (s.withOp o).wat = s.wat := rfl
@[simp] theorem State.withOp_settings (o : CloseOp) : (s.withOp o).settings = s.settings := rfl
@[simp] theorem State.withOp_ptu (o : CloseOp) : (s.withOp o).ptu = s.ptu := rfl
@[simp] theorem State.withOp_sup (o : CloseOp) : (s.withOp o).sup = s.sup := rfl
@[simp] theorem State.withOp_lines (o : CloseOp) : (s.withOp o).lines = s.lines := rfl
@[simp] theorem State.withOp_startCheck (o : CloseOp) : (s.withOp o).startCheck = s.startCheck := rfl
@[simp] theorem State.withOp_free (o : CloseOp) : (s.withOp o).free = s.free := rfl
@[simp] theorem State.withOp_pending (o : CloseOp) : (s.withOp o).pending = s.pending := rfl
@[simp] theorem State.withOp_rbu (o : CloseOp) : (s.withOp o).rbu = { s.rbu with closeOp := some o } := rfl

/-! ### `State.allocateHeader` -/

@[simp] theorem State.allocateHeader_ts (k : Nat) : (s.allocateHeader k).ts = s.ts := rfl
@[simp] theorem State.allocateHeader_cac (k : Nat) : (s.allocateHeader k).cac = s.cac := rfl
@[simp] theorem State.allocateHeader_aee (k : Nat) : (s.allocateHeader k).aee = s.aee := rfl
@[simp] theorem State.allocateHeader_tas (k : Nat) : (s.allocateHeader k).tas = s.tas := rfl
@[simp] theorem State.allocateHeader_alm (k : Nat) : (s.allocateHeader k).alm = s.alm := rfl
@[simp] theorem State.allocateHeader_wat (k : Nat) : (s.allocateHeader k).wat = s.wat := rfl
@[simp] theorem State.allocateHeader_settings (k : Nat) : (s.allocateHeader k).settings = s.settings := rfl
@[simp] theorem State.allocateHeader_ptu (k : Nat) : (s.allocateHeader k).ptu = s.ptu := rfl
@[simp] theorem State.allocateHeader_sup (k : Nat) : (s.allocateHeader k).sup = s.sup := rfl
@[simp] theorem State.allocateHeader_lines (k : Nat) : (s.allocateHeader k).lines = s.lines := rfl
@[simp] theorem State.allocateHeader_startCheck (k : Nat) : (s.allocateHeader k).startCheck = s.startCheck := rfl
@[simp] theorem State.allocateHeader_free (k : Nat) : (s.allocateHeader k).free = s.free := rfl
@[simp] theorem State.allocateHeader_pending (k : Nat) : (s.allocateHeader k).pending = s.pending := rfl
@[simp] theorem State.allocateHeader_rbu (k : Nat) : (s.allocateHeader k).rbu = s.rbu := rfl

/-! ### `State.handOverAll` -/

@[simp] theorem State.handOverAll_ts : (s.handOverAll).ts = s.ts := rfl
@[simp] theorem State.handOverAll_cac : (s.handOverAll).cac = s.cac := rfl
@[simp] theorem State.handOverAll_aee : (s.handOverAll).aee = s.aee := rfl
@[simp] theorem State.handOverAll_trs : (s.handOverAll).trs = s.trs := rfl
@[simp] theorem State.handOverAll_alm : (s.handOverAll).alm = s.alm := rfl
@[simp] theorem State.handOverAll_wat : (s.handOverAll).wat = s.wat := rfl
@[simp] theorem State.handOverAll_settings : (s.handOverAll).settings = s.settings := rfl
@[simp] theorem State.handOverAll_ptu : (s.handOverAll).ptu = s.ptu := rfl
@[simp] theorem State.handOverAll_sup : (s.handOverAll).sup = s.sup := rfl
@[simp] theorem State.handOverAll_lines : (s.handOverAll).lines = s.lines := rfl
@[simp] theorem State.handOverAll_startCheck : (s.handOverAll).startCheck = s.startCheck := rfl
@[simp] theorem State.handOverAll_free : (s.handOverAll).free = s.free := rfl
@[simp] theorem State.handOverAll_pending : (s.handOverAll).pending = s.pending := rfl

/-! ### Pairs and ports -/

@[simp] theorem Pair.get_set_same {α : Type} (p : Pair α) (i : Two) (v : α) : (p.set i v).get i = v := by
  cases i <;> rfl

@[simp] theorem Pair.get_set_other {α : Type} (p : Pair α) (i j : Two) (v : α) (h : j ≠ i) :
    (p.set i v).get j = p.get j := by
  cases i <;> cases j <;> first | rfl | exact absurd rfl h

@[simp] theorem Pair.set_set {α : Type} (p : Pair α) (i : Two) (v w : α) : (p.set i v).set i w = p.set i w := by
  cases i <;> rfl

@[simp] theorem Pair.set_get {α : Type} (p : Pair α) (i : Two) : p.set i (p.get i) = p := by
  cases i <;> rfl

@[simp] theorem Ports.set_set {α : Type} (p : Ports α) (i : Port) (v w : α) : (p.set i v).set i w = p.set i w := by
  cases i <;> rfl

@[simp] theorem Ports.set_get {α : Type} (p : Ports α) (i : Port) : p.set i (p.get i) = p := by
  cases i <;> rfl

@[simp] theorem Ports.get_set_same {α : Type} (p : Ports α) (i : Port) (v : α) : (p.set i v).get i = v := by
  cases i <;> rfl

@[simp] theorem Ports.get_set_other {α : Type} (p : Ports α) (i j : Port) (v : α) (h : j ≠ i) :
    (p.set i v).get j = p.get j := by
  cases i <;> cases j <;> first | rfl | exact absurd rfl h

/-! ### Values that an update leaves alone -/

@[simp] theorem setting_advance (now n : Nat) : (s.advance now).setting n = s.setting n := rfl
@[simp] theorem settingNat_advance (now n : Nat) : (s.advance now).settingNat n = s.settingNat n := rfl
@[simp] theorem setting_onTrack (t : Track) (f : Sequencer → Sequencer) (n : Nat) :
    (s.onTrack t f).setting n = s.setting n := rfl
@[simp] theorem setting_onPort (p : Port) (f : PortState → PortState) (n : Nat) :
    (s.onPort p f).setting n = s.setting n := rfl

/-- The lines do not depend on the count, the ports, the queue, the free counter or the lines themselves. -/
@[simp] theorem linesOf_advance (now : Nat) : linesOf (s.advance now) = linesOf s := rfl
@[simp] theorem linesOf_onPort (p : Port) (f : PortState → PortState) : linesOf (s.onPort p f) = linesOf s := rfl
@[simp] theorem linesOf_answer (p : Port) (st : Status) (pl : Payload) : linesOf (s.answer p st pl) = linesOf s := rfl
@[simp] theorem linesOf_driveLines : linesOf s.driveLines = linesOf s := rfl
@[simp] theorem linesOf_pending (l : List Instr) : linesOf { s with pending := l } = linesOf s := rfl

end Sys2Proof.Machine
end

