-- ==== Sys2Proof/Laws/Memory.lean ====
section
/-! SUPPORT. Lists kept by rising index, and capture memory: reading after writing, and the canonical form kept by every
write. -/

namespace Sys2Proof.Machine

variable {α : Type}

/-! ### Rising lists -/

/-- Every index of a list is above a bound. -/
def above (k : Nat) (m : List (Nat × α)) : Prop := ∀ e ∈ m, k < e.1

theorem rising_cons (a : Nat × α) (m : List (Nat × α)) : rising (a :: m) = true ↔ above a.1 m ∧ rising m = true := by
  induction m generalizing a with
  | nil => simp [rising, above]
  | cons b l ih =>
    have hb := ih b
    constructor
    · intro h
      simp only [rising, Bool.and_eq_true, decide_eq_true_eq] at h
      refine ⟨?_, h.2⟩
      intro e he
      rcases List.mem_cons.1 he with rfl | he
      · exact h.1
      · exact Nat.lt_trans h.1 ((hb.1 h.2).1 e he)
    · intro h
      simp only [rising, Bool.and_eq_true, decide_eq_true_eq]
      exact ⟨h.1 b (List.mem_cons_self ..), h.2⟩

theorem look_above (m : List (Nat × α)) (k n : Nat) (h : above k m) (hn : n ≤ k) : look m n = none := by
  induction m with
  | nil => rfl
  | cons b l ih =>
    have hb : k < b.1 := h b (List.mem_cons_self ..)
    have hl : above k l := fun e he => h e (List.mem_cons_of_mem _ he)
    simp only [look]
    rw [if_neg (by omega), ih hl]

/-- What a list shows after a value was put into it. -/
theorem look_put (m : List (Nat × α)) (n k : Nat) (w : α) : look (put m n w) k = if k = n then some w else look m k := by
  induction m with
  | nil => simp only [put, look]; split <;> split <;> first | rfl | omega
  | cons b l ih =>
    obtain ⟨i, v⟩ := b
    simp only [put]
    split
    · simp only [look]; repeat' split
      all_goals first | rfl | omega
    · split
      · simp only [look]; repeat' split
        all_goals first | rfl | omega
      · simp only [look, ih]; repeat' split
        all_goals first | rfl | omega

/-- What a list shows after an index was dropped. -/
theorem look_drop (m : List (Nat × α)) (n k : Nat) : look (drop m n) k = if k = n then none else look m k := by
  induction m with
  | nil => simp [drop, look]
  | cons b l ih =>
    obtain ⟨i, v⟩ := b
    simp only [drop, List.filter_cons] at ih ⊢
    by_cases hi : i = n
    · subst hi
      simp only [bne_self_eq_false, Bool.false_eq_true, if_false, ih, look]
      split
      · rfl
      · next h => rw [if_neg (fun h' => h h'.symm)]
    · have : (i != n) = true := by simpa using hi
      simp only [this, if_true, look, ih]
      repeat' split
      all_goals first | rfl | omega

theorem above_put (m : List (Nat × α)) (j n : Nat) (w : α) (h : above j m) (hn : j < n) : above j (put m n w) := by
  induction m with
  | nil => intro e he; simp [put] at he; subst he; exact hn
  | cons b l ih =>
    obtain ⟨i, v⟩ := b
    have hi : j < i := h (i, v) (List.mem_cons_self ..)
    have hl : above j l := fun e he => h e (List.mem_cons_of_mem _ he)
    simp only [put]
    intro e he
    split at he
    · rcases List.mem_cons.1 he with rfl | he
      · exact hn
      · exact h e he
    · split at he
      · rcases List.mem_cons.1 he with rfl | he
        · exact hn
        · exact hl e he
      · rcases List.mem_cons.1 he with rfl | he
        · exact hi
        · exact ih hl e he

/-- Putting a value keeps the indices rising. -/
theorem rising_put (m : List (Nat × α)) (n : Nat) (w : α) (h : rising m = true) : rising (put m n w) = true := by
  induction m with
  | nil => rfl
  | cons b l ih =>
    obtain ⟨i, v⟩ := b
    obtain ⟨ha, hl⟩ := (rising_cons _ _).1 h
    simp only [put]
    split
    · next hlt =>
      refine (rising_cons _ _).2 ⟨?_, h⟩
      intro e he
      rcases List.mem_cons.1 he with rfl | he
      · exact hlt
      · exact Nat.lt_trans hlt (ha e he)
    · split
      · next heq => subst heq; exact (rising_cons _ _).2 ⟨ha, hl⟩
      · exact (rising_cons _ _).2 ⟨above_put l i n w ha (by omega), ih hl⟩

/-- Filtering keeps the indices rising. -/
theorem rising_filter (m : List (Nat × α)) (p : Nat × α → Bool) (h : rising m = true) : rising (m.filter p) = true := by
  induction m with
  | nil => rfl
  | cons b l ih =>
    obtain ⟨ha, hl⟩ := (rising_cons _ _).1 h
    simp only [List.filter_cons]
    split
    · exact (rising_cons _ _).2 ⟨fun e he => ha e (List.mem_filter.1 he).1, ih hl⟩
    · exact ih hl

theorem rising_drop (m : List (Nat × α)) (n : Nat) (h : rising m = true) : rising (drop m n) = true :=
  rising_filter m _ h

theorem mem_put (m : List (Nat × α)) (n : Nat) (w : α) (e : Nat × α) (h : e ∈ put m n w) : e = (n, w) ∨ e ∈ m := by
  induction m with
  | nil => simp [put] at h; exact .inl h
  | cons b l ih =>
    obtain ⟨i, v⟩ := b
    simp only [put] at h
    split at h
    · rcases List.mem_cons.1 h with h | h
      · exact .inl h
      · exact .inr h
    · split at h
      · rcases List.mem_cons.1 h with h | h
        · exact .inl h
        · exact .inr (List.mem_cons_of_mem _ h)
      · rcases List.mem_cons.1 h with h | h
        · exact .inr (h ▸ List.mem_cons_self ..)
        · rcases ih h with h | h
          · exact .inl h
          · exact .inr (List.mem_cons_of_mem _ h)

/-! ### Capture memory -/

/-- Reading after writing one sample. -/
theorem Memory.read_write (m : List (Nat × Sample)) (a b : Nat) (v : Sample)
    (ha : a < Config.rowCount * Config.columnCount) :
    Memory.read (Memory.write m a v) b = if b = a then v else Memory.read m b := by
  simp only [Memory.write, if_pos ha, Memory.read]
  split
  · next hv => subst hv; rw [look_drop]; split <;> rfl
  · rw [look_put]; split <;> rfl

/-- A write outside the memory changes nothing. -/
theorem Memory.write_outside (m : List (Nat × Sample)) (a : Nat) (v : Sample)
    (ha : ¬ a < Config.rowCount * Config.columnCount) : Memory.write m a v = m := by
  simp only [Memory.write, if_neg ha]

/-- A write leaves every other address alone. -/
theorem Memory.read_write_other (m : List (Nat × Sample)) (a b : Nat) (v : Sample) (h : b ≠ a) :
    Memory.read (Memory.write m a v) b = Memory.read m b := by
  by_cases ha : a < Config.rowCount * Config.columnCount
  · rw [Memory.read_write m a b v ha, if_neg h]
  · rw [Memory.write_outside m a v ha]

/-- Writing keeps the canonical form. -/
theorem Memory.wf_write (m : List (Nat × Sample)) (a : Nat) (v : Sample) (h : Memory.wf m = true) :
    Memory.wf (Memory.write m a v) = true := by
  simp only [Memory.wf, Bool.and_eq_true, List.all_eq_true] at h ⊢
  simp only [Memory.write]
  split
  · next ha =>
    split
    · exact ⟨rising_drop m a h.1, fun e he => h.2 e (List.mem_filter.1 he).1⟩
    · next hv =>
      refine ⟨rising_put m a v h.1, fun e he => ?_⟩
      rcases mem_put m a v e he with rfl | he
      · exact ⟨by simpa using ha, by simpa using hv⟩
      · exact h.2 e he
  · exact h

/-- Writing a column keeps the canonical form. -/
theorem Memory.wf_writeColumn (m : List (Nat × Sample)) (c : Nat) (rows : List Nat) (f : Nat → Sample)
    (h : Memory.wf m = true) : Memory.wf (Memory.writeColumn m c rows f) = true := by
  unfold Memory.writeColumn
  induction rows generalizing m with
  | nil => exact h
  | cons r l ih => exact ih _ (Memory.wf_write m _ _ h)

/-- Writing some columns keeps the canonical form. -/
theorem wf_writeColumns (m : List (Nat × Sample)) (l : List (Nat × List Sample)) (h : Memory.wf m = true) :
    Memory.wf (writeColumns m l) = true := by
  unfold writeColumns
  induction l generalizing m with
  | nil => exact h
  | cons c l ih => exact ih _ (Memory.wf_writeColumn m _ _ _ h)

/-- Writing elements of a window keeps the canonical form. -/
theorem wf_writeElements (m : List (Nat × Sample)) (w : Window) (e : Nat) (l : List Sample) (h : Memory.wf m = true) :
    Memory.wf (writeElements m w e l) = true := by
  induction l generalizing m e with
  | nil => exact h
  | cons v l ih => exact ih _ _ (Memory.wf_write m _ _ h)

/-- Addresses of different rows or columns differ. -/
theorem cell_inj {r r' c c' : Nat} (hc : c < Config.columnCount) (hc' : c' < Config.columnCount)
    (h : cell r c = cell r' c') : r = r' ∧ c = c' := by
  simp only [cell, Config.columnCount] at *
  omega

/-- Reading after a column was written: a row that was written in that column shows its new sample, every other address
shows what it did. -/
theorem Memory.read_writeColumn (m : List (Nat × Sample)) (c : Nat) (rows : List Nat) (f : Nat → Sample) (r k : Nat)
    (hrows : ∀ x ∈ rows, x < Config.rowCount) (hc : c < Config.columnCount) (hk : k < Config.columnCount) :
    Memory.read (Memory.writeColumn m c rows f) (cell r k)
      = if r ∈ rows ∧ k = c then f r else Memory.read m (cell r k) := by
  unfold Memory.writeColumn
  induction rows generalizing m with
  | nil => simp
  | cons x l ih =>
    have hx : x < Config.rowCount := hrows x (List.mem_cons_self ..)
    simp only [List.foldl_cons]
    rw [ih _ (fun y hy => hrows y (List.mem_cons_of_mem _ hy))]
    have hin : cell x c < Config.rowCount * Config.columnCount := by
      simp only [cell, Config.rowCount, Config.columnCount] at *; omega
    by_cases hl : r ∈ l ∧ k = c
    · rw [if_pos hl, if_pos ⟨List.mem_cons_of_mem _ hl.1, hl.2⟩]
    · rw [if_neg hl, Memory.read_write _ _ _ _ hin]
      by_cases hrx : r = x ∧ k = c
      · rw [if_pos (by rw [hrx.1, hrx.2]), if_pos ⟨hrx.1 ▸ List.mem_cons_self .., hrx.2⟩, hrx.1]
      · rw [if_neg (fun h => hrx (cell_inj hk hc h)), if_neg]
        rintro ⟨h1, h2⟩
        rcases List.mem_cons.1 h1 with h1 | h1
        · exact hrx ⟨h1, h2⟩
        · exact hl ⟨h1, h2⟩

/-- The memory right after reset has the canonical form. -/
theorem wf_reset : Memory.wf State.reset.cac.mem = true := rfl

end Sys2Proof.Machine
end

