-- ==== Sys2Proof/Laws/Shared.lean ====
section
/-! SUPPORT. What each shared operation can do: checked reads of clean words, the outcome of an event, the work event of a
request, judging, joining the Closing List, and the pool's lowest place. -/

namespace Sys2Proof.Machine

/-! ### Checked reads where no word carries an error -/

theorem checkWords_clean (s : State) (want : WordError → Bool) (fix : State → WordError → State)
    (h : s.trs.errors = []) : s.checkWords want fix = s := by
  simp [State.checkWords, h]

@[simp] theorem checkSettings_clean (s : State) (l : List Nat) (h : s.trs.errors = []) : s.checkSettings l = s :=
  checkWords_clean s _ _ h

@[simp] theorem checkSetting_clean (s : State) (n : Nat) (h : s.trs.errors = []) : s.checkSetting n = s :=
  checkWords_clean s _ _ h

@[simp] theorem checkAlarms_clean (s : State) (h : s.trs.errors = []) : s.checkAlarms = s := checkWords_clean s _ _ h

@[simp] theorem checkAxle_clean (s : State) (n : Nat) (l : List WordField) (h : s.trs.errors = []) :
    s.checkAxle n l = s :=
  checkWords_clean s _ _ h

@[simp] theorem checkVehicle_clean (s : State) (n : Nat) (h : s.trs.errors = []) : s.checkVehicle n = s :=
  checkWords_clean s _ _ h

@[simp] theorem checkHeader_clean (s : State) (n : Nat) (l : List WordField) (h : s.trs.errors = []) :
    s.checkHeader n l = s :=
  checkWords_clean s _ _ h

/-- A chain of checked reads changes nothing where no word carries an error. -/
theorem foldl_clean {β : Type} (f : State → β → State) (l : List β) (s : State) (h : s.trs.errors = [])
    (hf : ∀ s b, s.trs.errors = [] → f s b = s) : l.foldl f s = s := by
  induction l with
  | nil => rfl
  | cons b l ih => rw [List.foldl_cons, hf s b h, ih]

/-- An event of a Track Sequencer where no word carries an error. -/
@[simp] theorem atTrack_clean (s : State) (t : Track) (now : Nat) (h : s.trs.errors = []) :
    s.atTrack t now = s.advance now :=
  checkSetting_clean _ _ h

/-! ### Outcomes of events -/

/-- With no close operation in flight nothing goes on. -/
@[simp] theorem letClose_none (s : State) (h : s.rbu.closeOp = none) : s.letClose = s := by
  simp [State.letClose, h]

@[simp] theorem whenUp_checking (s : State) (r : Option State) (h : s.startCheck = true) : whenUp s r = .next s := by
  simp [whenUp, h]

@[simp] theorem whenUp_some (s t : State) (h : s.startCheck = false) :
    whenUp s (some t) = .next t.letClose.driveLines := by
  simp [whenUp, h]

@[simp] theorem whenUp_none (s : State) : whenUp s none = .next s := by
  simp only [whenUp]; split <;> rfl

/-- Every event answers a next state: the one it leads to, the close operation gone on and the lines driven, or the state as it
was. -/
theorem whenUp_next (s : State) (r : Option State) :
    whenUp s r = .next s ∨ ∃ t, r = some t ∧ whenUp s r = .next t.letClose.driveLines := by
  cases r with
  | none => exact .inl (whenUp_none s)
  | some t =>
    cases h : s.startCheck with
    | true => exact .inl (whenUp_checking s _ h)
    | false => exact .inr ⟨t, rfl, whenUp_some s t h⟩

/-- A work event answers a next state: the served one, the close operation gone on and the lines driven, or the state as it
was. -/
theorem workEvent_next (p : Port) (now : Nat) (s : State) (work : Request → Option (State → State)) :
    workEvent p now s work = .next s ∨
      ∃ r f, waiting s p = some r ∧ work r = some f ∧
        workEvent p now s work = .next ((s.advance now).serve p r f).letClose.driveLines := by
  unfold workEvent
  rcases whenUp_next s ((waiting s p).bind fun r => (work r).map fun f => (s.advance now).serve p r f) with h | ⟨t, ht, h⟩
  · exact .inl h
  · cases hw : waiting s p with
    | none => simp [hw] at ht
    | some r =>
      cases hf : work r with
      | none => simp [hw, hf] at ht
      | some f =>
        simp [hw, hf] at ht
        rw [hw] at h
        refine .inr ⟨r, f, rfl, hf, ?_⟩
        rw [ht]
        simpa [hf, ht] using h

/-- The three ways a work event can go once its request is waiting (R185). -/
theorem serve_cases (s : State) (p : Port) (r : Request) (work : State → State) :
    let u := s.checkSetting (itemPermission r.row)
    s.serve p r work = (u.onPort p fun x => { x with denials := bump x.denials }).answer p .denied .none
      ∨ s.serve p r work = u.answer p .mode .none ∨ s.serve p r work = work u := by
  simp only [State.serve]
  split
  · exact .inl rfl
  · split
    · exact .inr (.inl rfl)
    · exact .inr (.inr rfl)

/-- A request that is permitted and available is served by its owner, where no word carries an error. -/
theorem serve_work (s : State) (p : Port) (r : Request) (work : State → State) (hc : s.trs.errors = [])
    (hp : permitted s p r.row = true) (ha : available s.sup.mode r = true) : s.serve p r work = work s := by
  simp [State.serve, hc, hp, ha]

/-! ### Judging and lists -/

/-- NONE is no judgement: nothing is entered (R142). -/
@[simp] theorem enterAlarm_none (s : State) (j : Judgement) (h : j.severity = .none) : s.enterAlarm j = s := by
  simp [State.enterAlarm, h]

/-- A bumped count never falls, and holds at 65535. -/
theorem bump_le (n : Nat) : bump n ≤ 65535 := Nat.min_le_right ..

/-- A Closing List that held at most four trains holds at most four after a join (R87). -/
theorem joinClosing_length (s : State) (c : ClosingTrain) (h : s.tas.closing.length ≤ Config.closingSize) :
    (s.joinClosing c).tas.closing.length ≤ Config.closingSize := by
  simp only [State.joinClosing]
  split
  · simp only [List.length_append, List.length_singleton]; omega
  · split
    · next hd rest heq =>
      simp only [List.length_append, List.length_singleton]
      rw [heq] at h
      simpa using h
    · simp [Config.closingSize]

/-- The place a pool gives is FREE and inside the pool (R119). -/
theorem firstGap_ge (l : List Nat) (k : Nat) : k ≤ firstGap l k := by
  induction l generalizing k with
  | nil => exact Nat.le_refl _
  | cons n l ih =>
    simp only [firstGap]
    split
    · exact Nat.le_trans (Nat.le_succ k) (ih _)
    · exact Nat.le_refl _

theorem firstGap_free {α : Type} (m : List (Nat × α)) (k : Nat) (h : rising m = true) (hk : ∀ e ∈ m, k ≤ e.1) :
    look m (firstGap (m.map (·.1)) k) = none := by
  induction m generalizing k with
  | nil => rfl
  | cons a l ih =>
    obtain ⟨ha, hl⟩ := (rising_cons _ _).1 h
    simp only [List.map_cons, firstGap]
    split
    · next heq =>
      have hge : k + 1 ≤ firstGap (l.map (·.1)) (k + 1) := firstGap_ge _ _
      simp only [look]
      rw [if_neg (by omega)]
      exact ih (k + 1) hl fun e he => by have := ha e he; omega
    · next hne =>
      have hk' : k < a.1 := Nat.lt_of_le_of_ne (hk a (List.mem_cons_self ..)) (fun h => hne h.symm)
      refine look_above _ (a.1 - 1) k ?_ (by omega)
      intro e he
      rcases List.mem_cons.1 he with rfl | he
      · omega
      · have := ha e he; omega

theorem lowestFree_free {α : Type} (m : List (Nat × α)) (size k : Nat) (h : rising m = true)
    (hk : lowestFree m size = some k) : look m k = none ∧ k < size := by
  simp only [lowestFree] at hk
  split at hk
  · next hlt =>
    cases hk
    exact ⟨firstGap_free m 0 h (fun _ _ => Nat.zero_le _), hlt⟩
  · cases hk

end Sys2Proof.Machine
end

