-- ==== Sys2Proof/Laws/CloseWork.lean ====
section
/-! SUPPORT. What the work of a close operation can touch (`CloseWorkOnly`), from the checked reads up to `letClose`. -/

namespace Sys2Proof.Machine

namespace CloseWorkOnly

theorem refl (s : State) : CloseWorkOnly s s := ⟨rfl, rfl, rfl, rfl, rfl, rfl, rfl, rfl, rfl, rfl, rfl, rfl, rfl, rfl⟩

theorem trans {s t u : State} (h : CloseWorkOnly s t) (k : CloseWorkOnly t u) : CloseWorkOnly s u where
  ts := k.ts.trans h.ts
  cac := k.cac.trans h.cac
  aee := k.aee.trans h.aee
  tas := k.tas.trans h.tas
  wat := k.wat.trans h.wat
  ptu := k.ptu.trans h.ptu
  sup := k.sup.trans h.sup
  lines := k.lines.trans h.lines
  startCheck := k.startCheck.trans h.startCheck
  pending := k.pending.trans h.pending
  handOver := k.handOver.trans h.handOver
  made := k.made.trans h.made
  discarded := k.discarded.trans h.discarded
  closing := k.closing.trans h.closing

end CloseWorkOnly

/-! ### Checked reads -/

/-- A checked read touches what its fix touches. -/
theorem checkWords_only (s : State) (want : WordError → Bool) (fix : State → WordError → State)
    (hf : ∀ s e, CloseWorkOnly s (fix s e)) : CloseWorkOnly s (s.checkWords want fix) := by
  unfold State.checkWords
  generalize s.trs.errors.filter want = l
  induction l generalizing s with
  | nil => exact .refl s
  | cons e l ih =>
    simp only [List.foldl_cons]
    refine .trans ?_ (ih _)
    split
    · exact hf s e
    · exact .refl s

theorem readSettingWord_only (s : State) (e : WordError) : CloseWorkOnly s (readSettingWord s e) := by
  simp only [readSettingWord]; split <;> (constructor <;> rfl)

theorem defaultGeometry_only (s : State) (t : Track) : CloseWorkOnly s (s.defaultGeometry t) := by
  unfold State.defaultGeometry
  generalize geometryItems t = l
  induction l generalizing s with
  | nil => exact .refl s
  | cons n l ih => exact .trans (t := State.cleanEntry { s with settings := drop s.settings n } .settings n) (by constructor <;> rfl) (ih _)

theorem settleSpan_only (s : State) (t : Track) (n : Nat) : CloseWorkOnly s (s.settleSpan t n) := by
  simp only [State.settleSpan]
  split
  · exact checkWords_only s _ _ readSettingWord_only
  · exact .trans (checkWords_only s _ _ readSettingWord_only) (defaultGeometry_only _ t)

theorem fixSetting_only (s : State) (e : WordError) : CloseWorkOnly s (fixSetting s e) := by
  simp only [fixSetting]
  split
  · split
    · exact .trans (readSettingWord_only s e) (settleSpan_only _ _ _)
    · exact readSettingWord_only s e
  · exact readSettingWord_only s e

theorem checkSettings_only (s : State) (l : List Nat) : CloseWorkOnly s (s.checkSettings l) :=
  checkWords_only s _ _ fixSetting_only

theorem checkSetting_only (s : State) (n : Nat) : CloseWorkOnly s (s.checkSetting n) := checkSettings_only s [n]

theorem fixAlarm_only (s : State) (e : WordError) : CloseWorkOnly s (fixAlarm s e) := by
  simp only [fixAlarm]; repeat' split
  all_goals constructor <;> rfl

theorem checkAlarms_only (s : State) : CloseWorkOnly s s.checkAlarms := checkWords_only s _ _ fixAlarm_only

/-! ### The alarm list -/

theorem enterListed_only (s : State) (j : Judgement) : CloseWorkOnly s (s.enterListed j) := by
  simp only [State.enterListed]; repeat' split
  all_goals constructor <;> rfl

theorem testNotice_only (s : State) : CloseWorkOnly s s.testNotice := by
  simp only [State.testNotice]; split <;> (constructor <;> rfl)

theorem enterAlarm_only (s : State) (j : Judgement) : CloseWorkOnly s (s.enterAlarm j) := by
  simp only [State.enterAlarm]
  split
  · exact .refl s
  · exact .trans (checkAlarms_only s) (.trans (enterListed_only _ j) (testNotice_only _))

theorem judgeValue_only (s : State) (key : AlarmKey) (v : Nat) (c : ValueClass) :
    CloseWorkOnly s (s.judgeValue key v c).1 :=
  .trans (checkSettings_only s _) (enterAlarm_only _ _)

/-! ### The store -/

theorem flagDamaged_only (s : State) (n : Nat) : CloseWorkOnly s (s.flagDamaged n) := by
  simp only [State.flagDamaged]; split <;> (constructor <;> rfl)

theorem onAxle_only (s : State) (n : Nat) (f : AxleEntry → AxleEntry) : CloseWorkOnly s (s.onAxle n f) := by
  constructor <;> rfl

theorem cleanEntry_only (s : State) (a : Area) (n : Nat) : CloseWorkOnly s (s.cleanEntry a n) := by constructor <;> rfl

theorem cleanWord_only (s : State) (e : WordError) : CloseWorkOnly s (s.cleanWord e) := by constructor <;> rfl

theorem countError_only (s : State) (e : WordError) : CloseWorkOnly s (s.countError e) := by constructor <;> rfl

theorem offer_only (s : State) (e : WordError) (o : LocusOwner) : CloseWorkOnly s (s.offer e o) := by constructor <;> rfl

theorem fixAxle_only (s : State) (e : WordError) : CloseWorkOnly s (fixAxle s e) := by
  simp only [fixAxle]
  split
  · cases axleOwner s e.index with
    | some w =>
      exact .trans (.trans (.trans (.trans (.trans (onAxle_only s _ _) (cleanEntry_only _ _ _)) (flagDamaged_only _ _))
        (countError_only _ e)) (enterAlarm_only _ _)) (offer_only _ e _)
    | none => exact .trans (.trans (.trans (onAxle_only s _ _) (cleanEntry_only _ _ _)) (countError_only _ e)) (offer_only _ e _)
  · exact .trans (.trans (countError_only s e) (offer_only _ e _)) (cleanWord_only _ e)

theorem checkAxle_only (s : State) (n : Nat) (l : List WordField) : CloseWorkOnly s (s.checkAxle n l) :=
  checkWords_only s _ _ fixAxle_only

theorem fixHeader_only (s : State) (e : WordError) : CloseWorkOnly s (fixHeader s e) := by
  simp only [fixHeader]
  split
  · split
    · exact .trans (by constructor <;> rfl) (enterAlarm_only (State.onHeader _ _ _) _)
    · constructor <;> rfl
  · constructor <;> rfl

theorem checkHeader_only (s : State) (n : Nat) (l : List WordField) : CloseWorkOnly s (s.checkHeader n l) :=
  checkWords_only s _ _ fixHeader_only

theorem reclaim_only (s : State) (room : State → Bool) (n : Nat) : CloseWorkOnly s (s.reclaim room n) := by
  induction n generalizing s with
  | zero => exact .refl s
  | succ n ih =>
    simp only [State.reclaim]
    split
    · exact .refl s
    · split
      · exact .trans (by constructor <;> rfl) (ih _)
      · exact .refl s

theorem evict_only (s : State) (r : RecordDir) : CloseWorkOnly s (s.evict r) :=
  .trans (.trans (checkHeader_only s r.header [.headerAxleCount]) (by constructor <;> rfl)) (enterAlarm_only _ _)

theorem evictFor_only (s : State) (room : State → Bool) (n : Nat) : CloseWorkOnly s (s.evictFor room n) := by
  induction n generalizing s with
  | zero => exact .refl s
  | succ n ih =>
    simp only [State.evictFor]
    split
    · exact .refl s
    · split
      · exact .trans (evict_only s _) (ih _)
      · exact .refl s

theorem makeRoom_only (s : State) (room : State → Bool) : CloseWorkOnly s (s.makeRoom room) := by
  simp only [State.makeRoom]
  split
  · exact .trans (checkSetting_only s _) (reclaim_only _ room _)
  · exact .trans (.trans (checkSetting_only s _) (reclaim_only _ room _)) (evictFor_only _ room _)

theorem takeVehicles_only (l : List VehicleEntry) (s : State) : CloseWorkOnly s (s.takeVehicles l).1 := by
  induction l generalizing s with
  | nil => exact .refl s
  | cons v l ih =>
    simp only [State.takeVehicles]
    split
    · exact .trans (by constructor <;> rfl) (ih _)
    · exact .refl s

/-! ### The pieces -/

/-- Setting the progress of the close operation in flight touches nothing else where the train in hand stays. -/
theorem withOp_only {s t : State} {o o' : CloseOp} (h : CloseWorkOnly s t) (hs : s.rbu.closeOp = some o)
    (hc : o'.closing = o.closing) (he : o'.early = o.early := by rfl) : CloseWorkOnly s (t.withOp o') where
  ts := h.ts
  cac := h.cac
  aee := h.aee
  tas := h.tas
  wat := h.wat
  ptu := h.ptu
  sup := h.sup
  lines := h.lines
  startCheck := h.startCheck
  pending := h.pending
  handOver := h.handOver
  made := h.made
  discarded := h.discarded
  closing := by simp [hs, hc, he]

theorem judgeAxle_only (s : State) (key : AlarmKey) (n v : Nat) (c : ValueClass) :
    CloseWorkOnly s (s.judgeAxle key n v c).1 := by
  simp only [State.judgeAxle]
  split
  · exact judgeValue_only s key v c
  · exact .trans (judgeValue_only s key v c) (.trans (checkAxle_only _ n _) (by constructor <;> rfl))

theorem judgeClose_only (s : State) (j : CloseJudgement) : CloseWorkOnly s (s.judgeClose j).1 := by
  simp only [State.judgeClose]
  split
  · exact judgeAxle_only _ _ _ _ _
  · exact judgeValue_only _ _ _ _
  · exact judgeValue_only _ _ _ _

/-- One piece of the work. -/
theorem closePiece_only (s : State) : CloseWorkOnly s s.closePiece := by
  simp only [State.closePiece]
  split
  · exact .refl s
  · next o ho =>
    split
    · split
      · exact withOp_only (checkAxle_only s _ _) ho rfl
      · refine withOp_only ?_ ho rfl
        split
        · constructor <;> rfl
        · exact .refl s
    · split
      · exact withOp_only (judgeClose_only s _) ho rfl
      · exact withOp_only (.refl s) ho rfl
    · split
      · simp only [State.takeHeader]
        split
        · next s1 k hk =>
          have h1 : s1 = s.makeRoom headerRoom := (congrArg Prod.fst hk).symm
          subst h1
          exact withOp_only (.trans (makeRoom_only s headerRoom) (by constructor <;> rfl)) ho rfl
        · exact .refl s
      · refine withOp_only ?_ ho rfl
        refine .trans ?_ (takeVehicles_only _ _)
        split
        · exact .trans (makeRoom_only s (vehicleRoom (groupsOf o).length)) (by constructor <;> rfl)
        · exact makeRoom_only s _
      · exact .refl s

/-- Some pieces of the work. -/
theorem closePieces_only (s : State) (n : Nat) : CloseWorkOnly s (s.closePieces n) := by
  induction n generalizing s with
  | zero => exact .refl s
  | succ n ih => exact .trans (closePiece_only s) (ih _)

/-- What a close operation does after an event touches only what its work touches. -/
theorem letClose_only (s : State) : CloseWorkOnly s s.letClose := by
  simp only [State.letClose]
  split
  · exact .trans (by constructor <;> rfl) (closePieces_only _ _)
  · exact .refl s

@[simp] theorem letClose_startCheck (s : State) : s.letClose.startCheck = s.startCheck := (letClose_only s).startCheck
@[simp] theorem letClose_pending (s : State) : s.letClose.pending = s.pending := (letClose_only s).pending
@[simp] theorem letClose_ts (s : State) : s.letClose.ts = s.ts := (letClose_only s).ts
@[simp] theorem letClose_cac (s : State) : s.letClose.cac = s.cac := (letClose_only s).cac
@[simp] theorem letClose_aee (s : State) : s.letClose.aee = s.aee := (letClose_only s).aee
@[simp] theorem letClose_tas (s : State) : s.letClose.tas = s.tas := (letClose_only s).tas
@[simp] theorem letClose_wat (s : State) : s.letClose.wat = s.wat := (letClose_only s).wat
@[simp] theorem letClose_ptu (s : State) : s.letClose.ptu = s.ptu := (letClose_only s).ptu
@[simp] theorem letClose_sup (s : State) : s.letClose.sup = s.sup := (letClose_only s).sup

/-- The end of a close operation: an event that is in service leads to the state it gives, the close work gone on. -/
theorem leadsTo_of_whenUp {i : Instr} {s t : State} (h : exec i s = whenUp s (some t)) (hs : s.startCheck = false) :
    LeadsTo i s t := by
  rw [LeadsTo, h, whenUp_some s t hs]; rfl

end Sys2Proof.Machine
end

