-- ==== Sys2Proof/Laws/Room.lean ====
section
/-! SUPPORT. What making room in the store (R123 to R125) keeps where no word carries an error: that no word carries one, and
that the Track Sequencers do not matter to it. -/

namespace Sys2Proof.Machine

theorem cleanEntry_errors {s : State} (a : Area) (n : Nat) (h : s.trs.errors = []) : (s.cleanEntry a n).trs.errors = [] := by
  simp [State.cleanEntry, h]

theorem insertAlarm_errors {s : State} (j : Judgement) (h : s.trs.errors = []) : (s.insertAlarm j).trs.errors = [] := by
  simpa [State.insertAlarm] using cleanEntry_errors _ _ h

theorem testNotice_trs (s : State) : s.testNotice.trs = s.trs := by
  simp only [State.testNotice]; split <;> rfl

theorem enterListed_errors {s : State} (j : Judgement) (h : s.trs.errors = []) : (s.enterListed j).trs.errors = [] := by
  simp only [State.enterListed]
  repeat' split
  all_goals first | exact h | exact insertAlarm_errors j h

/-- Entering an alarm marks no word. -/
theorem enterAlarm_errors {s : State} (j : Judgement) (h : s.trs.errors = []) : (s.enterAlarm j).trs.errors = [] := by
  simp only [State.enterAlarm]
  split
  · exact h
  · rw [testNotice_trs, checkAlarms_clean s h]; exact enterListed_errors j h

theorem evict_errors {s : State} (r : RecordDir) (h : s.trs.errors = []) : (s.evict r).trs.errors = [] := by
  simp only [State.evict, checkHeader_clean s _ _ h]
  exact enterAlarm_errors _ h

theorem reclaim_errors {s : State} (room : State → Bool) (n : Nat) (h : s.trs.errors = []) :
    (s.reclaim room n).trs.errors = [] := by
  induction n generalizing s with
  | zero => exact h
  | succ n ih =>
    simp only [State.reclaim]
    repeat' split
    · exact h
    · exact ih h
    · exact h

theorem evictFor_errors {s : State} (room : State → Bool) (n : Nat) (h : s.trs.errors = []) :
    (s.evictFor room n).trs.errors = [] := by
  induction n generalizing s with
  | zero => exact h
  | succ n ih =>
    simp only [State.evictFor]
    repeat' split
    · exact h
    · exact ih (evict_errors _ h)
    · exact h

/-- Making room marks no word. -/
theorem makeRoom_errors {s : State} (room : State → Bool) (h : s.trs.errors = []) : (s.makeRoom room).trs.errors = [] := by
  simp only [State.makeRoom, checkSetting_clean s _ h]
  split
  · exact reclaim_errors _ _ h
  · exact evictFor_errors _ _ (reclaim_errors _ _ h)

/-! ### The Track Sequencers -/

theorem enterAlarm_ts (s : State) (x : Pair Sequencer) (j : Judgement) (h : s.trs.errors = []) :
    State.enterAlarm { s with ts := x } j = { s.enterAlarm j with ts := x } := by
  simp only [State.enterAlarm]
  split
  · rfl
  · rw [checkAlarms_clean s h, checkAlarms_clean { s with ts := x } h]
    have hl : State.enterListed { s with ts := x } j = { s.enterListed j with ts := x } := by
      simp only [State.enterListed]
      split
      · rfl
      · split
        · rfl
        · cases lowestAlarm s.alm.list with
          | none => rfl
          | some low => simp only []; split <;> rfl
    rw [hl]
    simp only [State.testNotice]
    split <;> rfl

theorem reclaim_ts (s : State) (x : Pair Sequencer) (room : State → Bool) (n : Nat)
    (hr : ∀ s : State, room { s with ts := x } = room s) :
    State.reclaim { s with ts := x } room n = { s.reclaim room n with ts := x } := by
  induction n generalizing s with
  | zero => rfl
  | succ n ih =>
    simp only [State.reclaim, hr s]
    split
    · rfl
    · cases s.trs.records.find? released with
      | none => rfl
      | some r => exact ih { s.removeRecord r with trs.reclaims := bump (s.removeRecord r).trs.reclaims }

theorem evict_ts (s : State) (x : Pair Sequencer) (r : RecordDir) (h : s.trs.errors = []) :
    State.evict { s with ts := x } r = { s.evict r with ts := x } := by
  simp only [State.evict, checkHeader_clean s _ _ h, checkHeader_clean { s with ts := x } _ _ h]
  exact enterAlarm_ts { s.removeRecord r with trs.evictions := bump (s.removeRecord r).trs.evictions } x _ h

theorem evictFor_ts (s : State) (x : Pair Sequencer) (room : State → Bool) (n : Nat) (h : s.trs.errors = [])
    (hr : ∀ s : State, room { s with ts := x } = room s) :
    State.evictFor { s with ts := x } room n = { s.evictFor room n with ts := x } := by
  induction n generalizing s with
  | zero => rfl
  | succ n ih =>
    simp only [State.evictFor, hr s]
    split
    · rfl
    · cases s.trs.records.head? with
      | none => rfl
      | some r => simp only [evict_ts s x r h]; exact ih _ (evict_errors r h)

/-- Making room for a request that the Track Sequencers have no part in leaves them alone and asks nothing of them. -/
theorem makeRoom_ts (s : State) (x : Pair Sequencer) (room : State → Bool) (h : s.trs.errors = [])
    (hr : ∀ s : State, room { s with ts := x } = room s) :
    State.makeRoom { s with ts := x } room = { s.makeRoom room with ts := x } := by
  simp only [State.makeRoom, checkSetting_clean s _ h, checkSetting_clean { s with ts := x } _ h, reclaim_ts s x room _ hr]
  have hk : keepOld { s with ts := x } = keepOld s := rfl
  rw [hk]
  split
  · rfl
  · exact evictFor_ts _ x room _ (reclaim_errors room _ h) hr

/-- A request for one axle entry asks nothing of the Track Sequencers. -/
theorem axleRoom_ts (s : State) (x : Pair Sequencer) : axleRoom { s with ts := x } = axleRoom s := rfl

end Sys2Proof.Machine
end

