-- ==== Sys2Proof/Tests/Slice0.lean ====
section
/-! SUPPORT. Tests of single steps on small states, with results taken from the spec, the refusals of the well-formedness
check, and a witness for the hypotheses of each obligation. -/

namespace Sys2Proof.Tests

open Sys2Proof Sys2Proof.Machine

-- One proof after another: the tests are evaluated by the kernel, and many at once would need many threads.
set_option Elab.async false

/-! ### Helpers -/

/-- The state a command leads to. -/
def after (i : Instr) (s : State) : State :=
  match exec i s with
  | .next t => t
  | .fault _ => s
  | .refused _ => s

/-- A port of a state has a request waiting under tag 7. -/
def asking (s : State) (p : Port) (r : Request) : State :=
  { s with ptu := s.ptu.set p { s.ptu.get p with slot := .pending 7 r false } }

/-- The part after reset with a request waiting. -/
def asks (p : Port) (r : Request) : State := asking State.reset p r

/-- The status and payload of the answer on a port. -/
def answerOn (s : State) (p : Port) : Option (Status × Payload) :=
  match (s.ptu.get p).slot with
  | .answered _ _ st pl _ => some (st, pl)
  | _ => none

/-- The status a port's answer carries after a command. -/
def statusAfter (i : Instr) (s : State) (p : Port) : Option Status := (answerOn (after i s) p).map (·.1)

/-- The part with its track 1 changed. -/
def track1 (f : Sequencer → Sequencer) : State := State.reset.onTrack .one f

/-- Track 1 armed, no refresh. -/
def armed : State :=
  { track1 fun q => { q with mode := .armed } with cac.refresh := ⟨none, some ⟨1, 0⟩⟩ }

def noTime : Stamp := ⟨0, 0, true⟩

/-- An open train of track 1. -/
def train (stack : List StackItem) (phantoms : Nat) : Train :=
  { number := 5, track := .one, dir := .up, openTime := noTime, openCount := 0, stack := stack, phantoms := phantoms,
    unwinds := 0, withdrawals := 0, poolShort := false, overlength := false, power := false }

/-- Track 1 passing with an open train. -/
def passing (tr : Train) : State :=
  { track1 fun q => { q with mode := .passing } with
    cac.refresh := ⟨none, some ⟨1, 0⟩⟩
    tas.opens := ⟨some tr, none⟩ }

/-- A live job of axle entry 0 of train 5. -/
def job : Job :=
  { owner := .live 5 0 1, track := .one, dir := .up, dt := 45000, tA := 0, speed := 800, speedClass := .valid, ls := 0,
    le := 20, bs := 0, be := 5, ready := true }

/-- A service job of the Service Port. -/
def service : Job := { job with owner := .service .sp 7680 7700 0 }

def results : Results :=
  { rails := ⟨⟨549, 745, 196, 135, .valid, .valid⟩, blankRail .absent⟩, sides := ⟨⟨635, .valid⟩, ⟨0, .absent⟩⟩,
    peakSample := some 3 }

def taken : TakeValues := ⟨[], [], true, 150, 20⟩

/-- The part with a job in flight for axle entry 0. -/
def flying (j : Job) (discard : Bool) : State :=
  { State.reset with aee.inFlight := some ⟨j, taken, results, discard⟩, trs.axles := [(0, { blankAxle with index := 1 })] }

/-- A record of train `n`. -/
def record (n : Nat) : RecordDir := ⟨n, .one, ⟨true, true⟩, 0, [3], [2]⟩

/-- The part with one record stored. -/
def stored : State :=
  { State.reset with
    trs.records := [record 9]
    trs.headers := [(0, .record { blankHeader with number := 9, depth := 1, vehicleCount := 1 })]
    trs.axles := [(3, { blankAxle with index := 1 })]
    trs.vehicles := [(2, ⟨1, 1, 1, 0, 0, 0, 0, true, .none, false⟩)] }

/-- An alarm entry of track 1. -/
def alarm (n : Nat) (v : Severity) (st : AlarmState) (delivered : Bool) : AlarmEntry :=
  { number := n, key := ⟨some .one, some n, none, none, .coverage⟩, severity := v, value := 150, level := 100,
    reason := .level, first := noTime, last := noTime, state := st, delivered := delivered, link := .none, slot := n - 1 }

/-- The part with some alarm entries listed. -/
def alarmed (l : List AlarmEntry) (h : Handshake) : State :=
  { State.reset with alm := ⟨l, l.length, h, false, 0, 0, 0, 0⟩ }

/-- The part in another device mode. -/
def inMode (m : DeviceMode) (f : FreezeState) : State := { State.reset with sup.mode := m, sup.freeze := f }

/-- A close operation in flight for a train without entries. -/
def closing : ClosingTrain := ⟨train [] 2, .normal, noTime⟩
def closeOp (phase : ClosePhase) : CloseOp :=
  { closing := closing, early := false, phase := phase, bMax := 2600, vMin := 5000, tareValid := true, read := [], damaged := false,
    todo := [], returned := [], header := none, vehicles := none, cut := false }
def working : State := { State.reset with rbu.closeOp := some (closeOp .grouping) }

/-- The part with every header in use and its one record held, under KEEP_OLD. -/
def fullStore : State :=
  { working with
    trs.headers := (List.range 32).map fun k => (k, .allocated)
    trs.records := [record 9]
    settings := [(91, 1)] }

def zeros : List Sample := List.replicate 20 0
def quietInputs : Inputs := ⟨⟨⟨false, false⟩, ⟨false, false⟩⟩, ⟨false, false⟩, false, false, false⟩
def checking : State := { State.reset with startCheck := true, trs.marker := .absent }

/-! ### Well-formedness -/

theorem test_wf_refuses_wide_stamp : Instr.wellFormed (.headOn .one .a (2 ^ 48)) = false := by decide
theorem test_wf_refuses_short_write : Instr.wellFormed (.sampleWrite [1]) = false := by decide
theorem test_wf_refuses_request_without_start : Instr.wellFormed (.requestPeriod .rp [0x00]) = false := by decide
theorem test_wf_refuses_read_with_start : Instr.wellFormed (.readPeriodEnd .rp [0xA5]) = false := by decide
theorem test_wf_accepts : Instr.wellFormed (.headOn .one .a (2 ^ 48 - 1)) = true := by decide

/-! ### Shared computations, against the spec's worked examples -/

/-- The check value of the CRC of R181 with its initial value FFFFh over the digits 1 to 9. -/
theorem test_crc : crc16 [0x31, 0x32, 0x33, 0x34, 0x35, 0x36, 0x37, 0x38, 0x39] = 0x29B1#16 := by decide +kernel

/-- 1.2: Δt 45,000, 800,000 and 11,000 at D = 1000. -/
theorem test_speed : speedOf 1000 45000 50 = (800, .valid) ∧ speedOf 1000 800000 50 = (45, .lowSpeed) ∧
    speedOf 1000 11000 50 = (3000, .over) := by decide +kernel

/-- 3.2: the UP wheel's window and gate. -/
theorem test_windows : gateOf .up 10000000 45000 1000 1500 3900 = (40270, 40702) ∧
    gateOf .up 10000000 45000 1000 (-900) (-700) = (39838, 39874) := by decide +kernel

/-- 2.5: sums of 12,832, −96 and −100. -/
theorem test_tare : tareOf [(0, 12832)] 0 = 201 ∧ tareOf [(0, BitVec.ofInt 16 (-96))] 0 = -1 ∧
    tareOf [(0, BitVec.ofInt 16 (-100))] 0 = -2 := by decide +kernel

/-- 2.2: sample 40,270 lies in column 2254. -/
theorem test_rolling_column : rollingColumn 40270 = 2254 := by decide

/-- 5.3: imbalances 2, 148 and 41, and a coverage of 35. -/
theorem test_imbalance : imbalanceOf 5880 5910 = 2 ∧ imbalanceOf 2410 1788 = 148 ∧ imbalanceOf 2090 1925 = 41 ∧
    1 * 1000 / (2 * 14) = 35 := by decide

/-- 5.3: the spacings of the example group into bogies of 3, 3, 2, 2, 2, 2 and vehicles of 6, 4 and 4 axles. -/
theorem test_grouping :
    let l := [0, 1900, 1900, 8200, 1900, 1900, 3100, 1800, 9500, 1800, 2700, 1800, 9500, 1800].map fun k =>
      (⟨0, { blankAxle with spacing := k }⟩ : HandAxle)
    (bogies 2600 l).map List.length = [3, 3, 2, 2, 2, 2] ∧ (vehicles 5000 (bogies 2600 l)).map List.length = [6, 4, 4] := by
  decide +kernel

/-- 8.3: a peak at 90,600 gives [90,500, 91,011], at 91,000 [90,744, 91,255]. -/
theorem test_source_range : sourceRange { job with ls := 90500, le := 91699 } (some 90600) = (90500, 512) ∧
    sourceRange { job with ls := 90500, le := 91699 } (some 91000) = (90744, 512) := by decide

/-- 3.5: rounding of the example's sums to 549, 745 and 635. -/
theorem test_rounding : round65536 35955555 = 549 ∧ round65536 48800000 = 745 ∧ round65536 41615360 = 635 := by decide

/-! ### Commands -/

theorem test_headOn_begins_crossing :
    ((after (.headOn .one .a 10000000) armed).ts.one.pending, (after (.headOn .one .a 10000000) armed).ts.one.stuck.one)
      = (some (.a, 10000000), some 15000000) := by decide +kernel

theorem test_headOn_opens_train :
    let s := after (.headOn .one .b 10045000) { armed with ts.one.pending := some (.a, 10000000) }
    (s.ts.one.mode, s.tas.opens.one.map fun t => (t.number, t.dir, t.openCount),
      (look s.trs.axles 0).map fun a => (a.index, a.dt, a.speed)) =
      (.passing, some (1, .up, 10000000), some (1, 45000, 800)) := by decide +kernel

theorem test_headOff_stops_stuck :
    (after (.headOff .one .a 9) (track1 fun q => { q with stuck := ⟨some 5, some 6⟩ })).ts.one.stuck = ⟨none, some 6⟩ := by
  decide +kernel

theorem test_approach_wakes :
    let s := after (.approachPulse .one 9) (track1 fun q => { q with mode := .dormant })
    (s.ts.one.mode, s.cac.refresh.one) = (.arming, some ⟨1, 0⟩) := by decide +kernel

theorem test_occupancyClear_settles :
    let s := after (.occupancyClear .one 9) { passing (train [] 1) with ts.one.tStand := some 5 }
    (s.ts.one.tStand, s.ts.one.tSettle) = (none, some 1000009) := by decide +kernel

theorem test_occupancyOccupied_stands :
    let s := after (.occupancyOccupied .one 9) { passing (train [] 1) with ts.one.tSettle := some 5 }
    (s.ts.one.tStand, s.ts.one.tSettle, s.ts.one.occupied) = (some 8000009, none, true) := by decide +kernel

theorem test_settle_closes_normal :
    let s := after (.tSettleExpiry .one) { passing (train [] 1) with ts.one.tSettle := some 5 }
    (s.ts.one.mode, s.tas.opens.one, s.tas.closing.map (·.reason)) = (.arming, none, [.normal]) := by decide +kernel

theorem test_end_withdraws_empty_train :
    let s := after (.tEndExpiry .one) { passing (train [] 0) with ts.one.tEnd := some 5 }
    (s.tas.closing, s.tas.withdrawn) = ([], 1) := by decide +kernel

theorem test_stand_to_standstill :
    let s := after (.tStandExpiry .one) { passing (train [] 1) with ts.one.tStand := some 5 }
    (s.ts.one.mode, s.ts.one.tAbandon) = (.standstill, some 1800000005) := by decide +kernel

theorem test_abandon_closes :
    (after (.tAbandonExpiry .one) { passing (train [] 1) with ts.one.mode := .standstill, ts.one.tAbandon := some 5 }).tas.closing.map
      (·.reason) = [.abandoned] := by decide +kernel

theorem test_dormant_needs_setting :
    (after (.tDormantExpiry .one) { armed with ts.one.tDormant := some 5 }).ts.one.mode = .armed ∧
    (after (.tDormantExpiry .one) { armed with ts.one.tDormant := some 5, settings := [(7, 1)] }).ts.one.mode = .dormant := by
  decide +kernel

theorem test_retare_refreshes :
    let s := after (.tRetareExpiry .one) { armed with ts.one.tRetare := some 5 }
    (s.ts.one.mode, s.cac.refresh.one) = (.arming, some ⟨1, 0⟩) := by decide +kernel

theorem test_stuck_faults :
    let s := after (.stuckTimerExpiry .one .b) { armed with ts.one.stuck := ⟨none, some 5⟩ }
    (s.ts.one.mode, s.ts.one.faultHead, s.alm.list.map fun a => (a.severity, a.value, a.reason)) =
      (.fault, some .b, [(.alert, 2, .stuckHead)]) := by decide +kernel

theorem test_recovery_leaves_fault :
    (after (.faultRecoveryExpiry .one) (track1 fun q => { q with mode := .fault, recovery := some 5 })).ts.one.mode = .arming := by
  decide +kernel

theorem test_sampleWrite_column :
    let s := after (.sampleWrite (7 :: zeros.tail)) State.reset
    (s.cac.newest, s.cac.count, s.cac.mem, s.cac.refresh.one) = (1, 250, [(0, 7), (65, 7)], some ⟨1, 1⟩) := by decide +kernel

theorem test_refreshComplete_arms :
    let s := after (.refreshComplete .one zeros) { State.reset with cac.newest := 63, cac.refresh := ⟨some ⟨1, 63⟩, none⟩ }
    (s.ts.one.mode, s.cac.tareValid, s.ts.one.tDormant) = (.armed, ⟨true, false⟩, some (16000 + 60000000)) := by
  decide +kernel

theorem test_jobTake_prefers_live :
    let s := after .jobTake { State.reset with aee.queue := [service, { job with le := 0, bs := 0, be := 0 }] }
    (s.aee.queue, s.aee.inFlight.map (·.job.owner)) = ([service], some (.live 5 0 1)) := by decide +kernel

theorem test_liveJob_delivers :
    let s := after (.liveJobComplete 9) (flying job false)
    ((s.axle 0).rails.one.static, (s.axle 0).bearingMark, s.aee.inFlight, s.alm.list.map fun a => (a.key.kind, a.severity)) =
      (549, .alert, none, [(.wheelImpact, .watch), (.bearingHot, .alert)]) := by decide +kernel

theorem test_discarded_job_is_dropped :
    let s := after (.liveJobComplete 9) (flying job true)
    (s.aee.discards, (s.axle 0).rails.one.loadClass) = (1, .pending) := by decide +kernel

theorem test_serviceJob_answers :
    statusAfter (.serviceJobComplete 9)
      { flying service false with ptu.sp.slot := .pending 7 (.evaluateSnapshot 1 7680 7700 0 0 45000 0) true } .sp =
      some .done := by decide +kernel

theorem test_copyEnd_completes :
    let s := after (.snapshotCopyEnd 9)
      { State.reset with wat.copy := some ⟨0, 0, 7680, [(7680, List.replicate 20 3)]⟩, wat.snapshot := ⟨.copying, 0, 1, none⟩ }
    (s.wat.copy, s.wat.snapshot, Memory.read s.cac.mem (cell 19 7680)) = (none, ⟨.complete, 0, 1, some (7680, 7680)⟩, 3) := by
  decide +kernel

theorem test_closeTake_waits_for_jobs :
    let s := { State.reset with tas.closing := [closing], aee.queue := [job] }
    (after .closeTake s = s) ∧ ((s.beginClose closing false).rbu.closeOp.map fun o => (o.bMax, o.vMin, o.phase)) =
      some (2600, 5000, .grouping) := by decide +kernel

theorem test_recordAppend_makes_record :
    let s := after (.recordAppend 9) working
    (s.trs.records.map fun r => (r.number, r.holders), (s.header 0).axleCount, (s.header 0).coverage, s.rbu.made) =
      ([(5, ⟨true, false⟩)], 2, 1000, 1) := by decide +kernel

theorem test_discardedFull_reports :
    let s := after (.discardedFull 9) fullStore
    (s.rbu.discardedFull, s.trs.records.length, s.alm.list.map fun a => (a.severity, a.value, a.reason)) =
      (1, 1, [(.watch, 1000, .level), (.alert, 2, .discardedFull)]) := by decide +kernel

theorem test_take_handshake :
    let s := after (.takeRises 9) (alarmed [alarm 1 .alert .raised true, alarm 2 .alert .raised false] .notified)
    (s.alm.list.map (·.state), s.alm.handshake, (after (.takeFalls 9) s).alm.handshake) =
      ([.seen, .raised], .taken, .notified) := by decide +kernel

theorem test_supplyFail_timers :
    ((after (.supplyFailActive 9) State.reset).sup.failTimer,
      (after (.supplyFailInactive 9) (inMode .reduced .none)).sup.recoveryTimer) = (some 100009, some 2000009) := by
  decide +kernel

theorem test_failTimer_reduces :
    let s := after .failTimerExpiry { passing (train [] 1) with sup.failTimer := some 5 }
    (s.sup.mode, s.tas.opens.one.map (·.power)) = (.reduced, some true) := by decide +kernel

theorem test_recoveryTimer_runs :
    (after .recoveryTimerExpiry { inMode .reduced .none with sup.recoveryTimer := some 5 }).sup.mode = .run := by
  decide +kernel

theorem test_holdup_freezes :
    let s := after (.holdupLowActive 9) (passing (train [] 1))
    (s.sup.mode, s.sup.freeze, s.tas.closing.map (·.reason), s.alm.list.map (·.reason), s.ts.one.mode, s.ts.two.mode) =
      (.frozen, .inProgress, [.power], [.freeze], .armed, .armed) := by decide +kernel

theorem test_freeze_completes_and_leaves :
    let s := after .freezeComplete (inMode .frozen .inProgress)
    (s.sup.freeze, s.trs.marker, s.sup.leaveTimer, (after .leaveTimerExpiry s).sup.mode, (after .leaveTimerExpiry s).trs.marker)
      = (.complete, .consistent, some 2000000, .run, .live) := by decide +kernel

theorem test_holdup_inactive_starts_leave :
    (after (.holdupLowInactive 9) { inMode .frozen .complete with sup.holdupLow := true }).sup.leaveTimer = some 2000009 := by
  decide +kernel

theorem test_start_negates_lines :
    ((after .start (alarmed [alarm 1 .stop .raised false] .notified).driveLines).lines.stop.one,
      (alarmed [alarm 1 .stop .raised false] .notified).driveLines.lines.stop.one) = (false, true) := by decide +kernel

/-- A START check on a blank part with quiet inputs ends in the state after reset. -/
theorem test_start_ends_in_reset : after (.startCheckEnd quietInputs zeros) checking = State.reset := by decide +kernel

theorem test_requestPeriod_takes_frame :
    ((after (.requestPeriod .ap (requestFrame 7 (.alarmRead 1 1))) State.reset).ptu.ap.slot,
      (after (.requestPeriod .ap [0xA5, 0x01]) State.reset).ptu.ap.linkErrors) = (.pending 7 (.alarmRead 1 1) false, 1) := by
  decide +kernel

theorem test_answerFetch_pending :
    (after (.answerFetch .sp) (asks .sp .restart)).ptu.sp.period.map (·.frame) = some ⟨.pending, 7, 25, 1, 1, []⟩ := by
  decide +kernel

theorem test_readPeriod_moves_part :
    let pl : Payload := .permissions (List.replicate 300 7)
    let s := { State.reset with ptu.sp.slot := .answered 7 21 .done pl 1 }
    ((after (.readPeriodEnd .sp (List.replicate 255 0)) s).ptu.sp.slot, (after (.readPeriodEnd .sp [0]) s).ptu.sp.slot) =
      (.answered 7 21 .done pl 2, .answered 7 21 .done pl 1) := by decide +kernel

theorem test_status_sections :
    (statusAfter (.status .rp 9) (asks .rp (.status 9)) .rp, statusAfter (.status .rp 9) (asks .rp (.status 10)) .rp) =
      (some .done, some .badValue) := by decide +kernel

theorem test_recordList_counts :
    (answerOn (after (.recordList .rp 9) (asking stored .rp (.recordList 1))) .rp).map (fun a =>
      match a.2 with
      | .recordList n l => (n, l.map (·.number))
      | _ => (0, [])) = some (1, [9]) := by decide +kernel

theorem test_headerRead_gone :
    (statusAfter (.headerRead .rp 9) (asking stored .rp (.headerRead 9)) .rp,
      statusAfter (.headerRead .rp 9) (asking stored .rp (.headerRead 8)) .rp) = (some .done, some .gone) := by decide +kernel

theorem test_axleRead_counts :
    answerOn (after (.axleRead .rp 9) (asking stored .rp (.axleRead 9 1))) .rp =
      some (.done, .axles 1 0 [{ blankAxle with index := 1 }]) := by decide +kernel

theorem test_vehicleRead_range :
    (statusAfter (.vehicleRead .rp 9) (asking stored .rp (.vehicleRead 9 160)) .rp,
      statusAfter (.vehicleRead .rp 9) (asking stored .rp (.vehicleRead 9 161)) .rp) = (some .done, some .badValue) := by
  decide +kernel

theorem test_release_takes_own_holder :
    ((after (.releaseRecord .ap 9) (asking stored .ap (.releaseRecord 9))).trs.records.map (·.holders),
      statusAfter (.releaseRecord .sp 9) (asking stored .sp (.releaseRecord 9)) .sp) = ([⟨true, false⟩], some .denied) := by
  decide +kernel

theorem test_setSiteTime_pair :
    (after (.setSiteTime .rp 9) (asks .rp (.setSiteTime 1000))).cac.siteTime = some (1000, 9) := by decide +kernel

theorem test_alarmRead_delivers_on_ap :
    let s := alarmed [alarm 1 .watch .raised false, alarm 2 .stop .raised false] .notified
    ((after (.alarmRead .ap 9) (asking s .ap (.alarmRead 1 2))).alm.list.map (·.delivered),
      (after (.alarmRead .sp 9) (asking s .sp (.alarmRead 1 2))).alm.list.map (·.delivered)) =
      ([true, false], [false, false]) := by decide +kernel

theorem test_clearAlarm_number :
    let s := alarmed [alarm 1 .alert .seen true, alarm 2 .alert .raised false] .notified
    ((after (.clearAlarmNumber .ap 9) (asking s .ap (.clearAlarm 0 1))).alm.list.map (·.state),
      statusAfter (.clearAlarmNumber .ap 9) (asking s .ap (.clearAlarm 0 2)) .ap) = ([.cleared, .raised], some .notSeen) := by
  decide +kernel

theorem test_clearAlarm_track :
    answerOn (after (.clearAlarmTrack .ap 9)
      (asking (alarmed [alarm 1 .alert .seen true, alarm 2 .alert .raised false] .notified) .ap (.clearAlarm 1 1))) .ap =
      some (.done, .cleared 1 1) := by decide +kernel

theorem test_clearUnlisted :
    let s := after (.clearUnlisted .ap 9) { asks .ap .clearUnlisted with alm.unlisted := 4 }
    (s.alm.unlisted, answerOn s .ap) = (0, some (.done, .unlisted 4)) := by decide +kernel

theorem test_liveAxleRead_none :
    answerOn (after (.liveAxleRead .sp 9) (asks .sp (.liveAxleRead 2))) .sp = some (.done, .noTrain) := by decide +kernel

theorem test_setWindow_order :
    ((after (.setWindow .sp 9) (asks .sp (.setWindow 0 19 0 8191 1))).cac.window,
      statusAfter (.setWindow .sp 9) (asks .sp (.setWindow 3 2 0 0 0)) .sp) =
      (some ⟨0, 19, 0, 8191, .acrossRows, 0⟩, some .badValue) := by decide +kernel

theorem test_windowRead_wraps :
    let s := after (.windowRead .sp 9)
      { asks .sp (.windowRead 120) with cac.window := some ⟨0, 1, 64, 65, .acrossRows, 1⟩, cac.mem := [(65, 5)] }
    (answerOn s .sp, s.cac.window.map (·.cursor)) =
      (some (.done, .windowRead ⟨1, 3, [0, 5, 0], 0, true, false⟩), some 0) := by decide +kernel

theorem test_windowWrite_ignores_rest :
    let s := after (.windowWrite .sp 9)
      { asks .sp (.windowWrite [4, 5, 6]) with cac.window := some ⟨1, 1, 7680, 7681, .alongRow, 0⟩ }
    (s.cac.mem, answerOn s .sp) = ([(15872, 4), (15873, 5)], some (.done, .windowWrite 2 true)) := by decide +kernel

theorem test_setWatch_arms :
    ((after (.setWatch .sp 9) (asks .sp (.setWatch 3 0 2 0 500 1 0))).wat.state,
      (after (.setWatch .sp 9) (asks .sp (.setWatch 0 0 2 0 500 1 0))).wat.state) = (.armed, .off) := by decide +kernel

theorem test_watchRead : statusAfter (.watchRead .sp 9) (asks .sp .watchRead) .sp = some .done := by decide +kernel

theorem test_releaseWatch_oneShot :
    (after (.releaseWatch .sp 9) { asks .sp .releaseWatch with wat.state := .locked }).wat.state = .off := by decide +kernel

theorem test_evaluateSnapshot_queues :
    let s := after (.evaluateSnapshot .sp 9) (asks .sp (.evaluateSnapshot 1 7680 8000 39800 0 45000 10000000))
    (s.aee.queue.map fun j => (j.ls, j.le, j.bs, j.be, j.ready), answerOn s .sp,
      statusAfter (.evaluateSnapshot .sp 9) (asks .sp (.evaluateSnapshot 1 7780 8000 40000 0 45000 10000000)) .sp) =
      ([(39800, 40120, 39838, 39874, true)], none, some .badValue) := by decide +kernel

theorem test_settingsRead_geometry :
    answerOn (after (.settingsRead .sp 9) (asks .sp (.settingsRead 3 5))) .sp =
      some (.done, .settings [(3, 3900), (4, -800), (5, 200), (6, 1), (7, 0)]) := by decide +kernel

/-- 10.4: the write of four pairs, and of item 12 alone. -/
theorem test_settingsWrite_example :
    (answerOn (after (.settingsWrite .sp 9) (asks .sp (.settingsWrite [(12, 4000), (13, 6000), (71, 1), (84, 20000)]))) .sp,
      statusAfter (.settingsWrite .sp 9) (asks .sp (.settingsWrite [(12, 4000)])) .sp) =
      (some (.done, .settings [(12, 4000), (13, 6000), (71, 2), (84, 15000)]), some .badValue) := by decide +kernel

theorem test_setPermissions_keeps_sp :
    let s := after (.setPermissions .sp 9) (asks .sp (.setPermissions (List.replicate 25 1)))
    (s.setting 101, s.setting 102, s.setting 121) = (5, 1, 4) := by decide +kernel

theorem test_forceClose :
    answerOn (after (.forceClose .sp 9) (asking (passing (train [] 1)) .sp (.forceClose 1))) .sp =
      some (.done, .forceClose (.closed 5)) := by decide +kernel

theorem test_purge_frees :
    let s := after (.purgeRecord .sp 9) (asking stored .sp (.purgeRecord 9))
    (s.trs.records.length, s.trs.axles.length, s.trs.vehicles.length, s.trs.headers.length, s.trs.purges) = (0, 0, 0, 0, 1) := by decide +kernel

theorem test_clearErrorCapture :
    (after (.clearErrorCapture .sp 9)
      { asks .sp .clearErrorCapture with trs.capture := some ⟨false, ⟨.axle, 3, .pool⟩, false⟩ }).trs.capture = none := by
  decide +kernel

theorem test_restart_closes_and_answers :
    let s := after (.restart .sp 9) (asking (asking (passing (train [] 1)) .rp (.headerRead 1)) .sp .restart)
    (s.tas.opens.one, s.rbu.handOver.map (·.reason), answerOn s .rp, answerOn s .sp) =
      (none, [.forced], some (.restarted, .none), some (.done, .none)) := by decide +kernel

/-- R181: a frame with a wrong check, start code or kind, or not whole, is not good; bytes after a whole frame do not matter. -/
theorem test_frames_not_good :
    let f := requestFrame 7 (.alarmRead 1 1)
    (goodFrame (f ++ [0x00])).isSome = true ∧ goodFrame (f.dropLast ++ [f.getLastD 0 + 1]) = none ∧
      goodFrame (0xA4 :: f.tail) = none ∧ goodFrame f.dropLast = none ∧ goodFrame [0xA5, 26, 1, 0, 0, 0] = none := by
  decide +kernel

/-- R14, R25: a head that is ON at the end of the START check has its stuck timer, of 5 s. -/
theorem test_start_begins_stuck :
    (after (.startCheckEnd { quietInputs with heads := ⟨⟨true, false⟩, ⟨false, false⟩⟩ } zeros) checking).ts.one.stuck =
      ⟨some 5000000, none⟩ := by decide +kernel

/-- R32: site time 1000 s set at count 9, read 2.5 s later. -/
theorem test_times : stampAt (some (1000, 9)) 2500009 = ⟨1002, 500, false⟩ ∧ stampAt none 2500009 = ⟨0, 500, true⟩ := by
  decide

/-! ### Witnesses: states and operands that meet the hypotheses of each obligation, clause by clause -/

/-- A part at work: track 1 passing with an open train, one alarm listed, the lines driven. -/
def busy : State :=
  ({ passing (train [] 1) with alm := ⟨[alarm 1 .alert .seen true], 1, .idle, false, 0, 0, 0, 0⟩ } : State).driveLines

/-- A request waits on a port of a part in service, permitted and available. -/
theorem ready (s : State) (p : Port) (r : Request) (h0 : s.startCheck = false) (h1 : s.trs.errors = [])
    (h2 : permitted s p r.row = true) (h3 : available s.sup.mode r = true) : Ready (asking s p r) p 7 r :=
  ⟨h0, h1, by cases p <;> rfl, h2, h3⟩

theorem test_busy_bounded : Bounded busy where
  memory := by decide
  window _ h := by cases h
  count := by decide
  queue := by decide
  depth t _ h := by cases t <;> cases h; decide
  closing := by decide
  op _ h := by cases h
  axles := by unfold poolFits; decide
  vehicles := by unfold poolFits; decide
  headers := by unfold poolFits; decide
  alarms := by decide
  matched := by decide
  copy _ h := by cases h
  lines := by decide

theorem test_busy_supply : SupplyAgrees busy := by constructor <;> decide

theorem test_busy_track (k : Track) : TrackAgrees busy k := by
  cases k <;> constructor <;> decide

theorem test_witness_StepRunsTheFrontCommand :
    ({ busy with pending := [.closeTake, .start] } : State).pending = .closeTake :: [.start] := rfl

theorem test_witness_StepWithNoCommand :
    (checking.pending = [] ∧ checking.startCheck = true) ∧
    eventDue { State.reset with cac.count := 250 } = true ∧ eventDue { State.reset with cac.count := 249 } = false := by
  decide +kernel

theorem test_witness_BoundedKept : Bounded busy ∧ ∃ t, step { busy with pending := [.start] } = .next t :=
  ⟨test_busy_bounded, _, rfl⟩

theorem test_witness_AlarmsDistinctKept : AlarmsDistinct busy ∧ ∃ t, step busy = .next t :=
  ⟨⟨by decide, by decide, by decide, by decide⟩, _, rfl⟩

theorem test_witness_SupplyAgreesKept : SupplyAgrees busy ∧ ∃ t, step busy = .next t := ⟨test_busy_supply, _, rfl⟩

theorem test_witness_TracksAgreeKept : (∀ k, TrackAgrees busy k) ∧ ∃ t, step busy = .next t := ⟨test_busy_track, _, rfl⟩

theorem test_witness_CountNeverRunsBack :
    (∀ inputs samples, Instr.closeTake ≠ .startCheckEnd inputs samples) ∧ ∃ t, exec .closeTake busy = .next t :=
  ⟨fun _ _ h => (by cases h), _, rfl⟩

theorem test_witness_SettingsKept : busy.trs.errors = [] ∧ (∀ p now, Instr.closeTake ≠ .settingsWrite p now) ∧
    (∀ p now, Instr.closeTake ≠ .setPermissions p now) ∧
    (∀ inputs samples, Instr.closeTake ≠ .startCheckEnd inputs samples) ∧ ∃ t, exec .closeTake busy = .next t :=
  ⟨rfl, fun _ _ h => (by cases h), fun _ _ h => (by cases h), fun _ _ h => (by cases h), _, rfl⟩

theorem test_witness_LinesShown : busy.lines = linesOf busy ∧ (after .closeTake busy).startCheck = false ∧
    (after .start busy).startCheck = true := by decide +kernel

/-- A full alarm list: 64 RAISED entries of severity ALERT. -/
def fullList : List AlarmEntry := (List.range 64).map fun k => alarm (k + 1) .alert .raised false

theorem test_full_distinct : AlarmsDistinct (alarmed fullList .notified) :=
  ⟨by decide +kernel, by decide +kernel, by decide +kernel, by decide +kernel⟩

theorem test_witness_JudgementEntered :
    (alarmed fullList .notified).trs.errors = [] ∧ AlarmsDistinct (alarmed fullList .notified) ∧
    (∃ low l, fullList = [] ++ low :: l ∧ low.severity = .alert ∧
      ∀ b ∈ l, sevRank low.severity < sevRank b.severity ∨
        (low.severity = b.severity ∧ stateRank low.state ≤ stateRank b.state)) ∧
    (∀ a ∈ fullList, a.key ≠ uncleanStart.key) ∧ sevRank uncleanStart.severity < sevRank .alert ∧
    sevRank .alert ≤ sevRank (discardAlarm (train [] 1) 1).severity ∧
    (∀ a ∈ fullList, a.key ≠ (discardAlarm (train [] 1) 1).key) ∧
    (∃ a ∈ busy.alm.list, a.key = ⟨some .one, some 1, none, none, .coverage⟩) ∧ busy.alm.list.length < 64 :=
  ⟨rfl, test_full_distinct, ⟨alarm 1 .alert .raised false, fullList.tail, by decide +kernel, rfl, by decide +kernel⟩,
    by decide +kernel, by decide, by decide, by decide +kernel, by decide, by decide⟩

/-- A store of 32 headers that all are in use, with the one record 9 held or released. -/
def crowded (h : Holders) : State :=
  { stored with
    trs.headers := (List.range 32).map fun k => (k, .allocated)
    trs.records := [{ record 9 with holders := h }] }

theorem test_witness_RoomMade :
    headerRoom stored = true ∧ headerRoom (crowded ⟨true, false⟩) = false ∧
    (∀ x ∈ (crowded ⟨true, false⟩).trs.records, x.holders.report = true ∨ x.holders.alarm = true) ∧
    (crowded ⟨true, false⟩).setting itemRetentionPolicy ≠ 1 ∧
    ({ crowded ⟨true, false⟩ with settings := [(91, 1)] } : State).setting itemRetentionPolicy = 1 ∧
    headerRoom { recordGone (crowded ⟨false, false⟩) { record 9 with holders := ⟨false, false⟩ } with trs.reclaims := 1 } =
      true ∧
    headerRoom (State.enterAlarm { recordGone (crowded ⟨true, false⟩) { record 9 with holders := ⟨true, false⟩ } with
        trs.evictions := 1 } ⟨⟨some .one, some 9, none, none, .storeLoss⟩, .watch, 0, 0, .evicted⟩) = true := by
  decide +kernel

theorem test_witness_RequestFramesRead :
    (Request.evaluateSnapshot 255 65535 65535 281474976710655 255 16777215 281474976710655).fits ∧
    (Request.windowWrite (List.replicate 124 0)).fits ∧
    (Request.settingsWrite (List.replicate 41 (65535, 4294967295))).fits ∧
    (Request.setPermissions (List.replicate 25 255)).fits := by
  refine ⟨by unfold Request.fits; decide, by unfold Request.fits; decide +kernel, ⟨by decide, by decide, ?_⟩, by decide, ?_⟩ <;> intro e h <;>
    rw [List.eq_of_mem_replicate h] <;> decide

/-- An axle entry with every field at its greatest. -/
def widest : AxleEntry :=
  { index := 65535, tOffset := 4294967295, dt := 16777215, speed := 65535, speedClass := .damaged, spacing := 65535,
    rails := ⟨⟨65535, 65535, 65535, 65535, .damaged, .over⟩, ⟨65535, 65535, 65535, 65535, .stale, .valid⟩⟩,
    sides := ⟨⟨65535, .absent⟩, ⟨65535, .valid⟩⟩, wheelMark := .stop, bearingMark := .alert, watched := true }

theorem test_witness_AxleEntryLayout :
    (widest.index < 65536 ∧ widest.tOffset < 4294967296 ∧ widest.dt < 16777216 ∧ widest.speed < 65536 ∧
      widest.spacing < 65536) ∧
    (∀ r, (widest.rails.get r).static < 65536 ∧ (widest.rails.get r).peak < 65536 ∧ (widest.rails.get r).impact < 65536 ∧
      (widest.rails.get r).ratio < 65536) ∧ ∀ sd, (widest.sides.get sd).rise < 65536 := by
  refine ⟨by decide, ?_, ?_⟩ <;> intro r <;> cases r <;> decide

/-- A time, a vehicle entry, a header and an alarm entry with fields at the ends of their sizes. -/
theorem test_witness_AxleEntryLayout_others :
    timeFits ⟨4294967295, 999, true⟩ ∧
    (let v : VehicleEntry := ⟨160, 65535, 65535, 4294967295, 4294967295, 4294967295, 1000, true, .stop, true⟩
     v.index < 256 ∧ v.first < 65536 ∧ v.count < 65536 ∧ v.sum1 < 4294967296 ∧ v.gross < 4294967296 ∧ v.imbalance < 65536) ∧
    (let h := { blankHeader with number := 65535, phantoms := 4294967295, vehicleCount := 160, gross := 4294967295 }
     h.number < 65536 ∧ h.phantoms < 4294967296 ∧ h.vehicleCount < 256 ∧ h.gross < 4294967296 ∧ timeFits h.openTime) ∧
    (let a := { alarm 65535 .stop .raised true with value := 4294967295, level := 65535 }
     a.number < 65536 ∧ a.key.train.getD 0 < 65536 ∧ a.value < 4294967296 ∧ a.level < 65536 ∧ timeFits a.first) := by
  unfold timeFits; decide

/-- A close operation of a train of one axle entry. -/
def axleOp (phase : ClosePhase) : CloseOp :=
  { closeOp phase with
    closing := ⟨train [⟨0, 0⟩] 0, .normal, noTime⟩
    read := if phase = .grouping then [] else [⟨0, blankAxle⟩] }

theorem test_witness_CloseWorkGoesOn :
    ((axleOp .grouping).closing.train.stack[(axleOp .grouping).read.length]? = some ⟨0, 0⟩ ∧
      (closeOp .grouping).closing.train.stack.length ≤ (closeOp .grouping).read.length) ∧
    ({ axleOp .judging with todo := closeJudgements (axleOp .judging) }.todo.length = 3) ∧
    ((axleOp .recording).header = none ∧ lowestFree working.trs.headers 32 = some 0 ∧
      lowestFree fullStore.trs.headers 32 = none ∧ fullStore.setting itemRetentionPolicy = 1) ∧
    (rising working.trs.vehicles = true ∧ (∀ e ∈ working.trs.vehicles, e.1 < 1024) ∧
      (mergeFrom 160 (vehicles 2600 (bogies 5000 (axleOp .recording).read))).length ≤ 1024 - working.trs.vehicles.length) ∧
    ∀ r ∈ fullStore.trs.records, r.holders.report = true ∨ r.holders.alarm = true := by decide +kernel

/-- A train's bearings with four VALID of side 1, the number from which the side mean is formed. -/
theorem test_witness_TotalsAndJudgements :
    let l := List.replicate 4 (⟨0, { blankAxle with sides := ⟨⟨6, .valid⟩, ⟨6, .valid⟩⟩ }⟩ : HandAxle)
    4 ≤ (validRises .one l).length ∧ (validRises .one l.tail).length < 4 ∧ 0 < (totalsOf l 0).axleCount ∧
      (vehicleOf 1 l).gross = 0 ∧
      0 < (vehicleOf 1 [⟨0, { blankAxle with rails := results.rails }⟩]).gross := by decide +kernel

theorem test_witness_SteadyWheel_bearing :
    let read : Reader := fun _ _ => 1
    (∀ k : Int, job.bs ≤ k → k ≤ job.be → (read 8 k).toInt ≤ 1) ∧
      (∃ k, job.bs ≤ k ∧ k ≤ job.be ∧ (read 8 k).toInt = 1) ∧ (List.replicate 10 16384).getD 8 0 ≠ 0 :=
  ⟨fun _ _ _ => Int.le_refl 1, ⟨0, by decide, by decide, rfl⟩, by decide⟩

/-- A window of 16 samples whose greatest zone sum, 16384, is first reached at sample 2. -/
theorem test_witness_SteadyWheel_general :
    let v : TakeValues := ⟨List.replicate 10 0, 16384 :: List.replicate 9 0, true, 1, 0⟩
    let read : Reader := fun _ k => if 2 ≤ k then 1 else 0
    let f := zoneAt v read .one
    f 2 = 16384 ∧ (∀ k : Int, f k ≤ 16384) ∧ ∀ k : Int, k < 2 → f k < 16384 := by
  have h : ∀ k : Int, zoneAt ⟨List.replicate 10 0, 16384 :: List.replicate 9 0, true, 1, 0⟩
      (fun _ k => if 2 ≤ k then 1 else 0) .one k = if 2 ≤ k then 16384 else 0 := by
    intro k; by_cases hk : 2 ≤ k <;> simp [zoneAt, hk] <;> decide
  refine ⟨by decide, fun k => ?_, fun k hk => ?_⟩
  · show zoneAt _ _ _ k ≤ 16384
    rw [h]; split <;> omega
  · show zoneAt _ _ _ k < 16384
    rw [h, if_neg (by omega)]; omega

/-- Four gains of 16384 and samples of 1 give a zone sum of 65536 at each of 16 samples. -/
theorem test_witness_SteadyWheel :
    let v : TakeValues := ⟨List.replicate 10 0, List.replicate 10 16384, true, 1, 0⟩
    let j : Job := { job with ls := 0, le := 15 }
    v.tareValid = true ∧ windowLength j = 16 ∧
    (∀ k : Int, zoneSum v (fun _ _ => 1) .one k = 65536 ∧
      ∀ i ∈ activeRows v .one, saturated ((fun _ _ => 1 : Reader) i k) = false) ∧
    ((65536 : Int) + 32768) / 65536 = 1 := by
  refine ⟨rfl, by decide, fun k => ⟨?_, ?_⟩, by decide⟩
  · show ((activeRows _ .one).map fun i => ((1 : Sample).toInt - (List.replicate 10 (0 : Int)).getD i 0) *
      ((List.replicate 10 16384).getD i 0 : Nat)).sum = 65536
    decide
  · intro i _; show saturated (1 : Sample) = false
    decide

theorem test_witness_HeadEvents_off : armed.ts.one.mode ≠ .fault ∧
    (let s := track1 fun q => { q with mode := .fault, heads := ⟨true, true⟩ }
     (s.ts.one.heads.set (headIx .a) false).two = true) ∧
    (let s := track1 fun q => { q with mode := .fault, heads := ⟨true, false⟩ }
     (s.ts.one.heads.set (headIx .a) false).one = false ∧ (s.ts.one.heads.set (headIx .a) false).two = false) := by
  decide

theorem test_witness_HeadEvents_on : (armed.startCheck = false ∧ armed.trs.errors = [] ∧ armed.ts.one.pending = none) ∧
    (let s := track1 fun q => { q with mode := .dormant }
     s.ts.one.mode = .dormant ∧ s.ts.one.pending = none ∧ s.sup.mode = .run) ∧
    (let s := track1 fun q => { q with mode := .dormant, pending := some (.a, 0) }
     s.ts.one.mode = .dormant ∧ s.ts.one.pending = some (Head.a, 0)) ∧
    (track1 fun q => { q with mode := .fault }).ts.one.mode = .fault ∧
    ({ armed with ts.one.pending := some (.a, 10) } : State).ts.one.pending = some (Head.a, 10) ∧
    (let s := { inMode .frozen .complete with ts := ⟨{ Sequencer.start with mode := .armed, pending := some (.a, 10) }, Sequencer.start⟩ }
     s.sup.mode = .frozen ∧ s.ts.one.pending = some (Head.a, 10) ∧ Head.a ≠ Head.b) ∧
    (let s := { inMode .frozen .complete with ts := ⟨{ Sequencer.start with mode := .dormant, pending := some (.a, 10) }, Sequencer.start⟩ }
     s.sup.mode = .frozen ∧ s.ts.one.mode = .dormant ∧ s.ts.one.pending = some (Head.a, 10)) := by decide

theorem test_crosses (m : TrackMode) :
    Crosses { armed with ts.one.mode := m, ts.one.pending := some (.a, 10) } .one .b .a 10 :=
  ⟨rfl, rfl, by show DeviceMode.run ≠ .frozen; decide, rfl, by decide⟩

/-- The pool full of entries: of one held record, of one released record, or of none. -/
def noAxle (l : List RecordDir) : State := { State.reset with trs.axles := (List.range 4096).map fun k => (k, blankAxle), trs.records := l }

theorem test_witness_CrossingOpensTrain :
    Crosses { armed with ts.one.mode := .armed, ts.one.pending := some (.a, 10) } .one .b .a 10 ∧
    Crosses { armed with ts.one.mode := .dormant, ts.one.pending := some (.a, 10) } .one .b .a 10 ∧
    [1].length < 65535 ∧ nextNumber [1] 1 65535 = 2 ∧ lowestFree (armed.makeRoom oneAxle).trs.axles 4096 = some 0 :=
  ⟨test_crosses .armed, test_crosses .dormant, by decide +kernel⟩

theorem test_witness_CrossingJoinsTrain :
    Crosses { armed with ts.one.mode := .passing, ts.one.pending := some (.a, 10) } .one .b .a 10 ∧
    Crosses { armed with ts.one.mode := .standstill, ts.one.pending := some (.a, 10) } .one .b .a 10 :=
  ⟨test_crosses .passing, test_crosses .standstill⟩

theorem test_witness_ForwardCrossing :
    let c : Crossing := ⟨.up, 45000, 10⟩
    c.dir = (train [] 1).dir ∧ 0 < (train [] 1).phantoms ∧
      512 ≤ (train (List.replicate 512 ⟨0, 0⟩) 0).stack.length ∧ (train (List.replicate 511 ⟨0, 0⟩) 0).stack.length < 512 ∧
      lowestFree ((noAxle []).makeRoom oneAxle).trs.axles 4096 = none ∧
      lowestFree ({ noAxle [record 9] with settings := [(91, 1)] }.makeRoom oneAxle).trs.axles 4096 = none ∧
      lowestFree ((noAxle [{ record 9 with holders := ⟨false, false⟩ }]).makeRoom oneAxle).trs.axles 4096 = some 3 ∧
      lowestFree ((noAxle [record 9]).makeRoom oneAxle).trs.axles 4096 = some 3 := by decide +kernel

theorem test_witness_ReverseCrossing :
    let c : Crossing := ⟨.down, 45000, 10⟩
    c.dir ≠ (train [] 1).dir ∧ (passing (train [] 1)).tas.opens.get .one = some (train [] 1) ∧ (train [] 0).stack = [] ∧
      (train [⟨0, 1⟩, ⟨1, 2⟩] 0).stack = [⟨0, 1⟩] ++ [⟨1, 2⟩] ∧
      ((flying job false).aee.inFlight.map fun f => isJobFor 0 f.job) = some true := by decide

theorem test_witness_ApproachAndOccupancy_pulse :
    (let s := track1 fun q => { q with mode := .dormant }
     s.startCheck = false ∧ s.trs.errors = [] ∧ s.ts.one.mode = .dormant ∧ s.sup.mode = .run) ∧
    (let s := { inMode .reduced .none with ts := ⟨{ Sequencer.start with mode := .dormant }, Sequencer.start⟩ }
     s.ts.one.mode = .dormant ∧ s.sup.mode ≠ .run) ∧
    armed.ts.one.mode = .armed ∧ State.reset.ts.one.mode = .arming := by decide

theorem test_witness_ApproachAndOccupancy_levels :
    ({ State.reset with settings := [(6, 0)] } : State).setting (itemFitted .one) ≠ 1 ∧
    (track1 fun q => { q with mode := .fault }).ts.one.mode = .fault ∧
    busy.setting (itemFitted .one) = 1 ∧ busy.ts.one.mode = .passing := by decide

theorem test_witness_CloseTimersExpire :
    let s := { passing (train [] 1) with ts.one.tSettle := some 5, ts.one.tEnd := some 6, ts.one.tAbandon := some 7 }
    s.sup.mode = .run ∧ s.ts.one.mode = .passing ∧ s.tas.opens.one = some (train [] 1) ∧ s.ts.one.tSettle = some 5 ∧
      s.ts.one.tEnd = some 6 ∧ s.ts.one.tAbandon = some 7 := by decide

theorem test_witness_ModeTimersExpire :
    ({ busy with ts.one.tStand := some 5 } : State).ts.one.mode = .passing ∧
    (let s := { armed with ts.one.tDormant := some 5, ts.one.tRetare := some 5, settings := [(7, 1)] }
     s.ts.one.mode = .armed ∧ s.setting (itemDormancy .one) = 1 ∧ s.sup.mode = .run) ∧
    armed.setting (itemDormancy .one) ≠ 1 := by decide

/-- The alarm of track 1's detector fault already listed. -/
theorem test_witness_FaultTimersExpire_listed :
    let s := { alarmed [{ alarm 1 .watch .seen true with key := ⟨some .one, none, none, none, .detectorFault⟩ }] .idle with
      ts := ⟨{ Sequencer.start with mode := .armed, stuck := ⟨none, some 5⟩ }, Sequencer.start⟩ }
    s.ts.one.stuck.get (headIx .b) = some 5 ∧ s.ts.one.mode ≠ .fault ∧
      ∃ a ∈ s.alm.list, a.key = ⟨some .one, (s.tas.opens.get .one).map (·.number), none, none, .detectorFault⟩ := by decide

theorem test_witness_FaultTimersExpire :
    (let s := { armed with ts.one.stuck := ⟨some 5, none⟩ }
     s.ts.one.stuck.get (headIx .a) = some 5 ∧ s.ts.one.mode ≠ .fault ∧ s.alm.list.length < 64) ∧
    (let s := track1 fun q => { q with mode := .fault, recovery := some 5, heads := ⟨true, false⟩ }
     s.ts.one.recovery = some 5 ∧ s.ts.one.mode = .fault ∧ s.setting (itemFitted .one) = 1 ∧
      s.ts.one.occupied = false) := by decide

theorem test_witness_SamplesAndRefresh_write : busy.startCheck = false ∧ zeros.length = 20 ∧ (∀ t, TrackAgrees busy t) ∧
    busy.cac.refresh.get .two = some ⟨1, 0⟩ ∧ busy.cac.newest + 1 = 1 + 0 ∧ busy.cac.refresh.get .one = none :=
  ⟨rfl, rfl, test_busy_track, rfl, rfl, rfl⟩

/-- One track's refresh completes alone, or both tracks' at once, at the sample after the 63rd. -/
theorem test_witness_SamplesAndRefresh_end :
    let s := { State.reset with cac.newest := 63, cac.refresh := ⟨some ⟨1, 63⟩, none⟩ }
    let both := { State.reset with cac.newest := 63, cac.refresh := ⟨some ⟨1, 63⟩, some ⟨1, 63⟩⟩ }
    (s.cac.refresh.get .one = some ⟨1, 63⟩ ∧ s.cac.newest + 1 = 1 + 63 ∧ s.cac.refresh.get .two = none) ∧
    ∀ t, both.cac.refresh.get t = some ⟨1, 63⟩ ∧ both.cac.newest + 1 = 1 + 63 :=
  ⟨⟨rfl, rfl, rfl⟩, fun t => by cases t <;> exact ⟨rfl, rfl⟩⟩

theorem test_witness_JobTaken :
    let j := { job with ls := 10, le := 6009 }
    windowLength j = 6000 ∧ j.speedClass ≠ .lowSpeed ∧ present 7620 j.ls = true ∧ present 7620 j.bs = false ∧
    present 7615 j.bs = true ∧
    ([j].find? fun j => isLive j && j.ready) = some j ∧ ([service].find? fun j => isLive j && j.ready) = none ∧
    ([service].find? fun j => !isLive j && j.ready) = some service ∧ State.reset.settingNat 21 = 0 ∧
    ({ State.reset with settings := [(21, 5)] } : State).settingNat 21 ≠ 0 := by decide +kernel

/-- Places and sample numbers of both kinds of job, and gains with which both rails are evaluated, one alone, and neither. -/
theorem test_witness_JobTaken_read :
    job.owner = .live 5 0 1 ∧ (0 : Int) ≤ 0 ∧ service.owner = .service .sp 7680 7700 0 ∧
    (let gains (s : State) : List Nat := (trackRows job.track).map fun r => s.settingNat (21 + r)
     let both := gains { State.reset with settings := [(21, 5), (25, 5)] }
     let one := gains { State.reset with settings := [(21, 5)] }
     both.getD 0 0 ≠ 0 ∧ both.getD 4 0 ≠ 0 ∧ one.getD 0 0 ≠ 0 ∧ (∀ i, i < 4 → one.getD (i + 4) 0 = 0) ∧
      ∀ i, i < 8 → (gains State.reset).getD i 0 = 0) := by decide +kernel

/-- A watch on the static load of rail 1, at least some value. -/
def heavier (value : Nat) (st : WatchState) : State :=
  { flying job false with wat := { Watch.start with state := st, cond := ⟨.both, .static, .one, .atLeast, value, .oneShot, true⟩ } }

theorem test_witness_TakeCheckCompletes :
    let s := { flying job false with aee.inFlight := none, aee.queue := [job] }
    (s.aee.inFlight = none ∧ s.wat.state = .off ∧ (s.aee.queue.find? fun j => isLive j && j.ready) = some job ∧
      look s.trs.axles 0 = some { blankAxle with index := 1 }) ∧
    6000 < windowLength { job with le := 6000 } ∧ present 7616 job.ls = false ∧
    (heavier 549 .armed).wat.state ≠ .off ∧ watchesTrack (heavier 549 .armed).wat.cond .one = true := by decide +kernel

theorem test_witness_TakeCheckCompletes_service :
    let slow : Job := { service with speedClass := .lowSpeed }
    let s := { State.reset with aee.queue := [slow], ptu.sp.slot := .pending 7 .restart true }
    s.startCheck = false ∧ s.trs.errors = [] ∧ s.aee.inFlight = none ∧
    (∀ j ∈ s.aee.queue, isLive j = true → j.ready = false) ∧
    (s.aee.queue.find? fun j => !isLive j && j.ready) = some slow ∧ slow.owner = .service .sp 7680 7700 0 ∧
    s.ptu.sp.slot = .pending 7 .restart true ∧ slow.speedClass = .lowSpeed := by decide

theorem test_witness_JobCompletes :
    ((flying job true).aee.inFlight.map (·.discard)) = some true ∧
    ((flying job false).wat.state = .off ∧ look (flying job false).trs.axles 0 = some { blankAxle with index := 1 }) ∧
    watchesTrack { State.reset.wat.cond with tracks := .t2 } job.track = false ∧
    (let s := { flying service false with ptu.sp.slot := .pending 7 .restart true }
     s.ptu.sp.slot = .pending 7 .restart true) ∧
    ∀ tag r, (flying service false).ptu.sp.slot ≠ .pending tag r true :=
  ⟨rfl, ⟨rfl, rfl⟩, rfl, rfl, fun _ _ h => (by cases h)⟩

theorem test_witness_WatchMatches :
    let tested := { blankAxle with index := 1, rails := results.rails, sides := results.sides }
    Matches (heavier 549 .armed).wat.cond tested ∧ ¬ Matches (heavier 550 .armed).wat.cond tested ∧
    (heavier 549 .armed).wat.state = .armed ∧ (heavier 549 .locked).wat.state = .locked ∧
    look (heavier 549 .armed).trs.axles 0 = some { blankAxle with index := 1 } ∧
    (heavier 549 .armed).aee.inFlight = some ⟨job, taken, results, false⟩ ∧ job.owner = .live 5 0 1 ∧
    (heavier 549 .armed).wat.cond.tracks = .both := by
  refine ⟨⟨.one, fun _ => rfl, fun h => (by cases h), .inl rfl, by decide⟩, ?_, rfl, rfl, rfl, rfl, rfl, rfl⟩
  rintro ⟨sd, h, -, -, h550⟩
  cases h rfl
  exact absurd h550 (by decide)

theorem test_witness_SnapshotCopyEnds :
    ({ busy with wat.copy := some ⟨0, 0, 7680, []⟩ } : State).wat.copy = some ⟨0, 0, 7680, []⟩ := rfl

/-- The columns still to be written of a copy, the first and the last of the snapshot area. -/
def lastColumns : List (Nat × List Sample) := [(7680, zeros), (8191, zeros)]

theorem test_witness_SnapshotCopyEnds_columns :
    (∀ x ∈ lastColumns, 7680 ≤ x.1 ∧ x.1 < 8192) ∧ (lastColumns.map (·.1)).Nodup ∧ (8191, zeros) ∈ lastColumns ∧
      ∀ x ∈ lastColumns, x.1 ≠ 64 := by decide

theorem test_witness_CloseTaken :
    State.reset.rbu.closeOp = none ∧ ({ State.reset with rbu.handOver := [closing] } : State).rbu.handOver = closing :: [] ∧
    (let s := { State.reset with tas.closing := [closing] }
     s.rbu.handOver = [] ∧ s.tas.closing = closing :: [] ∧ jobCount s 5 = 0 ∧
      jobCount { s with aee.queue := [job] } 5 = 1) := by decide

/-- The full store with its oldest record released by both ports. -/
def fullReleased : State :=
  { fullStore with
    trs.records := fullStore.trs.records.zipIdx.map fun r => if r.2 = 0 then { r.1 with holders := ⟨false, false⟩ } else r.1 }

theorem test_sound (phase : ClosePhase) : OpSound (closeOp phase) where
  read := rfl
  grouped _ := rfl
  judged _ := rfl
  header h := absurd rfl h
  vehicles h := absurd rfl h
  place _ h := by cases h

theorem test_witness_RecordMade :
    working.rbu.closeOp = some (closeOp .grouping) ∧ OpSound (closeOp .grouping) ∧ lowestFree working.trs.headers 32 = some 0 ∧
    OpSound { closeOp .recording with header := some 31, vehicles := some [] } ∧
    poolFits working.trs.headers 32 ∧ poolFits working.trs.vehicles 1024 ∧ working.settingNat itemAlarmHoldLevel ≤ 3 ∧
    lowestFree (fullReleased.makeRoom fun x => (lowestFree x.trs.headers 32).isSome).trs.headers 32 = some 0 :=
  ⟨rfl, test_sound _, by decide,
    ⟨rfl, fun _ => rfl, fun _ => rfl, fun _ => rfl, fun _ h => (by cases h), fun k h => (by cases h; decide)⟩,
    by unfold poolFits; decide, by unfold poolFits; decide, by decide, by decide +kernel⟩

theorem test_witness_TrainDiscardedFull :
    fullStore.rbu.closeOp = some (closeOp .grouping) ∧ OpSound (closeOp .grouping) ∧ AlarmsDistinct fullStore ∧
    fullStore.setting itemRetentionPolicy = 1 ∧ lowestFree fullStore.trs.headers 32 = none ∧
    ∀ r ∈ fullStore.trs.records, r.holders.report = true ∨ r.holders.alarm = true :=
  ⟨rfl, test_sound _, ⟨by decide, by decide, by decide, by decide⟩, by decide +kernel⟩

theorem test_witness_TakeHandshake :
    (alarmed [] .notified).alm.handshake = .notified ∧ (alarmed [] .taken).alm.handshake ≠ .notified ∧
    (¬ ∃ a ∈ (alarmed [] .taken).alm.list, a.state = .raised) ∧
    (∃ a ∈ (alarmed [alarm 1 .alert .raised false] .idle).alm.list, a.state = .raised) ∧ busy.alm.handshake = .idle ∧
    busy.alm.takeHigh = false ∧ ∀ a ∈ busy.alm.list, a.state ≠ .raised := by decide

theorem test_witness_FreezeBegins :
    (busy.startCheck = false ∧ busy.sup.mode ≠ .frozen ∧ busy.tas.closing.length ≤ 2 ∧ busy.alm.list.length ≤ 62 ∧
      busy.tas.opens.get .one = some (train [] 1) ∧
      (∀ a ∈ busy.alm.list, a.key ≠ ⟨some .one, some 5, none, none, .supply⟩) ∧
      State.reset.tas.opens = ⟨none, none⟩ ∧ ∃ j ∈ [job], j.owner = .live 5 0 1) ∧ ∀ t, TrackAgrees busy t :=
  ⟨by decide, test_busy_track⟩

/-- Busy with a full Closing List, whose head has a job in the queue and one in flight, a copy and an owed Evaluate Snapshot. -/
def crammed : State :=
  { busy with
    tas.closing := List.replicate 4 { closing with train.number := 4 }
    aee.queue := [{ job with owner := .live 4 1 2 }]
    aee.inFlight := some ⟨{ job with owner := .live 4 0 1 }, taken, results, false⟩
    trs.axles := [(0, blankAxle), (1, blankAxle), (2, blankAxle)]
    wat.copy := some ⟨0, 0, 7680, lastColumns⟩
    ptu.sp.slot := .pending 7 (.evaluateSnapshot 1 7680 7700 0 0 45000 0) true }

theorem test_crammed_track (k : Track) : TrackAgrees crammed k := by
  cases k <;> constructor <;> decide

theorem test_witness_FreezeBegins_overflow :
    crammed.startCheck = false ∧ crammed.trs.errors = [] ∧ crammed.sup.mode ≠ .frozen ∧ (∀ t, TrackAgrees crammed t) ∧
    (∃ j ∈ crammed.aee.queue, j.owner = .live 4 1 2) ∧ look crammed.trs.axles 1 = some blankAxle ∧
    crammed.wat.copy = some ⟨0, 0, 7680, lastColumns⟩ ∧
    crammed.ptu.get .sp = { crammed.ptu.sp with slot := .pending 7 (.evaluateSnapshot 1 7680 7700 0 0 45000 0) true } ∧
    ∀ tag r, (crammed.ptu.get .rp).slot ≠ .pending tag r true :=
  ⟨rfl, rfl, by decide, test_crammed_track, by decide, rfl, rfl, rfl, fun _ _ h => (by cases h)⟩

/-- R70, R88: the freeze's closed train overflows the list; its head is handed over and its jobs are cancelled. -/
theorem test_freeze_overflows :
    let s := after (.holdupLowActive 9) crammed
    (s.tas.closing.length, s.rbu.handOver.length, s.tas.overflows, s.aee.queue, s.aee.inFlight.map (·.discard)) =
      (4, 1, 1, [], some true) ∧
    ((s.axle 0).rails.one.loadClass, (s.axle 1).rails.one.loadClass, (s.axle 2).rails.one.loadClass, s.wat.snapshot.status) =
      (.notMeasured, .notMeasured, .pending, .torn) := by decide +kernel

theorem test_witness_SupplyEvents :
    State.reset.sup.mode = .run ∧ (inMode .reduced .none).sup.mode = .reduced ∧
    (let s := inMode .frozen .complete
     s.sup.mode = .frozen ∧ s.sup.freeze = .complete ∧ s.sup.leaveTimer = none ∧ s.sup.holdupLow = false ∧
      s.sup.supplyFail = false) ∧
    (inMode .frozen .inProgress).sup.freeze ≠ .complete ∧
    ({ State.reset with sup.failTimer := some 100000 } : State).sup.failTimer = some 100000 ∧
    ({ inMode .reduced .none with sup.recoveryTimer := some 5 } : State).sup.recoveryTimer = some 5 := by decide

theorem test_witness_FreezeEnds :
    (let s := inMode .frozen .inProgress
     s.sup.freeze = .inProgress ∧ s.tas.closing = [] ∧ s.rbu.handOver = [] ∧ s.rbu.closeOp = none ∧ s.aee.inFlight = none ∧
      s.sup.holdupLow = false ∧ s.sup.supplyFail = false ∧ s.sup.leaveTimer = none) ∧
    ({ inMode .frozen .inProgress with sup.holdupLow := true } : State).sup.holdupLow = true ∧
    ({ inMode .frozen .complete with sup.leaveTimer := some 5 } : State).sup.leaveTimer = some 5 := by decide

theorem test_witness_StartCheckShutsOut :
    checking.startCheck = true ∧ (∀ p, Instr.closeTake ≠ .answerFetch p) ∧ (∀ p l, Instr.closeTake ≠ .requestPeriod p l) ∧
    (∀ p l, Instr.closeTake ≠ .readPeriodEnd p l) ∧ Instr.closeTake ≠ .start ∧
    ∀ inputs samples, Instr.closeTake ≠ .startCheckEnd inputs samples :=
  ⟨rfl, fun _ h => (by cases h), fun _ _ h => (by cases h), fun _ _ h => (by cases h), fun h => (by cases h),
    fun _ _ h => (by cases h)⟩

theorem test_witness_StartCheckEndsBlank :
    checking.startCheck = true ∧ checking.trs.marker = .absent ∧ zeros.length = 20 := by decide

theorem test_witness_StartCheckEndsKept :
    let live := { stored with startCheck := true }
    live.startCheck = true ∧ live.trs.marker = .live ∧ live.trs.errors = [] ∧ live.alm.list.length < 64 ∧
      ({ live with trs.marker := .consistent } : State).trs.marker = .consistent ∧ ∃ r ∈ live.trs.records, 3 ∈ r.axles := by
  decide

/-- A head ON, HOLDUP_LOW ACTIVE, and a track with its dormancy set. -/
theorem test_witness_StartCheckEnds_cases :
    let inputs : Inputs := { quietInputs with heads := ⟨⟨true, false⟩, ⟨false, false⟩⟩, holdupLow := true }
    let live := { stored with startCheck := true, settings := [(7, 1)] }
    inputs.heads.one.get (headIx .a) = true ∧ inputs.holdupLow = true ∧ live.startCheck = true ∧ live.trs.marker ≠ .absent ∧
      live.setting (itemDormancy .one) = 1 ∧ ∀ k, (∃ r ∈ live.trs.records, k = r.header) → k = 0 := by
  refine ⟨rfl, rfl, rfl, by decide, by decide, fun k h => ?_⟩
  obtain ⟨r, hr, rfl⟩ := h
  cases List.mem_singleton.mp hr
  rfl

theorem test_witness_FramesJudged :
    goodFrame (requestFrame 7 .restart) = some ⟨7, .restart⟩ ∧ (requestFrame 7 .restart).head? = some 0xA5#8 ∧
    goodFrame [0xA5] = none ∧ State.reset.ptu.rp.slot = .empty ∧ (asks .rp .restart).ptu.rp.slot = .pending 7 .restart false ∧
    (let s := { checking with ptu.rp.period := some ⟨⟨.busy, 0, 0, 1, 1, []⟩, .busy⟩ }
     s.startCheck = true ∧ s.ptu.rp.period = some ⟨⟨.busy, 0, 0, 1, 1, []⟩, .busy⟩) := by decide +kernel

theorem test_witness_AnswersCarried :
    checking.startCheck = true ∧ State.reset.ptu.rp.note = none ∧ State.reset.ptu.rp.slot = .empty ∧
    (asks .rp .restart).ptu.rp.slot = .pending 7 .restart false ∧
    ({ State.reset with ptu.rp.note := some (shortFrame .linkError 0 0) } : State).ptu.rp.note =
      some (shortFrame .linkError 0 0) := by decide

theorem test_witness_AnswersCarried_shifted :
    let s := { State.reset with ptu.rp.slot := .answered 7 25 .done .none 1, ptu.rp.period := some ⟨⟨.done, 7, 25, 1, 1, []⟩, .part 1⟩ }
    s.ptu.rp.period = some ⟨⟨.done, 7, 25, 1, 1, []⟩, .part 1⟩ ∧ s.ptu.rp.slot = .answered 7 25 .done .none 1 ∧
      (List.replicate 8 (0 : Byte)).length < 9 + 0 ∧ 9 + 0 ≤ (List.replicate 9 (0 : Byte)).length := by decide

theorem test_witness_DeniedOrMode :
    permitted (asks .rp .restart) .rp 25 = false ∧ permitted (asks .sp .restart) .sp 25 = true ∧
    (asking (inMode .frozen .complete) .sp .restart).sup.mode = .frozen ∧
    permitted (asks .sp (.windowRead 1)) .sp 13 = true ∧ (inMode .reduced .none).sup.mode ≠ .run := by decide +kernel

theorem test_witness_StatusAnswered : Ready (asks .rp (.status 9)) .rp 7 (.status 9) ∧
    Ready (asks .rp (.status 10)) .rp 7 (.status 10) ∧ Ready (asking working .rp (.status 6)) .rp 7 (.status 6) ∧
    (asking working .rp (.status 6)).rbu.closeOp = some (closeOp .grouping) ∧
    sectionValues State.reset 9 = some (.watch ⟨.off, 0, .none⟩) :=
  ⟨ready _ _ _ rfl rfl (by decide) rfl, ready _ _ _ rfl rfl (by decide) rfl, ready _ _ _ rfl rfl (by decide) rfl, rfl, rfl⟩

theorem test_witness_RecordsRead :
    Ready (asking stored .rp (.recordList 32)) .rp 7 (.recordList 32) ∧
    Ready (asking stored .rp (.headerRead 9)) .rp 7 (.headerRead 9) ∧
    Ready (asking stored .rp (.axleRead 9 512)) .rp 7 (.axleRead 9 512) ∧
    Ready (asking stored .rp (.vehicleRead 9 160)) .rp 7 (.vehicleRead 9 160) ∧
    (stored.trs.records = [] ++ record 9 :: [] ∧ findRecord stored 9 = some (record 9)) ∧
    ∀ r ∈ stored.trs.records, r.number ≠ 8 :=
  ⟨ready _ _ _ rfl rfl (by decide) rfl, ready _ _ _ rfl rfl (by decide) rfl, ready _ _ _ rfl rfl (by decide) rfl,
    ready _ _ _ rfl rfl (by decide) rfl, by decide, by decide⟩

theorem test_witness_RecordReleased : Ready (asking stored .ap (.releaseRecord 9)) .ap 7 (.releaseRecord 9) ∧
    findRecord stored 9 = some (record 9) ∧ (record 9).holders.alarm = true ∧ (∀ r ∈ stored.trs.records, r.number ≠ 65535) :=
  ⟨ready _ _ _ rfl rfl (by decide) rfl, by decide, rfl, by decide⟩

theorem test_witness_PurgeCaptureTime : Ready (asking stored .sp (.purgeRecord 9)) .sp 7 (.purgeRecord 9) ∧
    Ready (asks .sp .clearErrorCapture) .sp 7 .clearErrorCapture ∧ Ready (asks .sp (.setSiteTime 5)) .sp 7 (.setSiteTime 5) :=
  ⟨ready _ _ _ rfl rfl (by decide) rfl, ready _ _ _ rfl rfl (by decide) rfl, ready _ _ _ rfl rfl (by decide) rfl⟩

theorem test_witness_AlarmRequests_read : Ready (asks .ap (.alarmRead 1 64)) .ap 7 (.alarmRead 1 64) ∧
    Ready (asks .sp (.alarmRead 2 1)) .sp 7 (.alarmRead 2 1) :=
  ⟨ready _ _ _ rfl rfl (by decide) rfl, ready _ _ _ rfl rfl (by decide) rfl⟩

theorem test_witness_AlarmRequests_clear : Ready (asks .ap (.clearAlarm 0 1)) .ap 7 (.clearAlarm 0 1) ∧
    Ready (asks .ap (.clearAlarm 1 2)) .ap 7 (.clearAlarm 1 2) ∧ Ready (asks .ap .clearUnlisted) .ap 7 .clearUnlisted ∧
    selectedTrack 2 = some (some .two) ∧
    ([alarm 1 .alert .seen true].find? fun a => a.number == 1) = some (alarm 1 .alert .seen true) :=
  ⟨ready _ _ _ rfl rfl (by decide) rfl, ready _ _ _ rfl rfl (by decide) rfl, ready _ _ _ rfl rfl (by decide) rfl, rfl,
    by decide⟩

theorem test_witness_OpenTrainRequests :
    Ready (asking busy .sp (.liveAxleRead 1)) .sp 7 (.liveAxleRead 1) ∧
    Ready (asking busy .sp (.forceClose 2)) .sp 7 (.forceClose 2) ∧ busy.tas.opens.get .one = some (train [] 1) ∧
    busy.tas.opens.get .two = none :=
  ⟨ready _ _ _ rfl rfl (by decide) rfl, ready _ _ _ rfl rfl (by decide) rfl, rfl, rfl⟩

theorem test_witness_WindowRequests_read :
    Ready (asks .sp (.setWindow 19 19 8191 8191 1)) .sp 7 (.setWindow 19 19 8191 8191 1) ∧
    Ready (asks .sp (.windowRead 120)) .sp 7 (.windowRead 120) ∧ windowFits ⟨19, 19, 8191, 8191, .alongRow, 0⟩ ∧
    ({ asks .sp (.windowRead 120) with wat.copy := some ⟨0, 0, 7680, [(7680, zeros)]⟩ } : State).wat.copy =
      some ⟨0, 0, 7680, [(7680, zeros)]⟩ :=
  ⟨ready _ _ _ rfl rfl (by decide) rfl, ready _ _ _ rfl rfl (by decide) rfl, by unfold windowFits; decide, rfl⟩

theorem test_witness_WindowRequests_write :
    Ready (asks .sp (.windowWrite (List.replicate 120 1))) .sp 7 (.windowWrite (List.replicate 120 1)) ∧
    Ready (asks .sp (.windowWrite [])) .sp 7 (.windowWrite []) ∧ windowFits ⟨0, 0, 7680, 7680, .alongRow, 0⟩ ∧
    serviceJobExists State.reset = false ∧ serviceJobExists { State.reset with aee.queue := [service] } = true :=
  ⟨ready _ _ _ rfl rfl (by decide) rfl, ready _ _ _ rfl rfl (by decide) rfl, by unfold windowFits; decide, rfl, rfl⟩

theorem test_witness_WatchRequests :
    Ready (asks .sp (.setWatch 3 7 2 3 65535 1 1)) .sp 7 (.setWatch 3 7 2 3 65535 1 1) ∧
    Ready (asks .sp (.setWatch 4 0 0 0 0 0 0)) .sp 7 (.setWatch 4 0 0 0 0 0 0) ∧
    Ready (asks .sp .watchRead) .sp 7 .watchRead ∧ Ready (asks .sp .releaseWatch) .sp 7 .releaseWatch ∧
    conditionOf 3 7 2 3 65535 1 1 = some ⟨.both, .axleIndex, .either, .notValid, 65535, .repeating, false⟩ ∧
    State.reset.wat.state ≠ .locked ∧ State.reset.wat.pendingCond = none :=
  ⟨ready _ _ _ rfl rfl (by decide) rfl, ready _ _ _ rfl rfl (by decide) rfl, ready _ _ _ rfl rfl (by decide) rfl,
    ready _ _ _ rfl rfl (by decide) rfl, rfl, by decide, rfl⟩

theorem test_witness_SnapshotEvaluated :
    Ready (asks .sp (.evaluateSnapshot 1 7680 8000 39800 0 45000 10000000)) .sp 7
      (.evaluateSnapshot 1 7680 8000 39800 0 45000 10000000) ∧
    (let gate := gateSamples State.reset .one .up 10000000 45000
     7680 ≤ (7680 : Int) + (gate.1 - 39800) ∧ (7680 : Int) + (gate.2 - 39800) ≤ 8191 ∧
      ¬ 7680 ≤ (7680 : Int) + (gate.1 - 39839)) :=
  ⟨ready _ _ _ rfl rfl (by decide) rfl, by decide +kernel⟩

theorem test_witness_SettingsAndPermissions_settings :
    Ready (asks .sp (.settingsRead 125 41)) .sp 7 (.settingsRead 125 41) ∧
    Ready (asks .sp (.settingsWrite [(12, 4000), (13, 6000)])) .sp 7 (.settingsWrite [(12, 4000), (13, 6000)]) ∧
    (PairFits 12 4000 ∧ PairFits 13 6000 ∧ ¬ PairFits 8 0 ∧ ¬ PairFits 94 3) ∧
    GeometryFits (valueAfter State.reset [(12, 4000), (13, 6000)]) .two ∧
    ¬ GeometryFits (valueAfter State.reset [(12, 4000)]) .two ∧ (∃ tr ∈ liveTrains busy, tr.track = .one) ∧
    liveTrains State.reset = [] ∧ readValue 12 4294967295 = -1 :=
  ⟨ready _ _ _ rfl rfl (by decide) rfl, ready _ _ _ rfl rfl (by decide) rfl, by refine ⟨?_, ?_, ?_, ?_⟩ <;> simp [PairFits, settingItem, itemRanges],
    by unfold GeometryFits; decide, by unfold GeometryFits; decide, by decide, rfl, by decide⟩

theorem test_witness_SettingsAndPermissions_map :
    Ready (asks .sp (.setPermissions (List.replicate 25 7))) .sp 7 (.setPermissions (List.replicate 25 7)) ∧
    Ready (asks .sp (.setPermissions (List.replicate 25 8))) .sp 7 (.setPermissions (List.replicate 25 8)) ∧
    (∀ e ∈ List.replicate 25 7, e ≤ 7) ∧ ∃ e ∈ List.replicate 25 8, 7 < e :=
  ⟨ready _ _ _ rfl rfl (by decide) rfl, ready _ _ _ rfl rfl (by decide) rfl, by decide, by decide⟩

theorem test_witness_RestartDone : Ready (asking busy .sp .restart) .sp 7 .restart ∧
    Ready (asking (inMode .reduced .none) .sp .restart) .sp 7 .restart ∧ busy.tas.closing.length ≤ 4 ∧
    Cancelled { busy with aee.queue := [job] } { busy with rbu.handOver := [closing] } 0 ∧
    crammed.wat.copy = some ⟨0, 0, 7680, lastColumns⟩ :=
  ⟨ready _ _ _ rfl rfl (by decide) rfl, ready _ _ _ rfl rfl (by decide) rfl, by decide,
    ⟨5, 1, ⟨train [] 2, by decide, rfl⟩, .inl ⟨job, by decide, rfl⟩⟩, rfl⟩

theorem test_witness_RegionWordsRead :
    let gs : WordError := ⟨.settings, itemGs .one, 0, true, []⟩
    let ge : WordError := ⟨.settings, itemGe .one, 0, true, []⟩
    let s := { State.reset with settings := [(3, 4000)], trs.errors := [gs, ge] }
    itemGs .one ∈ [itemGs .one] ∧ s.trs.errors = [gs, ge] ∧
    spanHolds (fun n => if n = gs.index then settingDefault n else s.setting n) .one ∧
    ¬ spanHolds (fun n => if n = ge.index then settingDefault n else ({ s with settings := [(2, 3950)] } : State).setting n) .one ∧
    (∃ a ∈ (alarmed [alarm 1 .alert .raised false] .notified).alm.list, a.slot = 0) := by
  refine ⟨by decide, rfl, ?_, ?_, by decide⟩ <;> unfold spanHolds <;> decide +kernel

/-- R132: a double error in a word of a FREE axle entry is counted with owner POOL, and frees or fills nothing. -/
theorem test_double_error_in_free_entry :
    let s := State.checkAxle { State.reset with trs.errors := [⟨.axle, 3, 0, true, []⟩] } 3 []
    (s.trs.doubles, s.trs.errors, s.trs.axles, s.alm.list.length) = (1, [], [], 0) ∧
      s.trs.capture.map (·.locus.owner) = some .pool := by decide +kernel

/-- R111: the header written at an append is clean, whatever mark the allocated header carried. -/
theorem test_append_cleans_header :
    (after (.recordAppend 9)
      { working with
        rbu.closeOp := some { closeOp .recording with header := some 0, vehicles := some [] }
        trs.errors := [⟨.header, 0, 0, true, [.trainNumber]⟩] }).trs.errors = [] := by decide +kernel

/-- R91: a train taken from the hand-over list counts as handed over early until its close operation ends. -/
theorem test_held_early :
    heldEarly (State.beginClose State.reset closing true) = 1 ∧ heldEarly (State.beginClose State.reset closing false) = 0 := by
  decide

/-- Settings Read of the word in error, first and last of its range, and Alarm Read of a listed entry in error. -/
theorem test_witness_RegionWordsRead_requests :
    (let e : WordError := ⟨.settings, 71, 0, true, []⟩
     let s := asking { State.reset with settings := [(71, 9)], trs.errors := [e] } .sp (.settingsRead 31 41)
     Awaited s .sp 7 (.settingsRead 31 41) ∧ s.trs.errors = [e] ∧ settingItem 71 = true ∧
      permitted (State.checkSettings (reached s 9) [71]) .sp 19 = true ∧
      Awaited (asking { State.reset with trs.errors := [e] } .sp (.settingsRead 71 1)) .sp 7 (.settingsRead 71 1)) ∧
    (let e : WordError := ⟨.alarm, 0, 0, true, []⟩
     let s (p : Port) := asking { alarmed [alarm 1 .alert .raised false] .notified with trs.errors := [e] } p (.alarmRead 1 64)
     Awaited (s .ap) .ap 7 (.alarmRead 1 64) ∧ Awaited (s .sp) .sp 7 (.alarmRead 1 64) ∧
      ∃ a ∈ (s .ap).alm.list, a.slot = e.index) := by
  unfold Awaited; decide +kernel

theorem test_witness_StoredWordsRead_requests :
    (let e : WordError := ⟨.header, 0, 0, true, []⟩
     let s := asking { stored with trs.errors := [e] } .rp (.headerRead 9)
     Awaited s .rp 7 (.headerRead 9) ∧ findRecord s 9 = some (record 9) ∧ e.index = (record 9).header ∧
      s.trs.records = [] ++ record 9 :: []) ∧
    (Awaited (asking { stored with trs.errors := [⟨.axle, 3, 0, true, []⟩] } .rp (.axleRead 9 1)) .rp 7 (.axleRead 9 1) ∧
      3 ∈ ((record 9).axles.drop (1 - 1)).take 16) ∧
    Awaited (asking { stored with trs.errors := [⟨.vehicle, 2, 0, true, []⟩] } .rp (.vehicleRead 9 1)) .rp 7 (.vehicleRead 9 1) ∧
      2 ∈ ((record 9).vehicles.drop (1 - 1)).take 16 := by
  unfold Awaited; decide +kernel

theorem test_witness_StoredWordsRead_append :
    let s := { State.reset with rbu.closeOp := some (axleOp .grouping), trs.errors := [⟨.axle, 0, 0, true, []⟩] }
    let v := State.checkAxle (reached s 9) 0 []
    s.rbu.closeOp = some (axleOp .grouping) ∧ (axleOp .grouping).phase = .grouping ∧
      (∃ x ∈ (axleOp .grouping).closing.train.stack.drop (axleOp .grouping).read.length, x.entry = 0) ∧
      lowestFree (v.makeRoom fun x => (lowestFree x.trs.headers 32).isSome).trs.headers 32 ≠ none := by decide +kernel

theorem test_witness_StoredWordsRead :
    axleOwner stored 3 = some ⟨9, .one, 1⟩ ∧ look stored.trs.axles 3 = some { blankAxle with index := 1 } ∧
    axleOwner State.reset 3 = none ∧ vehicleOwner stored 2 = some ⟨9, .one, 1⟩ ∧
    (stored.trs.records.find? fun r => r.header == 0) = some (record 9) := by decide +kernel

/-- R132: a double error in the word that holds the axle index of a stored entry. -/
theorem test_double_error_in_axle :
    let s := State.checkAxle { stored with trs.errors := [⟨.axle, 3, 0, true, [.axleIndex]⟩] } 3 []
    ((s.axle 3).speedClass, (s.axle 3).index, (s.header 0).flags.damaged) = (.damaged, 1, true) ∧
      (s.trs.doubles, s.trs.errors, s.alm.list.map fun a => (a.severity, a.value, a.reason)) =
        (1, [], [(.watch, 3, .damaged)]) := by decide +kernel

/-- R131: two single errors in two words of one entry are two errors. -/
theorem test_two_singles_in_one_entry :
    (State.checkAxle { stored with trs.errors := [⟨.axle, 3, 0, false, []⟩, ⟨.axle, 3, 1, false, []⟩] } 3 []).trs.singles = 2 := by
  decide +kernel

end Sys2Proof.Tests
end

