-- ==== Sys2Proof/Proofs/TrackRules.lean ====
section
/-! SUPPORT. The operations of a Track Sequencer where no word carries an error: each is one change of its track. -/

namespace Sys2Proof.Machine

variable {s : State} {t : Track}

/-! ### Changes of one track -/

@[simp] theorem onTrack_onTrack (s : State) (t : Track) (f g : Sequencer → Sequencer) :
    (s.onTrack t f).onTrack t g = s.onTrack t fun q => g (f q) := by
  simp [State.onTrack]

@[simp] theorem onTrack_get (s : State) (t : Track) (f : Sequencer → Sequencer) :
    (s.onTrack t f).ts.get t = f (s.ts.get t) := by
  simp [State.onTrack]

@[simp] theorem onTrack_get_other {k : Track} (h : k ≠ t) (f : Sequencer → Sequencer) :
    (s.onTrack t f).ts.get k = s.ts.get k := by
  simp [State.onTrack, h]

/-- A change of a track is what it does to the sequencer that stands there. -/
theorem onTrack_congr {f g : Sequencer → Sequencer} (h : f (s.ts.get t) = g (s.ts.get t)) :
    s.onTrack t f = s.onTrack t g := by
  simp [State.onTrack, h]

/-- A change that gives back the sequencer as it stands is none. -/
theorem onTrack_id {f : Sequencer → Sequencer} (h : f (s.ts.get t) = s.ts.get t) : s.onTrack t f = s := by
  simp [State.onTrack, h]

@[simp] theorem fitted_onTrack (k : Track) (f : Sequencer → Sequencer) : (s.onTrack t f).fitted k = s.fitted k := rfl
@[simp] theorem timer_onTrack (f : Sequencer → Sequencer) (n : Nat) : (s.onTrack t f).timer n = s.timer n := rfl
@[simp] theorem stuckItem_onTrack (k : Track) (f : Sequencer → Sequencer) :
    stuckItem (s.onTrack t f) k = stuckItem s k := rfl

/-- Occupancy fitted is coded 1 (R196). -/
theorem fitted_iff : s.fitted t = true ↔ s.setting (itemFitted t) = 1 := by simp [State.fitted]

theorem fitted_false_iff : s.fitted t = false ↔ s.setting (itemFitted t) ≠ 1 := by simp [State.fitted]

/-- An event stamped `now` moves the count alone. -/
theorem advance_eq_reached (s : State) (now : Nat) : s.advance now = reached s now := rfl

/-- A timer begun when the count has reached `now`. -/
theorem timer_reached (s : State) (now item : Nat) :
    (s.advance now).timer item = some (countAt s now + s.settingNat item * 100000) := rfl

/-- An event stamped `now` that changes one track alone. -/
theorem onTrack_reached {f : Sequencer → Sequencer} {q : Sequencer} (now : Nat) (h : f (s.ts.get t) = q) :
    (s.advance now).onTrack t f = { reached s now with ts := s.ts.set t q } := by
  rw [← h]; rfl

/-! ### Timers -/

section Clean
variable (h : s.trs.errors = [])
include h

theorem startTStand_clean : s.startTStand t = s.onTrack t fun q => { q with tStand := s.timer itemTStand } := by
  simp [State.startTStand, h]

theorem startTSettle_clean : s.startTSettle t = s.onTrack t fun q => { q with tSettle := s.timer itemTSettle } := by
  simp [State.startTSettle, h]

theorem startTEnd_clean : s.startTEnd t = s.onTrack t fun q => { q with tEnd := s.timer itemTEnd } := by
  simp [State.startTEnd, h]

theorem startTAbandon_clean : s.startTAbandon t = s.onTrack t fun q => { q with tAbandon := s.timer itemTAbandon } := by
  simp [State.startTAbandon, h]

theorem startTDormant_clean : s.startTDormant t = s.onTrack t fun q => { q with tDormant := s.timer itemTDormant } := by
  simp [State.startTDormant, h]

theorem startTRetare_clean : s.startTRetare t = s.onTrack t fun q => { q with tRetare := s.timer itemTRetare } := by
  simp [State.startTRetare, h]

end Clean

/-- A head's stuck timer once it is begun where the head is ON under the condition of R14. -/
def stuckBegun (fitted : Bool) (timer : Timer) (q : Sequencer) (g : Head) : Timer :=
  if q.heads.get (headIx g) = true ∧ (fitted = false ∨ q.occupied = false) then timer else q.stuck.get (headIx g)

theorem startStuckIfOn_clean (h : s.trs.errors = []) (g : Head) :
    s.startStuckIfOn t g = s.onTrack t fun q =>
      { q with stuck := q.stuck.set (headIx g) (stuckBegun (s.fitted t) (s.timer (stuckItem s t)) q g) } := by
  simp only [State.startStuckIfOn, State.startStuck, checkSetting_clean s _ h, stuckWatched, Bool.or_eq_true,
    Bool.not_eq_true']
  split
  · next hon => exact onTrack_congr (by simp only [stuckBegun, if_pos hon])
  · next hoff => exact (onTrack_id (by simp only [stuckBegun, if_neg hoff, Pair.set_get])).symm

theorem resumeStuck_clean (h : s.trs.errors = []) :
    s.resumeStuck t = s.onTrack t fun q =>
      { q with
        stuck :=
          ⟨stuckBegun (s.fitted t) (s.timer (stuckItem s t)) q .a,
            stuckBegun (s.fitted t) (s.timer (stuckItem s t)) q .b⟩ } := by
  simp only [State.resumeStuck, checkSetting_clean s _ h]
  rw [startStuckIfOn_clean h, startStuckIfOn_clean (by exact h)]
  simp only [onTrack_onTrack, fitted_onTrack, timer_onTrack, stuckItem_onTrack]
  rfl

/-! ### Modes -/

theorem enterArmed_clean (h : s.trs.errors = []) :
    s.enterArmed t = s.onTrack t fun q =>
      { stopTrain q with
        mode := .armed, recovery := none, tDormant := s.timer itemTDormant, tRetare := s.timer itemTRetare } := by
  simp only [State.enterArmed]
  rw [startTDormant_clean (by exact h), startTRetare_clean (by exact h)]
  simp [stopIdle]

/-- The entry to ARMING, of a track whose sequencer has been changed before, where no word carries an error. -/
theorem enterArming_onTrack (h : s.trs.errors = []) (f : Sequencer → Sequencer) :
    (s.onTrack t f).enterArming t = armingOf s t s.cac.count (f (s.ts.get t)) := by
  simp only [State.enterArming, armingOf, onTrack_onTrack, State.onTrack_sup]
  split
  · rfl
  · rw [enterArmed_clean (by exact h)]
    simp [State.onTrack, stopIdle, stopTrain, State.timer, State.settingNat, State.setting, Config.timingUnit]

theorem enterArming_clean (h : s.trs.errors = []) : s.enterArming t = armingOf s t s.cac.count (s.ts.get t) := by
  simpa [onTrack_id] using enterArming_onTrack (t := t) h id

theorem startTrainTimer_clean (h : s.trs.errors = []) :
    s.startTrainTimer t = s.onTrack t (trainTimers s t s.cac.count) := by
  simp only [State.startTrainTimer, fitted_iff, startTStand_clean h, startTSettle_clean h, startTEnd_clean h]
  split
  · next hf =>
    split
    · next ho => exact onTrack_congr (by simp only [trainTimers, if_pos hf, if_pos ho]; rfl)
    · next ho => exact onTrack_congr (by simp only [trainTimers, if_pos hf, if_neg ho]; rfl)
  · next hf => exact onTrack_congr (by simp only [trainTimers, if_neg hf]; rfl)

/-! ### The effect of an event -/

/-- An event in service leads to the state it gives. -/
theorem leadsTo_of_eq {i : Instr} {u v : State} (hi : exec i s = whenUp s (some v)) (hs : s.startCheck = false)
    (hv : v = u) : LeadsTo i s u := hv ▸ leadsTo_of_whenUp hi hs

/-- The expiry of a running timer leads to the state it gives at its count. -/
theorem leadsTo_of_expiry {i : Instr} {u : State} {timer : Timer} {f : Nat → State} {e : Nat} (he : timer = some e)
    (hs : s.startCheck = false) (hi : exec i s = whenUp s (timer.map f)) (hv : f e = u) : LeadsTo i s u :=
  leadsTo_of_eq (hi.trans (by rw [he]; rfl)) hs hv

end Sys2Proof.Machine
end

