-- ==== Sys2Proof/Proofs/HeadsAndModes.lean ====
section
/-! SUPPORT. Heads, approach contacts, occupancy inputs and the timers of the modes: O20, O25 and O27. -/

namespace Sys2Proof.Machine

variable {s : State} {t : Track}

/-! ### A head turns ON -/

/-- The sequencer of a track outside FAULT when a head has turned ON. -/
def turnedOn (s : State) (t : Track) (h : Head) (now : Nat) : Sequencer :=
  { s.ts.get t with heads := (s.ts.get t).heads.set (headIx h) true, stuck := stuckAfterOn s t h now }

/-- The stuck timer that `stuckAfterOn` begins is the one of R14 for a head just turned ON. -/
theorem stuckBegun_turnedOn (s : State) (t : Track) (h : Head) (now : Nat) :
    (s.ts.get t).stuck.set (headIx h)
        (stuckBegun (s.fitted t) ((s.advance now).timer (stuckItem s t)) (setHead h true (s.ts.get t)) h) =
      stuckAfterOn s t h now := by
  simp only [stuckBegun, setHead, stuckAfterOn, stuckItem, fitted_iff, timer_reached, Pair.get_set_same, true_and,
    fitted_false_iff]
  by_cases hf : s.setting (itemFitted t) = 1
  · by_cases ho : (s.ts.get t).occupied = true <;> simp [hf, ho]
  · simp [hf]

theorem startStuckIfOn_turnedOn (hc : s.trs.errors = []) (h : Head) (now : Nat) :
    ((s.advance now).onTrack t (setHead h true)).startStuckIfOn t h =
      (s.advance now).onTrack t fun _ => turnedOn s t h now := by
  rw [startStuckIfOn_clean (by exact hc), onTrack_onTrack]
  refine onTrack_congr ?_
  simp only [turnedOn, ← stuckBegun_turnedOn]
  rfl

/-- The state of a track outside FAULT when a head has turned ON and a DORMANT track has gone to ARMING. -/
def headedOn (s : State) (t : Track) (h : Head) (now : Nat) : State :=
  if (s.ts.get t).mode = .dormant then armingOf (reached s now) t (countAt s now) (turnedOn s t h now)
  else { reached s now with ts := s.ts.set t (turnedOn s t h now) }

/-- HEAD_ON outside FAULT is crossing recognition on the track as the head leaves it. -/
theorem leadsTo_headOn {u : State} (hs : s.startCheck = false) (hc : s.trs.errors = []) (h : Head) (now : Nat)
    (hm : (s.ts.get t).mode ≠ .fault) (hu : (headedOn s t h now).headCrossing t h = u) :
    LeadsTo (.headOn t h now) s u := by
  refine leadsTo_of_eq rfl hs ?_
  have hmode : (((s.advance now).onTrack t (setHead h true)).ts.get t).mode = (s.ts.get t).mode := by
    rw [onTrack_get]; rfl
  rw [atTrack_clean s t now hc, if_neg (by rwa [hmode]), State.headOnActive, startStuckIfOn_turnedOn hc, ← hu, headedOn,
    onTrack_get, enterArming_onTrack (by exact hc)]
  rfl

/-! ### Crossing recognition without a train -/

theorem headCrossing_none (h : Head) (hp : (s.ts.get t).pending = none) :
    s.headCrossing t h = s.onTrack t fun q => { q with pending := some (h, s.cac.count) } := by
  simp only [State.headCrossing, hp]

theorem headCrossing_same (h : Head) (time : Nat) (hp : (s.ts.get t).pending = some (h, time)) :
    s.headCrossing t h = s.onTrack t fun q => { q with pending := some (h, s.cac.count), rock := bump q.rock } := by
  simp only [State.headCrossing, hp, if_true]

theorem headCrossing_held {h first : Head} {time : Nat} (hc : s.trs.errors = []) (hf : s.sup.mode = .frozen)
    (hp : (s.ts.get t).pending = some (first, time)) (hne : first ≠ h) :
    s.headCrossing t h = s.onTrack t fun q =>
      { q with pending := none, crossings := bump q.crossings, held := bump q.held } := by
  simp only [State.headCrossing, hp, if_neg hne, State.recognise, State.disposeCrossing]
  rw [checkSettings_clean _ _ (by exact hc)]
  simp [hf]

/-! ### A track that has entered ARMING -/

/-- A change that commutes with stopping the timers and setting the mode may be made before the entry to ARMING or after it. -/
theorem armingOf_onTrack {s : State} {t : Track} {count : Nat} {q : Sequencer} (f : Sequencer → Sequencer)
    (hf : ∀ q m d r, f { stopTrain q with mode := m, tDormant := d, tRetare := r, recovery := none } =
      { stopTrain (f q) with mode := m, tDormant := d, tRetare := r, recovery := none }) :
    (armingOf s t count q).onTrack t f = armingOf s t count (f q) := by
  simp only [armingOf]
  split <;> simp only [State.onTrack, Pair.get_set_same, Pair.set_set] <;> congr 2
  · exact hf q .arming none none
  · exact hf q .armed _ _

@[simp] theorem armingOf_pending (s : State) (t : Track) (count : Nat) (q : Sequencer) :
    ((armingOf s t count q).ts.get t).pending = q.pending := by
  simp only [armingOf]; split <;> simp

@[simp] theorem armingOf_sup (s : State) (t : Track) (count : Nat) (q : Sequencer) :
    (armingOf s t count q).sup = s.sup := by simp only [armingOf]; split <;> rfl

@[simp] theorem armingOf_trs (s : State) (t : Track) (count : Nat) (q : Sequencer) :
    (armingOf s t count q).trs = s.trs := by simp only [armingOf]; split <;> rfl

@[simp] theorem armingOf_count (s : State) (t : Track) (count : Nat) (q : Sequencer) :
    (armingOf s t count q).cac.count = s.cac.count := by simp only [armingOf]; split <;> rfl

end Sys2Proof.Machine

namespace Sys2Proof.Proofs

open Sys2Proof.Machine

theorem headTurnsOff : HeadTurnsOff := by
  intro s t h now hs hc
  have hmode : (((s.advance now).onTrack t (setHead h false)).ts.get t).mode = (s.ts.get t).mode := by
    rw [onTrack_get]; rfl
  refine ⟨fun hm => ?_, fun hm hon => ?_, fun hm ha hb => ?_⟩ <;> refine leadsTo_of_eq rfl hs ?_ <;>
    rw [atTrack_clean s t now hc, hmode]
  · rw [if_neg hm, onTrack_onTrack]
    exact onTrack_reached now rfl
  · have hstill : ¬ (((s.ts.get t).heads.set (headIx h) false).one = false ∧
        ((s.ts.get t).heads.set (headIx h) false).two = false) := by
      rintro ⟨ha, hb⟩; simp [ha, hb] at hon
    rw [if_pos hm, onTrack_onTrack]
    exact onTrack_reached now (if_neg hstill)
  · rw [if_pos hm, onTrack_onTrack]
    exact onTrack_reached now (if_pos ⟨ha, hb⟩)

theorem headTurnsOn : HeadTurnsOn := by
  intro s t h now hs hc
  refine ⟨fun hm => ?_, fun hm hd => ?_, fun hd => ?_⟩
  · refine leadsTo_of_eq rfl hs ?_
    have hmode : (((s.advance now).onTrack t (setHead h true)).ts.get t).mode = (s.ts.get t).mode := by
      rw [onTrack_get]; rfl
    rw [atTrack_clean s t now hc, hmode, if_pos hm, onTrack_onTrack]
    rfl
  · have hv : headedOn s t h now = (s.advance now).onTrack t fun _ => turnedOn s t h now := if_neg hd
    have hpend : ((headedOn s t h now).ts.get t).pending = (s.ts.get t).pending := by rw [hv, onTrack_get]; rfl
    refine ⟨fun hp => ?_, fun time hp => ?_, fun first time hf hp hne => ?_⟩ <;>
      refine leadsTo_headOn hs hc h now hm ?_ <;> rw [← hpend] at hp
    · rw [headCrossing_none h hp, hv, onTrack_onTrack]; rfl
    · rw [headCrossing_same h time hp, hv, onTrack_onTrack]; rfl
    · rw [headCrossing_held (by rw [hv]; exact hc) (by rw [hv]; exact hf) hp hne, hv, onTrack_onTrack]; rfl
  · have hv : headedOn s t h now = armingOf (reached s now) t (countAt s now) (turnedOn s t h now) := if_pos hd
    have hpend : ((headedOn s t h now).ts.get t).pending = (s.ts.get t).pending := by rw [hv, armingOf_pending]; rfl
    refine ⟨fun hp => ?_, fun time hp => ?_, fun first time hf hp hne => ?_⟩ <;>
      refine leadsTo_headOn hs hc h now (by simp [hd]) ?_ <;> rw [← hpend] at hp
    · rw [headCrossing_none h hp, hv, armingOf_count]
      exact armingOf_onTrack _ fun _ _ _ _ => rfl
    · rw [headCrossing_same h time hp, hv, armingOf_count]
      exact armingOf_onTrack _ fun _ _ _ _ => rfl
    · rw [headCrossing_held (by rw [hv, armingOf_trs]; exact hc) (by rw [hv, armingOf_sup]; exact hf) hp hne, hv]
      exact armingOf_onTrack _ fun _ _ _ _ => rfl

/-- Settles O20: the cases of the track mode and of the crossing pending. -/
theorem headEvents : Obligations.HeadEvents := ⟨headTurnsOff, headTurnsOn⟩

/-! ### Approach pulses and occupancy -/

theorem approachPulseActs : ApproachPulseActs := by
  intro s t now hs hc
  refine ⟨fun hm => ?_, fun hm => ?_, fun hm => ?_⟩ <;> refine leadsTo_of_eq rfl hs ?_ <;>
    rw [atTrack_clean s t now hc]
  · rw [hm]
    exact enterArming_clean (by exact hc)
  · rw [hm]
    exact (startTDormant_clean (by exact hc)).trans (onTrack_reached now (by rw [← hm]; rfl))
  · rcases hm with hm | hm | hm | hm <;> rw [hm] <;> rfl

/-- Occupancy events act on a fitted track outside FAULT. -/
theorem occupancyActs_iff (s : State) (t : Track) :
    occupancyActs s t = true ↔ s.setting (itemFitted t) = 1 ∧ (s.ts.get t).mode ≠ .fault := by
  simp [occupancyActs, fitted_iff]

theorem occupancyClears_clean {s : State} {t : Track} (hc : s.trs.errors = []) (hf : s.setting (itemFitted t) = 1)
    (ho : (s.ts.get t).occupied = false) :
    s.occupancyClears t = s.onTrack t fun q =>
      { q with
        tStand := if q.mode = .passing then none else q.tStand
        tSettle := if trainMode q.mode then s.timer itemTSettle else q.tSettle
        stuck :=
          ⟨if q.heads.one then s.timer itemTStuck else q.stuck.one,
            if q.heads.two then s.timer itemTStuck else q.stuck.two⟩ } := by
  have hfit : s.fitted t = true := fitted_iff.2 hf
  simp only [State.occupancyClears]
  rw [startStuckIfOn_clean hc, startStuckIfOn_clean (by exact hc)]
  simp only [onTrack_onTrack, fitted_onTrack, timer_onTrack, onTrack_get, stuckItem, hfit, if_true]
  have hbegun (q : Sequencer) (g : Head) (hq : q.occupied = false) (timer : Timer) :
      stuckBegun true timer q g = if q.heads.get (headIx g) = true then timer else q.stuck.get (headIx g) := by
    simp [stuckBegun, hq]
  cases hm : (s.ts.get t).mode <;> simp only []
  case passing =>
    rw [startTSettle_clean (by exact hc), onTrack_onTrack]
    exact onTrack_congr (by simp [hbegun, hm, ho, trainMode]; rfl)
  case standstill =>
    rw [startTSettle_clean (by exact hc), onTrack_onTrack]
    exact onTrack_congr (by simp [hbegun, hm, ho, trainMode]; rfl)
  all_goals exact onTrack_congr (by simp [hbegun, hm, ho, trainMode]; rfl)

theorem occupancyFills_clean {s : State} {t : Track} (hc : s.trs.errors = []) :
    s.occupancyFills t = s.onTrack t fun q =>
      { q with
        tSettle := if trainMode q.mode then none else q.tSettle
        tStand := if q.mode = .passing then s.timer itemTStand else q.tStand
        stuck := ⟨none, none⟩ } := by
  simp only [State.occupancyFills, onTrack_get]
  rw [show (stopStuck (s.ts.get t)).mode = (s.ts.get t).mode from rfl]
  cases hm : (s.ts.get t).mode <;> simp only []
  case passing =>
    rw [onTrack_onTrack, startTStand_clean (by exact hc), onTrack_onTrack]
    exact onTrack_congr (by simp [hm, trainMode, stopStuck])
  case standstill =>
    rw [onTrack_onTrack]
    exact onTrack_congr (by simp [hm, trainMode, stopStuck])
  all_goals exact onTrack_congr (by simp [hm, trainMode, stopStuck])

theorem occupancyChanges : OccupancyActs := by
  intro s t now hs hc
  have hacts (level : Bool) : occupancyActs ((s.advance now).setOccupied t level) t = true ↔
      s.setting (itemFitted t) = 1 ∧ (s.ts.get t).mode ≠ .fault := by
    rw [occupancyActs_iff, State.setOccupied, onTrack_get]; rfl
  refine ⟨fun hno => ?_, fun hf hm => ?_⟩
  · have hnot (level : Bool) : ¬ occupancyActs ((s.advance now).setOccupied t level) t = true := by
      rw [hacts]
      rintro ⟨hf, hm⟩
      exact hno.elim (fun h => h hf) hm
    constructor <;> refine leadsTo_of_eq rfl hs ?_ <;> rw [atTrack_clean s t now hc, if_neg (hnot _)] <;>
      exact onTrack_reached now rfl
  · constructor <;> refine leadsTo_of_eq rfl hs ?_ <;>
      rw [atTrack_clean s t now hc, if_pos ((hacts _).2 ⟨hf, hm⟩)]
    · rw [occupancyClears_clean (by exact hc) (by exact hf) (by rw [State.setOccupied, onTrack_get]), State.setOccupied,
        onTrack_onTrack]
      exact onTrack_reached now rfl
    · rw [occupancyFills_clean (by exact hc), State.setOccupied, onTrack_onTrack]
      exact onTrack_reached now rfl

/-- Settles O25: the cases of the track mode, and of occupancy fitted. -/
theorem approachAndOccupancy : Obligations.ApproachAndOccupancy := ⟨approachPulseActs, occupancyChanges⟩

/-! ### T_stand, T_dormant and T_retare -/

/-- Settles O27: each expiry is one change of its track. -/
theorem modeTimersExpire : Obligations.ModeTimersExpire := by
  intro s t e hs hc
  refine ⟨fun he hm => ?_, fun he hm hd => ?_, fun he hm hd => ?_, fun he hm => ?_⟩ <;>
    refine leadsTo_of_expiry he hs rfl ?_
  all_goals simp only [atTrack_clean s t e hc, onTrack_get, State.advance_ts, hm, if_true]
  · rw [onTrack_onTrack, startTAbandon_clean (by exact hc), onTrack_onTrack]
    exact onTrack_reached e rfl
  · rw [checkSetting_clean _ _ (by exact hc), onTrack_onTrack, if_pos ⟨by rw [onTrack_get]; exact hm, hd⟩]
    exact onTrack_reached e rfl
  · rw [checkSetting_clean _ _ (by exact hc), if_neg fun h => hd h.2]
    exact onTrack_reached e (by rw [← hm])
  · exact enterArming_onTrack (by exact hc) _

end Sys2Proof.Proofs
end

