-- ==== Sys2Proof/Proofs/ClosingRules.lean ====
section
/-! SUPPORT. Closing a train: cancelled jobs (R70), the Closing List (R87), and the close request (R85, R86), each tied to the
term that says what it leaves. -/

namespace Sys2Proof.Machine

/-! ### Entries of cancelled jobs -/

/-- Changing some axle entries one after another changes the pool alone. -/
theorem foldl_onAxle (f : AxleEntry → AxleEntry) (l : List Nat) (s : State) :
    l.foldl (fun s n => s.onAxle n f) s = { s with trs.axles := l.foldl (fun m n => adjust m n f) s.trs.axles } := by
  induction l generalizing s with
  | nil => rfl
  | cons n l ih => exact ih (s.onAxle n f)

/-- Changing some entries to a value that stays is one pass over the pool. -/
theorem foldl_adjust {α : Type} (f : α → α) (hf : ∀ a, f (f a) = f a) (l : List Nat) (m : List (Nat × α)) :
    l.foldl (fun m n => adjust m n f) m = m.map fun e => if l.contains e.1 then (e.1, f e.2) else e := by
  induction l generalizing m with
  | nil => simp
  | cons n l ih =>
    rw [List.foldl_cons, ih, adjust, List.map_map]
    refine List.map_congr_left fun e _ => ?_
    by_cases hn : e.1 = n <;> by_cases hl : l.contains e.1 = true <;> simp_all

theorem setResults_twice (c : ValueClass) (a : AxleEntry) : setResults c (setResults c a) = setResults c a := rfl

theorem liveOf_eq (n : Nat) (j : Job) : liveOf n j = isJobOf n j := rfl

theorem liveFor_iff (k : Nat) (j : Job) : liveFor k j = true ↔ jobEntry j = some k := by
  simp only [liveFor, jobEntry]
  cases j.owner <;> simp

/-- The entries of the jobs that a predicate picks, queued or counted in flight. -/
theorem mem_jobEntries (s : State) (p : Job → Bool) (k : Nat) :
    k ∈ jobEntries s p ↔
      (∃ j ∈ s.aee.queue, p j = true ∧ jobEntry j = some k) ∨
        ∃ f, s.aee.inFlight = some f ∧ p f.job = true ∧ f.discard = false ∧ jobEntry f.job = some k := by
  simp only [jobEntries, List.mem_append, List.mem_filterMap, List.mem_filter]
  refine or_congr ⟨?_, ?_⟩ ?_
  · rintro ⟨j, ⟨hj, hp⟩, hk⟩; exact ⟨j, hj, hp, hk⟩
  · rintro ⟨j, hj, hp, hk⟩; exact ⟨j, ⟨hj, hp⟩, hk⟩
  · cases hf : s.aee.inFlight with
    | none => simp
    | some f =>
      by_cases hp : p f.job = true ∧ f.discard = false
      · simp [hp]
      · have hb : (p f.job && !f.discard) = false := by simpa using hp
        simp only [hb, Option.some.injEq, exists_eq_left', Bool.false_eq_true, if_false, List.not_mem_nil, false_iff]
        rintro ⟨h1, h2, -⟩
        exact hp ⟨h1, h2⟩

theorem discardFlight_isJobOf (n : Nat) (f : InFlight) :
    discardFlight (isJobOf n) f = if isJobOf n f.job then { f with discard := true } else f := by
  have hlive : isJobOf n f.job = true → isLive f.job = true := by
    simp only [isJobOf, isLive]; cases f.job.owner <;> simp
  by_cases h : isJobOf n f.job = true
  · simp [discardFlight, h, hlive h]
  · simp [discardFlight, h]

/-- Cancelling a train's jobs (R70) leaves what `jobsCancelled` says. -/
theorem cancelJobs_eq (s : State) (n : Nat) : s.cancelJobs n = jobsCancelled s n := by
  have hhit (k : Nat) : (jobEntries s (isJobOf n)).contains k =
      ((s.aee.queue.any fun j => liveOf n j && liveFor k j) ||
        s.aee.inFlight.any fun f => liveOf n f.job && liveFor k f.job && !f.discard) := by
    rw [Bool.eq_iff_iff, List.contains_iff_mem, mem_jobEntries]
    cases s.aee.inFlight <;> simp [liveOf_eq, liveFor_iff, and_assoc, and_comm (a := _ = some k)]
  simp only [State.cancelJobs, jobsCancelled, foldl_onAxle, foldl_adjust _ (setResults_twice _), hhit, liveOf_eq,
    funext (discardFlight_isJobOf n)]
  rfl

/-! ### The close request -/

/-- A train joins a Closing List that has room (R87). -/
theorem joinClosing_room {s : State} (c : ClosingTrain) (h : s.tas.closing.length < 4) :
    s.joinClosing c = { s with tas.closing := s.tas.closing ++ [c] } := if_pos h

/-- A train joins a full Closing List: its head is handed over with its jobs cancelled (R87). -/
theorem joinClosing_full {s : State} (c : ClosingTrain) {head : ClosingTrain} {rest : List ClosingTrain}
    (h : ¬ s.tas.closing.length < 4) (hl : s.tas.closing = head :: rest) :
    s.joinClosing c =
      { jobsCancelled s head.train.number with
        tas := { s.tas with closing := rest ++ [c], overflows := bump s.tas.overflows }
        rbu.handOver := s.rbu.handOver ++ [head] } := by
  have hc : ¬ s.tas.closing.length < Config.closingSize := h
  rw [State.joinClosing, if_neg hc]
  simp only [hl, cancelJobs_eq]
  rfl

/-- A close request with an open train leaves what `trainClosed` says. -/
theorem closeRequest_some {s : State} {t : Track} {tr : Train} (reason : CloseReason) (h : s.tas.opens.get t = some tr) :
    s.closeRequest t reason = trainClosed s t tr reason s.stamp := by
  simp only [State.closeRequest, h, State.closeTrain, trainClosed, emptyTrain, Bool.and_eq_true, List.isEmpty_iff,
    beq_iff_eq]
  by_cases he : tr.stack = [] ∧ tr.phantoms = 0
  · rw [if_pos he, if_pos he]; rfl
  · rw [if_neg he, if_neg he]
    by_cases hl : s.tas.closing.length < 4
    · rw [if_pos hl, joinClosing_room _ (by exact hl)]
    · rw [if_neg hl]
      cases hc : s.tas.closing with
      | nil => simp [hc] at hl
      | cons hd rest => exact joinClosing_full _ (by rw [hc] at hl; exact hl) rfl

theorem closeRequest_none {s : State} {t : Track} (reason : CloseReason) (h : s.tas.opens.get t = none) :
    s.closeRequest t reason = s := by
  simp only [State.closeRequest, h]

/-- What a close of a train does not touch. -/
structure CloseFrame (s u : State) : Prop where
  ts : u.ts = s.ts
  cac : u.cac = s.cac
  alm : u.alm = s.alm
  wat : u.wat = s.wat
  settings : u.settings = s.settings
  ptu : u.ptu = s.ptu
  sup : u.sup = s.sup
  errors : u.trs.errors = s.trs.errors
  records : u.trs.records = s.trs.records
  closeOp : u.rbu.closeOp = s.rbu.closeOp

theorem trainClosed_frame (s : State) (t : Track) (tr : Train) (reason : CloseReason) (time : Stamp) :
    CloseFrame s (trainClosed s t tr reason time) := by
  simp only [trainClosed]
  split
  · constructor <;> rfl
  · split
    · constructor <;> rfl
    · cases s.tas.closing <;> constructor <;> rfl

theorem trainClosed_opens (s : State) (t : Track) (tr : Train) (reason : CloseReason) (time : Stamp) :
    (trainClosed s t tr reason time).tas.opens = s.tas.opens.set t none := by
  simp only [trainClosed]
  split
  · rfl
  · split
    · rfl
    · cases s.tas.closing <;> rfl

theorem closeRequest_frame (s : State) (t : Track) (reason : CloseReason) : CloseFrame s (s.closeRequest t reason) := by
  cases h : s.tas.opens.get t with
  | none => rw [closeRequest_none reason h]; constructor <;> rfl
  | some tr => rw [closeRequest_some reason h]; exact trainClosed_frame _ _ _ _ _

/-- After a close request no train is open on the track. -/
theorem closeRequest_opens (s : State) (t : Track) (reason : CloseReason) :
    (s.closeRequest t reason).tas.opens = s.tas.opens.set t none := by
  cases h : s.tas.opens.get t with
  | none => rw [closeRequest_none reason h, ← h, Pair.set_get]
  | some tr => rw [closeRequest_some reason h]; exact trainClosed_opens _ _ _ _ _

end Sys2Proof.Machine
end

