-- ==== Sys2Proof/Proofs/TrackAgreement.lean ====
section
/-! SUPPORT. `TrackAgrees` (R10, R15 to R23, R94) under the operations of the part: what leaves every track alone, what changes one
track, and what each way of changing a track's mode establishes. -/

namespace Sys2Proof.Machine

variable {s u v : State} {t : Track}

/-! ### What leaves a track alone -/

/-- Nothing that `TrackAgrees` looks at differs on a track. -/
structure SameTrack (t : Track) (s u : State) : Prop where
  ts : u.ts.get t = s.ts.get t
  refresh : u.cac.refresh.get t = s.cac.refresh.get t
  mode : u.sup.mode = s.sup.mode
  opened : (u.tas.opens.get t).isSome = (s.tas.opens.get t).isSome

theorem SameTrack.trans (h : SameTrack t s u) (k : SameTrack t u v) : SameTrack t s v :=
  ⟨k.ts.trans h.ts, k.refresh.trans h.refresh, k.mode.trans h.mode, k.opened.trans h.opened⟩

theorem SameTrack.agrees (h : SameTrack t s u) (ha : TrackAgrees s t) : TrackAgrees u t where
  opened := by rw [h.opened, h.ts]; exact ha.opened
  arming := by rw [h.refresh, h.ts]; exact ha.arming
  frozen hm := by
    have ho := h.opened
    rw [ha.frozen (h.mode ▸ hm)] at ho
    simpa using ho
  fault := by rw [h.ts]; exact ha.fault
  head := by rw [h.ts]; exact ha.head
  recovery := by rw [h.ts]; exact ha.recovery
  idle := by rw [h.ts]; exact ha.idle
  settle := by rw [h.ts]; exact ha.settle
  passing := by rw [h.ts]; exact ha.passing
  standing := by rw [h.ts]; exact ha.standing
  progress := by rw [h.refresh]; exact ha.progress

/-- Nothing that `TrackAgrees` looks at differs. -/
def SameTracks (s u : State) : Prop := ∀ k, SameTrack k s u

namespace SameTracks

theorem refl (s : State) : SameTracks s s := fun _ => ⟨rfl, rfl, rfl, rfl⟩

theorem trans (h : SameTracks s u) (k : SameTracks u v) : SameTracks s v := fun x => (h x).trans (k x)

/-- Blocks that stay leave every track alone. -/
theorem of_blocks (hts : u.ts = s.ts) (hcac : u.cac.refresh = s.cac.refresh) (hsup : u.sup.mode = s.sup.mode)
    (htas : u.tas.opens = s.tas.opens) : SameTracks s u :=
  fun _ => ⟨by rw [hts], by rw [hcac], hsup, by rw [htas]⟩

/-- Work of a close operation, checked reads and alarms leave every track alone. -/
theorem of_only (h : CloseWorkOnly s u) : SameTracks s u :=
  of_blocks h.ts (by rw [h.cac]) (by rw [h.sup]) (by rw [h.tas])

end SameTracks

/-- Nothing that `TrackAgrees` looks at differs on the other track. -/
def OnlyTrack (t : Track) (s u : State) : Prop := ∀ k, k ≠ t → SameTrack k s u

namespace OnlyTrack

theorem of_same (h : SameTracks s u) : OnlyTrack t s u := fun k _ => h k

theorem trans (h : OnlyTrack t s u) (k : OnlyTrack t u v) : OnlyTrack t s v := fun x hx => (h x hx).trans (k x hx)

theorem of_only (h : CloseWorkOnly s u) : OnlyTrack t s u := of_same (.of_only h)

theorem onTrack (s : State) (t : Track) (f : Sequencer → Sequencer) : OnlyTrack t s (s.onTrack t f) :=
  fun _ hk => ⟨onTrack_get_other hk f, rfl, rfl, rfl⟩

theorem withOpen (s : State) (t : Track) (o : Option Train) :
    OnlyTrack t s { s with tas.opens := s.tas.opens.set t o } :=
  fun _ hk => ⟨rfl, rfl, rfl, by rw [Pair.get_set_other _ _ _ _ hk]⟩

theorem withRefresh (s : State) (t : Track) (r : Option Refresh) :
    OnlyTrack t s { s with cac.refresh := s.cac.refresh.set t r } :=
  fun _ hk => ⟨rfl, Pair.get_set_other _ _ _ _ hk, rfl, rfl⟩

/-- Both tracks agree after a change of one where that one does. -/
theorem agrees (h : OnlyTrack t s u) (ha : ∀ k, TrackAgrees s k) (ht : TrackAgrees u t) (k : Track) : TrackAgrees u k := by
  by_cases hk : k = t
  · exact hk ▸ ht
  · exact (h k hk).agrees (ha k)

end OnlyTrack

/-! ### The part of `TrackAgrees` that speaks of the sequencer alone -/

/-- A sequencer's timers, fault head and pending crossing agree with its mode. -/
structure SeqAgrees (q : Sequencer) : Prop where
  fault : q.mode = .fault → q.pending = none ∧ q.stuck = ⟨none, none⟩
  head : q.mode = .fault → q.faultHead ≠ none
  recovery : q.mode ≠ .fault → q.recovery = none
  idle : q.mode ≠ .armed → q.tDormant = none ∧ q.tRetare = none
  settle : trainMode q.mode = false → q.tSettle = none
  passing : q.mode ≠ .passing → q.tEnd = none ∧ q.tStand = none
  standing : q.mode ≠ .standstill → q.tAbandon = none

theorem TrackAgrees.seq (h : TrackAgrees s t) : SeqAgrees (s.ts.get t) :=
  ⟨h.fault, h.head, h.recovery, h.idle, h.settle, h.passing, h.standing⟩

/-- `TrackAgrees` from its parts. -/
theorem TrackAgrees.of_seq (hq : SeqAgrees (s.ts.get t))
    (opened : (s.tas.opens.get t).isSome = trainMode (s.ts.get t).mode)
    (arming : (s.cac.refresh.get t).isSome = decide ((s.ts.get t).mode = .arming))
    (frozen : s.sup.mode = .frozen → s.tas.opens.get t = none)
    (progress : ∀ r, s.cac.refresh.get t = some r → r.progress < Config.refreshLength) : TrackAgrees s t :=
  ⟨opened, arming, frozen, hq.fault, hq.head, hq.recovery, hq.idle, hq.settle, hq.passing, hq.standing, progress⟩

/-- A change of a track that keeps its mode keeps `TrackAgrees` where the sequencer still agrees with its mode. -/
theorem TrackAgrees.onTrack (h : TrackAgrees s t) {f : Sequencer → Sequencer}
    (hm : (f (s.ts.get t)).mode = (s.ts.get t).mode) (hq : SeqAgrees (f (s.ts.get t))) :
    TrackAgrees (s.onTrack t f) t := by
  refine .of_seq ?_ ?_ ?_ h.frozen h.progress <;> rw [onTrack_get]
  · exact hq
  · rw [hm]; exact h.opened
  · rw [hm]; exact h.arming

/-- The same after a setting has been read through the check. -/
theorem TrackAgrees.onTrack_checked (h : TrackAgrees s t) (item : Nat) {f : Sequencer → Sequencer}
    (hm : (f (s.ts.get t)).mode = (s.ts.get t).mode) (hq : SeqAgrees (f (s.ts.get t))) :
    TrackAgrees ((s.checkSetting item).onTrack t f) t := by
  have hs : SameTrack t s (s.checkSetting item) := SameTracks.of_only (checkSetting_only s item) t
  exact (hs.agrees h).onTrack (by rw [hs.ts]; exact hm) (by rw [hs.ts]; exact hq)

theorem OnlyTrack.onTrack_checked (s : State) (t : Track) (item : Nat) (f : Sequencer → Sequencer) :
    OnlyTrack t s ((s.checkSetting item).onTrack t f) :=
  .trans (.of_only (checkSetting_only s item)) (.onTrack _ t f)

/-! ### Timers -/

theorem startTStand_agrees (h : TrackAgrees s t) (hm : (s.ts.get t).mode = .passing) : TrackAgrees (s.startTStand t) t := by
  unfold State.startTStand
  exact h.onTrack_checked itemTStand rfl { h.seq with passing := fun hne => absurd hm hne }

theorem startTEnd_agrees (h : TrackAgrees s t) (hm : (s.ts.get t).mode = .passing) : TrackAgrees (s.startTEnd t) t := by
  unfold State.startTEnd
  exact h.onTrack_checked itemTEnd rfl { h.seq with passing := fun hne => absurd hm hne }

theorem startTSettle_agrees (h : TrackAgrees s t) (hm : trainMode (s.ts.get t).mode = true) :
    TrackAgrees (s.startTSettle t) t := by
  unfold State.startTSettle
  exact h.onTrack_checked itemTSettle rfl { h.seq with settle := fun hne => absurd (hm.symm.trans hne) (by decide) }

theorem startTAbandon_agrees (h : TrackAgrees s t) (hm : (s.ts.get t).mode = .standstill) :
    TrackAgrees (s.startTAbandon t) t := by
  unfold State.startTAbandon
  exact h.onTrack_checked itemTAbandon rfl { h.seq with standing := fun hne => absurd hm hne }

theorem startTDormant_agrees (h : TrackAgrees s t) (hm : (s.ts.get t).mode = .armed) : TrackAgrees (s.startTDormant t) t := by
  unfold State.startTDormant
  exact h.onTrack_checked itemTDormant rfl { h.seq with idle := fun hne => absurd hm hne }

theorem startTRetare_agrees (h : TrackAgrees s t) (hm : (s.ts.get t).mode = .armed) : TrackAgrees (s.startTRetare t) t := by
  unfold State.startTRetare
  exact h.onTrack_checked itemTRetare rfl { h.seq with idle := fun hne => absurd hm hne }

theorem startTrainTimer_agrees (h : TrackAgrees s t) (hm : (s.ts.get t).mode = .passing) :
    TrackAgrees (s.startTrainTimer t) t := by
  simp only [State.startTrainTimer]
  repeat' split
  · exact startTStand_agrees h hm
  · exact startTSettle_agrees h (by rw [hm]; rfl)
  · exact startTEnd_agrees h hm

theorem startTrainTimer_onlyTrack (s : State) (t : Track) : OnlyTrack t s (s.startTrainTimer t) := by
  simp only [State.startTrainTimer, State.startTStand, State.startTSettle, State.startTEnd]
  repeat' split
  all_goals exact .onTrack_checked _ _ _ _

theorem startStuckIfOn_onlyTrack (s : State) (t : Track) (g : Head) : OnlyTrack t s (s.startStuckIfOn t g) := by
  simp only [State.startStuckIfOn, State.startStuck]
  split
  · exact .onTrack_checked _ _ _ _
  · exact .of_same (.refl s)

theorem startStuckIfOn_mode (s : State) (t : Track) (g : Head) :
    ((s.startStuckIfOn t g).ts.get t).mode = (s.ts.get t).mode := by
  simp only [State.startStuckIfOn]
  split
  · simp only [State.startStuck, onTrack_get, (checkSetting_only s _).ts]
  · rfl

theorem startStuckIfOn_agrees (h : TrackAgrees s t) (hm : (s.ts.get t).mode ≠ .fault) (g : Head) :
    TrackAgrees (s.startStuckIfOn t g) t := by
  simp only [State.startStuckIfOn, State.startStuck]
  split
  · exact h.onTrack_checked (stuckItem s t) rfl { h.seq with fault := fun hf => absurd hf hm }
  · exact h

theorem resumeStuck_onlyTrack (s : State) (t : Track) : OnlyTrack t s (s.resumeStuck t) :=
  .trans (.trans (.of_only (checkSetting_only s (itemFitted t))) (startStuckIfOn_onlyTrack _ t .a))
    (startStuckIfOn_onlyTrack _ t .b)

theorem resumeStuck_agrees (h : TrackAgrees s t) (hm : (s.ts.get t).mode ≠ .fault) : TrackAgrees (s.resumeStuck t) t := by
  have hs : SameTrack t s (s.checkSetting (itemFitted t)) := SameTracks.of_only (checkSetting_only s _) t
  have hm' : ((s.checkSetting (itemFitted t)).ts.get t).mode ≠ .fault := by rw [hs.ts]; exact hm
  exact startStuckIfOn_agrees (startStuckIfOn_agrees (hs.agrees h) hm' .a) (by rwa [startStuckIfOn_mode]) .b

/-! ### Modes -/

/-- Every timer of another mode stopped, a sequencer that enters ARMING or ARMED agrees with its mode. -/
theorem seqAgrees_stopped (q : Sequencer) {m : TrackMode} (hm : m = .arming ∨ m = .armed) :
    SeqAgrees { stopIdle (stopTrain q) with mode := m, recovery := none } := by
  constructor <;> rcases hm with rfl | rfl <;> simp [stopIdle, stopTrain]

theorem enterArmed_onlyTrack (s : State) (t : Track) : OnlyTrack t s (s.enterArmed t) := by
  unfold State.enterArmed State.startTDormant State.startTRetare
  exact .trans (.trans (.onTrack s t _) (.onTrack_checked _ t itemTDormant _)) (.onTrack_checked _ t itemTRetare _)

/-- A track without an open train and without a refresh enters ARMED. -/
theorem enterArmed_agrees (ho : s.tas.opens.get t = none) (hr : s.cac.refresh.get t = none) :
    TrackAgrees (s.enterArmed t) t := by
  have h1 : TrackAgrees (s.onTrack t fun q => { stopIdle (stopTrain q) with mode := .armed, recovery := none }) t := by
    refine .of_seq ?_ ?_ ?_ (fun _ => ho) (by simp [hr]) <;> rw [onTrack_get]
    · exact seqAgrees_stopped _ (.inr rfl)
    · simp [ho, trainMode]
    · simp [hr]
  have h2 := startTDormant_agrees h1 (by rw [onTrack_get])
  exact startTRetare_agrees h2 (by simp only [State.startTDormant, onTrack_get, (checkSetting_only _ _).ts])

theorem enterArming_onlyTrack (s : State) (t : Track) : OnlyTrack t s (s.enterArming t) := by
  simp only [State.enterArming]
  split
  · exact .trans (.onTrack s t _) (.withRefresh _ t _)
  · exact .trans (.onTrack s t _) (enterArmed_onlyTrack _ t)

/-- A track without an open train enters ARMING; outside RUN, where it goes on to ARMED, it has no refresh. -/
theorem enterArming_agrees (ho : s.tas.opens.get t = none) (hr : s.sup.mode ≠ .run → s.cac.refresh.get t = none) :
    TrackAgrees (s.enterArming t) t := by
  simp only [State.enterArming]
  split
  · refine .of_seq ?_ ?_ ?_ (fun _ => ho) (by simp [State.beginRefresh, Config.refreshLength]) <;>
      rw [State.beginRefresh_ts, onTrack_get]
    · exact seqAgrees_stopped _ (.inl rfl)
    · simp [State.beginRefresh, ho, trainMode]
    · simp [State.beginRefresh]
  · next hm => exact enterArmed_agrees ho (hr hm)

/-- A track outside ARMING has no refresh. -/
theorem TrackAgrees.no_refresh (h : TrackAgrees s t) (hm : (s.ts.get t).mode ≠ .arming) : s.cac.refresh.get t = none := by
  simpa [hm] using h.arming

/-- A track outside PASSING and STANDSTILL has no open train. -/
theorem TrackAgrees.no_train (h : TrackAgrees s t) (hm : trainMode (s.ts.get t).mode = false) :
    s.tas.opens.get t = none := by
  simpa [hm] using h.opened

theorem enterArming_mode (s : State) (t : Track) : ((s.enterArming t).ts.get t).mode ≠ .fault := by
  simp only [State.enterArming]
  split
  · simp only [State.beginRefresh_ts, onTrack_get]; decide
  · simp only [State.enterArmed, State.startTRetare, State.startTDormant, onTrack_get, (checkSetting_only _ _).ts]
    decide

/-! ### Closing and opening a train -/

theorem closeRequest_onlyTrack (s : State) (t : Track) (reason : CloseReason) : OnlyTrack t s (s.closeRequest t reason) := by
  have hf := closeRequest_frame s t reason
  exact fun k hk => ⟨by rw [hf.ts], by rw [hf.cac], by rw [hf.sup],
    by rw [closeRequest_opens, Pair.get_set_other _ _ _ _ hk]⟩

theorem closeToArming_onlyTrack (s : State) (t : Track) (reason : CloseReason) : OnlyTrack t s (s.closeToArming t reason) :=
  .trans (closeRequest_onlyTrack s t reason) (enterArming_onlyTrack _ t)

/-- A track without a refresh closes its train and enters ARMING. -/
theorem closeToArming_agrees (hr : s.cac.refresh.get t = none) (reason : CloseReason) :
    TrackAgrees (s.closeToArming t reason) t := by
  refine enterArming_agrees ?_ fun _ => ?_
  · rw [closeRequest_opens, Pair.get_set_same]
  · rw [(closeRequest_frame s t reason).cac]; exact hr

/-- A crossing handed over changes no track but in what its open train holds. -/
theorem onOpen_same (s : State) (t : Track) (f : Train → Train) : SameTracks s (s.onOpen t f) := by
  refine fun k => ⟨rfl, rfl, rfl, ?_⟩
  by_cases hk : k = t
  · subst hk; simp [State.onOpen]
  · simp [State.onOpen, hk]

theorem requestJob_same (s : State) (n : Nat) (t : Track) (k i : Nat) (c : Crossing) (speed : Nat × ValueClass) :
    SameTracks s (s.requestJob n t k i c speed) := by
  simp only [State.requestJob]
  split
  · exact .trans (.of_only (checkSettings_only s [itemD t, itemGs t, itemGe t, itemH t, itemW t])) (.of_blocks rfl rfl rfl rfl)
  · exact .of_blocks rfl rfl rfl rfl

theorem pushAxle_same (s : State) (t : Track) (tr : Train) (c : Crossing) (speed : Nat × ValueClass) (k : Nat) :
    SameTracks s (s.pushAxle t tr c speed k) := by
  have hput (a : AxleEntry) : SameTracks s (State.cleanEntry { s with trs.axles := put s.trs.axles k a } .axle k) :=
    .of_blocks rfl rfl rfl rfl
  exact .trans (.trans (hput _) (onOpen_same _ t _)) (requestJob_same _ _ _ _ _ _ _)

theorem unwind_same (s : State) (t : Track) (top : StackItem) : SameTracks s (s.unwind t top) := by
  have hjob : SameTracks s (s.unwindJob top.entry) := .of_blocks rfl rfl rfl rfl
  have hopen := hjob.trans (onOpen_same (s.unwindJob top.entry) t fun tr => { tr with stack := tr.stack.dropLast })
  exact hopen.trans (.of_blocks rfl rfl rfl rfl)

theorem handCrossing_same (s : State) (t : Track) (c : Crossing) (speed : Nat × ValueClass) :
    SameTracks s (s.handCrossing t c speed) := by
  simp only [State.handCrossing]
  split
  · split
    · simp only [State.forward]
      repeat' split
      · exact onOpen_same s t _
      · exact onOpen_same s t _
      · exact .trans (.of_only (makeRoom_only s axleRoom)) (onOpen_same _ t _)
      · exact .trans (.of_only (makeRoom_only s axleRoom)) (pushAxle_same _ t _ _ _ _)
    · simp only [State.reverse]
      repeat' split
      · exact .trans (onOpen_same s t _) (onOpen_same _ t _)
      · exact .trans (onOpen_same s t _) (unwind_same _ t _)
      · exact .trans (onOpen_same s t _) (onOpen_same _ t _)
  · exact .refl s

/-- The train that a crossing opens, under the number given to it (R76, R77). -/
def newTrain (s : State) (t : Track) (c : Crossing) : Train :=
  { number := s.numberTrain.2, track := t, dir := c.dir, openTime := s.numberTrain.1.stamp, openCount := c.tA, stack := [],
    phantoms := 0, unwinds := 0, withdrawals := 0, poolShort := false, overlength := false,
    power := decide (s.numberTrain.1.sup.mode = .reduced) }

/-- The state with that train open, before its first crossing is handed over. -/
def withNewTrain (s : State) (t : Track) (c : Crossing) : State :=
  { s.numberTrain.1 with tas.opens := s.numberTrain.1.tas.opens.set t (some (newTrain s t c)) }

theorem openTrain_eq (s : State) (t : Track) (c : Crossing) (speed : Nat × ValueClass) :
    s.openTrain t c speed = (withNewTrain s t c).handCrossing t c speed := rfl

theorem openTrain_same (s : State) (t : Track) (c : Crossing) (speed : Nat × ValueClass) :
    SameTracks { s with tas.opens := s.tas.opens.set t (some (newTrain s t c)) } (s.openTrain t c speed) := by
  have hn : SameTracks { s with tas.opens := s.tas.opens.set t (some (newTrain s t c)) } (withNewTrain s t c) :=
    .of_blocks rfl rfl rfl rfl
  exact hn.trans (handCrossing_same (withNewTrain s t c) t c speed)

theorem openTrain_onlyTrack (s : State) (t : Track) (c : Crossing) (speed : Nat × ValueClass) :
    OnlyTrack t s (s.openTrain t c speed) := by
  exact .trans (.withOpen s t (some (newTrain s t c))) (.of_same (openTrain_same s t c speed))

/-! ### Crossings -/

theorem disposeCrossing_onlyTrack (s : State) (t : Track) (c : Crossing) (speed : Nat × ValueClass) :
    OnlyTrack t s (s.disposeCrossing t c speed) := by
  simp only [State.disposeCrossing]
  repeat' split
  · exact .onTrack s t _
  · exact .trans (.trans (.trans (.withRefresh s t none) (openTrain_onlyTrack _ t c speed)) (.onTrack _ t _))
      (startTrainTimer_onlyTrack _ t)
  · exact .trans (.trans (.trans (.withRefresh s t none) (openTrain_onlyTrack _ t c speed)) (.onTrack _ t _))
      (startTrainTimer_onlyTrack _ t)
  · exact .trans (.of_same (handCrossing_same s t c speed)) (startTrainTimer_onlyTrack _ t)
  · exact .trans (.trans (.of_same (handCrossing_same s t c speed)) (.onTrack _ t _)) (startTrainTimer_onlyTrack _ t)
  all_goals exact .of_same (.refl s)

/-- A train opened in ARMING or ARMED outside FROZEN takes the track to PASSING (R18). -/
theorem openTrain_agrees (h : TrackAgrees s t) (hf : s.sup.mode ≠ .frozen)
    (hm : (s.ts.get t).mode = .arming ∨ (s.ts.get t).mode = .armed) (c : Crossing) (speed : Nat × ValueClass) :
    TrackAgrees
      (((s.abandonRefresh t).openTrain t c speed).onTrack t fun q => { stopIdle q with mode := .passing }) t := by
  have ho := openTrain_same (s.abandonRefresh t) t c speed
  have hr : ((s.abandonRefresh t).openTrain t c speed).cac.refresh.get t = none := by
    rw [(ho t).refresh]; simp [State.abandonRefresh]
  have hq := h.seq
  refine .of_seq ?_ ?_ ?_ ?_ ?_
  · rw [onTrack_get, (ho t).ts]
    refine ⟨nofun, nofun, fun _ => hq.recovery ?_, fun _ => ⟨rfl, rfl⟩, nofun, fun h => absurd rfl h,
      fun _ => hq.standing ?_⟩ <;> rcases hm with hm | hm <;> simp [hm]
  · rw [onTrack_get]
    exact (ho t).opened.trans (by simp [trainMode])
  · rw [onTrack_get, State.onTrack_cac, hr]; simp
  · intro h'
    exact absurd ((ho t).mode.symm.trans h') hf
  · rw [State.onTrack_cac, hr]; simp

theorem disposeCrossing_agrees (h : TrackAgrees s t) (c : Crossing) (speed : Nat × ValueClass) :
    TrackAgrees (s.disposeCrossing t c speed) t := by
  simp only [State.disposeCrossing]
  split
  · exact h.onTrack rfl { h.seq with }
  · next hf =>
    split
    · next hm => exact startTrainTimer_agrees (openTrain_agrees h hf (.inl hm) c speed) (by rw [onTrack_get])
    · next hm => exact startTrainTimer_agrees (openTrain_agrees h hf (.inr hm) c speed) (by rw [onTrack_get])
    · next hm =>
      have hs := handCrossing_same s t c speed t
      exact startTrainTimer_agrees (hs.agrees h) (by rw [hs.ts]; exact hm)
    · next hm =>
      have hs := (handCrossing_same s t c speed t)
      have ha := hs.agrees h
      have hm' : ((s.handCrossing t c speed).ts.get t).mode = .standstill := by rw [hs.ts]; exact hm
      refine startTrainTimer_agrees (.of_seq ?_ ?_ ?_ ha.frozen ha.progress) (by rw [onTrack_get]) <;> rw [onTrack_get]
      · have hq := ha.seq
        exact ⟨nofun, nofun, fun _ => hq.recovery (by simp [hm']), fun _ => hq.idle (by simp [hm']), nofun,
          fun h => absurd rfl h, fun _ => rfl⟩
      · exact ha.opened.trans (by rw [hm']; rfl)
      · exact ha.arming.trans (by rw [hm']; rfl)
    · exact h
    · exact h

end Sys2Proof.Machine
end

