-- ==== Sys2Proof/Proofs/TrackCommands.lean ====
section
/-! SUPPORT. `TrackAgrees` on both tracks under the commands that change a track: heads, approach contacts, occupancy, track
timers, samples, the freeze, RESTART, and the end of the START check. -/

namespace Sys2Proof.Machine

variable {s u : State} {t : Track}

/-- Both tracks agree. -/
def TracksAgree (s : State) : Prop := ∀ k, TrackAgrees s k

theorem SameTracks.tracksAgree (h : SameTracks s u) (ha : TracksAgree s) : TracksAgree u := fun k => (h k).agrees (ha k)

theorem TracksAgree.change (ha : TracksAgree s) (ho : OnlyTrack t s u) (ht : TrackAgrees u t) : TracksAgree u := ho.agrees ha ht

/-- A change of one track that keeps its mode. -/
theorem TracksAgree.onTrack (ha : TracksAgree s) {f : Sequencer → Sequencer}
    (hm : (f (s.ts.get t)).mode = (s.ts.get t).mode) (hq : SeqAgrees (f (s.ts.get t))) : TracksAgree (s.onTrack t f) :=
  ha.change (.onTrack s t f) ((ha t).onTrack hm hq)

theorem atTrack_same (s : State) (t : Track) (now : Nat) : SameTracks s (s.atTrack t now) :=
  .trans (.of_blocks (u := s.advance now) rfl rfl rfl rfl) (.of_only (checkSetting_only _ _))

/-! ### Heads -/

theorem headCrossing_onlyTrack (s : State) (t : Track) (h : Head) : OnlyTrack t s (s.headCrossing t h) := by
  simp only [State.headCrossing, State.recognise]
  split
  · exact .onTrack s t _
  · split
    · exact .onTrack s t _
    · exact .trans (.trans (.onTrack s t _) (.of_only (checkSettings_only _ _))) (disposeCrossing_onlyTrack _ t _ _)

theorem headCrossing_agrees (h : TrackAgrees s t) (hm : (s.ts.get t).mode ≠ .fault) (g : Head) :
    TrackAgrees (s.headCrossing t g) t := by
  have hq := h.seq
  simp only [State.headCrossing, State.recognise]
  split
  · exact h.onTrack rfl { hq with fault := fun hf => absurd hf hm }
  · split
    · exact h.onTrack rfl { hq with fault := fun hf => absurd hf hm }
    · refine disposeCrossing_agrees ?_ _ _
      exact (SameTracks.of_only (checkSettings_only _ _) t).agrees (h.onTrack rfl { hq with fault := fun hf => absurd hf hm })

/-- A track outside PASSING, STANDSTILL and ARMING enters ARMING. -/
theorem enterArming_idle (h : TrackAgrees s t) (hm : trainMode (s.ts.get t).mode = false)
    (ha : (s.ts.get t).mode ≠ .arming) : TrackAgrees (s.enterArming t) t :=
  enterArming_agrees (h.no_train hm) fun _ => h.no_refresh ha

theorem headOnActive_agrees (ha : TracksAgree s) (hm : (s.ts.get t).mode ≠ .fault) (g : Head) :
    TracksAgree (s.headOnActive t g) := by
  simp only [State.headOnActive]
  have h1 := ha.change (startStuckIfOn_onlyTrack s t g) (startStuckIfOn_agrees (ha t) hm g)
  have hm1 : ((s.startStuckIfOn t g).ts.get t).mode ≠ .fault := by rwa [startStuckIfOn_mode]
  split
  · next hd =>
    have h2 := enterArming_idle (h1 t) (by rw [hd]; rfl) (by rw [hd]; decide)
    exact (h1.change (enterArming_onlyTrack _ t) h2).change (headCrossing_onlyTrack _ t g)
      (headCrossing_agrees h2 (enterArming_mode _ t) g)
  · exact h1.change (headCrossing_onlyTrack _ t g) (headCrossing_agrees (h1 t) hm1 g)

theorem recoveryAfterOff_mode (count : Nat) (q : Sequencer) : (recoveryAfterOff count q).mode = q.mode := by
  unfold recoveryAfterOff; split <;> rfl

theorem recoveryAfterOff_agrees {q : Sequencer} (h : SeqAgrees q) (hm : q.mode = .fault) (count : Nat) :
    SeqAgrees (recoveryAfterOff count q) := by
  unfold recoveryAfterOff
  split
  · exact { h with recovery := fun hne => absurd hm hne }
  · exact h

/-! ### Occupancy -/

theorem startStuckBoth_agrees (ha : TracksAgree s) (hm : (s.ts.get t).mode ≠ .fault) :
    TracksAgree ((s.startStuckIfOn t .a).startStuckIfOn t .b) := by
  have h1 := ha.change (startStuckIfOn_onlyTrack s t .a) (startStuckIfOn_agrees (ha t) hm .a)
  exact h1.change (startStuckIfOn_onlyTrack _ t .b) (startStuckIfOn_agrees (h1 t) (by rwa [startStuckIfOn_mode]) .b)

theorem startTSettle_onlyTrack (s : State) (t : Track) : OnlyTrack t s (s.startTSettle t) := by
  unfold State.startTSettle; exact .onTrack_checked s t itemTSettle _
theorem startTStand_onlyTrack (s : State) (t : Track) : OnlyTrack t s (s.startTStand t) := by
  unfold State.startTStand; exact .onTrack_checked s t itemTStand _
theorem startTDormant_onlyTrack (s : State) (t : Track) : OnlyTrack t s (s.startTDormant t) := by
  unfold State.startTDormant; exact .onTrack_checked s t itemTDormant _
theorem startTAbandon_onlyTrack (s : State) (t : Track) : OnlyTrack t s (s.startTAbandon t) := by
  unfold State.startTAbandon; exact .onTrack_checked s t itemTAbandon _

theorem occupancyClears_agrees (ha : TracksAgree s) (hm : (s.ts.get t).mode ≠ .fault) : TracksAgree (s.occupancyClears t) := by
  have h1 := startStuckBoth_agrees ha hm
  simp only [State.occupancyClears]
  split
  · next hp =>
    have h2 := h1.onTrack (t := t) (f := fun q => { q with tStand := none }) rfl
      { (h1 t).seq with passing := fun hne => absurd hp hne }
    exact h2.change (startTSettle_onlyTrack _ t) (startTSettle_agrees (h2 t) (by rw [onTrack_get, hp]; rfl))
  · next hp => exact h1.change (startTSettle_onlyTrack _ t) (startTSettle_agrees (h1 t) (by rw [hp]; rfl))
  · exact h1

theorem occupancyFills_agrees (ha : TracksAgree s) : TracksAgree (s.occupancyFills t) := by
  have h1 : TracksAgree (s.onTrack t stopStuck) :=
    ha.onTrack rfl { (ha t).seq with fault := fun hf => ⟨((ha t).fault hf).1, rfl⟩ }
  simp only [State.occupancyFills]
  split
  · next hp =>
    have h2 := h1.onTrack (t := t) (f := fun q => { q with tSettle := none }) rfl { (h1 t).seq with settle := fun _ => rfl }
    exact h2.change (startTStand_onlyTrack _ t) (startTStand_agrees (h2 t) (by rw [onTrack_get]; exact hp))
  · exact h1.onTrack rfl { (h1 t).seq with settle := fun _ => rfl }
  · exact h1

/-! ### Track timers -/

/-- The open train of a track in PASSING or STANDSTILL is closed. -/
theorem closeOpen_agrees (ha : TracksAgree s) (hm : trainMode (s.ts.get t).mode = true) (reason : CloseReason) :
    TracksAgree (s.closeToArming t reason) :=
  ha.change (closeToArming_onlyTrack s t reason)
    (closeToArming_agrees ((ha t).no_refresh fun h => by rw [h] at hm; cases hm) reason)

/-- PASSING becomes STANDSTILL where T_stand has expired (R20). -/
theorem standstill_agrees (ha : TracksAgree s) (hm : (s.ts.get t).mode = .passing) (hs : (s.ts.get t).tStand = none) :
    TracksAgree ((s.onTrack t fun q => { q with mode := .standstill, tEnd := none }).startTAbandon t) := by
  have h := ha t
  have hq := h.seq
  have h1 : TrackAgrees (s.onTrack t fun q => { q with mode := .standstill, tEnd := none }) t := by
    refine .of_seq ?_ ?_ ?_ h.frozen h.progress <;> rw [onTrack_get]
    · exact ⟨nofun, nofun, fun _ => hq.recovery (by simp [hm]), fun _ => hq.idle (by simp [hm]), nofun, fun _ => ⟨rfl, hs⟩,
        fun h => absurd rfl h⟩
    · exact h.opened.trans (by rw [hm]; rfl)
    · exact h.arming.trans (by rw [hm]; rfl)
  exact (ha.change (.onTrack s t _) h1).change (startTAbandon_onlyTrack _ t) (startTAbandon_agrees h1 (by rw [onTrack_get]))

/-- ARMED becomes DORMANT (R13). -/
theorem dormant_agrees (ha : TracksAgree s) (hm : (s.ts.get t).mode = .armed) :
    TracksAgree (s.onTrack t fun q => { stopIdle q with mode := .dormant }) := by
  have h := ha t
  have hq := h.seq
  refine ha.change (.onTrack s t _) (.of_seq ?_ ?_ ?_ h.frozen h.progress) <;> rw [onTrack_get]
  · exact ⟨nofun, nofun, fun _ => hq.recovery (by simp [hm]), fun _ => ⟨rfl, rfl⟩, fun _ => hq.settle (by simp [hm, trainMode]),
      fun _ => hq.passing (by simp [hm]), fun _ => hq.standing (by simp [hm])⟩
  · exact h.opened.trans (by rw [hm]; rfl)
  · exact h.arming.trans (by rw [hm]; rfl)

theorem enterFault_agrees (ha : TracksAgree s) (t : Track) (g : Head) : TracksAgree (s.enterFault t g) := by
  simp only [State.enterFault]
  refine (SameTracks.of_only (enterAlarm_only _ _)).tracksAgree ?_
  refine ha.change (.trans (.trans (closeRequest_onlyTrack s t _) (.withRefresh _ t none)) (.onTrack _ t _)) ?_
  have ho : (s.closeRequest t .detectorFault).tas.opens.get t = none := by rw [closeRequest_opens, Pair.get_set_same]
  have hr : ((s.closeRequest t .detectorFault).abandonRefresh t).cac.refresh.get t = none := by simp [State.abandonRefresh]
  refine .of_seq ?_ ?_ ?_ (fun _ => ho) (fun r h => nomatch hr.symm.trans h) <;> rw [onTrack_get]
  · exact ⟨fun _ => ⟨rfl, rfl⟩, nofun, fun h => absurd rfl h, fun _ => ⟨rfl, rfl⟩, fun _ => rfl, fun _ => ⟨rfl, rfl⟩,
      fun _ => rfl⟩
  · exact congrArg Option.isSome ho
  · exact congrArg Option.isSome hr

/-- A track without an open train leaves FAULT, or the freeze, for ARMING and resumes stuck supervision (R23, R27). -/
theorem armingResumed_agrees (h : TrackAgrees (s.enterArming t) t) : TrackAgrees ((s.enterArming t).resumeStuck t) t :=
  resumeStuck_agrees h (enterArming_mode s t)

/-! ### Samples -/

/-- The tares of a track replaced, its refresh ended (R35). -/
def withTares (s : State) (t : Track) : State :=
  { s with
    cac.tare := allRows.map fun r => if rowTrack r = t then tareOf s.cac.mem r else s.cac.tare.getD r 0
    cac.tareValid := s.cac.tareValid.set t true
    cac.refresh := s.cac.refresh.set t none }

theorem completeRefresh_eq (s : State) (t : Track) :
    s.completeRefresh t = (withTares (s.checkSetting (itemFitted t)) t).enterArmed t := rfl

theorem withTares_onlyTrack (s : State) (t : Track) : OnlyTrack t s (withTares s t) :=
  fun _ hk => ⟨rfl, Pair.get_set_other _ _ _ _ hk, rfl, rfl⟩

theorem completeRefresh_onlyTrack (s : State) (t : Track) : OnlyTrack t s (s.completeRefresh t) :=
  .trans (.trans (.of_only (checkSetting_only s (itemFitted t))) (withTares_onlyTrack _ t)) (enterArmed_onlyTrack _ t)

theorem completeRefresh_agrees (ho : s.tas.opens.get t = none) : TrackAgrees (s.completeRefresh t) t := by
  rw [completeRefresh_eq]
  refine enterArmed_agrees ?_ (Pair.get_set_same ..)
  exact (congrArg (fun w => w.opens.get t) (checkSetting_only s (itemFitted t)).tas).trans ho

theorem refreshStep_onlyTrack (s : State) (t : Track) (value : Nat → Sample) : OnlyTrack t s (s.refreshStep t value) := by
  simp only [State.refreshStep]
  repeat' split
  · refine .trans ?_ (completeRefresh_onlyTrack _ t)
    exact .of_same (.of_blocks rfl rfl rfl rfl)
  · exact fun _ hk => ⟨rfl, Pair.get_set_other _ _ _ _ hk, rfl, rfl⟩
  all_goals exact .of_same (.refl s)

theorem refreshStep_agrees (h : TrackAgrees s t) (value : Nat → Sample) : TrackAgrees (s.refreshStep t value) t := by
  simp only [State.refreshStep]
  split
  · next r hr =>
    have hm : (s.ts.get t).mode = .arming := by simpa [hr] using h.arming.symm
    split
    · split
      · exact completeRefresh_agrees (h.no_train (by rw [hm]; rfl))
      · next hp =>
        have hlt := h.progress r hr
        refine .of_seq h.seq h.opened ?_ h.frozen ?_
        · simp [hm]
        · simp only [Pair.get_set_same, Option.some.injEq, forall_eq']
          omega
    · exact h
  · exact h

theorem writeSample_agrees (ha : TracksAgree s) (samples : List Sample) : TracksAgree (s.writeSample samples) := by
  simp only [State.writeSample]
  have step {w : State} (hw : TracksAgree w) (k : Track) (v : Nat → Sample) : TracksAgree (w.refreshStep k v) :=
    hw.change (refreshStep_onlyTrack w k v) (refreshStep_agrees (hw k) v)
  refine step (step ?_ .one _) .two _
  exact SameTracks.tracksAgree (s := s) (.of_blocks rfl rfl rfl rfl) ha

/-! ### The device mode -/

/-- Where the part does not freeze, the device mode is nothing to a track. -/
theorem TracksAgree.of_mode (ha : TracksAgree s) (hts : u.ts = s.ts) (hcac : u.cac.refresh = s.cac.refresh)
    (htas : u.tas.opens = s.tas.opens) (hm : u.sup.mode ≠ .frozen) : TracksAgree u := by
  intro k
  have h := ha k
  refine .of_seq (by rw [hts]; exact h.seq) (by rw [hts, htas]; exact h.opened) (by rw [hts, hcac]; exact h.arming)
    (fun hf => absurd hf hm) (by rw [hcac]; exact h.progress)

/-- The state as it would be in RUN. -/
def thawed (s : State) : State := { s with sup.mode := .run }

theorem thawed_sameTrack {k : Track} (h : SameTrack k s u) : SameTrack k (thawed s) (thawed u) :=
  ⟨h.ts, h.refresh, rfl, h.opened⟩

/-- A track agrees once it agrees as in RUN and has no open train. -/
theorem TrackAgrees.of_thawed (h : TrackAgrees (thawed s) t) (ho : s.tas.opens.get t = none) : TrackAgrees s t :=
  .of_seq h.seq h.opened h.arming (fun _ => ho) h.progress

theorem abandonRefresh_get (s : State) (t : Track) : (s.abandonRefresh t).cac.refresh.get t = none := by
  simp [State.abandonRefresh]

theorem enterArmed_refresh (s : State) (t : Track) : (s.enterArmed t).cac.refresh = s.cac.refresh := by
  simp only [State.enterArmed, State.startTDormant, State.startTRetare, State.onTrack_cac, (checkSetting_only _ _).cac]

theorem enterArmed_tas (s : State) (t : Track) : (s.enterArmed t).tas = s.tas := by
  simp only [State.enterArmed, State.startTDormant, State.startTRetare, State.onTrack_tas, (checkSetting_only _ _).tas]

/-- The freeze ends a refresh in flight before it closes the train of the track (R203 step 3). -/
def stopRefresh (s : State) (t : Track) : State :=
  if (s.ts.get t).mode = .arming then (s.abandonRefresh t).enterArmed t else s.abandonRefresh t

theorem freezeTrack_some (tr : Train) (h : (s.checkSetting (itemFitted t)).tas.opens.get t = some tr) :
    s.freezeTrack t = ((stopRefresh (s.checkSetting (itemFitted t)) t).closeToArming t .power).enterAlarm (freezeAlarm t tr) := by
  have h1 : (stopRefresh (s.checkSetting (itemFitted t)) t).tas.opens.get t = some tr := by
    unfold stopRefresh; split
    · rw [enterArmed_tas]; exact h
    · exact h
  simp only [stopRefresh] at h1 ⊢
  simp only [State.freezeTrack, h1]

theorem freezeTrack_none (h : (s.checkSetting (itemFitted t)).tas.opens.get t = none) :
    s.freezeTrack t = stopRefresh (s.checkSetting (itemFitted t)) t := by
  have h1 : (stopRefresh (s.checkSetting (itemFitted t)) t).tas.opens.get t = none := by
    unfold stopRefresh; split
    · rw [enterArmed_tas]; exact h
    · exact h
  simp only [stopRefresh] at h1 ⊢
  simp only [State.freezeTrack, h1]

theorem stopRefresh_onlyTrack (s : State) (t : Track) : OnlyTrack t s (stopRefresh s t) := by
  unfold stopRefresh
  split
  · exact .trans (.withRefresh s t none) (enterArmed_onlyTrack _ t)
  · exact .withRefresh s t none

theorem stopRefresh_refresh (s : State) (t : Track) : (stopRefresh s t).cac.refresh.get t = none := by
  unfold stopRefresh
  split
  · rw [enterArmed_refresh, abandonRefresh_get]
  · exact abandonRefresh_get s t

theorem freezeTrack_onlyTrack (s : State) (t : Track) : OnlyTrack t s (s.freezeTrack t) := by
  have hs : OnlyTrack t s (stopRefresh (s.checkSetting (itemFitted t)) t) :=
    .trans (.of_only (checkSetting_only s (itemFitted t))) (stopRefresh_onlyTrack _ t)
  cases h : (s.checkSetting (itemFitted t)).tas.opens.get t with
  | some tr =>
    rw [freezeTrack_some tr h]
    exact .trans (.trans hs (closeToArming_onlyTrack _ t .power)) (.of_only (enterAlarm_only _ _))
  | none => rw [freezeTrack_none h]; exact hs

theorem freezeTrack_agrees (h : TrackAgrees (thawed s) t) : TrackAgrees (s.freezeTrack t) t := by
  have hc : SameTrack t s (s.checkSetting (itemFitted t)) := SameTracks.of_only (checkSetting_only s _) t
  have hk := (thawed_sameTrack hc).agrees h
  cases ho : (s.checkSetting (itemFitted t)).tas.opens.get t with
  | some tr =>
    rw [freezeTrack_some tr ho]
    exact (SameTracks.of_only (enterAlarm_only _ _) t).agrees (closeToArming_agrees (stopRefresh_refresh _ t) .power)
  | none =>
    rw [freezeTrack_none ho]
    unfold stopRefresh
    split
    · exact enterArmed_agrees ho (abandonRefresh_get _ t)
    · next hm =>
      refine (hk.of_thawed ho).seq |> fun hq => .of_seq hq hk.opened ?_ (fun _ => ho) ?_
      · rw [abandonRefresh_get]; simp [hm]
      · rw [abandonRefresh_get]; exact nofun

theorem foldl_same {β : Type} (f : State → β → State) (hf : ∀ s b, SameTracks s (f s b)) (l : List β) (s : State) :
    SameTracks s (l.foldl f s) := by
  induction l generalizing s with
  | nil => exact .refl s
  | cons b l ih => exact (hf s b).trans (ih _)

theorem answer_same (s : State) (p : Port) (st : Status) (pl : Payload) : SameTracks s (s.answer p st pl) :=
  .of_blocks rfl rfl rfl rfl

theorem onAxle_same (s : State) (n : Nat) (f : AxleEntry → AxleEntry) : SameTracks s (s.onAxle n f) :=
  .of_blocks rfl rfl rfl rfl

theorem copyByNow_same (s : State) : SameTracks s s.copyByNow := by
  simp only [State.copyByNow]
  split
  · exact .of_blocks rfl rfl rfl rfl
  · exact .refl s

theorem tearCopy_same (s : State) : SameTracks s s.tearCopy := by
  simp only [State.tearCopy]
  split
  · refine (copyByNow_same s).trans ?_
    exact .of_blocks rfl rfl rfl rfl
  · exact copyByNow_same s

theorem powerFlags_same (s : State) : SameTracks s s.powerFlags := by
  unfold State.powerFlags
  exact (onOpen_same s .one _).trans (onOpen_same _ .two _)

theorem freezeEngine_same (s : State) : SameTracks s s.freezeEngine := by
  have hq : SameTracks s s.removeQueuedLive := by
    refine .trans (foldl_same _ (fun s n => onAxle_same s n (setResults .notMeasured)) ((s.aee.queue.filter isLive).filterMap jobEntry) s) ?_
    exact .of_blocks rfl rfl rfl rfl
  have he (w : State) : SameTracks w w.restartEvaluations := by
    refine foldl_same _ (fun s p => ?_) _ w
    split
    · exact answer_same s p _ _
    · exact .refl s
  refine .trans (.trans hq ?_) (he _)
  exact .of_blocks rfl rfl rfl rfl

/-- The Supply Monitor at the entry to FROZEN (R203). -/
def enteringFrozen (s : State) : State :=
  { s with
    sup.mode := .frozen
    sup.failTimer := none
    sup.recoveryTimer := none
    sup.freeze := .inProgress
    sup.freezes := bump s.sup.freezes }

/-- The state the freeze takes the tracks in: the engine emptied, the copy torn, the POWER flags set. -/
def beforeTracks (s : State) : State := (enteringFrozen s).freezeEngine.tearCopy.powerFlags

theorem freeze_eq (s : State) : s.freeze = ((beforeTracks s).freezeTrack .one).freezeTrack .two := rfl

theorem beforeTracks_same (s : State) : SameTracks (enteringFrozen s) (beforeTracks s) :=
  ((freezeEngine_same _).trans (tearCopy_same _)).trans (powerFlags_same _)

theorem freeze_agrees (ha : TracksAgree s) : TracksAgree s.freeze := by
  have ht : TracksAgree (thawed (beforeTracks s)) := fun k =>
    (thawed_sameTrack (beforeTracks_same s k)).agrees (ha.of_mode (u := thawed (enteringFrozen s)) rfl rfl rfl nofun k)
  rw [freeze_eq]
  intro k
  cases k with
  | one => exact (freezeTrack_onlyTrack _ .two .one nofun).agrees (freezeTrack_agrees (ht .one))
  | two => exact freezeTrack_agrees ((thawed_sameTrack (freezeTrack_onlyTrack _ .one .two nofun)).agrees (ht .two))

/-- A track without an open train leaves FROZEN (R27). -/
theorem leaveTrack_agrees (ho : s.tas.opens.get t = none) (hm : s.sup.mode = .run) : TrackAgrees (s.leaveTrack t) t := by
  have hc := checkSetting_only s (itemFitted t)
  have h : TrackAgrees ((s.checkSetting (itemFitted t)).enterArming t) t :=
    enterArming_agrees (by rw [hc.tas]; exact ho) fun hne => absurd (by rw [hc.sup]; exact hm) hne
  simp only [State.leaveTrack]
  split
  · exact armingResumed_agrees h
  · exact h

theorem leaveTrack_onlyTrack (s : State) (t : Track) : OnlyTrack t s (s.leaveTrack t) := by
  have h : OnlyTrack t s ((s.checkSetting (itemFitted t)).enterArming t) :=
    .trans (.of_only (checkSetting_only s (itemFitted t))) (enterArming_onlyTrack _ t)
  simp only [State.leaveTrack]
  split
  · exact h.trans (resumeStuck_onlyTrack _ t)
  · exact h

theorem SameTrack.no_train (h : SameTrack t s u) (ho : s.tas.opens.get t = none) : u.tas.opens.get t = none := by
  have := h.opened
  rw [ho] at this
  simpa using this

/-- Both tracks without an open train leave FROZEN, track 1 first. -/
theorem leaveTracks_agree (ho : ∀ k, s.tas.opens.get k = none) (hm : s.sup.mode = .run) :
    TracksAgree ((s.leaveTrack .one).leaveTrack .two) := by
  have h12 := leaveTrack_onlyTrack s .one .two nofun
  intro k
  cases k with
  | one => exact (leaveTrack_onlyTrack _ .two .one nofun).agrees (leaveTrack_agrees (ho .one) hm)
  | two => exact leaveTrack_agrees (h12.no_train (ho .two)) (h12.mode.trans hm)

/-! ### RESTART -/

theorem restartTrack_onlyTrack (s : State) (t : Track) : OnlyTrack t s (s.restartTrack t) := by
  simp only [State.restartTrack]
  exact .trans (.trans (.trans (.withRefresh s t none) (.onTrack _ t _)) (enterArming_onlyTrack _ t)) (resumeStuck_onlyTrack _ t)

theorem restartTrack_agrees (ho : s.tas.opens.get t = none) : TrackAgrees (s.restartTrack t) t :=
  armingResumed_agrees (enterArming_agrees ho fun _ => abandonRefresh_get s t)

theorem cancelJobs_same (s : State) (n : Nat) : SameTracks s (s.cancelJobs n) := by
  refine .trans (foldl_same _ (fun s k => onAxle_same s k (setResults .notMeasured)) (jobEntries s (isJobOf n)) s) ?_
  exact .of_blocks rfl rfl rfl rfl

theorem restartTrains_opens (s : State) (k : Track) : s.restartTrains.tas.opens.get k = none := by
  simp only [State.restartTrains, State.handOverAll]
  refine SameTrack.no_train (foldl_same _ (fun s (tr : Train) => cancelJobs_same s tr.number) _ _ k) ?_
  rw [closeRequest_opens, closeRequest_opens]
  cases k <;> simp

theorem restart_agrees (s : State) (p : Port) : TracksAgree (s.restart p) := by
  simp only [State.restart]
  have hr (w : State) : SameTracks w (w.restartOthers p) := by
    refine foldl_same _ (fun s q => ?_) _ w
    split
    · exact .refl s
    · exact answer_same s q _ _
  refine (((tearCopy_same _).trans (hr _)).trans (answer_same _ p _ _)).tracksAgree ?_
  have ho := restartTrains_opens s
  intro k
  cases k with
  | one => exact (restartTrack_onlyTrack _ .two .one nofun).agrees (restartTrack_agrees (ho .one))
  | two => exact restartTrack_agrees ((restartTrack_onlyTrack _ .one .two nofun).no_train (ho .two))

/-! ### The end of the START check -/

theorem startTrack_onlyTrack (s : State) (t : Track) : OnlyTrack t s (s.startTrack t) := by
  simp only [State.startTrack]
  split
  · exact .trans (.onTrack s t _) (resumeStuck_onlyTrack _ t)
  · exact .trans (enterArming_onlyTrack s t) (resumeStuck_onlyTrack _ t)

/-- A sequencer of which only the levels are set after a reset. -/
def atRest (q : Sequencer) : Prop := q = { Sequencer.start with heads := q.heads, occupied := q.occupied }

theorem startTrack_agrees (hq : atRest (s.ts.get t)) (ho : s.tas.opens.get t = none) (hr : s.cac.refresh.get t = none) :
    TrackAgrees (s.startTrack t) t := by
  simp only [State.startTrack]
  split
  · refine resumeStuck_agrees (.of_seq ?_ ?_ ?_ (fun _ => ho) ?_) (by rw [onTrack_get]; exact nofun)
    · rw [onTrack_get, hq]
      exact ⟨nofun, nofun, fun _ => rfl, fun _ => ⟨rfl, rfl⟩, fun _ => rfl, fun _ => ⟨rfl, rfl⟩, fun _ => rfl⟩
    · rw [onTrack_get]; exact congrArg Option.isSome ho
    · rw [onTrack_get]; exact congrArg Option.isSome hr
    · rw [State.onTrack_cac, hr]; exact nofun
  · exact armingResumed_agrees (enterArming_agrees ho fun _ => hr)

end Sys2Proof.Machine
end

