-- ==== Sys2Proof/Proofs/OtherCommands.lean ====
section
/-! SUPPORT. The commands that change no track, and the step: `TrackAgrees` is kept (O8). -/

namespace Sys2Proof.Machine

variable {s u : State}

/-! ### Alarms, jobs and the watch -/

theorem takenHandshake_same (s : State) : SameTracks s s.testNotice := .of_only (testNotice_only s)

theorem settleSnapshot_same (s : State) (j : Job) (peak : Option Int) : SameTracks s (s.settleSnapshot j peak) := by
  simp only [State.settleSnapshot]
  repeat' split
  all_goals exact .of_blocks rfl rfl rfl rfl

theorem lockWatch_same (s : State) (j : Job) (train entry : Nat) (peak : Option Int) :
    SameTracks s (s.lockWatch j train entry peak) := by
  have hr : SameTracks s ((s.onAxle entry fun a => { a with watched := true }).checkAxle entry []) :=
    .trans (onAxle_same s entry _) (.of_only (checkAxle_only _ _ _))
  simp only [State.lockWatch]
  refine hr.trans (.trans ?_ (settleSnapshot_same _ j peak))
  exact .of_blocks rfl rfl rfl rfl

theorem testWatch_same (s : State) (j : Job) (train entry : Nat) (r : Results) :
    SameTracks s (s.testWatch j train entry r) := by
  simp only [State.testWatch, State.actOnMatch]
  repeat' split
  · exact .refl s
  · exact lockWatch_same s j train entry _
  · exact .of_blocks rfl rfl rfl rfl
  · exact .refl s

theorem judgeLive_same (s : State) (t : Track) (train entry axle : Nat) (r : Results) :
    SameTracks s (s.judgeLive t train entry axle r) :=
  foldl_same _ (fun s (q : AlarmKind × Option Side × Nat × ValueClass) =>
      .of_only (judgeAxle_only s ⟨some t, some train, some axle, q.2.1, q.1⟩ entry q.2.2.1 q.2.2.2))
    (axleJudgements r) s

theorem deliver_same (s : State) (j : Job) (train entry axle : Nat) (r : Results) :
    SameTracks s (s.deliver j train entry axle r) := by
  have hd : SameTracks s { s.onAxle entry (writeResults r) with free := s.free + 1 } := .of_blocks rfl rfl rfl rfl
  simp only [State.deliver]
  repeat' split
  · exact .trans (.trans hd (testWatch_same _ j train entry r)) (judgeLive_same _ _ _ _ _ _)
  · exact .trans (.trans hd (judgeLive_same _ _ _ _ _ _)) (testWatch_same _ j train entry r)
  · exact .trans (onAxle_same s entry _) (judgeLive_same _ _ _ _ _ _)

theorem complete_same (s : State) (f : InFlight) : SameTracks s (s.complete f) := by
  have he : SameTracks s { s with aee.inFlight := none } := .of_blocks rfl rfl rfl rfl
  simp only [State.complete]
  repeat' split
  · exact .of_blocks rfl rfl rfl rfl
  · exact he.trans (deliver_same _ _ _ _ _ _)
  · exact he.trans (answer_same _ _ _ _)
  · exact he

theorem takeJob_same (s : State) (j : Job) : SameTracks s (s.takeJob j) := by
  have hc : SameTracks s (s.checkSettings (((trackRows j.track).map itemGain) ++ [itemPMin])) :=
    .of_only (checkSettings_only s _)
  simp only [State.takeJob]
  split
  · refine hc.trans (.trans ?_ (complete_same _ _))
    exact .of_blocks rfl rfl rfl rfl
  · exact hc.trans (.of_blocks rfl rfl rfl rfl)

/-! ### The Report Builder -/

theorem finishPieces_same (s : State) (o : CloseOp) : SameTracks s (s.finishPieces o) :=
  .trans (.of_only (closePieces_only s _)) (.of_only (closePieces_only _ _))

theorem makeRecord_same (s : State) (o : CloseOp) (header : Nat) (refs : List Nat) :
    SameTracks s (s.makeRecord o header refs) := by
  refine .trans (.of_only (checkSettings_only s [itemReportHolder, itemAlarmHoldLevel])) ?_
  exact .of_blocks rfl rfl rfl rfl

theorem discardTrain_same (s : State) (o : CloseOp) : SameTracks s (s.discardTrain o) := by
  have hf : SameTracks s { s with trs.axles := freeAll s.trs.axles (o.closing.train.stack.map StackItem.entry) } :=
    .of_blocks rfl rfl rfl rfl
  refine .trans (.trans hf (.of_only (enterAlarm_only _ (discardAlarm o.closing.train (trainTotals o).axleCount)))) ?_
  exact .of_blocks rfl rfl rfl rfl

theorem requestHeader_same (s : State) : SameTracks s s.requestHeader.1 := .of_only (makeRoom_only s headerRoom)

/-! ### Requests -/

theorem fixVehicle_only (s : State) (e : WordError) : CloseWorkOnly s (fixVehicle s e) := by
  have hc : CloseWorkOnly s ((s.foundError e (ownerName (vehicleOwner s e.index))).cleanWord e) := by constructor <;> rfl
  simp only [fixVehicle]
  split
  · cases vehicleOwner s e.index with
    | some w =>
      refine .trans ?_ (enterAlarm_only _ _)
      refine .trans ?_ (flagDamaged_only _ _)
      constructor <;> rfl
    | none => constructor <;> rfl
  · exact hc

theorem checkVehicle_only (s : State) (n : Nat) : CloseWorkOnly s (s.checkVehicle n) := checkWords_only s _ _ fixVehicle_only

theorem recordList_same (s : State) (p : Port) (first : Nat) : SameTracks s (s.recordList p first) := by
  simp only [State.recordList]
  split
  · exact answer_same s p _ _
  · refine .trans ?_ (answer_same _ p _ _)
    exact foldl_same _ (fun s (r : RecordDir) => .of_only (checkHeader_only s r.header summaryFields)) _ s

theorem headerRead_same (s : State) (p : Port) (n : Nat) : SameTracks s (s.headerRead p n) := by
  simp only [State.headerRead]
  split
  · exact .trans (.of_only (checkHeader_only s _ [])) (answer_same _ p _ _)
  · exact answer_same s p _ _

theorem axleRead_same (s : State) (p : Port) (n first : Nat) : SameTracks s (s.axleRead p n first) := by
  simp only [State.axleRead]
  repeat' split
  · exact answer_same s p _ _
  · next r _ =>
    refine .trans (.trans (.of_only (checkHeader_only s r.header [.stackDepth, .phantomCount])) ?_) (answer_same _ p _ _)
    exact foldl_same _ (fun s k => .of_only (checkAxle_only s k [])) _ _
  · exact answer_same s p _ _

theorem vehicleRead_same (s : State) (p : Port) (n first : Nat) : SameTracks s (s.vehicleRead p n first) := by
  simp only [State.vehicleRead]
  repeat' split
  · exact answer_same s p _ _
  · next r _ =>
    refine .trans (.trans (.of_only (checkHeader_only s r.header [.vehicleCount])) ?_) (answer_same _ p _ _)
    exact foldl_same _ (fun s k => .of_only (checkVehicle_only s k)) _ _
  · exact answer_same s p _ _

theorem releaseRecord_same (s : State) (p : Port) (n : Nat) : SameTracks s (s.releaseRecord p n) := by
  simp only [State.releaseRecord]
  repeat' split
  all_goals exact .of_blocks rfl rfl rfl rfl

theorem purgeRecord_same (s : State) (p : Port) (n : Nat) : SameTracks s (s.purgeRecord p n) := by
  simp only [State.purgeRecord]
  repeat' split
  all_goals exact .of_blocks rfl rfl rfl rfl

theorem alarmRead_same (s : State) (p : Port) (selection first : Nat) : SameTracks s (s.alarmRead p selection first) := by
  have hc := SameTracks.of_only (checkAlarms_only s)
  simp only [State.alarmRead]
  repeat' split
  · exact answer_same s p _ _
  · exact hc.trans (.of_blocks rfl rfl rfl rfl)
  · exact hc.trans (answer_same _ p _ _)

theorem clearNumber_same (s : State) (p : Port) (n : Nat) : SameTracks s (s.clearNumber p n) := by
  have hc := SameTracks.of_only (checkAlarms_only s)
  simp only [State.clearNumber]
  repeat' split
  · exact answer_same s p _ _
  · exact hc.trans (answer_same _ p _ _)
  · exact hc.trans (.of_blocks rfl rfl rfl rfl)
  · exact hc.trans (answer_same _ p _ _)

theorem clearTrack_same (s : State) (p : Port) (n : Nat) : SameTracks s (s.clearTrack p n) := by
  simp only [State.clearTrack]
  split
  · exact (SameTracks.of_only (checkAlarms_only s)).trans (.of_blocks rfl rfl rfl rfl)
  · exact answer_same s p _ _

theorem liveAxleRead_same (s : State) (p : Port) (n : Nat) : SameTracks s (s.liveAxleRead p n) := by
  simp only [State.liveAxleRead]
  repeat' split
  · exact answer_same s p _ _
  · exact answer_same s p _ _
  · refine .trans ?_ (answer_same _ p _ _)
    exact foldl_same _ (fun s k => .of_only (checkAxle_only s k [])) _ s

theorem windowRead_same (s : State) (p : Port) (count : Nat) : SameTracks s (s.windowRead p count) := by
  simp only [State.windowRead]
  repeat' split
  · exact answer_same s p _ _
  · exact answer_same s p _ _
  · refine (copyByNow_same s).trans ?_
    exact .of_blocks rfl rfl rfl rfl
  · exact .of_blocks rfl rfl rfl rfl

theorem windowWrite_same (s : State) (p : Port) (samples : List Sample) : SameTracks s (s.windowWrite p samples) := by
  simp only [State.windowWrite]
  repeat' split
  all_goals exact .of_blocks rfl rfl rfl rfl

theorem setCondition_same (s : State) (c : Condition) : SameTracks s (s.setCondition c) := by
  simp only [State.setCondition]
  split
  all_goals exact .of_blocks rfl rfl rfl rfl

theorem releaseWatch_same (s : State) (p : Port) : SameTracks s (s.releaseWatch p) := by
  simp only [State.releaseWatch]
  repeat' split
  all_goals exact .of_blocks rfl rfl rfl rfl

theorem evaluateSnapshot_same (s : State) (p : Port) (f : SnapshotFields) : SameTracks s (s.evaluateSnapshot p f) := by
  have hc := SameTracks.of_only (checkSettings_only s [itemD f.track, itemH f.track, itemW f.track])
  simp only [State.evaluateSnapshot]
  repeat' split
  · exact hc.trans (answer_same _ p _ _)
  · exact hc.trans (answer_same _ p _ _)
  · exact hc.trans (answer_same _ p _ _)
  · refine hc.trans (.trans (.of_only (checkSettings_only _ [itemGs f.track, itemGe f.track, itemVLow])) ?_)
    exact .of_blocks rfl rfl rfl rfl

theorem settingsRead_same (s : State) (p : Port) (first count : Nat) : SameTracks s (s.settingsRead p first count) := by
  simp only [State.settingsRead]
  split
  · exact answer_same s p _ _
  · exact .trans (.of_only (checkSettings_only s _)) (answer_same _ p _ _)

theorem storeItems_same (s : State) (l : List (Nat × Int)) : SameTracks s (s.storeItems l) :=
  foldl_same
    (fun (s : State) (e : Nat × Int) =>
      State.cleanEntry { s with settings := putSetting s.settings e.1 e.2 } .settings e.1)
    (fun _ _ => .of_blocks rfl rfl rfl rfl) l s

theorem setPermissions_same (s : State) (p : Port) (entries : List Nat) : SameTracks s (s.setPermissions p entries) := by
  simp only [State.setPermissions]
  split
  · exact answer_same s p _ _
  · exact .trans (storeItems_same s _) (answer_same _ p _ _)

/-- A write of occupancy fitted begins the stuck timers anew (R3). -/
theorem rewatchStuck_agrees (ha : TracksAgree s) (l : List (Nat × Int)) (t : Track) : TracksAgree (s.rewatchStuck l t) := by
  simp only [State.rewatchStuck]
  split
  · next hw =>
    have hm : (s.ts.get t).mode ≠ .fault := by simp_all
    have h1 : TracksAgree (s.onTrack t stopStuck) :=
      ha.onTrack rfl { (ha t).seq with fault := fun hf => absurd hf hm }
    exact h1.change (resumeStuck_onlyTrack _ t) (resumeStuck_agrees (h1 t) (by rw [onTrack_get]; exact hm))
  · exact ha

theorem settingsWrite_agrees (ha : TracksAgree s) (p : Port) (pairs : List (Nat × Nat)) :
    TracksAgree (s.settingsWrite p pairs) := by
  have hr (l : List (Nat × Int)) : TracksAgree (s.readGeometry l) :=
    (SameTracks.of_only (checkSettings_only s (presentItems l))).tracksAgree ha
  simp only [State.settingsWrite]
  repeat' split
  · exact (answer_same s p _ _).tracksAgree ha
  · exact (answer_same _ p _ _).tracksAgree (hr _)
  · exact (answer_same _ p _ _).tracksAgree (hr _)
  · exact (answer_same _ p _ _).tracksAgree
      (rewatchStuck_agrees (rewatchStuck_agrees ((storeItems_same _ _).tracksAgree (hr _)) _ .one) _ .two)

theorem forceClose_agrees (ha : TracksAgree s) (p : Port) (n : Nat) : TracksAgree (s.forceClose p n) := by
  simp only [State.forceClose]
  split
  · exact (answer_same s p _ _).tracksAgree ha
  · next t _ =>
    split
    · exact (answer_same s p _ _).tracksAgree ha
    · next tr ho =>
      refine (answer_same _ p _ _).tracksAgree ?_
      have hc : TracksAgree (s.checkSetting (itemFitted t)) := (SameTracks.of_only (checkSetting_only s _)).tracksAgree ha
      refine closeOpen_agrees hc ?_ .forced
      rw [← (hc t).opened, (checkSetting_only s _).tas, ho]; rfl

/-! ### Outcomes -/

/-- Both tracks agree in the state an outcome leads to. -/
def KeepsTracks (o : Host.Outcome State Fault Refusal) : Prop := ∀ u, o = .next u → TracksAgree u

theorem keepsTracks_next (h : TracksAgree u) : KeepsTracks (.next u) := by
  rintro v ⟨⟩; exact h

theorem letClose_agrees (h : TracksAgree u) : TracksAgree u.letClose.driveLines :=
  SameTracks.tracksAgree (.trans (.of_only (letClose_only u)) (.of_blocks rfl rfl rfl rfl)) h

theorem keepsTracks_whenUp (ha : TracksAgree s) {r : Option State} (h : ∀ u, r = some u → TracksAgree u) :
    KeepsTracks (whenUp s r) := by
  rcases whenUp_next s r with hn | ⟨u, hu, hn⟩
  · rw [hn]; exact keepsTracks_next ha
  · rw [hn]; exact keepsTracks_next (letClose_agrees (h u hu))

theorem keepsTracks_some (ha : TracksAgree s) (h : TracksAgree u) : KeepsTracks (whenUp s (some u)) :=
  keepsTracks_whenUp ha (by rintro v ⟨⟩; exact h)

/-- An expiry that keeps the tracks in agreement at its count. -/
theorem keepsTracks_expiry (ha : TracksAgree s) {timer : Timer} {f : Nat → State} (h : ∀ e, TracksAgree (f e)) :
    KeepsTracks (whenUp s (timer.map f)) := by
  refine keepsTracks_whenUp ha fun u hu => ?_
  obtain ⟨e, -, rfl⟩ := Option.map_eq_some_iff.1 hu
  exact h e

theorem keepsTracks_work (ha : TracksAgree s) (p : Port) (now : Nat) {work : Request → Option (State → State)}
    (h : ∀ r f, work r = some f → ∀ w, TracksAgree w → TracksAgree (f w)) : KeepsTracks (workEvent p now s work) := by
  rcases workEvent_next p now s work with hn | ⟨r, f, -, hf, hn⟩
  · rw [hn]; exact keepsTracks_next ha
  · rw [hn]
    refine keepsTracks_next (letClose_agrees ?_)
    have hc : TracksAgree ((s.advance now).checkSetting (itemPermission r.row)) :=
      SameTracks.tracksAgree (s := s) (.trans (.of_blocks (u := s.advance now) rfl rfl rfl rfl)
        (.of_only (checkSetting_only _ _))) ha
    rcases serve_cases (s.advance now) p r f with h1 | h1 | h1 <;> rw [h1]
    · refine SameTracks.tracksAgree ?_ hc
      exact .of_blocks rfl rfl rfl rfl
    · exact (answer_same _ p _ _).tracksAgree hc
    · exact h r f hf _ hc

/-- A request whose work leaves every track alone. -/
theorem keepsTracks_work_same (ha : TracksAgree s) (p : Port) (now : Nat) {work : Request → Option (State → State)}
    (h : ∀ r f, work r = some f → ∀ w, SameTracks w (f w)) : KeepsTracks (workEvent p now s work) :=
  keepsTracks_work ha p now fun r f hf w hw => (h r f hf w).tracksAgree hw

/-! ### The end of the START check -/

theorem keepRegion_same (s : State) : SameTracks s s.keepRegion := by
  have hr (w : State) (r : RecordDir) : SameTracks w (w.readRecord r) :=
    .trans (.trans (.of_only (checkHeader_only w r.header []))
      (foldl_same _ (fun s k => .of_only (checkVehicle_only s k)) r.vehicles _))
      (foldl_same _ (fun s k => .of_only (checkAxle_only s k [])) r.axles _)
  have hf : SameTracks s (s.trs.records.foldl State.readRecord s).freeRest :=
    .trans (foldl_same _ hr s.trs.records s) (.of_blocks rfl rfl rfl rfl)
  exact .trans (.trans (.trans hf (.of_only (checkAlarms_only _))) (.of_only (checkSettings_only _ allItems)))
    (.of_blocks rfl rfl rfl rfl)

theorem checkRegion_same (s : State) (take : Bool) : SameTracks s (s.checkRegion take) := by
  simp only [State.checkRegion]
  split
  · exact .of_blocks rfl rfl rfl rfl
  · exact (keepRegion_same s).trans (.of_blocks rfl rfl rfl rfl)

theorem intoService_agrees (s : State) (inputs : Inputs) (samples : List Sample) :
    TracksAgree (s.intoService inputs samples) := by
  have hsup (w : State) : w.startSupply.ts = w.ts ∧ w.startSupply.cac = w.cac ∧ w.startSupply.tas = w.tas := by
    simp only [State.startSupply]; repeat' split
    all_goals exact ⟨rfl, rfl, rfl⟩
  simp only [State.intoService]
  generalize hw : (State.checkRegion _ inputs.take).startSupply = w
  have hrest (k : Track) : atRest (w.ts.get k) ∧ w.tas.opens.get k = none ∧ w.cac.refresh.get k = none := by
    obtain ⟨hts, hcac, htas⟩ := hsup ((s.startBlocks inputs).checkRegion inputs.take)
    have hs := checkRegion_same (s.startBlocks inputs) inputs.take k
    rw [← hw, hts, hcac, htas, hs.ts, hs.refresh]
    refine ⟨?_, hs.no_train ?_, ?_⟩ <;> cases k <;> rfl
  have h12 := startTrack_onlyTrack w .one .two nofun
  have ht : TracksAgree ((w.startTrack .one).startTrack .two) := by
    intro k
    cases k with
    | one =>
      obtain ⟨hq, ho, hr⟩ := hrest .one
      exact (startTrack_onlyTrack _ .two .one nofun).agrees (startTrack_agrees hq ho hr)
    | two =>
      obtain ⟨hq, ho, hr⟩ := hrest .two
      exact startTrack_agrees (by rw [h12.ts]; exact hq) (h12.no_train ho) (h12.refresh.trans hr)
  have hz (w : State) : SameTracks w (w.sampleZero samples) := .of_blocks rfl rfl rfl rfl
  have hn := ((hz _).trans (takenHandshake_same _)).tracksAgree ht
  split
  · exact (SameTracks.of_only (enterAlarm_only _ _)).tracksAgree hn
  · exact hn

/-! ### Commands -/

/-- A timer of a track reads occupancy fitted and stops; no clause of the agreement asks for a running timer. -/
theorem expired_agrees (ha : TracksAgree s) (t : Track) (e : Nat) {f : Sequencer → Sequencer}
    (hm : ∀ q, (f q).mode = q.mode) (hq : ∀ q, SeqAgrees q → SeqAgrees (f q)) :
    TracksAgree ((s.atTrack t e).onTrack t f) := by
  have h1 := (atTrack_same s t e).tracksAgree ha
  exact h1.onTrack (hm _) (hq _ (h1 t).seq)

theorem testLeave_agrees (ha : TracksAgree s) : TracksAgree s.testLeave := by
  refine SameTracks.tracksAgree ?_ ha
  simp only [State.testLeave]
  split
  · exact .of_blocks rfl rfl rfl rfl
  · exact .refl s

theorem headOn_keeps (ha : TracksAgree s) (t : Track) (h : Head) (now : Nat) : KeepsTracks (exec (.headOn t h now) s) := by
  refine keepsTracks_some ha ?_
  have h1 := expired_agrees ha t now (f := setHead h true) (fun _ => rfl) fun q hq => { hq with }
  split
  · next hm => exact h1.onTrack rfl { (h1 t).seq with recovery := fun hne => absurd hm hne }
  · next hm => exact headOnActive_agrees h1 hm h

theorem headOff_keeps (ha : TracksAgree s) (t : Track) (h : Head) (now : Nat) : KeepsTracks (exec (.headOff t h now) s) := by
  refine keepsTracks_some ha ?_
  have h1 := expired_agrees ha t now (f := setHead h false) (fun _ => rfl) fun q hq => { hq with }
  split
  · next hm => exact h1.onTrack (recoveryAfterOff_mode _ _) (recoveryAfterOff_agrees (h1 t).seq hm _)
  · next hm => exact h1.onTrack rfl { (h1 t).seq with fault := fun hf => absurd hf hm }

theorem approachPulse_keeps (ha : TracksAgree s) (t : Track) (now : Nat) : KeepsTracks (exec (.approachPulse t now) s) := by
  have hs := atTrack_same s t now
  have h1 := hs.tracksAgree ha
  refine keepsTracks_some ha ?_
  split
  · next hm =>
    exact h1.change (enterArming_onlyTrack _ t)
      (enterArming_idle (h1 t) (by rw [(hs t).ts, hm]; rfl) (by rw [(hs t).ts, hm]; decide))
  · next hm => exact h1.change (startTDormant_onlyTrack _ t) (startTDormant_agrees (h1 t) (by rw [(hs t).ts, hm]))
  all_goals exact h1

theorem occupancy_keeps (ha : TracksAgree s) (t : Track) (level : Bool) (now : Nat) {act : State → State}
    (hact : ∀ w, TracksAgree w → (w.ts.get t).mode ≠ .fault → TracksAgree (act w)) :
    KeepsTracks (whenUp s (some
      (if occupancyActs ((s.atTrack t now).setOccupied t level) t then act ((s.atTrack t now).setOccupied t level)
        else (s.atTrack t now).setOccupied t level))) := by
  refine keepsTracks_some ha ?_
  have h1 : TracksAgree ((s.atTrack t now).setOccupied t level) :=
    expired_agrees ha t now (fun _ => rfl) fun q hq => { hq with }
  split
  · next ho => exact hact _ h1 (by simp only [occupancyActs, Bool.and_eq_true, bne_iff_ne] at ho; exact ho.2)
  · exact h1

/-- The expiry of a timer that closes an open train. -/
theorem closingTimer_keeps (ha : TracksAgree s) (t : Track) (reason : CloseReason) {timer : Timer} {f : Sequencer → Sequencer}
    (hm : ∀ q, (f q).mode = q.mode) (hq : ∀ q, SeqAgrees q → SeqAgrees (f q)) :
    KeepsTracks (whenUp s (timer.map fun e =>
      if trainMode ((((s.atTrack t e).onTrack t f)).ts.get t).mode then ((s.atTrack t e).onTrack t f).closeToArming t reason
      else (s.atTrack t e).onTrack t f)) := by
  refine keepsTracks_expiry ha fun e => ?_
  have h1 := expired_agrees ha t e hm hq
  split
  · next ht => exact closeOpen_agrees h1 ht reason
  · exact h1

theorem tStandExpiry_keeps (ha : TracksAgree s) (t : Track) : KeepsTracks (exec (.tStandExpiry t) s) := by
  refine keepsTracks_expiry ha fun e => ?_
  have h1 := expired_agrees ha t e (f := fun q => { q with tStand := none }) (fun _ => rfl)
    fun q hq => { hq with passing := fun hm => ⟨(hq.passing hm).1, rfl⟩ }
  dsimp only
  split
  · next hm => exact standstill_agrees h1 hm (by rw [onTrack_get])
  · exact h1

theorem tDormantExpiry_keeps (ha : TracksAgree s) (t : Track) : KeepsTracks (exec (.tDormantExpiry t) s) := by
  refine keepsTracks_expiry ha fun e => ?_
  have h1 := expired_agrees ha t e (f := fun q => { q with tDormant := none }) (fun _ => rfl)
    fun q hq => { hq with idle := fun hm => ⟨rfl, (hq.idle hm).2⟩ }
  have h2 := (SameTracks.of_only (checkSetting_only _ (itemDormancy t))).tracksAgree h1
  dsimp only
  split
  · next hm => exact dormant_agrees h2 hm.1
  · exact h2

theorem tRetareExpiry_keeps (ha : TracksAgree s) (t : Track) : KeepsTracks (exec (.tRetareExpiry t) s) := by
  refine keepsTracks_expiry ha fun e => ?_
  have h1 := expired_agrees ha t e (f := fun q => { q with tRetare := none }) (fun _ => rfl)
    fun q hq => { hq with idle := fun hm => ⟨(hq.idle hm).1, rfl⟩ }
  dsimp only
  split
  · next hm =>
    exact h1.change (enterArming_onlyTrack _ t) (enterArming_idle (h1 t) (by rw [hm]; rfl) (by rw [hm]; decide))
  · exact h1

theorem stuckTimerExpiry_keeps (ha : TracksAgree s) (t : Track) (h : Head) :
    KeepsTracks (exec (.stuckTimerExpiry t h) s) := by
  refine keepsTracks_expiry ha fun e => ?_
  have h1 := expired_agrees ha t e (f := fun q => { q with stuck := q.stuck.set (headIx h) none }) (fun _ => rfl)
    fun q hq => { hq with
      fault := fun hm => ⟨(hq.fault hm).1, by rw [(hq.fault hm).2]; cases h <;> rfl⟩ }
  dsimp only
  split
  · exact h1
  · exact enterFault_agrees h1 t h

theorem faultRecoveryExpiry_keeps (ha : TracksAgree s) (t : Track) : KeepsTracks (exec (.faultRecoveryExpiry t) s) := by
  refine keepsTracks_expiry ha fun e => ?_
  have h1 := expired_agrees ha t e (f := fun q => { q with recovery := none }) (fun _ => rfl)
    fun q hq => { hq with recovery := fun _ => rfl }
  dsimp only
  split
  · next hm =>
    exact h1.change (.trans (enterArming_onlyTrack _ t) (resumeStuck_onlyTrack _ t))
      (armingResumed_agrees (enterArming_idle (h1 t) (by rw [hm]; rfl) (by rw [hm]; decide)))
  · exact h1

end Sys2Proof.Machine
end

