-- ==== Sys2Proof/Proofs/TracksAgreeKept.lean ====
section
/-! Every command keeps both tracks in agreement (O8). -/

namespace Sys2Proof.Machine

variable {s u : State}

theorem giveStatus_same (s : State) (p : Port) (sect : Nat) : SameTracks s (s.giveStatus p sect) := by
  have hc := SameTracks.of_only (checkSetting_only s itemRetentionPolicy)
  simp only [State.giveStatus]
  split <;> split
  · exact hc.trans (answer_same _ p _ _)
  · exact answer_same s p _ _
  · exact hc.trans (answer_same _ p _ _)
  · exact answer_same s p _ _

theorem setWindow_keeps (ha : TracksAgree s) (p : Port) (now : Nat) : KeepsTracks (exec (.setWindow p now) s) := by
  refine keepsTracks_work_same ha p now fun r f hf w => ?_
  split at hf <;> cases hf
  dsimp only
  split <;> exact .of_blocks rfl rfl rfl rfl

theorem setWatch_keeps (ha : TracksAgree s) (p : Port) (now : Nat) : KeepsTracks (exec (.setWatch p now) s) := by
  refine keepsTracks_work_same ha p now fun r f hf w => ?_
  split at hf <;> cases hf
  dsimp only
  split
  · exact (setCondition_same w _).trans (answer_same _ p _ _)
  · exact answer_same w p _ _

theorem evaluateSnapshot_keeps (ha : TracksAgree s) (p : Port) (now : Nat) :
    KeepsTracks (exec (.evaluateSnapshot p now) s) := by
  refine keepsTracks_work_same ha p now fun r f hf w => ?_
  split at hf <;> cases hf
  dsimp only
  split
  · exact evaluateSnapshot_same w p _
  · exact answer_same w p _ _

theorem clearAlarmNumber_keeps (ha : TracksAgree s) (p : Port) (now : Nat) :
    KeepsTracks (exec (.clearAlarmNumber p now) s) := by
  refine keepsTracks_work_same ha p now fun r f hf w => ?_
  split at hf
  · split at hf <;> cases hf
    · exact clearNumber_same w p _
    · exact answer_same w p _ _
  · cases hf

theorem clearAlarmTrack_keeps (ha : TracksAgree s) (p : Port) (now : Nat) :
    KeepsTracks (exec (.clearAlarmTrack p now) s) := by
  refine keepsTracks_work_same ha p now fun r f hf w => ?_
  split at hf
  · split at hf <;> cases hf
    · exact clearTrack_same w p _
    · exact answer_same w p _ _
  · cases hf

theorem settingsWrite_keeps (ha : TracksAgree s) (p : Port) (now : Nat) : KeepsTracks (exec (.settingsWrite p now) s) := by
  refine keepsTracks_work ha p now fun r f hf w hw => ?_
  split at hf <;> cases hf
  exact settingsWrite_agrees hw p _

theorem forceClose_keeps (ha : TracksAgree s) (p : Port) (now : Nat) : KeepsTracks (exec (.forceClose p now) s) := by
  refine keepsTracks_work ha p now fun r f hf w hw => ?_
  split at hf <;> cases hf
  exact forceClose_agrees hw p _

theorem restart_keeps (ha : TracksAgree s) (p : Port) (now : Nat) : KeepsTracks (exec (.restart p now) s) := by
  refine keepsTracks_work ha p now fun r f hf w _ => ?_
  split at hf <;> cases hf
  exact restart_agrees w p

/-- A command that answers a state like the present one, or none. -/
theorem keepsTracks_same (ha : TracksAgree s) {r : Option State} (h : ∀ u, r = some u → SameTracks s u) :
    KeepsTracks (whenUp s r) :=
  keepsTracks_whenUp ha fun u hu => (h u hu).tracksAgree ha

theorem advance_same (s : State) (now : Nat) : SameTracks s (s.advance now) := .of_blocks rfl rfl rfl rfl

theorem jobTake_keeps (ha : TracksAgree s) : KeepsTracks (exec .jobTake s) := by
  refine keepsTracks_same ha fun u hu => ?_
  split at hu <;> cases hu
  exact takeJob_same s _

theorem liveJobComplete_keeps (ha : TracksAgree s) (now : Nat) : KeepsTracks (exec (.liveJobComplete now) s) := by
  refine keepsTracks_same ha fun u hu => ?_
  repeat' split at hu
  all_goals cases hu
  exact (advance_same s now).trans (complete_same _ _)

theorem serviceJobComplete_keeps (ha : TracksAgree s) (now : Nat) : KeepsTracks (exec (.serviceJobComplete now) s) := by
  refine keepsTracks_same ha fun u hu => ?_
  repeat' split at hu
  all_goals cases hu
  exact (advance_same s now).trans (complete_same _ _)

theorem snapshotCopyEnd_keeps (ha : TracksAgree s) (now : Nat) : KeepsTracks (exec (.snapshotCopyEnd now) s) := by
  refine keepsTracks_same ha fun u hu => ?_
  split at hu <;> cases hu
  exact .of_blocks rfl rfl rfl rfl

theorem closeTake_keeps (ha : TracksAgree s) : KeepsTracks (exec .closeTake s) := by
  have ht {c : ClosingTrain} {s1 : State} (h : s.takeClosing = some (c, s1)) : SameTracks s s1 := by
    simp only [State.takeClosing] at h
    repeat' split at h
    all_goals cases h
    all_goals exact .of_blocks rfl rfl rfl rfl
  refine keepsTracks_same ha fun u hu => ?_
  split at hu
  · next c s1 _ hc =>
    cases hu
    refine (ht hc).trans (.trans (.of_only (checkSettings_only s1 [itemBMax, itemVMin])) ?_)
    exact .of_blocks rfl rfl rfl rfl
  · cases hu

theorem recordAppend_keeps (ha : TracksAgree s) (now : Nat) : KeepsTracks (exec (.recordAppend now) s) := by
  refine keepsTracks_same ha fun u hu => ?_
  obtain ⟨o, -, hu⟩ := Option.bind_eq_some_iff.1 hu
  obtain ⟨o', -, hu⟩ := Option.bind_eq_some_iff.1 hu
  split at hu <;> cases hu
  exact ((advance_same s now).trans (finishPieces_same _ o)).trans (makeRecord_same _ _ _ _)

theorem discardedFull_keeps (ha : TracksAgree s) (now : Nat) : KeepsTracks (exec (.discardedFull now) s) := by
  refine keepsTracks_same ha fun u hu => ?_
  obtain ⟨o, -, hu⟩ := Option.bind_eq_some_iff.1 hu
  obtain ⟨o', -, hu⟩ := Option.bind_eq_some_iff.1 hu
  split at hu
  · next s2 _ hr =>
    cases hu
    have h2 : SameTracks ((s.advance now).finishPieces o) s2 := by
      have := requestHeader_same ((s.advance now).finishPieces o)
      rwa [hr] at this
    exact (((advance_same s now).trans (finishPieces_same _ o)).trans h2).trans (discardTrain_same _ _)
  · cases hu

theorem takeRises_keeps (ha : TracksAgree s) (now : Nat) : KeepsTracks (exec (.takeRises now) s) := by
  refine keepsTracks_some ha (SameTracks.tracksAgree (s := s) ?_ ha)
  dsimp only
  split <;> exact .of_blocks rfl rfl rfl rfl

theorem takeFalls_keeps (ha : TracksAgree s) (now : Nat) : KeepsTracks (exec (.takeFalls now) s) := by
  refine keepsTracks_some ha (SameTracks.tracksAgree (s := s) ?_ ha)
  dsimp only
  split
  · refine .trans ?_ (takenHandshake_same _)
    exact .of_blocks rfl rfl rfl rfl
  · refine .trans ?_ (takenHandshake_same _)
    exact .of_blocks rfl rfl rfl rfl
  · exact .of_blocks rfl rfl rfl rfl

/-! ### The supply -/

theorem supplyFailActive_keeps (ha : TracksAgree s) (now : Nat) : KeepsTracks (exec (.supplyFailActive now) s) := by
  refine keepsTracks_some ha (SameTracks.tracksAgree (s := s) ?_ ha)
  dsimp only
  split <;> exact .of_blocks rfl rfl rfl rfl

theorem supplyFailInactive_keeps (ha : TracksAgree s) (now : Nat) : KeepsTracks (exec (.supplyFailInactive now) s) := by
  refine keepsTracks_some ha ?_
  dsimp only
  split
  · exact SameTracks.tracksAgree (s := s) (.of_blocks rfl rfl rfl rfl) ha
  · exact SameTracks.tracksAgree (s := s) (.of_blocks rfl rfl rfl rfl) ha
  · refine testLeave_agrees (SameTracks.tracksAgree (s := s) ?_ ha)
    exact .of_blocks rfl rfl rfl rfl

theorem holdupLowActive_keeps (ha : TracksAgree s) (now : Nat) : KeepsTracks (exec (.holdupLowActive now) s) := by
  have hs : SameTracks s { s.advance now with sup.holdupLow := true } := .of_blocks rfl rfl rfl rfl
  refine keepsTracks_some ha ?_
  dsimp only
  split
  · exact freeze_agrees (hs.tracksAgree ha)
  · exact freeze_agrees (hs.tracksAgree ha)
  · exact SameTracks.tracksAgree (s := s) (.of_blocks rfl rfl rfl rfl) ha

theorem holdupLowInactive_keeps (ha : TracksAgree s) (now : Nat) : KeepsTracks (exec (.holdupLowInactive now) s) := by
  refine keepsTracks_some ha (testLeave_agrees (SameTracks.tracksAgree (s := s) ?_ ha))
  exact .of_blocks rfl rfl rfl rfl

theorem failTimerExpiry_keeps (ha : TracksAgree s) : KeepsTracks (exec .failTimerExpiry s) := by
  refine keepsTracks_expiry ha fun e => ?_
  dsimp only
  split
  · refine (powerFlags_same _).tracksAgree ?_
    exact ha.of_mode rfl rfl rfl nofun
  · exact SameTracks.tracksAgree (s := s) (.of_blocks rfl rfl rfl rfl) ha

theorem recoveryTimerExpiry_keeps (ha : TracksAgree s) : KeepsTracks (exec .recoveryTimerExpiry s) := by
  refine keepsTracks_expiry ha fun e => ?_
  dsimp only
  split
  · exact ha.of_mode rfl rfl rfl nofun
  · exact SameTracks.tracksAgree (s := s) (.of_blocks rfl rfl rfl rfl) ha

theorem freezeComplete_keeps (ha : TracksAgree s) : KeepsTracks (exec .freezeComplete s) := by
  refine keepsTracks_whenUp ha fun u hu => ?_
  split at hu <;> cases hu
  refine testLeave_agrees (SameTracks.tracksAgree (s := s) ?_ ha)
  exact .of_blocks rfl rfl rfl rfl

theorem leaveTimerExpiry_keeps (ha : TracksAgree s) : KeepsTracks (exec .leaveTimerExpiry s) := by
  refine keepsTracks_expiry ha fun e => ?_
  dsimp only
  split
  · next hm => exact leaveTracks_agree (fun k => (ha k).frozen hm) rfl
  · exact SameTracks.tracksAgree (s := s) (.of_blocks rfl rfl rfl rfl) ha

theorem startCheckEnd_keeps (ha : TracksAgree s) (inputs : Inputs) (samples : List Sample) :
    KeepsTracks (exec (.startCheckEnd inputs samples) s) := by
  show KeepsTracks (if s.startCheck then _ else _)
  split
  · refine keepsTracks_next (SameTracks.tracksAgree ?_ (intoService_agrees s inputs samples))
    exact .of_blocks rfl rfl rfl rfl
  · exact keepsTracks_next ha

/-! ### Every command -/

theorem exec_keepsTracks (ha : TracksAgree s) (i : Instr) : KeepsTracks (exec i s) := by
  cases i with
  | headOn t h now => exact headOn_keeps ha t h now
  | headOff t h now => exact headOff_keeps ha t h now
  | approachPulse t now => exact approachPulse_keeps ha t now
  | occupancyClear t now => exact occupancy_keeps ha t false now fun w hw hm => occupancyClears_agrees hw hm
  | occupancyOccupied t now => exact occupancy_keeps ha t true now fun w hw _ => occupancyFills_agrees hw
  | tSettleExpiry t =>
    exact closingTimer_keeps ha t .normal (fun _ => rfl) fun q hq => { hq with settle := fun _ => rfl }
  | tEndExpiry t =>
    exact closingTimer_keeps ha t .normal (fun _ => rfl)
      fun q hq => { hq with passing := fun hm => ⟨rfl, (hq.passing hm).2⟩ }
  | tStandExpiry t => exact tStandExpiry_keeps ha t
  | tAbandonExpiry t =>
    exact closingTimer_keeps ha t .abandoned (fun _ => rfl) fun q hq => { hq with standing := fun _ => rfl }
  | tDormantExpiry t => exact tDormantExpiry_keeps ha t
  | tRetareExpiry t => exact tRetareExpiry_keeps ha t
  | stuckTimerExpiry t h => exact stuckTimerExpiry_keeps ha t h
  | faultRecoveryExpiry t => exact faultRecoveryExpiry_keeps ha t
  | sampleWrite samples => exact keepsTracks_some ha (writeSample_agrees ha samples)
  | refreshComplete t samples =>
    refine keepsTracks_whenUp ha fun u hu => ?_
    split at hu <;> cases hu
    exact writeSample_agrees ha samples
  | jobTake => exact jobTake_keeps ha
  | liveJobComplete now => exact liveJobComplete_keeps ha now
  | serviceJobComplete now => exact serviceJobComplete_keeps ha now
  | snapshotCopyEnd now => exact snapshotCopyEnd_keeps ha now
  | closeTake => exact closeTake_keeps ha
  | recordAppend now => exact recordAppend_keeps ha now
  | discardedFull now => exact discardedFull_keeps ha now
  | takeRises now => exact takeRises_keeps ha now
  | takeFalls now => exact takeFalls_keeps ha now
  | supplyFailActive now => exact supplyFailActive_keeps ha now
  | supplyFailInactive now => exact supplyFailInactive_keeps ha now
  | holdupLowActive now => exact holdupLowActive_keeps ha now
  | holdupLowInactive now => exact holdupLowInactive_keeps ha now
  | failTimerExpiry => exact failTimerExpiry_keeps ha
  | recoveryTimerExpiry => exact recoveryTimerExpiry_keeps ha
  | freezeComplete => exact freezeComplete_keeps ha
  | leaveTimerExpiry => exact leaveTimerExpiry_keeps ha
  | start => exact keepsTracks_next (SameTracks.tracksAgree (s := s) (.of_blocks rfl rfl rfl rfl) ha)
  | startCheckEnd inputs samples => exact startCheckEnd_keeps ha inputs samples
  | requestPeriod p bytes => exact keepsTracks_next (SameTracks.tracksAgree (s := s) (.of_blocks rfl rfl rfl rfl) ha)
  | answerFetch p => exact keepsTracks_next (SameTracks.tracksAgree (s := s) (.of_blocks rfl rfl rfl rfl) ha)
  | readPeriodEnd p bytes => exact keepsTracks_next (SameTracks.tracksAgree (s := s) (.of_blocks rfl rfl rfl rfl) ha)
  | setWindow p now => exact setWindow_keeps ha p now
  | setWatch p now => exact setWatch_keeps ha p now
  | evaluateSnapshot p now => exact evaluateSnapshot_keeps ha p now
  | clearAlarmNumber p now => exact clearAlarmNumber_keeps ha p now
  | clearAlarmTrack p now => exact clearAlarmTrack_keeps ha p now
  | settingsWrite p now => exact settingsWrite_keeps ha p now
  | forceClose p now => exact forceClose_keeps ha p now
  | restart p now => exact restart_keeps ha p now
  | recordList p now =>
    exact keepsTracks_work_same ha p now fun r f hf w => by split at hf <;> cases hf; exact recordList_same w p _
  | headerRead p now =>
    exact keepsTracks_work_same ha p now fun r f hf w => by split at hf <;> cases hf; exact headerRead_same w p _
  | axleRead p now =>
    exact keepsTracks_work_same ha p now fun r f hf w => by split at hf <;> cases hf; exact axleRead_same w p _ _
  | vehicleRead p now =>
    exact keepsTracks_work_same ha p now fun r f hf w => by split at hf <;> cases hf; exact vehicleRead_same w p _ _
  | releaseRecord p now =>
    exact keepsTracks_work_same ha p now fun r f hf w => by split at hf <;> cases hf; exact releaseRecord_same w p _
  | alarmRead p now =>
    exact keepsTracks_work_same ha p now fun r f hf w => by split at hf <;> cases hf; exact alarmRead_same w p _ _
  | clearUnlisted p now =>
    exact keepsTracks_work_same ha p now fun r f hf w => by split at hf <;> cases hf; exact .of_blocks rfl rfl rfl rfl
  | liveAxleRead p now =>
    exact keepsTracks_work_same ha p now fun r f hf w => by split at hf <;> cases hf; exact liveAxleRead_same w p _
  | setSiteTime p now =>
    exact keepsTracks_work_same ha p now fun r f hf w => by split at hf <;> cases hf; exact .of_blocks rfl rfl rfl rfl
  | windowRead p now =>
    exact keepsTracks_work_same ha p now fun r f hf w => by split at hf <;> cases hf; exact windowRead_same w p _
  | windowWrite p now =>
    exact keepsTracks_work_same ha p now fun r f hf w => by split at hf <;> cases hf; exact windowWrite_same w p _
  | watchRead p now =>
    exact keepsTracks_work_same ha p now fun r f hf w => by split at hf <;> cases hf; exact answer_same w p _ _
  | releaseWatch p now =>
    exact keepsTracks_work_same ha p now fun r f hf w => by split at hf <;> cases hf; exact releaseWatch_same w p
  | settingsRead p now =>
    exact keepsTracks_work_same ha p now fun r f hf w => by split at hf <;> cases hf; exact settingsRead_same w p _ _
  | setPermissions p now =>
    exact keepsTracks_work_same ha p now fun r f hf w => by split at hf <;> cases hf; exact setPermissions_same w p _
  | purgeRecord p now =>
    exact keepsTracks_work_same ha p now fun r f hf w => by split at hf <;> cases hf; exact purgeRecord_same w p _
  | status p now =>
    exact keepsTracks_work_same ha p now fun r f hf w => by split at hf <;> cases hf; exact giveStatus_same w p _
  | clearErrorCapture p now =>
    exact keepsTracks_work_same ha p now fun r f hf w => by split at hf <;> cases hf; exact .of_blocks rfl rfl rfl rfl

end Sys2Proof.Machine

namespace Sys2Proof.Proofs

open Sys2Proof.Machine

/-- Settles O8: every command keeps the agreement (`exec_keepsTracks`), and so does the clock where none waits. -/
theorem tracksAgreeKept : Obligations.TracksAgreeKept := by
  intro s u ha hu
  rw [step] at hu
  split at hu
  · next i rest _ =>
    refine exec_keepsTracks (s := { s with pending := rest }) (SameTracks.tracksAgree ?_ ha) i u hu
    exact .of_blocks rfl rfl rfl rfl
  · cases hu
    simp only [State.idle]
    split
    · exact ha
    · exact letClose_agrees ((advance_same s _).tracksAgree ha)

end Sys2Proof.Proofs
end

