-- ==== Sys2Proof/Proofs/AlarmsAndCloses.lean ====
section
/-! SUPPORT. Entering a judgement (R148 to R151) where no word carries an error: it changes the Alarm Unit alone, and asks of the
rest of the part only its records and its time. -/

namespace Sys2Proof.Machine

variable {s u : State}

theorem cleanEntry_clean (h : s.trs.errors = []) (a : Area) (n : Nat) : s.cleanEntry a n = s := by
  simp only [State.cleanEntry, h, List.filter_nil]
  rw [← h]

/-- The Alarm Unit once a judgement has been inserted under a new key (R148, R150). -/
def insertedAlarms (s : State) (j : Judgement) : Alarms :=
  let n := nextNumber (s.alm.list.map (·.number)) Config.alarmListSize s.alm.lastNumber
  { s.alm with
    list := s.alm.list ++
      [{ number := n, key := j.key, severity := j.severity, value := j.value, level := j.level, reason := j.reason,
         first := s.stamp, last := s.stamp, state := .raised, delivered := false, link := linkAtInsertion s j,
         slot := freeSlot s.alm.list }]
    lastNumber := n }

theorem insertAlarm_clean (h : s.trs.errors = []) (j : Judgement) : s.insertAlarm j = { s with alm := insertedAlarms s j } := by
  simp only [State.insertAlarm, cleanEntry_clean h]
  rfl

/-- Entering a judgement in the list changes the Alarm Unit alone. -/
theorem enterListed_alone (h : s.trs.errors = []) (j : Judgement) :
    s.enterListed j = { s with alm := (s.enterListed j).alm } := by
  simp only [State.enterListed]
  split
  · rfl
  · split
    · rw [insertAlarm_clean h]
    · split
      · split
        · rw [insertAlarm_clean (by exact h)]
        · rfl
      · rfl

theorem testNotice_alone (s : State) : s.testNotice = { s with alm := s.testNotice.alm } := by
  simp only [State.testNotice]
  split <;> rfl

theorem enterAlarm_clean (h : s.trs.errors = []) {j : Judgement} (hj : j.severity ≠ .none) :
    s.enterAlarm j = (s.enterListed j).testNotice := by
  rw [State.enterAlarm, if_neg hj, checkAlarms_clean s h]

/-- Entering a judgement changes the Alarm Unit alone. -/
theorem enterAlarm_alone (h : s.trs.errors = []) (j : Judgement) : s.enterAlarm j = { s with alm := (s.enterAlarm j).alm } := by
  by_cases hj : j.severity = .none
  · rw [enterAlarm_none s j hj]
  · rw [enterAlarm_clean h hj, testNotice_alone, enterListed_alone h]

/-- What a judgement asks of the part: its alarms, its records, and its time. -/
structure SameForAlarms (s u : State) : Prop where
  alm : u.alm = s.alm
  records : u.trs.records = s.trs.records
  stamp : u.stamp = s.stamp

theorem SameForAlarms.inserted (h : SameForAlarms s u) (j : Judgement) : insertedAlarms u j = insertedAlarms s j := by
  have hr : hasRecord u = hasRecord s := funext fun n => by rw [hasRecord, h.records]; rfl
  have hl : linkAtInsertion u j = linkAtInsertion s j := by unfold linkAtInsertion; rw [hr]
  simp only [insertedAlarms, hl, h.alm, h.stamp]

theorem SameForAlarms.entered (h : SameForAlarms s u) (hs : s.trs.errors = []) (hu : u.trs.errors = []) (j : Judgement) :
    (u.enterAlarm j).alm = (s.enterAlarm j).alm := by
  by_cases hj : j.severity = .none
  · rw [enterAlarm_none s j hj, enterAlarm_none u j hj, h.alm]
  · have hl : (u.enterListed j).alm = (s.enterListed j).alm := by
      simp only [State.enterListed, h.alm, h.stamp]
      split
      · rfl
      · split
        · rw [insertAlarm_clean hu, insertAlarm_clean hs]; exact h.inserted j
        · split
          · split
            · rw [insertAlarm_clean (by exact hu), insertAlarm_clean (by exact hs)]
              refine SameForAlarms.inserted ?_ j
              exact ⟨rfl, h.records, h.stamp⟩
            · rfl
          · exact h.alm
    rw [enterAlarm_clean hs hj, enterAlarm_clean hu hj]
    simp only [State.testNotice, hl]
    split
    · rfl
    · exact hl

theorem testNotice_list (s : State) : s.testNotice.alm.list = s.alm.list := by
  simp only [State.testNotice]
  split <;> rfl

theorem updatedAlarm_eq (a : AlarmEntry) (j : Judgement) (time : Stamp) : updatedAlarm a j time = updatedBy a j time := by
  simp only [updatedAlarm, updatedBy]
  by_cases hlt : sevRank a.severity < sevRank j.severity
  · rw [if_pos hlt, if_pos hlt]
  · rw [if_neg hlt, if_neg hlt]
    by_cases he : a.severity = j.severity
    · rw [if_pos he, if_neg (not_not.2 he)]
    · rw [if_neg he, if_pos he]

/-- A judgement of a listed key updates its entry in place. -/
theorem enterAlarm_listed (h : s.trs.errors = []) {j : Judgement} (hj : j.severity ≠ .none)
    (hk : ∃ a ∈ s.alm.list, a.key = j.key) :
    (s.enterAlarm j).alm.list = s.alm.list.map fun a => if a.key = j.key then updatedBy a j s.stamp else a := by
  have hany : (s.alm.list.any fun a => a.key == j.key) = true := by simpa using hk
  rw [enterAlarm_clean h hj, testNotice_list, State.enterListed, if_pos hany]
  simp only [updatedAlarm_eq]

/-- A judgement of a new key joins a list that has room as its newest entry. -/
theorem enterAlarm_new (h : s.trs.errors = []) {j : Judgement} (hj : j.severity ≠ .none)
    (hk : ∀ a ∈ s.alm.list, a.key ≠ j.key) (hl : s.alm.list.length < 64) :
    (s.enterAlarm j).alm.list = (insertedAlarms s j).list := by
  have hany : ¬ (s.alm.list.any fun a => a.key == j.key) = true := by simpa using hk
  rw [enterAlarm_clean h hj, testNotice_list, State.enterListed, if_neg hany, if_pos (by exact hl), insertAlarm_clean h]

/-! ### Closing a train beside other changes -/

theorem trainClosed_onTrack (s : State) (k t : Track) (f : Sequencer → Sequencer) (tr : Train) (reason : CloseReason)
    (time : Stamp) :
    trainClosed (s.onTrack k f) t tr reason time = (trainClosed s t tr reason time).onTrack k f := by
  have hc : (s.onTrack k f).tas.closing = s.tas.closing := rfl
  unfold trainClosed
  by_cases he : tr.stack = [] ∧ tr.phantoms = 0
  · rw [if_pos he, if_pos he]; rfl
  · rw [if_neg he, if_neg he, hc]
    by_cases hl : s.tas.closing.length < 4
    · rw [if_pos hl, if_pos hl]; rfl
    · rw [if_neg hl, if_neg hl]
      cases s.tas.closing <;> rfl

/-- The open train of a track is closed and the track goes to ARMING, where no word carries an error (R21). -/
theorem closeToArming_onTrack {t : Track} {tr : Train} (h : s.trs.errors = []) (ho : s.tas.opens.get t = some tr)
    (reason : CloseReason) (f : Sequencer → Sequencer) :
    (s.onTrack t f).closeToArming t reason =
      armingOf (trainClosed s t tr reason s.stamp) t s.cac.count (f (s.ts.get t)) := by
  have hf := trainClosed_frame s t tr reason s.stamp
  have hstamp : (s.onTrack t f).stamp = s.stamp := rfl
  rw [State.closeToArming, closeRequest_some reason (by exact ho), hstamp, trainClosed_onTrack,
    enterArming_onTrack (hf.errors.trans h), hf.ts, hf.cac]

theorem closeToArming_clean {t : Track} {tr : Train} (h : s.trs.errors = []) (ho : s.tas.opens.get t = some tr)
    (reason : CloseReason) :
    s.closeToArming t reason = armingOf (trainClosed s t tr reason s.stamp) t s.cac.count (s.ts.get t) := by
  simpa [onTrack_id] using closeToArming_onTrack h ho reason id

end Sys2Proof.Machine

namespace Sys2Proof.Proofs

open Sys2Proof.Machine

/-- Settles O26: with a train open each of the three timers closes it (`closeRequest_some`), and ARMING stops the timer that
expired with the others (`enterArming_onTrack`). -/
theorem closeTimersExpire : Obligations.CloseTimersExpire := by
  intro s t tr e hs hc q hm ho time closed
  have closes (f : Sequencer → Sequencer) (hf : (f q).mode = q.mode) (reason : CloseReason)
      (ha : ∀ w : State, armingOf w t (countAt s e) (f q) = armingOf w t (countAt s e) q) :
      (let s1 := (s.atTrack t e).onTrack t f
       if trainMode (s1.ts.get t).mode then s1.closeToArming t reason else s1) = closed reason := by
    have ht : trainMode (((s.advance e).onTrack t f).ts.get t).mode = true := by
      rw [onTrack_get]
      have : trainMode (f q).mode = true := by rw [hf]; rcases hm with hm | hm <;> rw [hm] <;> rfl
      exact this
    rw [atTrack_clean s t e hc]
    dsimp only
    rw [if_pos ht, closeToArming_onTrack (by exact hc) (by exact ho)]
    exact ha _
  exact ⟨fun he => leadsTo_of_expiry he hs rfl (closes (fun q => { q with tSettle := none }) rfl .normal fun _ => rfl),
    fun he => leadsTo_of_expiry he hs rfl (closes (fun q => { q with tEnd := none }) rfl .normal fun _ => rfl),
    fun he => leadsTo_of_expiry he hs rfl (closes (fun q => { q with tAbandon := none }) rfl .abandoned fun _ => rfl)⟩

end Sys2Proof.Proofs
end

