-- ==== Sys2Proof/Proofs/FaultsAndOpenTrains.lean ====
section
/-! SUPPORT. The answer of a request that is served, and the entry to FAULT; with them the requests on open trains (O53) and the
fault timers (O28). -/

namespace Sys2Proof.Machine

variable {s u : State}

/-! ### Requests -/

/-- A request that waits with nothing to turn it away is served by its owner. -/
theorem leadsTo_of_ready {p : Port} {tag now : Nat} {r : Request} (hr : Ready s p tag r) {i : Instr}
    {work : Request → Option (State → State)} {f : State → State} (hi : exec i s = workEvent p now s work)
    (hw : work r = some f) (hu : f (reached s now) = u) : LeadsTo i s u := by
  have hwait : waiting s p = some r := by simp [waiting, hr.slot]
  have hserve : (s.advance now).serve p r f = f (s.advance now) :=
    serve_work (s.advance now) p r f hr.clean hr.allowed hr.mode
  refine leadsTo_of_eq (hi.trans ?_) hr.up hu
  rw [workEvent, hwait, Option.bind_some, hw, Option.map_some, hserve, advance_eq_reached]

/-- The answer to a request that is PENDING stands in its slot at part 1 (R184). -/
theorem answer_pending {p : Port} {tag : Nat} {r : Request} {served : Bool} (h : (s.ptu.get p).slot = .pending tag r served)
    (st : Status) (pl : Payload) : s.answer p st pl = answeredOn s p tag r.row st pl := by
  simp [State.answer, State.onPort, answeredOn, h]

theorem Ready.answered {p : Port} {tag now : Nat} {r : Request} (hr : Ready s p tag r) (st : Status) (pl : Payload) :
    (reached s now).answer p st pl = answeredOn (reached s now) p tag r.row st pl :=
  answer_pending (s := reached s now) hr.slot st pl

theorem armingOf_ptu (s : State) (t : Track) (count : Nat) (q : Sequencer) : (armingOf s t count q).ptu = s.ptu := by
  simp only [armingOf]
  split <;> rfl

theorem armingOf_settings (s : State) (t : Track) (count : Nat) (q : Sequencer) :
    (armingOf s t count q).settings = s.settings := by
  simp only [armingOf]
  split <;> rfl

theorem twoOf_none {n : Nat} (h1 : n ≠ 1) (h2 : n ≠ 2) : twoOf n = none := by
  match n with
  | 0 => rfl
  | 1 => exact absurd rfl h1
  | 2 => exact absurd rfl h2
  | _ + 3 => rfl

/-- The entries of a train that Live Axle Read shows (R90). -/
theorem shownEntries_map (s : State) (tr : Train) :
    (shownEntries s tr).map s.axle =
      let entries := (tr.stack.map fun i => s.axle i.entry).filter evaluated
      entries.drop (entries.length - 8) := by
  have hm : (tr.stack.map fun i => s.axle i.entry).filter evaluated =
      (((tr.stack.map StackItem.entry).filter fun k => evaluated (s.axle k))).map s.axle := by
    rw [show (tr.stack.map fun i => s.axle i.entry) = (tr.stack.map StackItem.entry).map s.axle by simp, List.filter_map]
    rfl
  simp only [shownEntries, lastOf, List.map_drop, hm, List.length_map]

/-! ### Faults -/

/-- The state a track's fault leaves, before its alarm is entered (R22). -/
def faulted (s : State) (t : Track) (g : Head) (q : Sequencer) : State :=
  { s with
    ts := s.ts.set t
      { q with
        mode := .fault, faultHead := some g, pending := none, stuck := ⟨none, none⟩, tSettle := none, tEnd := none,
        tStand := none, tAbandon := none, tDormant := none, tRetare := none }
    cac.refresh := s.cac.refresh.set t none }

/-- The close request of the open train of a track, where it has one. -/
def openClosed (s : State) (t : Track) (reason : CloseReason) : State :=
  match s.tas.opens.get t with
  | some tr => trainClosed s t tr reason s.stamp
  | none => s

theorem openClosed_eq (s : State) (t : Track) (reason : CloseReason) : s.closeRequest t reason = openClosed s t reason := by
  unfold openClosed
  cases h : s.tas.opens.get t with
  | some tr => exact closeRequest_some reason h
  | none => exact closeRequest_none reason h

theorem openClosed_onTrack (s : State) (k t : Track) (f : Sequencer → Sequencer) (reason : CloseReason) :
    openClosed (s.onTrack k f) t reason = (openClosed s t reason).onTrack k f := by
  have ho : (s.onTrack k f).tas.opens.get t = s.tas.opens.get t := rfl
  unfold openClosed
  rw [ho]
  cases s.tas.opens.get t with
  | some tr => exact trainClosed_onTrack s k t f tr reason _
  | none => rfl

theorem openClosed_frame (s : State) (t : Track) (reason : CloseReason) : CloseFrame s (openClosed s t reason) :=
  openClosed_eq s t reason ▸ closeRequest_frame s t reason

/-- Entry to FAULT, of a track whose sequencer has been changed before. -/
theorem enterFault_onTrack (s : State) (t : Track) (g : Head) (f : Sequencer → Sequencer) :
    (s.onTrack t f).enterFault t g =
      (faulted (openClosed s t .detectorFault) t g (f (s.ts.get t))).enterAlarm
        (faultAlarm t ((s.tas.opens.get t).map (·.number)) g) := by
  have hts := (openClosed_frame s t .detectorFault).ts
  rw [State.enterFault, openClosed_eq, openClosed_onTrack]
  congr 1
  simp only [faulted, State.abandonRefresh, State.onTrack, hts, Pair.set_set, Pair.get_set_same, stopStuck, stopIdle, stopTrain]

/-- A track that leaves FAULT resumes stuck supervision in ARMING (R23), where no word carries an error. -/
theorem armingOf_resumeStuck (h : s.trs.errors = []) (t : Track) (q : Sequencer) :
    (armingOf s t s.cac.count q).resumeStuck t =
      armingOf s t s.cac.count
        { q with
          stuck :=
            ⟨stuckBegun (s.fitted t) (s.timer (stuckItem s t)) q .a,
              stuckBegun (s.fitted t) (s.timer (stuckItem s t)) q .b⟩ } := by
  have hset := armingOf_settings s t s.cac.count q
  have hfit : (armingOf s t s.cac.count q).fitted t = s.fitted t := by simp only [State.fitted, State.setting, hset]
  have hitem : stuckItem (armingOf s t s.cac.count q) t = stuckItem s t := by simp only [stuckItem, hfit]
  have htimer (n : Nat) : (armingOf s t s.cac.count q).timer n = s.timer n := by
    simp only [State.timer, State.settingNat, State.setting, hset, armingOf_count]
  rw [resumeStuck_clean (by rw [armingOf_trs]; exact h), hfit, hitem, htimer]
  exact armingOf_onTrack _ fun _ _ _ _ => rfl

/-- A stuck timer's expiry outside FAULT (R22): the track is faulted, and the alarm of the fault is entered. -/
theorem stuckTimer_faults {t : Track} {g : Head} {e : Nat} (hs : s.startCheck = false) (hc : s.trs.errors = [])
    (he : (s.ts.get t).stuck.get (headIx g) = some e) (hm : (s.ts.get t).mode ≠ .fault) :
    let j := faultAlarm t ((s.tas.opens.get t).map (·.number)) g
    let v := openClosed (reached s e) t .detectorFault
    ∃ u, LeadsTo (.stuckTimerExpiry t g) s u ∧
      u = { v with
        ts := s.ts.set t
          { s.ts.get t with
            mode := .fault, faultHead := some g, pending := none, stuck := ⟨none, none⟩, tSettle := none, tEnd := none,
            tStand := none, tAbandon := none, tDormant := none, tRetare := none }
        cac.refresh := s.cac.refresh.set t none
        alm := u.alm } ∧
      u.alm = (v.enterAlarm j).alm ∧
      ((∃ a ∈ s.alm.list, a.key = j.key) →
        u.alm.list = s.alm.list.map fun a =>
          if a.key = j.key then updatedBy a j (stampAt s.cac.siteTime (countAt s e)) else a) ∧
      ((∀ a ∈ s.alm.list, a.key ≠ j.key) → s.alm.list.length < 64 →
        ∃ a, u.alm.list = s.alm.list ++ [a] ∧ a.key = j.key ∧ a.severity = .alert ∧ a.state = .raised ∧
          a.value = twoCode (headIx g) ∧ a.reason = .stuckHead ∧ a.level = 0) := by
  intro j v
  have hf : CloseFrame (reached s e) v := openClosed_frame _ _ _
  have hcv : v.trs.errors = [] := hf.errors.trans hc
  have hstamp : v.stamp = stampAt s.cac.siteTime (countAt s e) := by unfold State.stamp; rw [hf.cac]; rfl
  let w : State := faulted v t g (s.ts.get t)
  have hw : SameForAlarms v w := ⟨rfl, rfl, rfl⟩
  have halm : (w.enterAlarm j).alm = (v.enterAlarm j).alm := hw.entered hcv hcv j
  have hj : j.severity ≠ .none := show Severity.alert ≠ .none from nofun
  refine ⟨w.enterAlarm j, leadsTo_of_expiry he hs rfl ?_, ?_, halm, fun hk => ?_, fun hk hl => ?_⟩
  · rw [atTrack_clean s t e hc]
    dsimp only
    rw [if_neg (by rw [onTrack_get]; exact hm)]
    exact enterFault_onTrack (reached s e) t g _
  · rw [enterAlarm_alone (by exact hcv)]
    simp only [w, faulted, hf.ts, hf.cac]
    rfl
  · rw [halm, enterAlarm_listed hcv hj (by rw [hf.alm]; exact hk), hf.alm, hstamp]
    rfl
  · rw [halm, enterAlarm_new hcv hj (by rw [hf.alm]; exact hk) (by rw [hf.alm]; exact hl)]
    exact ⟨_, congrArg (fun l => l.list ++ _) hf.alm, rfl, rfl, rfl, rfl, rfl, rfl⟩

end Sys2Proof.Machine

namespace Sys2Proof.Proofs

open Sys2Proof.Machine

/-- Settles O53: each request is answered from the state its work event finds; Force Close is the close of a train
(`closeToArming_clean`). -/
theorem openTrainRequests : Obligations.OpenTrainRequests := by
  intro s p tag n now gives
  refine ⟨fun hr => ⟨fun h1 h2 => ?_, fun t ht ho => ?_, ?_⟩,
    fun hr => ⟨fun h1 h2 => ?_, fun t ht ho => ?_, ?_⟩⟩
  · refine leadsTo_of_ready hr rfl rfl ?_
    simp only [State.liveAxleRead, twoOf_none h1 h2]
    exact hr.answered _ _
  · refine leadsTo_of_ready hr rfl rfl ?_
    simp only [State.liveAxleRead, ht, show (reached s now).tas.opens.get t = none from ho]
    exact hr.answered _ _
  · intro t tr ht ho entries
    refine leadsTo_of_ready hr rfl rfl ?_
    simp only [State.liveAxleRead, ht, show (reached s now).tas.opens.get t = some tr from ho]
    rw [foldl_clean _ _ (reached s now) hr.clean fun w k hw => checkAxle_clean w k [] hw, hr.answered]
    simp only [liveView, shownEntries_map]
    rfl
  · refine leadsTo_of_ready hr rfl rfl ?_
    simp only [State.forceClose, twoOf_none h1 h2]
    exact hr.answered _ _
  · refine leadsTo_of_ready hr rfl rfl ?_
    simp only [State.forceClose, ht, show (reached s now).tas.opens.get t = none from ho]
    exact hr.answered _ _
  · intro t tr ht ho closed
    refine leadsTo_of_ready hr rfl rfl ?_
    have hptu : (armingOf closed t (countAt s now) (s.ts.get t)).ptu = s.ptu :=
      (armingOf_ptu _ _ _ _).trans (trainClosed_frame _ _ _ _ _).ptu
    simp only [State.forceClose, ht, show (reached s now).tas.opens.get t = some tr from ho,
      checkSetting_clean (reached s now) _ hr.clean]
    rw [closeToArming_clean (by exact hr.clean) (by exact ho)]
    refine (answer_pending (s := armingOf closed t (countAt s now) (s.ts.get t)) (by rw [hptu]; exact hr.slot) _ _).trans ?_
    simp only [emptyTrain, Bool.and_eq_true, List.isEmpty_iff, beq_iff_eq]
    rfl

/-- Settles O28: the alarm of the fault changes the Alarm Unit alone (`stuckTimer_faults`); the recovery enters ARMING and begins
the stuck timers (`armingOf_resumeStuck`). -/
theorem faultTimersExpire : Obligations.FaultTimersExpire := by
  intro s t g e hs hc q
  refine ⟨fun he hm => ?_, fun he hm => ?_⟩
  · have h := stuckTimer_faults hs hc he hm
    cases g <;> exact h
  · refine leadsTo_of_expiry he hs rfl ?_
    rw [atTrack_clean s t e hc]
    dsimp only
    rw [if_pos (by rw [onTrack_get]; exact hm), enterArming_onTrack (by exact hc)]
    refine (armingOf_resumeStuck (s := reached s e) hc t _).trans ?_
    simp only [stuckBegun, stuckItem, fitted_iff, fitted_false_iff]
    rfl

end Sys2Proof.Proofs
end

