-- ==== Sys2Proof/Proofs/ResetAndRefresh.lean ====
section
/-! The state after reset (O4), and the sample write that completes a refresh beside a refresh of another track that has run past
its baseline area (against O29). -/

namespace Sys2Proof.Machine

/-- A part in which track 1 waits for the last sample of its refresh, while track 2's refresh has run 8192 columns on, past the
end of its rows. `TrackAgrees` shuts this out, but `RefreshCompletes` does not ask for it. -/
def runawayRefresh : State :=
  { State.reset with
    cac := { State.reset.cac with newest := 8191, refresh := ⟨some ⟨8129, 63⟩, some ⟨0, 8192⟩⟩ } }

/-- A sample write with 1 on row 15 alone. -/
def lastRowSamples : List Sample := List.replicate 15 0 ++ [1] ++ List.replicate 4 0

/-- Track 2's baseline write of row 15 lands in the first column of row 16, which is track 1's. -/
theorem runawayRefresh_overwrites :
    Memory.read (runawayRefresh.writeSample lastRowSamples).cac.mem (cell 16 0) = 1 := by decide +kernel

/-- What a command leads to agrees with what it answers, but for the lines and the close operation. -/
theorem cac_of_leadsTo {i : Instr} {s u v : State} (hu : LeadsTo i s u) (hi : exec i s = whenUp s (some v))
    (hs : s.startCheck = false) : u.cac = v.cac := by
  rw [LeadsTo, hi, whenUp_some s v hs] at hu
  injection hu with h
  have hcac : v.letClose.driveLines.cac = (withLines u.letClose).cac := congrArg State.cac h
  exact ((letClose_cac v).symm.trans (hcac.trans (letClose_cac u))).symm

theorem reset_bounded : Bounded State.reset where
  memory := by decide
  window _ h := by cases h
  count := by decide
  queue := by decide
  depth t _ h := by cases t <;> cases h
  closing := by decide
  op _ h := by cases h
  axles := by unfold poolFits; decide
  vehicles := by unfold poolFits; decide
  headers := by unfold poolFits; decide
  alarms := by decide
  matched := by decide
  copy _ h := by cases h
  lines := by decide

theorem reset_alarmsDistinct : AlarmsDistinct State.reset := by constructor <;> decide

theorem reset_supplyAgrees : SupplyAgrees State.reset := by constructor <;> decide

theorem reset_trackAgrees (t : Track) : TrackAgrees State.reset t := by
  cases t <;> constructor <;> decide

/-- Every tare is 0 after reset. -/
theorem reset_tare (r : Nat) : State.reset.cac.tare.getD r 0 = 0 := by
  show (List.replicate 20 (0 : Int)).getD r 0 = 0
  rw [List.getD_eq_getElem?_getD, List.getElem?_replicate]
  split <;> rfl

end Sys2Proof.Machine

namespace Sys2Proof.Proofs

open Sys2Proof.Machine

/-- Settles O4: the invariants by their clauses, the values as `State.reset` writes them. -/
theorem resetState : Obligations.ResetState := by
  refine ⟨⟨reset_bounded, reset_alarmsDistinct, reset_supplyAgrees, reset_trackAgrees⟩, fun t => ?_, rfl, rfl, fun _ => rfl,
    reset_tare, rfl, rfl, rfl, rfl, rfl, rfl, rfl, rfl, rfl, rfl, rfl, rfl, rfl, rfl, rfl, rfl, rfl, rfl, fun _ => rfl, fun p => ?_,
    rfl, rfl, rfl, rfl⟩
  · cases t <;> decide
  · cases p <;> rfl

/-- Refutes O29: `RefreshCompletes` says that a track whose refresh completes keeps the other columns of its baseline area, with
nothing asked of the other track. In `runawayRefresh` the sample that completes track 1's refresh is written by track 2's into
row 16, column 0. -/
theorem not_samplesAndRefresh : ¬ Obligations.SamplesAndRefresh := by
  rintro ⟨-, h⟩
  obtain ⟨u, hu, -, -, -, hdone, -⟩ := h runawayRefresh lastRowSamples rfl rfl rfl
  obtain ⟨-, -, -, -, hkept, -⟩ := hdone .one ⟨⟨8129, 63⟩, rfl, rfl, rfl⟩
  have hread := hkept 16 0 (by decide) (by decide) (by decide)
  rw [cac_of_leadsTo hu rfl rfl, runawayRefresh_overwrites] at hread
  exact absurd hread (by decide)

end Sys2Proof.Proofs
end

