-- ==== Sys2Proof/Proofs/NumbersAndPushes.lean ====
section
/-! SUPPORT. Train numbers (R76), crossings handed to the Train Assembler (R79 to R81), and what they leave alone: O21, O22, O23. -/

namespace Sys2Proof.Machine

variable {s u : State} {t : Track}

/-! ### The next train number -/

/-- The numbers tried are those after the last, round from 65535 to 1. -/
theorem nextNumber_chain (used : List Nat) (fuel last : Nat) (hl : last ≤ 65535) :
    ∃ d, d ≤ fuel ∧ nextNumber used fuel last = (last + d) % 65535 + 1 ∧
      (d < fuel → nextNumber used fuel last ∉ used) ∧ ∀ i, i < d → (last + i) % 65535 + 1 ∈ used := by
  have hstep (k : Nat) (hk : k ≤ 65535) : (if k < 65535 then k + 1 else 1) = k % 65535 + 1 := by split <;> omega
  induction fuel generalizing last with
  | zero => exact ⟨0, Nat.le_refl _, hstep last hl, nofun, nofun⟩
  | succ fuel ih =>
    simp only [nextNumber, hstep last hl]
    by_cases hu : last % 65535 + 1 ∈ used
    · obtain ⟨d, hd, hn, hfree, hused⟩ := ih (last % 65535 + 1) (by omega)
      rw [if_pos (List.contains_iff_mem.2 hu)]
      refine ⟨d + 1, by omega, hn.trans (by omega), fun h => hfree (by omega), fun i hi => ?_⟩
      cases i with
      | zero => exact hu
      | succ i =>
        have h := hused i (by omega)
        rwa [show (last % 65535 + 1 + i) % 65535 = (last + (i + 1)) % 65535 by omega] at h
    · rw [if_neg (by simpa using hu)]
      exact ⟨0, by omega, rfl, fun _ => hu, nofun⟩

/-- More different numbers than a list has places are not all in it. -/
theorem not_all_used (used : List Nat) (last : Nat) (hu : used.length < 65535) :
    ¬ ∀ i, i < used.length + 1 → (last + i) % 65535 + 1 ∈ used := by
  intro h
  have hnodup : ((List.range (used.length + 1)).map fun i => (last + i) % 65535 + 1).Nodup := by
    refine List.Nodup.map_on (fun i hi j hj hij => ?_) List.nodup_range
    rw [List.mem_range] at hi hj
    omega
  have hsub : ((List.range (used.length + 1)).map fun i => (last + i) % 65535 + 1) ⊆ used := by
    intro n hn
    obtain ⟨i, hi, rfl⟩ := List.mem_map.1 hn
    exact h i (List.mem_range.1 hi)
  have := (hnodup.subperm hsub).length_le
  simp at this

theorem numberGiven : NumberGiven := by
  intro used last hl hu
  obtain ⟨d, hd, hn, hfree, hused⟩ := nextNumber_chain used used.length last hl
  refine ⟨d, hd, hn, fun hin => ?_, hused⟩
  rcases Nat.lt_or_eq_of_le hd with hlt | rfl
  · exact hfree hlt hin
  · refine not_all_used used last hu fun i hi => ?_
    rcases Nat.lt_succ_iff_lt_or_eq.1 hi with hi | rfl
    · exact hused i hi
    · exact hn ▸ hin

/-! ### What making room leaves alone -/

theorem enterAlarm_settings (h : s.trs.errors = []) (j : Judgement) : (s.enterAlarm j).settings = s.settings := by
  rw [enterAlarm_alone h]

theorem reclaim_settings (s : State) (room : State → Bool) (n : Nat) : (s.reclaim room n).settings = s.settings := by
  induction n generalizing s with
  | zero => rfl
  | succ n ih =>
    simp only [State.reclaim]
    repeat' split
    · rfl
    · exact ih _
    · rfl

theorem evict_settings (h : s.trs.errors = []) (r : RecordDir) : (s.evict r).settings = s.settings := by
  simp only [State.evict, checkHeader_clean s _ _ h]
  exact enterAlarm_settings (by exact h) _

theorem evictFor_settings (h : s.trs.errors = []) (room : State → Bool) (n : Nat) :
    (s.evictFor room n).settings = s.settings := by
  induction n generalizing s with
  | zero => rfl
  | succ n ih =>
    simp only [State.evictFor]
    repeat' split
    · rfl
    · next r _ => exact (ih (evict_errors r h)).trans (evict_settings h r)
    · rfl

/-- Making room changes no setting where no word carries an error. -/
theorem makeRoom_settings (h : s.trs.errors = []) (room : State → Bool) : (s.makeRoom room).settings = s.settings := by
  simp only [State.makeRoom, checkSetting_clean s _ h]
  split
  · exact reclaim_settings s room _
  · exact (evictFor_settings (reclaim_errors room _ h) room _).trans (reclaim_settings s room _)

/-! ### Speed and windows as the statements write them -/

/-- Truncation toward zero, by the sign of the coordinate. -/
theorem tdiv_by_sign (x : Int) (dt d : Nat) :
    (x * dt).tdiv d = if 0 ≤ x then x * dt / d else -(-x * dt / d) := by
  have hpos (y : Int) (hy : 0 ≤ y) : (y * dt).tdiv d = y * dt / d :=
    Int.tdiv_eq_ediv_of_nonneg (Int.mul_nonneg hy (Int.natCast_nonneg dt))
  split
  · next hx => exact hpos x hx
  · next hx =>
    rw [← hpos (-x) (by omega), Int.neg_mul, Int.neg_tdiv, Int.neg_neg]

theorem timeAt_eq (dir : Direction) (tA dt d : Nat) (x : Int) : timeAt dir tA dt d x = standsAt dir tA dt d x := by
  cases dir with
  | up => simp only [timeAt, standsAt, tdiv_by_sign]
  | down =>
    simp only [timeAt, standsAt]
    rw [← tdiv_by_sign, Int.neg_mul, Int.neg_tdiv]
    omega

theorem loadWindow_eq (s : State) (t : Track) (dir : Direction) (tA dt : Nat) :
    loadWindow s t dir tA dt = loadSamples s t dir tA dt := by
  simp only [loadWindow, loadSamples, gateOf, ascending, sampleOf, samplesFrom, timeAt_eq]

theorem bearingGate_eq (s : State) (t : Track) (dir : Direction) (tA dt : Nat) :
    bearingGate s t dir tA dt = gateSamples s t dir tA dt := by
  simp only [bearingGate, gateSamples, gateOf, ascending, sampleOf, samplesFrom, timeAt_eq]

/-! ### A forward crossing -/

theorem look_adjust {α : Type} (m : List (Nat × α)) (n k : Nat) (f : α → α) :
    look (adjust m n f) k = if k = n then (look m k).map f else look m k := by
  induction m with
  | nil => simp [adjust, look]
  | cons e l ih =>
    have hc : adjust (e :: l) n f = (if e.1 = n then (e.1, f e.2) else e) :: adjust l n f := rfl
    rw [hc]
    by_cases hn : e.1 = n
    · rw [if_pos hn]
      by_cases hk : k = n
      · simp only [look, hn, hk, if_true, Option.map_some]
      · have hk' : ¬ n = k := fun h => hk h.symm
        simp only [look, hn, if_neg hk', ih, if_neg hk]
    · rw [if_neg hn]
      by_cases hk : e.1 = k
      · have hk' : ¬ k = n := fun h => hn (hk.trans h)
        simp only [look, if_pos hk, if_neg hk']
      · simp only [look, if_neg hk, ih]

theorem onOpen_some {tr : Train} (ho : s.tas.opens.get t = some tr) (f : Train → Train) :
    s.onOpen t f = { s with tas.opens := s.tas.opens.set t (some (f tr)) } := by
  simp only [State.onOpen, ho, Option.map_some]

/-- The live job of a pushed axle, asked for once its entry stands (R47). -/
theorem liveJob_eq (w : State) (hs : w.settings = s.settings) (hn : w.cac.newest = s.cac.newest) (tr : Train) (c : Crossing)
    (speed : Nat × ValueClass) (k : Nat) :
    liveJob w tr.number t k (tr.stack.length + 1) c speed = pushedJob s t tr c speed k := by
  have hset : w.setting = s.setting := funext fun n => by rw [State.setting, hs]; rfl
  have hnat : w.settingNat = s.settingNat := funext fun n => by rw [State.settingNat, hset]; rfl
  have hload : loadWindow w t c.dir c.tA c.dt = loadSamples s t c.dir c.tA c.dt := by
    rw [loadWindow_eq, loadSamples, loadSamples, hset, hnat]
  have hgate : bearingGate w t c.dir c.tA c.dt = gateSamples s t c.dir c.tA c.dt := by
    rw [bearingGate_eq, gateSamples, gateSamples, hset, hnat]
  unfold liveJob pushedJob
  rw [hload, hgate, hn]

theorem pushAxle_pushed {tr : Train} (h : s.trs.errors = []) (ho : s.tas.opens.get t = some tr) (c : Crossing)
    (speed : Nat × ValueClass) (k : Nat) : Pushed s (s.pushAxle t tr c speed k) t tr c speed k := by
  let a := newAxle (s.settingNat (itemD t)) c speed tr
  let w : State :=
    { s with
      trs.axles := put s.trs.axles k a
      tas.opens := s.tas.opens.set t (some { tr with stack := tr.stack ++ [⟨k, c.tA⟩] }) }
  have hw : s.pushAxle t tr c speed k = w.requestJob tr.number t k (tr.stack.length + 1) c speed := by
    simp only [State.pushAxle]
    rw [cleanEntry_clean (by exact h), onOpen_some (by exact ho)]
    rfl
  rw [hw]
  simp only [State.requestJob]
  by_cases hq : s.aee.queue.length < 16
  · rw [if_pos (by exact hq), checkSettings_clean w _ (by exact h)]
    refine ⟨?_, fun k' hk => ?_, ?_⟩
    · refine (look_put _ _ _ _).trans ?_
      rw [if_pos rfl]
      simp only [a, newAxle, pushedEntry, if_pos hq]
      rfl
    · exact (look_put _ _ _ _).trans (if_neg hk)
    · rw [liveJob_eq (s := s) w rfl rfl, if_pos hq]
  · rw [if_neg (by exact hq)]
    refine ⟨?_, fun k' hk => ?_, ?_⟩
    · refine (look_adjust _ _ _ _).trans ?_
      rw [if_pos rfl]
      refine (congrArg (Option.map _) (look_put s.trs.axles k k a)).trans ?_
      rw [if_pos rfl]
      simp only [a, newAxle, pushedEntry, if_neg hq]
      rfl
    · exact ((look_adjust _ _ _ _).trans (if_neg hk)).trans ((look_put s.trs.axles k k' a).trans (if_neg hk))
    · rw [if_neg hq]; rfl

/-- A forward crossing that finds no phantom and the stack not full asks the store for room (R81, R125). -/
theorem forward_room {tr : Train} (hp : tr.phantoms = 0) (hl : tr.stack.length < 512) (c : Crossing)
    (speed : Nat × ValueClass) :
    s.forward t tr c speed =
      match lowestFree (s.makeRoom oneAxle).trs.axles 4096 with
      | none => (s.makeRoom oneAxle).onOpen t fun tr => { phantom tr with poolShort := true }
      | some k => (s.makeRoom oneAxle).pushAxle t tr c speed k := by
  rw [State.forward, if_neg (by omega), if_neg (show ¬ Config.stackSize ≤ tr.stack.length by exact Nat.not_le.2 hl)]
  rfl

theorem handCrossing_forward {tr : Train} (ho : s.tas.opens.get t = some tr) (c : Crossing) (hd : c.dir = tr.dir)
    (speed : Nat × ValueClass) : s.handCrossing t c speed = s.forward t tr c speed := by
  simp only [State.handCrossing, ho, if_pos hd]

theorem makeRoom_opens (s : State) (room : State → Bool) : (s.makeRoom room).tas = s.tas := (makeRoom_only s room).tas

theorem forwardCrossing_outcome : Obligations.ForwardCrossing := by
  intro s t tr c speed h ho hd u left v
  have hu : u = s.forward t tr c speed := handCrossing_forward ho c hd speed
  have hov : v.tas.opens.get t = some tr := by rw [makeRoom_opens]; exact ho
  refine ⟨fun hp => ?_, fun hp hl => ?_, fun hp hl => ⟨fun k hk => ?_, fun hn => ?_⟩⟩
  · rw [hu, State.forward, if_pos hp]
    exact onOpen_some ho _
  · rw [hu, State.forward, if_neg (by omega), if_pos (by exact hl), onOpen_some ho]
    simp only [phantom, hp]
    rfl
  · rw [hu, forward_room hp hl, hk]
    exact pushAxle_pushed (makeRoom_errors oneAxle h) hov c speed k
  · rw [hu, forward_room hp hl, hn]
    refine (onOpen_some hov _).trans ?_
    simp only [phantom, hp]
    rfl

end Sys2Proof.Machine
end

