-- ==== Sys2Proof/Proofs/Crossings.lean ====
section
/-! SUPPORT. Crossings recognised with no word in error: a train joined (O22) and a train opened (O21); with them O23. -/

namespace Sys2Proof.Machine

variable {s u : State} {t : Track}

/-! ### What handing a crossing over leaves alone -/

/-- What the train timers and the later reads of a crossing look at. -/
structure CrossingKeeps (s u : State) : Prop where
  settings : u.settings = s.settings
  errors : u.trs.errors = s.trs.errors
  cac : u.cac = s.cac

theorem CrossingKeeps.trans {v : State} (h : CrossingKeeps s u) (k : CrossingKeeps u v) : CrossingKeeps s v :=
  ⟨k.settings.trans h.settings, k.errors.trans h.errors, k.cac.trans h.cac⟩

theorem makeRoom_keeps (h : s.trs.errors = []) (room : State → Bool) : CrossingKeeps s (s.makeRoom room) :=
  ⟨makeRoom_settings h room, (makeRoom_errors room h).trans h.symm, (makeRoom_only s room).cac⟩

theorem onOpen_keeps (s : State) (t : Track) (f : Train → Train) : CrossingKeeps s (s.onOpen t f) := ⟨rfl, rfl, rfl⟩

theorem pushAxle_keeps {tr : Train} (h : s.trs.errors = []) (ho : s.tas.opens.get t = some tr) (c : Crossing)
    (speed : Nat × ValueClass) (k : Nat) : CrossingKeeps s (s.pushAxle t tr c speed k) := by
  obtain ⟨-, -, hu⟩ := pushAxle_pushed h ho c speed k
  rw [hu]
  exact ⟨rfl, rfl, rfl⟩

theorem handCrossing_keeps (h : s.trs.errors = []) (c : Crossing) (speed : Nat × ValueClass) :
    CrossingKeeps s (s.handCrossing t c speed) := by
  simp only [State.handCrossing]
  split
  · next tr ho =>
    split
    · simp only [State.forward]
      repeat' split
      · exact onOpen_keeps s t _
      · exact onOpen_keeps s t _
      · exact (makeRoom_keeps h axleRoom).trans (onOpen_keeps _ t _)
      · exact (makeRoom_keeps h axleRoom).trans
          (pushAxle_keeps (makeRoom_errors axleRoom h) (by rw [makeRoom_opens]; exact ho) c speed _)
    · simp only [State.reverse]
      repeat' split
      all_goals exact ⟨rfl, rfl, rfl⟩
  · exact ⟨rfl, rfl, rfl⟩

theorem requestJob_ts (h : s.trs.errors = []) (x : Pair Sequencer) (n : Nat) (t : Track) (k i : Nat) (c : Crossing)
    (speed : Nat × ValueClass) :
    State.requestJob { s with ts := x } n t k i c speed = { s.requestJob n t k i c speed with ts := x } := by
  unfold State.requestJob
  by_cases hq : s.aee.queue.length < Config.queueSize
  · rw [if_pos (by exact hq), if_pos hq, checkSettings_clean _ _ (by exact h), checkSettings_clean s _ h]
    rfl
  · rw [if_neg (by exact hq), if_neg hq]
    rfl

theorem pushAxle_ts (h : s.trs.errors = []) (x : Pair Sequencer) (t : Track) (tr : Train) (c : Crossing)
    (speed : Nat × ValueClass) (k : Nat) :
    State.pushAxle { s with ts := x } t tr c speed k = { s.pushAxle t tr c speed k with ts := x } := by
  let w : State := State.cleanEntry
    { s with trs.axles := put s.trs.axles k (newAxle (s.settingNat (itemD t)) c speed tr) } .axle k
  have hw : w.trs.errors = [] := cleanEntry_errors .axle k (by exact h)
  exact requestJob_ts (s := w.onOpen t fun tr => { tr with stack := tr.stack ++ [⟨k, c.tA⟩] }) hw x tr.number t k
    (tr.stack.length + 1) c speed

/-- A crossing handed over asks nothing of the Track Sequencers and leaves them alone. -/
theorem handCrossing_ts (h : s.trs.errors = []) (x : Pair Sequencer) (c : Crossing) (speed : Nat × ValueClass) :
    State.handCrossing { s with ts := x } t c speed = { s.handCrossing t c speed with ts := x } := by
  simp only [State.handCrossing]
  split
  · next tr ho =>
    split
    · simp only [State.forward, makeRoom_ts s x axleRoom h (axleRoom_ts · x)]
      split
      · rfl
      · split
        · rfl
        · split
          · rfl
          · exact pushAxle_ts (makeRoom_errors axleRoom h) x t tr c speed _
    · simp only [State.reverse]
      split
      · rfl
      · split <;> rfl
  · rfl

theorem handCrossing_keeps_ts (h : s.trs.errors = []) (c : Crossing) (speed : Nat × ValueClass) :
    (s.handCrossing t c speed).ts = s.ts := by
  have hx := congrArg State.ts (handCrossing_ts (t := t) h s.ts c speed)
  exact hx

/-! ### Recognition -/

theorem crossingAt_eq (s : State) (first : Head) (time now : Nat) :
    crossingAt first time (countAt s now) = completedCrossing s first time now := by
  cases first <;> rfl

/-- The second head completes a crossing: it is counted, and disposed of with its speed (R6, R7). -/
theorem headCrossing_completes {h first : Head} {time : Nat} (hc : s.trs.errors = [])
    (hp : (s.ts.get t).pending = some (first, time)) (hne : first ≠ h) :
    s.headCrossing t h =
      (s.onTrack t fun q => { q with pending := none, crossings := bump q.crossings }).disposeCrossing t
        (crossingAt first time s.cac.count)
        (speedRule (s.settingNat (itemD t)) (crossingAt first time s.cac.count).dt (s.settingNat itemVLow)) := by
  simp only [State.headCrossing, hp, if_neg hne, State.recognise]
  rw [checkSettings_clean _ _ (by exact hc)]
  rfl

theorem trainTimers_congr (hs : u.settings = s.settings) (ho : (u.ts.get t).occupied = (s.ts.get t).occupied) (count : Nat)
    (q : Sequencer) : trainTimers u t count q = trainTimers s t count q := by
  have hset : u.setting = s.setting := funext fun n => by rw [State.setting, hs]; rfl
  have hnat : u.settingNat = s.settingNat := funext fun n => by rw [State.settingNat, hset]; rfl
  simp only [trainTimers, hset, hnat, ho]

/-- The train timer of a track whose crossing has been handed over. -/
theorem handCrossing_timer (h : s.trs.errors = []) (c : Crossing) (speed : Nat × ValueClass) (f : Sequencer → Sequencer)
    (hf : (f (s.ts.get t)).occupied = (s.ts.get t).occupied) :
    ((s.handCrossing t c speed).onTrack t f).startTrainTimer t =
      { s.handCrossing t c speed with ts := s.ts.set t (trainTimers s t s.cac.count (f (s.ts.get t))) } := by
  obtain ⟨hset, herr, hcac⟩ := handCrossing_keeps (t := t) h c speed
  have hts := handCrossing_keeps_ts (t := t) h c speed
  let w : State := (s.handCrossing t c speed).onTrack t f
  have hocc : (w.ts.get t).occupied = (s.ts.get t).occupied := by rw [onTrack_get, hts]; exact hf
  have hcount : w.cac.count = s.cac.count := congrArg Capture.count hcac
  rw [startTrainTimer_clean (by exact herr.trans h), hcount, onTrack_congr
    (g := fun q => trainTimers s t s.cac.count q) (trainTimers_congr (u := w) hset hocc _ _), onTrack_onTrack]
  simp only [State.onTrack, hts]

/-- A crossing in PASSING is handed over and restarts the train timer (R19). -/
theorem disposeCrossing_passing (h : s.trs.errors = []) (hf : s.sup.mode ≠ .frozen) (hm : (s.ts.get t).mode = .passing)
    (c : Crossing) (speed : Nat × ValueClass) :
    s.disposeCrossing t c speed =
      { s.handCrossing t c speed with ts := s.ts.set t (trainTimers s t s.cac.count (s.ts.get t)) } := by
  rw [State.disposeCrossing, if_neg hf]
  simp only [hm]
  have hid : s.handCrossing t c speed = (s.handCrossing t c speed).onTrack t id := (onTrack_id rfl).symm
  rw [hid, handCrossing_timer h c speed id rfl, ← hid]
  simp only [id]

/-- A crossing in STANDSTILL goes back to PASSING with it (R20). -/
theorem disposeCrossing_standstill (h : s.trs.errors = []) (hf : s.sup.mode ≠ .frozen)
    (hm : (s.ts.get t).mode = .standstill) (c : Crossing) (speed : Nat × ValueClass) :
    s.disposeCrossing t c speed =
      { s.handCrossing t c speed with
        ts := s.ts.set t
          (trainTimers s t s.cac.count { s.ts.get t with mode := .passing, tAbandon := none }) } := by
  rw [State.disposeCrossing, if_neg hf]
  simp only [hm]
  exact handCrossing_timer h c speed _ rfl

/-! ### A train opened -/

/-- A crossing in ARMING or ARMED opens a train (R18): its first axle is handed over in the state that the number, the retired
alarms and the track's move to PASSING leave. -/
theorem disposeCrossing_opens (h : s.trs.errors = []) (hf : s.sup.mode ≠ .frozen)
    (hm : (s.ts.get t).mode = .arming ∨ (s.ts.get t).mode = .armed) (c : Crossing) (speed : Nat × ValueClass) :
    s.disposeCrossing t c speed =
      State.handCrossing
        { withNewTrain (s.abandonRefresh t) t c with
          ts := s.ts.set t (trainTimers s t s.cac.count { stopIdle (s.ts.get t) with mode := .passing }) } t c speed := by
  have hopen : s.disposeCrossing t c speed =
      (((s.abandonRefresh t).openTrain t c speed).onTrack t fun q =>
        { stopIdle q with mode := .passing }).startTrainTimer t := by
    rw [State.disposeCrossing, if_neg hf]
    rcases hm with hm | hm <;> simp only [hm]
  have hw : (withNewTrain (s.abandonRefresh t) t c).trs.errors = [] := h
  rw [hopen, openTrain_eq, handCrossing_timer hw c speed _ (by rfl)]
  exact (handCrossing_ts hw _ c speed).symm

/-- A track that has entered ARMING, or gone on to ARMED, with what a train opened from there leaves of it. -/
theorem armingOf_opened (s : State) (t : Track) (count : Nat) (q : Sequencer) :
    let w := armingOf s t count q
    ((w.ts.get t).mode = .arming ∨ (w.ts.get t).mode = .armed) ∧ (w.ts.get t).occupied = q.occupied ∧
    { stopIdle (w.ts.get t) with mode := .passing } =
      { stopIdle (stopTrain q) with mode := .passing, recovery := none } ∧
    (∀ y, w.ts.set t y = s.ts.set t y) ∧
    w.abandonRefresh t = { s with ts := w.ts, cac.refresh := s.cac.refresh.set t none } := by
  simp only [armingOf]
  split
  · refine ⟨.inl ?_, ?_, ?_, fun y => Pair.set_set _ _ _ _, ?_⟩
    · rw [Pair.get_set_same]
    · rw [Pair.get_set_same]
    · rw [Pair.get_set_same]; rfl
    · simp only [State.abandonRefresh, Pair.set_set]
  · refine ⟨.inr ?_, ?_, ?_, fun y => Pair.set_set _ _ _ _, rfl⟩
    · rw [Pair.get_set_same]
    · rw [Pair.get_set_same]
    · rw [Pair.get_set_same]; rfl

/-- The track as the first crossing of a train finds it, counted. -/
def crossed (s : State) (t : Track) (h : Head) (now : Nat) : Sequencer :=
  { turnedOn s t h now with pending := none, crossings := bump (s.ts.get t).crossings }

/-- The state in which a crossing completed by a head that turns ON is disposed of: a DORMANT track has entered ARMING. -/
def crossedState (s : State) (t : Track) (h : Head) (now : Nat) : State :=
  if (s.ts.get t).mode = .dormant then armingOf (reached s now) t (countAt s now) (crossed s t h now)
  else { reached s now with ts := s.ts.set t (crossed s t h now) }

/-- HEAD_ON that completes a crossing is the crossing's disposal, in the state the head and the count leave. -/
theorem leadsTo_crossing {h first : Head} {now time : Nat} (hx : Crosses s t h first time) (hm : (s.ts.get t).mode ≠ .fault)
    (hu : (crossedState s t h now).disposeCrossing t
      (completedCrossing s first time now)
      (speedRule (s.settingNat (itemD t)) (completedCrossing s first time now).dt (s.settingNat itemVLow)) = u) :
    LeadsTo (.headOn t h now) s u := by
  obtain ⟨hs, hc, -, hp, hne⟩ := hx
  refine leadsTo_headOn hs hc h now hm ?_
  have hpend : ((headedOn s t h now).ts.get t).pending = some (first, time) := by
    unfold headedOn
    split
    · rw [armingOf_pending]; exact hp
    · simp only [Pair.get_set_same]; exact hp
  have hcount : (headedOn s t h now).cac.count = countAt s now := by
    unfold headedOn; split
    · rw [armingOf_count]; rfl
    · rfl
  have hset : (headedOn s t h now).settings = s.settings := by
    unfold headedOn; split
    · exact armingOf_settings _ _ _ _
    · rfl
  have hnat (n : Nat) : (headedOn s t h now).settingNat n = s.settingNat n := by
    simp only [State.settingNat, State.setting, hset]
  have herr : (headedOn s t h now).trs.errors = [] := by
    unfold headedOn; split
    · rw [armingOf_trs]; exact hc
    · exact hc
  have hbase : ((headedOn s t h now).onTrack t fun q => { q with pending := none, crossings := bump q.crossings }) =
      crossedState s t h now := by
    unfold headedOn crossedState
    split
    · exact armingOf_onTrack _ fun _ _ _ _ => rfl
    · simp only [State.onTrack, Pair.get_set_same, Pair.set_set]; rfl
  rw [headCrossing_completes herr hpend hne, hcount, crossingAt_eq, hnat, hnat, hbase]
  exact hu

/-- The state a crossing that opens a train is disposed of in, taken from the one before it: the track in ARMING or ARMED, and
nothing but the track and its refresh different. -/
structure OpensFrom (s w : State) (t : Track) (now : Nat) (m : Sequencer) : Prop where
  mode : (w.ts.get t).mode = .arming ∨ (w.ts.get t).mode = .armed
  occupied : (w.ts.get t).occupied = (s.ts.get t).occupied
  moved : { stopIdle (w.ts.get t) with mode := .passing } = m
  track : ∀ y, w.ts.set t y = s.ts.set t y
  rest : w.abandonRefresh t = { reached s now with ts := w.ts, cac.refresh := s.cac.refresh.set t none }

theorem OpensFrom.dispose {w : State} {now : Nat} {m : Sequencer} (h : OpensFrom s w t now m) (hc : s.trs.errors = [])
    (hf : s.sup.mode ≠ .frozen) (c : Crossing) (speed : Nat × ValueClass) :
    w.disposeCrossing t c speed =
      State.handCrossing
        { withNewTrain { reached s now with cac.refresh := s.cac.refresh.set t none } t c with
          ts := s.ts.set t (trainTimers s t (countAt s now) m) } t c speed := by
  have herr : w.trs.errors = [] := (congrArg (fun x => x.trs.errors) h.rest).trans hc
  have hmode : w.sup.mode ≠ .frozen := (congrArg (fun x => x.sup.mode) h.rest).trans_ne hf
  have hcount : w.cac.count = countAt s now := congrArg (fun x => x.cac.count) h.rest
  have hset : w.settings = s.settings := congrArg (fun x => x.settings) h.rest
  rw [disposeCrossing_opens herr hmode h.mode, h.moved, h.track, hcount, trainTimers_congr hset h.occupied, h.rest]
  rfl

/-- A crossing in ARMING, ARMED or DORMANT opens its train from such a state. -/
theorem crossedState_opensFrom {h : Head} {now : Nat} {m : Sequencer}
    (hm : (s.ts.get t).mode = .armed ∨ (s.ts.get t).mode = .arming ∨ (s.ts.get t).mode = .dormant)
    (hmoved : m =
      if (s.ts.get t).mode = .dormant then { stopIdle (stopTrain (crossed s t h now)) with mode := .passing, recovery := none }
      else { stopIdle (crossed s t h now) with mode := .passing }) :
    OpensFrom s (crossedState s t h now) t now m := by
  unfold crossedState
  by_cases hd : (s.ts.get t).mode = .dormant
  · rw [if_pos hd]
    rw [if_pos hd] at hmoved
    obtain ⟨hmode, hocc, hstop, hset, hrest⟩ := armingOf_opened (reached s now) t (countAt s now) (crossed s t h now)
    exact ⟨hmode, hocc, hstop.trans hmoved.symm, hset, hrest⟩
  · rw [if_neg hd]
    rw [if_neg hd] at hmoved
    have hget : (s.ts.set t (crossed s t h now)).get t = crossed s t h now := Pair.get_set_same ..
    refine ⟨?_, ?_, ?_, fun y => Pair.set_set _ _ _ _, rfl⟩ <;> dsimp only <;> rw [hget]
    · rcases hm with hm | hm | hm
      · exact .inr hm
      · exact .inl hm
      · exact absurd hm hd
    · rfl
    · exact hmoved.symm

end Sys2Proof.Machine

namespace Sys2Proof.Proofs

open Sys2Proof.Machine

/-- Settles O23: a crossing that is no phantom asks for room and is pushed where there is some (`pushAxle_pushed`). -/
theorem forwardCrossing : Obligations.ForwardCrossing := forwardCrossing_outcome

/-- Settles O22: the crossing is handed over beside the track (`handCrossing_ts`), and the train timer is started
(`handCrossing_timer`). -/
theorem crossingJoinsTrain : Obligations.CrossingJoinsTrain := by
  intro s t h first now time hx q c counted base v
  have hcb : base.trs.errors = [] := hx.2.1
  have hq : base.ts.get t = counted := Pair.get_set_same ..
  have htimers (m : Sequencer) : trainTimers base t (countAt s now) m = trainTimers s t (countAt s now) m :=
    trainTimers_congr (u := base) (s := s) rfl (by rw [hq]) _ m
  have awake (hm : q.mode ≠ .dormant) : crossedState s t h now = base := if_neg hm
  refine ⟨handCrossing_keeps_ts hcb _ _, fun hm => ?_, fun hm => ?_⟩ <;>
    refine leadsTo_crossing hx (fun hf => nomatch hm.symm.trans hf) ?_ <;>
    rw [awake fun hd => nomatch hm.symm.trans hd]
  · refine (disposeCrossing_passing hcb hx.2.2.1 ((congrArg Sequencer.mode hq).trans hm) _ _).trans ?_
    rw [hq]
    simp only [base, Pair.set_set]
    exact congrArg (fun x : Sequencer => { v with ts := s.ts.set t x }) (htimers counted)
  · refine (disposeCrossing_standstill hcb hx.2.2.1 ((congrArg Sequencer.mode hq).trans hm) _ _).trans ?_
    rw [hq]
    simp only [base, Pair.set_set]
    exact congrArg (fun x : Sequencer => { v with ts := s.ts.set t x }) (htimers _)

/-- Settles O21: the state in which the first axle is handed over is the one with the train numbered and the track moved
(`disposeCrossing_opens`), whichever mode it was in; from there it is the forward crossing of an empty train (O23). -/
theorem crossingOpensTrain : Obligations.CrossingOpensTrain := by
  refine ⟨numberGiven, ?_⟩
  intro s t h first now time hx q hm c used n speed tr left moved numbered v
  have hc : s.trs.errors = [] := hx.2.1
  have hnumbered : (crossedState s t h now).disposeCrossing t c speed = numbered.handCrossing t c speed := by
    refine ((crossedState_opensFrom hm rfl).dispose hc hx.2.2.1 c speed).trans ?_
    by_cases hd : (s.ts.get t).mode = .dormant
    · simp only [numbered, moved, left, q, if_pos hd]
      rfl
    · simp only [numbered, moved, left, q, if_neg hd]
      rfl
  have hout := forwardCrossing_outcome numbered t tr c speed hc (Pair.get_set_same ..) rfl
  obtain ⟨-, -, hpush⟩ := hout
  obtain ⟨hsome, hnone⟩ := hpush rfl (Nat.zero_lt_succ _)
  have hlead : LeadsTo (.headOn t h now) s (numbered.handCrossing t c speed) :=
    leadsTo_crossing hx (by rcases hm with hm | hm | hm <;> exact fun hf => nomatch hm.symm.trans hf) hnumbered
  refine ⟨fun k hk => ⟨_, hlead, ?_⟩, fun hk => ?_⟩
  · exact hsome k hk
  · rw [hnone hk] at hlead
    exact hlead

end Sys2Proof.Proofs
end

