-- ==== Sys2Proof/Proofs/StatusSections.lean ====
section
/-! The sections of Status (O48). -/

namespace Sys2Proof.Machine

variable {s : State}

theorem serviceJobView_eq (s : State) :
    serviceJobView s =
      if ∃ j ∈ s.aee.queue, isLive j = false then .queued
      else if ∃ f, s.aee.inFlight = some f ∧ isLive f.job = false then .inFlight else .none := by
  simp only [serviceJobView, List.any_eq_true, Bool.not_eq_true']
  split
  · rfl
  · cases s.aee.inFlight with
    | none => simp
    | some f => cases hl : isLive f.job <;> simp [hl]

theorem flightView_eq (f : Option InFlight) :
    flightView f =
      match f with
      | none => .none
      | some f =>
        match f.job.owner with
        | .live train _ axle => .live f.job.track train axle f.discard
        | .service _ _ _ _ => .service f.job.track := by
  cases f with
  | none => rfl
  | some f => rfl

theorem convertersOn_eq (s : State) (t : Track) : s.convertersOn t = decide ((s.ts.get t).mode ≠ .dormant) := by
  unfold State.convertersOn
  cases (s.ts.get t).mode <;> rfl

theorem captureView_eq (s : State) : some (.capture (captureView s)) = sectionValues s 3 := by
  simp only [captureView, convertersOn_eq]
  rfl

theorem engineView_eq (s : State) : some (.engine (engineView s)) = sectionValues s 4 := by
  simp only [sectionValues, engineView, serviceJobView_eq, flightView_eq] <;> congr

theorem storeView_eq (s : State) : some (.store (storeView s)) = sectionValues s 7 := by
  have hk : keepOld s = decide (s.setting itemRetentionPolicy = 1) := rfl
  simp only [storeView, hk]
  rfl

/-- Each section shows the values the spec names. -/
theorem sectionView_eq (s : State) : ∀ n, sectionView s n = sectionValues s n
  | 0 | 1 | 2 | 5 | 6 | 8 | 9 => rfl
  | 3 => captureView_eq s
  | 4 => engineView_eq s
  | 7 => storeView_eq s
  | _ + 10 => rfl

theorem giveStatus_clean (h : s.trs.errors = []) (p : Port) (sect : Nat) :
    s.giveStatus p sect =
      match sectionValues s sect with
      | some v => s.answer p .done (.status v)
      | none => s.answer p .badValue .none := by
  rw [State.giveStatus, checkSetting_clean s _ h, ite_self]
  simp only [sectionView_eq] <;> rfl

end Sys2Proof.Machine

namespace Sys2Proof.Proofs

open Sys2Proof.Machine

/-- Settles O48: the values of a section are those of the state the work event finds (`sectionView_eq`). -/
theorem statusAnswered : Obligations.StatusAnswered := by
  intro s p tag sect now hr
  have hgive := giveStatus_clean (s := reached s now) hr.clean p sect
  refine ⟨fun v hv => ?_, fun hlt => ?_, fun hge => ?_⟩
  · refine leadsTo_of_ready hr rfl rfl (hgive.trans ?_)
    rw [hv]
    exact hr.answered _ _
  · match sect, hlt with
    | 0, _ | 1, _ | 2, _ | 3, _ | 4, _ | 5, _ | 6, _ | 7, _ | 8, _ | 9, _ => exact nofun
  · have hnone : sectionValues (reached s now) sect = none := by
      obtain ⟨k, rfl⟩ := Nat.exists_eq_add_of_le' hge
      rfl
    refine leadsTo_of_ready hr rfl rfl (hgive.trans ?_)
    rw [hnone]
    exact hr.answered _ _

end Sys2Proof.Proofs
end

