-- ==== Sys2Proof/Proofs/SettingRules.lean ====
section
/-! SUPPORT. Settings: the checks of a write as the statements put them, and what storing items leaves. -/

namespace Sys2Proof.Machine

variable {s : State}

/-! ### Items and their values -/

theorem isItem_eq (n : Nat) : isItem n = settingItem n := by
  rw [Bool.eq_iff_iff]
  simp only [isItem, settingItem, itemRanges, Bool.or_eq_true, Bool.and_eq_true, decide_eq_true_eq, List.any_cons,
    List.any_nil, Bool.or_false, or_assoc]

theorem writtenValue_eq (n raw : Nat) : writtenValue n raw = readValue n raw := by
  have hc : isCoordinate n = true ↔ n = 2 ∨ n = 3 ∨ n = 4 ∨ n = 12 ∨ n = 13 ∨ n = 14 := by
    simp [isCoordinate]
  simp only [writtenValue, readValue, hc]
  split
  · simp only [BitVec.toInt_eq_toNat_cond, BitVec.toNat_ofNat]
    split <;> split <;> omega
  · rfl

theorem heldRange_eq (n : Nat) : clampRange n = heldRange n := by
  unfold clampRange heldRange
  rfl

/-- A written value is stored inside its item's range (R199). -/
theorem clamped_eq (e : Nat × Int) : clamped e = (e.1, storedValue e.1 e.2) := by
  have hr : ∀ r, heldRange e.1 = some r → r.1 ≤ r.2 := by
    intro r
    unfold heldRange
    split <;> rintro ⟨⟩ <;> decide
  simp only [clamped, storedValue, heldRange_eq]
  cases h : heldRange e.1 with
  | none => rfl
  | some r =>
    have hle := hr r h
    simp only [Prod.mk.injEq, true_and]
    split
    · omega
    · split <;> omega

/-! ### The checks of a write -/

theorem allDifferent_iff (l : List Nat) : allDifferent l = true ↔ l.Nodup := by
  induction l with
  | nil => simp [allDifferent]
  | cons n l ih => simp [allDifferent, ih]

/-- The items that refuse a value outside their range, range by range (R198). -/
theorem valueOk_iff (n : Nat) (v : Int) :
    valueOk (n, v) = true ↔
      ((n = 6 ∨ n = 7 ∨ n = 16 ∨ n = 17 ∨ n = 91 ∨ n = 92) → v = 0 ∨ v = 1) ∧ (n = 93 → 0 ≤ v ∧ v ≤ 3) ∧
        (n = 94 → 1 ≤ v ∧ v ≤ 2) ∧ (21 ≤ n → n ≤ 67 → 0 ≤ v ∧ v ≤ 65535) := by
  have hc : ([6, 7, 16, 17, 91, 92] : List Nat).contains n = true ↔
      n = 6 ∨ n = 7 ∨ n = 16 ∨ n = 17 ∨ n = 91 ∨ n = 92 := by simp
  simp only [valueOk, refusedRange, hc]
  by_cases h1 : n = 6 ∨ n = 7 ∨ n = 16 ∨ n = 17 ∨ n = 91 ∨ n = 92
  · simp only [if_pos h1, decide_eq_true_eq]; omega
  · by_cases h2 : n = 93
    · simp only [if_neg h1, if_pos h2, decide_eq_true_eq]; omega
    · by_cases h3 : n = 94
      · simp only [if_neg h1, if_neg h2, if_pos h3, decide_eq_true_eq]; omega
      · by_cases h4 : 21 ≤ n ∧ n ≤ 67
        · simp only [if_neg h1, if_neg h2, if_neg h3, if_pos h4, decide_eq_true_eq]; omega
        · simp only [if_neg h1, if_neg h2, if_neg h3, if_neg h4, true_iff]; omega

theorem pairsOk_iff (l : List (Nat × Int)) :
    pairsOk l = true ↔
      1 ≤ l.length ∧ l.length ≤ 41 ∧ (∀ e ∈ l, PairFits e.1 e.2) ∧ (l.map (·.1)).Nodup := by
  have hp (e : Nat × Int) :
      (isItem e.1 && decide (e.1 ≤ 100) && valueOk e) = true ↔ PairFits e.1 e.2 := by
    simp only [Bool.and_eq_true, decide_eq_true_eq, isItem_eq, show valueOk e = valueOk (e.1, e.2) from rfl, valueOk_iff,
      PairFits, and_assoc]
  simp only [pairsOk, Bool.and_eq_true, List.all_eq_true, allDifferent_iff, hp, decide_eq_true_eq]
  tauto

theorem geometryItem_iff (t : Track) (n : Nat) : (geometryItems t).contains n = true ↔ GeometryItem t n := by
  cases t <;>
    simp [geometryItems, itemD, itemGs, itemGe, itemH, itemW, itemFitted, geometryBase, GeometryItem] <;> omega

theorem namesGeometry_iff (l : List (Nat × Int)) (t : Track) :
    namesGeometry l t = true ↔ ∃ e ∈ l, GeometryItem t e.1 := by
  simp only [namesGeometry, List.any_eq_true, geometryItem_iff]

theorem gainItem_iff (t : Track) (n : Nat) :
    (decide (21 ≤ n ∧ n ≤ 40) && rowTrack (n - 21) == t) = true ↔ GainItem t n := by
  have hr : rowTrack (n - 21) = .one ↔ n - 21 < 8 ∨ n - 21 = 16 ∨ n - 21 = 17 := by
    simp only [rowTrack]
    split
    · next h => simpa [or_assoc] using h
    · next h => simp_all
  have hr2 : rowTrack (n - 21) = .two ↔ ¬ rowTrack (n - 21) = .one := by
    cases rowTrack (n - 21) <;> simp
  cases t <;> simp only [Bool.and_eq_true, decide_eq_true_eq, beq_iff_eq, hr2, hr, GainItem] <;> omega

theorem namesGain_iff (l : List (Nat × Int)) (t : Track) : namesGain l t = true ↔ ∃ e ∈ l, GainItem t e.1 := by
  simp only [namesGain, List.any_eq_true, gainItem_iff]

theorem geometryOk_iff (v : Nat → Int) (t : Track) : geometryOk v t = true ↔ GeometryFits v t := by
  simp only [geometryOk, Bool.and_eq_true, decide_eq_true_eq, GeometryFits, and_assoc]
  cases t <;> exact Iff.rfl

theorem wouldBe_eq (s : State) (l : List (Nat × Int)) : wouldBe s l = valueAfter s l := by
  funext n
  simp only [wouldBe, valueAfter]
  cases l.find? fun e => e.1 == n <;> rfl

theorem hasTrain_iff (s : State) (t : Track) : hasTrain s t = true ↔ ∃ tr ∈ liveTrains s, tr.track = t := by
  simp only [hasTrain, List.any_eq_true, beq_iff_eq]

theorem tracks_any (p : Track → Bool) : tracks.any p = true ↔ ∃ t, p t = true := by
  simp only [tracks, List.any_cons, List.any_nil, Bool.or_false, Bool.or_eq_true]
  constructor
  · rintro (h | h)
    · exact ⟨_, h⟩
    · exact ⟨_, h⟩
  · rintro ⟨t, h⟩
    cases t
    · exact .inl h
    · exact .inr h

/-! ### Storing items -/

/-- The value of an item in a list of settings. -/
def settingIn (m : List (Nat × Int)) (n : Nat) : Int := (look m n).getD (settingDefault n)

theorem settingIn_put (m : List (Nat × Int)) (k n : Nat) (v : Int) :
    settingIn (putSetting m k v) n = if n = k then v else settingIn m n := by
  unfold settingIn putSetting
  by_cases hn : n = k
  · subst hn
    by_cases hv : v = settingDefault n
    · rw [if_pos hv, look_drop, if_pos rfl, if_pos rfl]; exact hv.symm
    · rw [if_neg hv, look_put, if_pos rfl, if_pos rfl]; rfl
  · by_cases hv : v = settingDefault k
    · rw [if_pos hv, look_drop, if_neg hn, if_neg hn]
    · rw [if_neg hv, look_put, if_neg hn, if_neg hn]

/-- Some items stored together. -/
def storedIn (m : List (Nat × Int)) (l : List (Nat × Int)) : List (Nat × Int) :=
  l.foldl (fun m e => putSetting m e.1 e.2) m

theorem storeItems_clean (h : s.trs.errors = []) (l : List (Nat × Int)) :
    s.storeItems l = { s with settings := storedIn s.settings l } := by
  induction l generalizing s with
  | nil => rfl
  | cons e l ih =>
    have hstep : s.storeItems (e :: l) =
        State.storeItems (State.cleanEntry { s with settings := putSetting s.settings e.1 e.2 } .settings e.1) l := rfl
    rw [hstep, cleanEntry_clean (by exact h), ih (by exact h)]
    rfl

theorem settingIn_stored_other (m l : List (Nat × Int)) (n : Nat) (h : ∀ e ∈ l, e.1 ≠ n) :
    settingIn (storedIn m l) n = settingIn m n := by
  induction l generalizing m with
  | nil => rfl
  | cons e l ih =>
    refine (ih (putSetting m e.1 e.2) fun x hx => h x (List.mem_cons_of_mem e hx)).trans ?_
    rw [settingIn_put, if_neg fun hn => h e (List.mem_cons_self ..) hn.symm]

theorem settingIn_stored_mem (m l : List (Nat × Int)) (hl : (l.map (·.1)).Nodup) {e : Nat × Int} (he : e ∈ l) :
    settingIn (storedIn m l) e.1 = e.2 := by
  induction l generalizing m with
  | nil => cases he
  | cons x l ih =>
    obtain ⟨hx, hl⟩ := List.nodup_cons.1 hl
    rcases List.mem_cons.1 he with rfl | he
    · refine (settingIn_stored_other (putSetting m e.1 e.2) l e.1 fun y hy hn => hx ?_).trans ?_
      · exact List.mem_map.2 ⟨y, hy, hn⟩
      · rw [settingIn_put, if_pos rfl]
    · exact ih (putSetting m x.1 x.2) hl he

/-- The settings after a write are the values it would leave. -/
theorem settingIn_stored (s : State) (l : List (Nat × Int)) (hl : (l.map (·.1)).Nodup) (n : Nat) :
    settingIn (storedIn s.settings l) n = valueAfter s l n := by
  unfold valueAfter
  cases hf : l.find? fun e => e.1 == n with
  | some e =>
    have hn : e.1 = n := by simpa using List.find?_some hf
    rw [← hn]
    exact settingIn_stored_mem _ _ hl (List.mem_of_find?_eq_some hf)
  | none =>
    refine settingIn_stored_other _ _ _ fun e he => ?_
    simpa using List.find?_eq_none.1 hf e he

end Sys2Proof.Machine
end

