-- ==== Sys2Proof/Proofs/SettingRequests.lean ====
section
/-! Settings Read, Settings Write and Set Permissions (O57). -/

namespace Sys2Proof.Machine

variable {s : State}

/-- The stored list of a write (R199). -/
def storedPairs (l : List (Nat × Int)) : List (Nat × Int) := l.map fun e => (e.1, storedValue e.1 e.2)

theorem map_clamped (l : List (Nat × Int)) : l.map clamped = storedPairs l := List.map_congr_left fun e _ => clamped_eq e

theorem storedPairs_keys (l : List (Nat × Int)) : (storedPairs l).map (·.1) = l.map (·.1) := by
  rw [storedPairs, List.map_map]; rfl

/-- What the checks of a Settings Write ask (R198, case 1). -/
def WriteFits (s : State) (l : List (Nat × Int)) : Prop :=
  1 ≤ l.length ∧ l.length ≤ 41 ∧ (∀ e ∈ l, PairFits e.1 e.2) ∧ (l.map (·.1)).Nodup ∧
    ∀ t, (∃ e ∈ l, GeometryItem t e.1) → GeometryFits (valueAfter s l) t

/-- What turns a fitting write away (R198, case 2). -/
def WriteBusy (s : State) (l : List (Nat × Int)) : Prop :=
  ∃ t, (∃ e ∈ l, GeometryItem t e.1 ∨ GainItem t e.1) ∧ ∃ tr ∈ liveTrains s, tr.track = t

theorem badGeometry_iff (s : State) (l : List (Nat × Int)) :
    (tracks.any fun t => namesGeometry l t && !geometryOk (wouldBe s l) t) = true ↔
      ¬ ∀ t, (∃ e ∈ l, GeometryItem t e.1) → GeometryFits (valueAfter s l) t := by
  simp only [tracks_any, Bool.and_eq_true, Bool.not_eq_true', namesGeometry_iff, wouldBe_eq, ← geometryOk_iff,
    not_forall, exists_prop, Bool.not_eq_true]

theorem writeBusy_iff (s : State) (l : List (Nat × Int)) :
    (tracks.any fun t => (namesGeometry l t || namesGain l t) && hasTrain s t) = true ↔ WriteBusy s l := by
  have hor (t : Track) : ((∃ e ∈ l, GeometryItem t e.1) ∨ ∃ e ∈ l, GainItem t e.1) ↔
      ∃ e ∈ l, GeometryItem t e.1 ∨ GainItem t e.1 := by
    simp only [and_or_left, exists_or]
  simp only [tracks_any, Bool.and_eq_true, Bool.or_eq_true, namesGeometry_iff, namesGain_iff, hasTrain_iff, hor, WriteBusy]

theorem settingsWrite_eq (h : s.trs.errors = []) (p : Port) (pairs : List (Nat × Nat)) :
    let l := pairs.map fun e => (e.1, readValue e.1 e.2)
    s.settingsWrite p pairs =
      if pairsOk l = false then s.answer p .badValue .none
      else if tracks.any fun t => namesGeometry l t && !geometryOk (wouldBe s l) t then s.answer p .badValue .none
      else if tracks.any fun t => (namesGeometry l t || namesGain l t) && hasTrain s t then s.answer p .busyTrain .none
      else s.applyWrite p l := by
  intro l
  have hl : (pairs.map fun e => (e.1, writtenValue e.1 e.2)) = l :=
    List.map_congr_left fun e _ => by rw [writtenValue_eq]
  have hread : s.readGeometry l = s := checkSettings_clean s _ h
  unfold State.settingsWrite
  rw [hl]
  dsimp only
  rw [hread]

/-- The outcome of a Settings Write, where no word carries an error (R198, R199). -/
theorem settingsWrite_clean (h : s.trs.errors = []) (p : Port) (pairs : List (Nat × Nat)) :
    let l := pairs.map fun e => (e.1, readValue e.1 e.2)
    (¬ WriteFits s l → s.settingsWrite p pairs = s.answer p .badValue .none) ∧
    (WriteFits s l → WriteBusy s l → s.settingsWrite p pairs = s.answer p .busyTrain .none) ∧
    (WriteFits s l → ¬ WriteBusy s l → s.settingsWrite p pairs = s.applyWrite p l) := by
  intro l
  have hfits : WriteFits s l ↔ pairsOk l = true ∧ ∀ t, (∃ e ∈ l, GeometryItem t e.1) → GeometryFits (valueAfter s l) t := by
    simp only [WriteFits, pairsOk_iff, and_assoc]
  rw [settingsWrite_eq h, hfits]
  by_cases hp : pairsOk l = true
  · rw [if_neg (show ¬ pairsOk l = false by simp [hp])]
    by_cases hg : ∀ t, (∃ e ∈ l, GeometryItem t e.1) → GeometryFits (valueAfter s l) t
    · rw [if_neg fun hb => (badGeometry_iff s l).1 hb hg]
      refine ⟨fun hn => absurd ⟨hp, hg⟩ hn, fun _ hb => ?_, fun _ hb => ?_⟩
      · exact if_pos ((writeBusy_iff s l).2 hb)
      · exact if_neg fun hn => hb ((writeBusy_iff s l).1 hn)
    · rw [if_pos ((badGeometry_iff s l).2 hg)]
      exact ⟨fun _ => rfl, fun hn => absurd hn.2 hg, fun hn => absurd hn.2 hg⟩
  · rw [if_pos (show pairsOk l = false by simpa using hp)]
    exact ⟨fun _ => rfl, fun hn => absurd hn.1 hp, fun hn => absurd hn.1 hp⟩

/-! ### Occupancy fitted written -/

/-- A track once a write of its occupancy fitted has begun its stuck timers anew (R3). -/
def rewatched (s : State) (l : List (Nat × Int)) (t : Track) : Sequencer :=
  let q := s.ts.get t
  if (l.any fun e => e.1 == itemFitted t) && q.mode != .fault then
    { q with
      stuck :=
        ⟨stuckBegun (s.fitted t) (s.timer (stuckItem s t)) (stopStuck q) .a,
          stuckBegun (s.fitted t) (s.timer (stuckItem s t)) (stopStuck q) .b⟩ }
  else q

theorem rewatchStuck_clean (h : s.trs.errors = []) (l : List (Nat × Int)) (t : Track) :
    s.rewatchStuck l t = { s with ts := s.ts.set t (rewatched s l t) } := by
  simp only [State.rewatchStuck, rewatched]
  split
  · rw [resumeStuck_clean (by exact h), onTrack_onTrack]
    rfl
  · rw [Pair.set_get]

theorem rewatchBoth_clean (h : s.trs.errors = []) (l : List (Nat × Int)) :
    (s.rewatchStuck l .one).rewatchStuck l .two = { s with ts := ⟨rewatched s l .one, rewatched s l .two⟩ } := by
  rw [rewatchStuck_clean h, rewatchStuck_clean (by exact h)]
  rfl

/-- The state an accepted write answers from (R199). -/
def writtenState (s : State) (l : List (Nat × Int)) : State := { s with settings := storedIn s.settings (storedPairs l) }

theorem applyWrite_clean (h : s.trs.errors = []) (p : Port) (l : List (Nat × Int)) :
    s.applyWrite p l =
      State.answer
        { writtenState s l with
          ts := ⟨rewatched (writtenState s l) (storedPairs l) .one, rewatched (writtenState s l) (storedPairs l) .two⟩ }
        p .done (.settings (storedPairs l)) := by
  have hw : (writtenState s l).trs.errors = [] := h
  simp only [State.applyWrite, map_clamped, storeItems_clean h]
  exact congrArg (fun w : State => w.answer p .done (.settings (storedPairs l))) (rewatchBoth_clean hw (storedPairs l))

theorem writtenState_setting (s : State) {l : List (Nat × Int)} (hl : (l.map (·.1)).Nodup) (n : Nat) :
    (writtenState s l).setting n = valueAfter s (storedPairs l) n :=
  settingIn_stored s (storedPairs l) (by rw [storedPairs_keys]; exact hl) n

/-- A stuck timer once a write at a count of `now` has stored its items (R3, R14). -/
def stuckAfterWrite (s : State) (now : Nat) (l : List (Nat × Int)) (t : Track) (h : Head) : Timer :=
  let q := s.ts.get t
  let fitted := valueAfter s (storedPairs l) (itemFitted t)
  if (∀ e ∈ l, e.1 ≠ itemFitted t) ∨ q.mode = .fault then q.stuck.get (headIx h)
  else if q.heads.get (headIx h) = true ∧ (fitted ≠ 1 ∨ q.occupied = false) then
    some (countAt s now +
      (valueAfter s (storedPairs l) (if fitted = 1 then itemTStuck else itemTAbandon)).toNat * 100000)
  else none

theorem namesFitted_iff (l : List (Nat × Int)) (n : Nat) :
    ((storedPairs l).any fun e => e.1 == n) = true ↔ ¬ ∀ e ∈ l, e.1 ≠ n := by
  simp [storedPairs]

theorem rewatched_written (s : State) (now : Nat) {l : List (Nat × Int)} (hl : (l.map (·.1)).Nodup) (t : Track) :
    rewatched (writtenState (reached s now) l) (storedPairs l) t =
      { s.ts.get t with stuck := ⟨stuckAfterWrite s now l t .a, stuckAfterWrite s now l t .b⟩ } := by
  have hset (n : Nat) : (writtenState (reached s now) l).setting n = valueAfter s (storedPairs l) n :=
    writtenState_setting (reached s now) hl n
  have htimer (n : Nat) : (writtenState (reached s now) l).timer n =
      some (countAt s now + (valueAfter s (storedPairs l) n).toNat * 100000) := by
    simp only [State.timer, State.settingNat, hset]
    rfl
  have hts : (writtenState (reached s now) l).ts = s.ts := rfl
  have hbegun (g : Head) (hn : ¬ ((∀ e ∈ l, e.1 ≠ itemFitted t) ∨ (s.ts.get t).mode = .fault)) :
      stuckBegun ((writtenState (reached s now) l).fitted t)
        ((writtenState (reached s now) l).timer (stuckItem (writtenState (reached s now) l) t)) (stopStuck (s.ts.get t)) g =
        stuckAfterWrite s now l t g := by
    have hnone : (stopStuck (s.ts.get t)).stuck.get (headIx g) = none := by cases g <;> rfl
    simp only [stuckBegun, stuckAfterWrite, stuckItem, if_neg hn, fitted_iff, fitted_false_iff, hset, htimer, hnone]
    rfl
  have hact : (((storedPairs l).any fun e => e.1 == itemFitted t) && (s.ts.get t).mode != .fault) = true ↔
      ¬ ((∀ e ∈ l, e.1 ≠ itemFitted t) ∨ (s.ts.get t).mode = .fault) := by
    rw [Bool.and_eq_true, namesFitted_iff, bne_iff_ne, not_or]
  simp only [rewatched, hts]
  by_cases hn : (∀ e ∈ l, e.1 ≠ itemFitted t) ∨ (s.ts.get t).mode = .fault
  · rw [if_neg (fun hb => hact.1 hb hn)]
    simp only [stuckAfterWrite, if_pos hn]
    rfl
  · rw [if_pos (hact.2 hn), hbegun .a hn, hbegun .b hn]

/-! ### Permissions -/

theorem adjustedMap_eq (l : List Nat) (h : l.length = 25) :
    adjustedMap l = (List.range 25).map fun k =>
      if k + 1 = 1 then l.getD 0 0 ||| 4 else if k + 1 = 21 then 4 else l.getD k 0 := by
  refine List.ext_getElem (by simp [adjustedMap, h]) fun k hk _ => ?_
  have hk' : k < l.length := by simpa [adjustedMap] using hk
  simp only [adjustedMap, List.getElem_map, List.getElem_zipIdx, List.getElem_range, adjustedEntry]
  rw [Nat.add_comm 1 k, List.getD_eq_getElem l 0 hk', List.getD_eq_getElem l 0 (by omega : 0 < l.length)]
  split
  · next h1 =>
    obtain rfl : k = 0 := by omega
    rfl
  · rfl

/-- The items a Set Permissions stores: one for each row, 101 to 125. -/
theorem permissionItems_keys (map : List Nat) :
    (((map.zipIdx 1).map fun e => (itemPermission e.2, (e.1 : Int))).map (·.1)) = (List.range' 101 map.length) := by
  rw [List.map_map]
  refine List.ext_getElem (by simp) fun k _ _ => ?_
  simp [itemPermission]
  omega

/-- What is stored for a row: SP stays in the entry of Status, and SP alone is in that of Set Permissions (R187). -/
def storedEntry (l : List Nat) (row : Nat) : Nat :=
  if row = 1 then l.getD 0 0 ||| 4 else if row = 21 then 4 else l.getD (row - 1) 0

theorem adjustedMap_eq_storedEntry (l : List Nat) (h : l.length = 25) :
    adjustedMap l = (List.range 25).map fun k => storedEntry l (k + 1) := adjustedMap_eq l h

/-- The items and entries that Set Permissions stores. -/
def permissionPairs (map : List Nat) : List (Nat × Int) := (map.zipIdx 1).map fun e => (itemPermission e.2, (e.1 : Int))

theorem permissionPairs_nodup (map : List Nat) : ((permissionPairs map).map (·.1)).Nodup := by
  rw [permissionPairs, permissionItems_keys]
  exact List.nodup_range'

theorem permissionPairs_mem {l : List Nat} (h : l.length = 25) {row : Nat} (h1 : 1 ≤ row) (h2 : row ≤ 25) :
    ((100 + row, (storedEntry l row : Int)) : Nat × Int) ∈ permissionPairs (adjustedMap l) := by
  refine List.mem_map.2 ⟨(storedEntry l row, row), ?_, rfl⟩
  rw [adjustedMap_eq_storedEntry l h, List.mk_mem_zipIdx_iff_le_and_getElem?_sub]
  refine ⟨h1, ?_⟩
  rw [List.getElem?_map, List.getElem?_range (by omega), Option.map_some, Nat.sub_add_cancel h1]

theorem permissionPairs_other {l : List Nat} (h : l.length = 25) {n : Nat} (hn : n ≤ 100 ∨ 125 < n) :
    ∀ e ∈ permissionPairs (adjustedMap l), e.1 ≠ n := by
  intro e he hen
  have hmem : n ∈ (permissionPairs (adjustedMap l)).map (·.1) := hen ▸ List.mem_map_of_mem he
  rw [permissionPairs, permissionItems_keys, adjustedMap_eq l h, List.mem_range'_1] at hmem
  simp only [List.length_map, List.length_range] at hmem
  omega

end Sys2Proof.Machine

namespace Sys2Proof.Proofs
open Sys2Proof.Machine

variable {s : State} {p : Port} {tag now : Nat}

theorem settingsRead_outcome {f n : Nat} (hr : Ready s p tag (.settingsRead f n)) :
    (f = 0 ∨ 125 < f ∨ n = 0 ∨ 41 < n →
      LeadsTo (.settingsRead p now) s (answeredOn (reached s now) p tag 19 .badValue .none)) ∧
    (1 ≤ f → f ≤ 125 → 1 ≤ n → n ≤ 41 →
      LeadsTo (.settingsRead p now) s
        (answeredOn (reached s now) p tag 19 .done
          (.settings ((((List.range n).map (f + ·)).filter settingItem).map fun k => (k, s.setting k))))) := by
  refine ⟨fun hb => leadsTo_of_ready hr rfl rfl ?_, fun h1 h2 h3 h4 => leadsTo_of_ready hr rfl rfl ?_⟩
  · rw [State.settingsRead, if_pos (by omega)]
    exact hr.answered _ _
  · rw [State.settingsRead, if_neg (by omega)]
    simp only [checkSettings_clean (reached s now) _ hr.clean, itemsFrom, funext isItem_eq]
    exact hr.answered _ _

theorem settingsWrite_accepted {pairs : List (Nat × Nat)} (hr : Ready s p tag (.settingsWrite pairs))
    (hf : WriteFits s (pairs.map fun e => (e.1, readValue e.1 e.2)))
    (hb : ¬ WriteBusy s (pairs.map fun e => (e.1, readValue e.1 e.2))) :
    let l := pairs.map fun e => (e.1, readValue e.1 e.2)
    ∃ u, LeadsTo (.settingsWrite p now) s u ∧ (∀ e ∈ l, u.setting e.1 = storedValue e.1 e.2) ∧
      (∀ n, (∀ e ∈ l, e.1 ≠ n) → u.setting n = s.setting n) ∧
      (∀ t, u.ts.get t = { s.ts.get t with stuck := ⟨stuckAfterWrite s now l t .a, stuckAfterWrite s now l t .b⟩ }) ∧
      u = answeredOn { reached s now with ts := u.ts, settings := u.settings } p tag 20 .done
        (.settings (storedPairs l)) := by
  intro l
  have hl : (l.map (·.1)).Nodup := hf.2.2.2.1
  have hkeys : ((storedPairs l).map (·.1)).Nodup := by rw [storedPairs_keys]; exact hl
  have hwrite : (reached s now).settingsWrite p pairs = (reached s now).applyWrite p l :=
    (settingsWrite_clean (s := reached s now) hr.clean p pairs).2.2 hf hb
  refine ⟨_, leadsTo_of_ready hr rfl rfl
    (hwrite.trans ((applyWrite_clean (by exact hr.clean) p l).trans (answer_pending (by exact hr.slot) _ _))),
    fun e he => ?_, fun n hn => ?_, fun t => ?_, rfl⟩
  · exact settingIn_stored_mem s.settings _ hkeys (List.mem_map_of_mem he)
  · refine settingIn_stored_other s.settings _ n fun e he => ?_
    obtain ⟨x, hx, rfl⟩ := List.mem_map.1 he
    exact hn x hx
  · cases t <;> exact rewatched_written s now hl _

theorem setPermissions_accepted {l : List Nat} (hr : Ready s p tag (.setPermissions l)) (hlen : l.length = 25)
    (hok : ∀ e ∈ l, e ≤ 7) :
    ∃ u, LeadsTo (.setPermissions p now) s u ∧
      (∀ row, 1 ≤ row → row ≤ 25 → u.setting (100 + row) = storedEntry l row) ∧
      (∀ n, n ≤ 100 ∨ 125 < n → u.setting n = s.setting n) ∧
      u = answeredOn { reached s now with settings := u.settings } p tag 21 .done
        (.permissions ((List.range 25).map fun k => storedEntry l (k + 1))) := by
  have hstore := storeItems_clean (s := reached s now) hr.clean (permissionPairs (adjustedMap l))
  refine ⟨_, leadsTo_of_ready hr rfl rfl (.trans ?_ (answer_pending
      (s := { reached s now with settings := storedIn s.settings (permissionPairs (adjustedMap l)) }) (by exact hr.slot)
      .done (.permissions (adjustedMap l)))), fun row h1 h2 => ?_, fun n hn => ?_, ?_⟩
  · rw [State.setPermissions, if_neg (by simpa using hok)]
    exact congrArg (fun w : State => w.answer p .done (.permissions (adjustedMap l))) hstore
  · exact settingIn_stored_mem s.settings _ (permissionPairs_nodup _) (permissionPairs_mem hlen h1 h2)
  · exact settingIn_stored_other s.settings _ n (permissionPairs_other hlen hn)
  · rw [← adjustedMap_eq_storedEntry l hlen]
    rfl

/-- Settles O57: the checks of a write are those of the statement (`settingsWrite_clean`), and what storing leaves is read back
item by item (`settingIn_stored_mem`, `settingIn_stored_other`). -/
theorem settingsAndPermissions : Obligations.SettingsAndPermissions := by
  refine ⟨fun s p tag now => ⟨fun f n hr => settingsRead_outcome hr, fun pairs hr => ?_⟩, fun s p tag now l hr hlen => ?_⟩
  · obtain ⟨hbad, hbusy, -⟩ := settingsWrite_clean (s := reached s now) hr.clean p pairs
    refine ⟨fun hf => ?_, fun hf hb => ?_, fun hf hb => settingsWrite_accepted hr hf hb⟩
    · exact leadsTo_of_ready hr rfl rfl ((hbad hf).trans (hr.answered _ _))
    · exact leadsTo_of_ready hr rfl rfl ((hbusy hf hb).trans (hr.answered _ _))
  · refine ⟨fun hb => leadsTo_of_ready hr rfl rfl ?_, fun hok => setPermissions_accepted hr hlen hok⟩
    rw [State.setPermissions, if_pos (by simpa using hb)]
    exact hr.answered _ _

end Sys2Proof.Proofs
end

