-- ==== Sys2Proof/Proofs/StartCheckEnd.lean ====
section
/-! The end of a START check (O43, O44): the region's work gives a state whose blocks stand at START, and taking it into service
changes its tracks, capture memory, supply and marker. -/

namespace Sys2Proof.Machine

variable {s w : State} {inputs : Inputs} {samples : List Sample} {t : Track}

/-! ### The tracks -/

/-- A track at the end of a START check, before its mode is chosen: the levels of its inputs. -/
def levelsOnly (inputs : Inputs) (t : Track) : Sequencer :=
  { Sequencer.start with heads := inputs.heads.get t, occupied := inputs.occupied.get t }

/-- The refresh of a track after a START check (R25, R34): from sample 1 in ARMING. -/
def startedRefresh (s : State) (inputs : Inputs) (t : Track) : Option Refresh :=
  if (startedTrack s inputs t).mode = .arming then some ⟨1, 0⟩ else none

/-- What a track and its refresh are when they are started. -/
structure BeforeTrack (s : State) (inputs : Inputs) (t : Track) : Prop where
  clean : s.trs.errors = []
  seq : s.ts.get t = levelsOnly inputs t
  count : s.cac.count = 0
  newest : s.cac.newest = 0
  mode : s.sup.mode = if inputs.holdupLow then .frozen else .run
  refresh : s.cac.refresh.get t = none

/-- A state with one track started, nothing else touched. -/
def withTrackStarted (s : State) (inputs : Inputs) (t : Track) : State :=
  { s with ts := s.ts.set t (startedTrack s inputs t), cac.refresh := s.cac.refresh.set t (startedRefresh s inputs t) }

theorem stuckBegun_levels (h : BeforeTrack s inputs t) {q : Sequencer} (hh : q.heads = inputs.heads.get t)
    (ho : q.occupied = inputs.occupied.get t) (hn : q.stuck = ⟨none, none⟩) (g : Head) :
    stuckBegun (s.fitted t) (s.timer (stuckItem s t)) q g = (startedTrack s inputs t).stuck.get (headIx g) := by
  have hnone : q.stuck.get (headIx g) = none := by rw [hn]; cases g <;> rfl
  have hbegun : (startedTrack s inputs t).stuck.get (headIx g) =
      if (inputs.heads.get t).get (headIx g) = true ∧ (s.fitted t = false ∨ inputs.occupied.get t = false) then
        some (s.settingNat (if s.fitted t then itemTStuck else itemTAbandon) * 100000)
      else none := by cases g <;> rfl
  rw [hbegun]
  simp only [stuckBegun, hh, ho, hnone, stuckItem, State.timer, h.count, Nat.zero_add]
  rfl

/-- The mode of a started track (R25, R206). -/
theorem startedTrack_mode (s : State) (inputs : Inputs) (t : Track) :
    (startedTrack s inputs t).mode =
      if s.setting (itemDormancy t) = 1 then .dormant else if inputs.holdupLow then .armed else .arming := rfl

theorem startTrack_dormant (h : BeforeTrack s inputs t) (hd : s.setting (itemDormancy t) = 1) :
    s.startTrack t = withTrackStarted s inputs t := by
  have hstuck (g : Head) := stuckBegun_levels h (q := { levelsOnly inputs t with mode := .dormant }) rfl rfl rfl g
  have hmode : (startedTrack s inputs t).mode = .dormant := by rw [startedTrack_mode, if_pos hd]
  have hnone : startedRefresh s inputs t = s.cac.refresh.get t := by rw [startedRefresh, hmode, h.refresh]; rfl
  have hstart : startedTrack s inputs t =
      { levelsOnly inputs t with mode := .dormant, stuck := (startedTrack s inputs t).stuck } := by
    simp only [startedTrack, if_pos hd]
    rfl
  rw [State.startTrack, if_pos hd, resumeStuck_clean (by exact h.clean), onTrack_onTrack, withTrackStarted, hnone,
    Pair.set_get, hstart, State.onTrack, h.seq]
  simp only [fitted_onTrack, timer_onTrack, stuckItem_onTrack, hstuck]
  rfl

theorem startTrack_arming (h : BeforeTrack s inputs t) (hd : s.setting (itemDormancy t) ≠ 1) :
    s.startTrack t = withTrackStarted s inputs t := by
  have hstuck (g : Head) := stuckBegun_levels h (q := levelsOnly inputs t) rfl rfl rfl g
  rw [State.startTrack, if_neg hd, enterArming_clean h.clean, armingOf_resumeStuck h.clean, h.seq, hstuck .a, hstuck .b]
  cases hl : inputs.holdupLow with
  | false =>
    have hrun : s.sup.mode = .run := by rw [h.mode, hl]; rfl
    simp only [armingOf, if_pos hrun, withTrackStarted, startedRefresh, startedTrack, if_neg hd, hl, h.newest]
    rfl
  | true =>
    have hrun : s.sup.mode ≠ .run := by rw [h.mode, hl]; decide
    have hmode : (startedTrack s inputs t).mode = .armed := by rw [startedTrack_mode, if_neg hd, hl]; rfl
    have hnone : startedRefresh s inputs t = s.cac.refresh.get t := by rw [startedRefresh, hmode, h.refresh]; rfl
    have hstart : startedTrack s inputs t =
        { levelsOnly inputs t with
          mode := .armed, tDormant := some (s.settingNat itemTDormant * 100000)
          tRetare := some (s.settingNat itemTRetare * 100000), stuck := (startedTrack s inputs t).stuck } := by
      simp only [startedTrack, if_neg hd, hl, if_true]
      rfl
    simp only [armingOf, if_neg hrun]
    rw [withTrackStarted, hnone, Pair.set_get, hstart, h.count, Nat.zero_add, Nat.zero_add]
    rfl

theorem startTrack_clean (h : BeforeTrack s inputs t) : s.startTrack t = withTrackStarted s inputs t := by
  by_cases hd : s.setting (itemDormancy t) = 1
  · exact startTrack_dormant h hd
  · exact startTrack_arming h hd

/-- The second track is started as it would be alone. -/
theorem startTracks_clean (h1 : BeforeTrack s inputs .one) (h2 : BeforeTrack s inputs .two) :
    (s.startTrack .one).startTrack .two =
      { s with
        ts := ⟨startedTrack s inputs .one, startedTrack s inputs .two⟩
        cac.refresh := ⟨startedRefresh s inputs .one, startedRefresh s inputs .two⟩ } := by
  rw [startTrack_clean h1, startTrack_clean (t := .two) (inputs := inputs)]
  · rfl
  · exact ⟨h2.clean, h2.seq, h2.count, h2.newest, h2.mode, h2.refresh⟩

/-! ### Into service -/

/-- The Supply Unit after a START check (R206). -/
def startedSupply (inputs : Inputs) : Supply where
  mode := if inputs.holdupLow then .frozen else .run
  supplyFail := inputs.supplyFail
  holdupLow := inputs.holdupLow
  failTimer := if inputs.holdupLow = false ∧ inputs.supplyFail = true then some 100000 else none
  recoveryTimer := none
  leaveTimer := none
  freeze := if inputs.holdupLow then .complete else .none
  freezes := if inputs.holdupLow then 1 else 0

/-- What the region's part of the check leaves: every other block as `State.startBlocks` puts it, the store's counts and
capture cleared, no word in error. -/
structure RegionChecked (s : State) (inputs : Inputs) (w : State) : Prop where
  ts : w.ts = (s.startBlocks inputs).ts
  cac : w.cac = Capture.start
  aee : w.aee = Engine.start
  tas : w.tas = ⟨⟨none, none⟩, [], w.tas.lastTrain, 0, 0⟩
  rbu : w.rbu = Builder.start
  wat : w.wat = Watch.start
  ptu : w.ptu = ⟨checkedPort s.ptu.rp, checkedPort s.ptu.ap, checkedPort s.ptu.sp⟩
  sup : w.sup = ⟨.run, inputs.supplyFail, inputs.holdupLow, none, none, none, .none, 0⟩
  up : w.startCheck = false
  errors : w.trs.errors = []
  capture : w.trs.capture = none
  counts : w.trs.singles = 0 ∧ w.trs.doubles = 0 ∧ w.trs.reclaims = 0 ∧ w.trs.evictions = 0 ∧ w.trs.purges = 0
  marker : w.trs.marker = .live
  markerAtStart : w.trs.markerAtStart = s.trs.marker

/-- The sample of a row at sample number 0 (R33, R44). -/
def startedSample (s : State) (inputs : Inputs) (samples : List Sample) (r : Nat) : Sample :=
  if (startedTrack s inputs (rowTrack r)).mode = .dormant then 0 else samples.getD r 0

/-- The part taken into service from what the region's check left, before the notice test. -/
def served (w : State) (inputs : Inputs) (samples : List Sample) : State :=
  { w with
    ts := ⟨startedTrack w inputs .one, startedTrack w inputs .two⟩
    cac :=
      { Capture.start with
        refresh := ⟨startedRefresh w inputs .one, startedRefresh w inputs .two⟩
        mem := Memory.writeColumn [] 64 allRows (startedSample w inputs samples) }
    sup := startedSupply inputs
    trs.marker := if inputs.holdupLow then .consistent else .live }

theorem startSupply_checked (h : RegionChecked s inputs w) :
    w.startSupply =
      { w with sup := startedSupply inputs, trs.marker := if inputs.holdupLow then .consistent else .live } := by
  have hcount : w.cac.count = 0 := by rw [h.cac]; rfl
  have hlow : w.sup.holdupLow = inputs.holdupLow := by rw [h.sup]
  have hfail : w.sup.supplyFail = inputs.supplyFail := by rw [h.sup]
  rw [State.startSupply, hlow, hfail]
  cases hl : inputs.holdupLow with
  | true =>
    rw [if_pos rfl, if_pos rfl, startedSupply, hl, h.sup, hl]
    rfl
  | false =>
    cases hf : inputs.supplyFail with
    | true =>
      rw [if_neg Bool.false_ne_true, if_pos rfl, if_neg Bool.false_ne_true, ← h.marker, hcount, startedSupply, hl, hf, h.sup,
        hl, hf]
      rfl
    | false =>
      have hsup : startedSupply inputs = w.sup := by
        rw [startedSupply, hl, hf, h.sup, hl, hf]
        rfl
      rw [if_neg Bool.false_ne_true, if_neg Bool.false_ne_true, if_neg Bool.false_ne_true, ← h.marker, hsup]

theorem rowSample_started (hts : w.ts = ⟨startedTrack w inputs .one, startedTrack w inputs .two⟩) :
    rowSample w samples = startedSample w inputs samples := by
  have hmode (t : Track) : w.ts.get t = startedTrack w inputs t := by rw [hts]; cases t <;> rfl
  funext r
  simp only [rowSample, convertersOn_eq, startedSample, hmode, decide_eq_true_eq, ne_eq, ite_not]

theorem intoService_checked (h : RegionChecked s inputs w) :
    ((w.startSupply.startTrack .one).startTrack .two).sampleZero samples = served w inputs samples := by
  have before (t : Track) : BeforeTrack w.startSupply inputs t := by
    rw [startSupply_checked h]
    refine ⟨h.errors, (congrArg (fun x : Pair Sequencer => x.get t) h.ts).trans ?_, ?_, ?_, rfl, ?_⟩
    · cases t <;> rfl
    · exact congrArg (·.count) h.cac
    · exact congrArg (·.newest) h.cac
    · exact (congrArg (fun x : Capture => x.refresh.get t) h.cac).trans (by cases t <;> rfl)
  rw [startTracks_clean (before .one) (before .two), startSupply_checked h]
  rw [State.sampleZero, rowSample_started rfl, served, h.cac]
  rfl

theorem served_read (w : State) (inputs : Inputs) (samples : List Sample) {r c : Nat} (hr : r < 20) (hc : c < 8192) :
    Memory.read (served w inputs samples).cac.mem (cell r c) = if c = 64 then startedSample w inputs samples r else 0 := by
  have hrows : ∀ x ∈ allRows, x < Config.rowCount := fun x hx => List.mem_range.1 hx
  have hmem : r ∈ allRows := List.mem_range.2 hr
  refine (Memory.read_writeColumn [] 64 allRows (startedSample w inputs samples) r c hrows (by decide) hc).trans ?_
  simp only [hmem, true_and]
  rfl

theorem replicate_getD_zero (n r : Nat) : (List.replicate n (0 : Int)).getD r 0 = 0 := by
  rw [List.getD_eq_getElem?_getD, List.getElem?_replicate]
  split <;> rfl

/-- What `InService` asks holds of the served part, whatever its alarms and lines. -/
theorem served_inService (h : RegionChecked s inputs w) (samples : List Sample) (a : Alarms) (l : Lines) :
    InService s { served w inputs samples with alm := a, lines := l } inputs samples := by
  obtain ⟨h1, h2, h3, h4, h5⟩ := h.counts
  refine ⟨h.up, fun t => by cases t <;> rfl, ⟨rfl, rfl, rfl, rfl, fun t => by cases t <;> rfl, ?_, ?_, ?_, ?_⟩, h.aee, h.rbu,
    h.tas, ?_, fun p => ?_, h.capture, h1, h2, h3, h4, h5, h.markerAtStart, rfl, rfl⟩
  · intro r
    exact replicate_getD_zero 20 r
  · intro t
    cases t <;> rfl
  · intro r hr
    refine (served_read w inputs samples hr (by decide)).trans ?_
    rw [if_pos rfl, startedSample]
    cases rowTrack r <;> rfl
  · intro r c hr hc hne
    exact (served_read w inputs samples hr hc).trans (if_neg hne)
  · have hw : (served w inputs samples).wat = Watch.start := h.wat
    show (served w inputs samples).wat.state = _ ∧ (served w inputs samples).wat.cond.tracks = _ ∧ _
    exact ⟨congrArg (·.state) hw, congrArg (·.cond.tracks) hw, congrArg (·.pendingCond) hw, congrArg (·.slot) hw,
      congrArg (·.matchCount) hw, congrArg (·.copy) hw, congrArg (·.snapshot.status) hw, congrArg (·.snapshot.length) hw,
      congrArg (·.snapshot.written) hw⟩
  · have hp : (served w inputs samples).ptu = _ := h.ptu
    cases p <;> exact congrArg (fun x : Ports PortState => x.get _) hp

/-! ### The region -/

theorem look_keepOnly {α : Type} (m : List (Nat × α)) (l : List Nat) (k : Nat) :
    look (keepOnly m l) k = if k ∈ l then look m k else none := by
  induction m with
  | nil => simp [keepOnly, look]
  | cons e m ih =>
    have hstep : keepOnly (e :: m) l = if l.contains e.1 then e :: keepOnly m l else keepOnly m l := List.filter_cons
    rw [hstep]
    by_cases he : e.1 ∈ l
    · rw [if_pos (List.contains_iff_mem.2 he), look, look, ih]
      by_cases hk : e.1 = k
      · rw [if_pos hk, if_pos hk, if_pos (hk ▸ he)]
      · rw [if_neg hk, if_neg hk]
    · rw [if_neg fun h => he (List.contains_iff_mem.1 h), ih, look]
      by_cases hk : k ∈ l
      · rw [if_pos hk, if_pos hk, if_neg (by rintro rfl; exact he hk)]
      · rw [if_neg hk, if_neg hk]

theorem readRecord_clean (h : s.trs.errors = []) (r : RecordDir) : s.readRecord r = s := by
  rw [State.readRecord, checkHeader_clean s _ _ h, foldl_clean _ _ s h fun w k hw => checkVehicle_clean w k hw,
    foldl_clean _ _ s h fun w k hw => checkAxle_clean w k [] hw]

/-- The alarm list as a START check keeps it: nothing delivered (R165). -/
def keptAlarms (s : State) : List AlarmEntry := s.alm.list.map fun a => { a with delivered := false }

theorem keepRegion_clean (h : s.trs.errors = []) : s.keepRegion = { s.freeRest with alm.list := keptAlarms s } := by
  rw [State.keepRegion, foldl_clean _ _ s h fun w r hw => readRecord_clean hw r]
  rw [checkAlarms_clean _ (by exact h), checkSettings_clean _ _ (by exact h)]
  rfl

/-- The state that the region's part of a blank check leaves. -/
def blankChecked (s : State) (inputs : Inputs) : State := ((s.startBlocks inputs).clearRegion).endRegion inputs.take

/-- The state that the region's part of a check of a kept region leaves. -/
def keptChecked (s : State) (inputs : Inputs) : State :=
  State.endRegion { (s.startBlocks inputs).freeRest with alm.list := keptAlarms s } inputs.take

theorem blankChecked_region (s : State) (inputs : Inputs) : RegionChecked s inputs (blankChecked s inputs) :=
  ⟨rfl, rfl, rfl, rfl, rfl, rfl, rfl, rfl, rfl, rfl, rfl, ⟨rfl, rfl, rfl, rfl, rfl⟩, rfl, rfl⟩

theorem keptChecked_region (s : State) (inputs : Inputs) : RegionChecked s inputs (keptChecked s inputs) :=
  ⟨rfl, rfl, rfl, rfl, rfl, rfl, rfl, rfl, rfl, rfl, rfl, ⟨rfl, rfl, rfl, rfl, rfl⟩, rfl, rfl⟩

theorem checkRegion_blank (hm : s.trs.marker = .absent) :
    (s.startBlocks inputs).checkRegion inputs.take = blankChecked s inputs := by
  rw [State.checkRegion, if_pos (by exact hm), blankChecked]

theorem checkRegion_kept (hm : s.trs.marker ≠ .absent) (h : s.trs.errors = []) :
    (s.startBlocks inputs).checkRegion inputs.take = keptChecked s inputs := by
  rw [State.checkRegion, if_neg (by exact hm), keepRegion_clean (by exact h)]
  rfl

/-- The end of a START check, from what its region's part left. -/
theorem startCheckEnd_checked (hs : s.startCheck = true) (hw : RegionChecked s inputs w)
    (hc : (s.startBlocks inputs).checkRegion inputs.take = w) (samples : List Sample) :
    exec (.startCheckEnd inputs samples) s =
      .next (if s.trs.marker = .live then (served w inputs samples).testNotice.enterAlarm uncleanStart
        else (served w inputs samples).testNotice).driveLines := by
  have hexec : exec (.startCheckEnd inputs samples) s = .next (s.intoService inputs samples).driveLines :=
    if_pos hs
  rw [hexec, State.intoService, hc, intoService_checked hw]
  simp only [decide_eq_true_eq]

/-- Where the marker was not LIVE the part is the served one after the notice test. -/
theorem served_outcome (w : State) (inputs : Inputs) (samples : List Sample) :
    (served w inputs samples).testNotice.driveLines =
      { served w inputs samples with
        alm := (served w inputs samples).testNotice.alm
        lines := linesOf (served w inputs samples).testNotice } := by
  rw [testNotice_alone]
  rfl

/-- Where it was LIVE the alarm of the unclean start changes the Alarm Unit alone. -/
theorem served_unclean (hw : RegionChecked s inputs w) (samples : List Sample) :
    let v := (served w inputs samples).testNotice.enterAlarm uncleanStart
    v.driveLines = { served w inputs samples with alm := v.alm, lines := linesOf v } := by
  have herr : (served w inputs samples).testNotice.trs.errors = [] := by rw [testNotice_trs]; exact hw.errors
  dsimp only
  rw [enterAlarm_alone herr, testNotice_alone]
  rfl

/-- The Alarm Unit after a check of a kept region: nothing delivered, the counts 0, the handshake tested (R165). -/
def listedAlarms (s : State) (inputs : Inputs) : Alarms where
  list := keptAlarms s
  lastNumber := s.alm.lastNumber
  handshake := if !inputs.take && (keptAlarms s).any fun a => a.state == .raised then .notified else .idle
  takeHigh := inputs.take
  unlisted := 0
  evictions := 0
  retired := 0
  dropped := 0

theorem kept_noticed (s : State) (inputs : Inputs) (samples : List Sample) :
    (served (keptChecked s inputs) inputs samples).testNotice.alm = listedAlarms s inputs := by
  have halm : (served (keptChecked s inputs) inputs samples).alm =
    ⟨keptAlarms s, s.alm.lastNumber, .idle, inputs.take, 0, 0, 0, 0⟩ := rfl
  rw [State.testNotice, halm, listedAlarms]
  by_cases hr : (keptAlarms s).any (fun a => a.state == .raised) = true
  · cases ht : inputs.take <;> simp [hr, halm, ht]
  · simp [hr, halm]

end Sys2Proof.Machine

namespace Sys2Proof.Proofs
open Sys2Proof.Machine

/-- Settles O43: the region is cleared (`checkRegion_blank`), and the part is taken into service from there
(`served_inService`). -/
theorem startCheckEndsBlank : Obligations.StartCheckEndsBlank := by
  intro s inputs samples hs hm _
  have hw := blankChecked_region s inputs
  have hend := startCheckEnd_checked hs hw (checkRegion_blank hm) samples
  rw [if_neg (by rw [hm]; nofun), served_outcome] at hend
  have hnotice : (served (blankChecked s inputs) inputs samples).testNotice = served (blankChecked s inputs) inputs samples :=
    if_neg nofun
  refine ⟨_, hend, served_inService hw samples _ _, rfl, rfl, rfl, rfl, rfl, ?_, fun n => rfl, fun t => ?_⟩
  · rw [hnotice]
    rfl
  · have hd : (blankChecked s inputs).setting (itemDormancy t) ≠ 1 := by
      have hdefault : settingDefault (itemDormancy t) ≠ 1 := by cases t <;> decide
      exact hdefault
    have hmode := startedTrack_mode (blankChecked s inputs) inputs t
    rw [if_neg hd] at hmode
    cases t <;> exact hmode

/-- What a kept region holds after the check, whatever is entered in the alarm list. -/
theorem kept_stands (s : State) (inputs : Inputs) (samples : List Sample) (a : Alarms) (l : Lines) :
    let u : State := { served (keptChecked s inputs) inputs samples with alm := a, lines := l }
    u.trs.records = s.trs.records ∧ u.settings = s.settings ∧ u.tas.lastTrain = s.tas.lastTrain ∧
      (∀ k, (∃ r ∈ s.trs.records, k ∈ r.axles) → look u.trs.axles k = look s.trs.axles k) ∧
      (∀ k, (∀ r ∈ s.trs.records, k ∉ r.axles) → look u.trs.axles k = none) ∧
      (∀ k, (∃ r ∈ s.trs.records, k ∈ r.vehicles) → look u.trs.vehicles k = look s.trs.vehicles k) ∧
      (∀ k, (∀ r ∈ s.trs.records, k ∉ r.vehicles) → look u.trs.vehicles k = none) ∧
      (∀ k, (∃ r ∈ s.trs.records, k = r.header) → look u.trs.headers k = look s.trs.headers k) ∧
      (∀ k, (∀ r ∈ s.trs.records, k ≠ r.header) → look u.trs.headers k = none) ∧ u.trs.errors = [] := by
  intro u
  have hax (k : Nat) := look_keepOnly s.trs.axles (s.trs.records.flatMap (·.axles)) k
  have hve (k : Nat) := look_keepOnly s.trs.vehicles (s.trs.records.flatMap (·.vehicles)) k
  have hhe (k : Nat) := look_keepOnly s.trs.headers (s.trs.records.map (·.header)) k
  simp only [List.mem_flatMap, List.mem_map] at hax hve hhe
  refine ⟨rfl, rfl, rfl, fun k hk => ?_, fun k hk => ?_, fun k hk => ?_, fun k hk => ?_, fun k hk => ?_, fun k hk => ?_, rfl⟩
  · exact (hax k).trans (if_pos hk)
  · exact (hax k).trans (if_neg fun ⟨r, hr, hin⟩ => hk r hr hin)
  · exact (hve k).trans (if_pos hk)
  · exact (hve k).trans (if_neg fun ⟨r, hr, hin⟩ => hk r hr hin)
  · obtain ⟨r, hr, hin⟩ := hk
    exact (hhe k).trans (if_pos ⟨r, hr, hin.symm⟩)
  · exact (hhe k).trans (if_neg fun ⟨r, hr, hin⟩ => hk r hr hin.symm)

/-- What entering the alarm of the unclean start does to the Alarm Unit (R146, R165). -/
theorem unclean_entered (s : State) (inputs : Inputs) (samples : List Sample) (l : Lines) :
    let v := (served (keptChecked s inputs) inputs samples).testNotice
    let u : State := { served (keptChecked s inputs) inputs samples with alm := (v.enterAlarm uncleanStart).alm, lines := l }
    u.alm = (State.enterAlarm { u with alm := listedAlarms s inputs } uncleanStart).alm ∧
      (s.alm.list.length < 64 → (∀ a ∈ s.alm.list, a.key ≠ uncleanStart.key) →
        ∃ a, u.alm.list = keptAlarms s ++ [a] ∧ a.key = uncleanStart.key ∧ a.severity = .watch ∧ a.value = 0 ∧
          a.level = 0 ∧ a.reason = .uncleanStart ∧ a.state = .raised) := by
  intro v u
  have halm : v.alm = listedAlarms s inputs := kept_noticed s inputs samples
  have herr : v.trs.errors = [] := (congrArg (·.errors) (testNotice_trs (served (keptChecked s inputs) inputs samples))).trans
    (keptChecked_region s inputs).errors
  refine ⟨SameForAlarms.entered (s := { u with alm := listedAlarms s inputs }) ⟨halm, ?_, ?_⟩ rfl herr uncleanStart,
    fun hlen hkey => ?_⟩
  · exact congrArg (·.records) (testNotice_trs _)
  · exact (congrArg State.stamp (testNotice_alone (served (keptChecked s inputs) inputs samples))).trans rfl
  · have hlist : v.alm.list = keptAlarms s := congrArg (·.list) halm
    have hnew : ∀ a ∈ v.alm.list, a.key ≠ uncleanStart.key := by
      rw [hlist]
      intro a ha
      obtain ⟨b, hb, rfl⟩ := List.mem_map.1 ha
      exact hkey b hb
    have hroom : v.alm.list.length < 64 := by
      rw [hlist, keptAlarms, List.length_map]
      exact hlen
    refine ⟨_, (enterAlarm_new herr (by decide) hnew hroom).trans (by rw [insertedAlarms, hlist]), rfl, rfl, rfl, rfl, rfl, rfl⟩

/-- Settles O44: the region is read and kept (`checkRegion_kept`), the part is taken into service from there
(`served_inService`), and the alarm of an unclean start changes the Alarm Unit alone (`served_unclean`). -/
theorem startCheckEndsKept : Obligations.StartCheckEndsKept := by
  intro s inputs samples hs hm hc _ kept key asserted listed
  have hw := keptChecked_region s inputs
  have hend := startCheckEnd_checked hs hw (checkRegion_kept hm hc) samples
  have hmode (a : Alarms) (l : Lines) (t : Track) :
      ((State.ts { served (keptChecked s inputs) inputs samples with alm := a, lines := l }).get t).mode =
        if s.setting (itemDormancy t) = 1 then .dormant else if inputs.holdupLow then .armed else .arming := by
    cases t <;> rfl
  by_cases hl : s.trs.marker = .live
  · rw [if_pos hl, served_unclean hw] at hend
    obtain ⟨hent, hnew⟩ := unclean_entered s inputs samples
      (linesOf ((served (keptChecked s inputs) inputs samples).testNotice.enterAlarm uncleanStart))
    obtain ⟨h1, h2, h3, h4, h5, h6, h7, h8, h9, h10⟩ := kept_stands s inputs samples
      ((served (keptChecked s inputs) inputs samples).testNotice.enterAlarm uncleanStart).alm
      (linesOf ((served (keptChecked s inputs) inputs samples).testNotice.enterAlarm uncleanStart))
    exact ⟨_, hend, served_inService hw samples _ _, h1, h2, h3, h4, h5, h6, h7, h8, h9, h10,
      fun hcons => absurd (hl.symm.trans hcons) nofun, fun _ => hent, fun _ => hnew, hmode _ _⟩
  · rw [if_neg hl, served_outcome] at hend
    obtain ⟨h1, h2, h3, h4, h5, h6, h7, h8, h9, h10⟩ := kept_stands s inputs samples
      (served (keptChecked s inputs) inputs samples).testNotice.alm
      (linesOf (served (keptChecked s inputs) inputs samples).testNotice)
    exact ⟨_, hend, served_inService hw samples _ _, h1, h2, h3, h4, h5, h6, h7, h8, h9, h10,
      fun _ => kept_noticed s inputs samples, fun h => absurd h hl, fun h => absurd h hl, hmode _ _⟩

end Sys2Proof.Proofs
end

