-- ==== Sys2Proof/Proofs/CancelledJobs.lean ====
section
/-! SUPPORT. Several trains closed and their jobs cancelled: cancelling job after job is cancelling once (R70, R71), and the close of
one train after another is one change of the Closing List and the hand-over list (R85 to R88). -/

namespace Sys2Proof.Machine

variable {s u : State} {t : Track}

/-! ### Jobs dropped -/

/-- Whether an axle entry is that of a job dropped: queued and picked by `pq`, or in flight, not discarded, and picked by `pf`. -/
def droppedAt (s : State) (pq pf : Job → Bool) (k : Nat) : Bool :=
  (s.aee.queue.any fun j => pq j && liveFor k j) || s.aee.inFlight.any fun f => pf f.job && liveFor k f.job && !f.discard

/-- A job in flight, marked discarded where `p` picks its job. -/
def discardIf (p : Job → Bool) (f : InFlight) : InFlight := { f with discard := f.discard || p f.job }

/-- A state with its jobs and axle entries replaced. -/
def withJobs (s : State) (queue : List Job) (flight : Option InFlight) (axles : List (Nat × AxleEntry)) : State :=
  { s with aee.queue := queue, aee.inFlight := flight, trs.axles := axles }

/-- The queued jobs that `pq` picks removed, the job in flight marked where `pf` picks it, their entries NOT_MEASURED. -/
def jobsDropped (s : State) (pq pf : Job → Bool) : State :=
  withJobs s (s.aee.queue.filter fun j => !pq j)
    (s.aee.inFlight.map (discardIf pf))
    (s.trs.axles.map fun e => if droppedAt s pq pf e.1 then (e.1, setResults .notMeasured e.2) else e)

theorem droppedAt_iff (s : State) (pq pf : Job → Bool) (k : Nat) :
    droppedAt s pq pf k = true ↔
      (∃ j ∈ s.aee.queue, pq j = true ∧ liveFor k j = true) ∨
        ∃ f, s.aee.inFlight = some f ∧ pf f.job = true ∧ liveFor k f.job = true ∧ f.discard = false := by
  simp only [droppedAt, Bool.or_eq_true, List.any_eq_true, Option.any_eq_true, Bool.and_eq_true, Bool.not_eq_true',
    and_assoc]

theorem discardIf_none (o : Option InFlight) : o.map (discardIf fun _ => false) = o := by
  cases o with
  | none => rfl
  | some f => simp only [Option.map_some, discardIf, Bool.or_false]

theorem or_swap_inner : ∀ a b c d : Bool, ((a || b) || (c || d)) = ((a || c) || (b || d)) := by decide

/-- Dropping some jobs and then others is dropping both. -/
theorem droppedAt_twice (s : State) (pq pf pq' pf' : Job → Bool) (k : Nat) :
    (droppedAt s pq pf k || droppedAt (jobsDropped s pq pf) pq' pf' k) =
      droppedAt s (fun j => pq j || pq' j) (fun j => pf j || pf' j) k := by
  have hqueue : ((s.aee.queue.any fun j => pq j && liveFor k j) ||
      (s.aee.queue.filter fun j => !pq j).any fun j => pq' j && liveFor k j) =
      s.aee.queue.any fun j => (pq j || pq' j) && liveFor k j := by
    rw [List.any_filter, Bool.eq_iff_iff]
    simp only [Bool.or_eq_true, List.any_eq_true, Bool.and_eq_true, Bool.not_eq_true']
    grind
  have hflight : ((s.aee.inFlight.any fun f => pf f.job && liveFor k f.job && !f.discard) ||
      (s.aee.inFlight.map (discardIf pf)).any fun f =>
        pf' f.job && liveFor k f.job && !f.discard) =
      s.aee.inFlight.any fun f => (pf f.job || pf' f.job) && liveFor k f.job && !f.discard := by
    cases s.aee.inFlight with
    | none => rfl
    | some f => cases h : pf f.job <;> cases hd : f.discard <;> simp [discardIf, h, hd]
  calc
    _ = (((s.aee.queue.any fun j => pq j && liveFor k j) ||
          s.aee.inFlight.any fun f => pf f.job && liveFor k f.job && !f.discard) ||
        (((s.aee.queue.filter fun j => !pq j).any fun j => pq' j && liveFor k j) ||
          (s.aee.inFlight.map (discardIf pf)).any fun f =>
            pf' f.job && liveFor k f.job && !f.discard)) := rfl
    _ = _ := by rw [or_swap_inner, hqueue, hflight]; rfl

theorem jobsDropped_twice (s : State) (pq pf pq' pf' : Job → Bool) :
    jobsDropped (jobsDropped s pq pf) pq' pf' = jobsDropped s (fun j => pq j || pq' j) (fun j => pf j || pf' j) := by
  have hqueue : (s.aee.queue.filter fun j => !pq j).filter (fun j => !pq' j) =
      s.aee.queue.filter fun j => !(pq j || pq' j) := by
    rw [List.filter_filter]
    exact List.filter_congr fun j _ => by rw [Bool.not_or, Bool.and_comm]
  have hflight : (s.aee.inFlight.map (discardIf pf)).map (discardIf pf') =
      s.aee.inFlight.map (discardIf fun j => pf j || pf' j) := by
    cases s.aee.inFlight with
    | none => rfl
    | some f => simp only [Option.map_some, discardIf, Bool.or_assoc]
  have haxles : (jobsDropped s pq pf).trs.axles.map (fun e =>
        if droppedAt (jobsDropped s pq pf) pq' pf' e.1 then (e.1, setResults .notMeasured e.2) else e) =
      s.trs.axles.map fun e => if droppedAt s (fun j => pq j || pq' j) (fun j => pf j || pf' j) e.1 then
        (e.1, setResults .notMeasured e.2) else e := by
    refine List.map_map.trans (List.map_congr_left fun e _ => ?_)
    rw [Function.comp_apply, ← droppedAt_twice]
    cases h : droppedAt s pq pf e.1 <;> simp [setResults_twice]
  show withJobs s ((s.aee.queue.filter fun j => !pq j).filter fun j => !pq' j)
    ((s.aee.inFlight.map (discardIf pf)).map (discardIf pf'))
    ((jobsDropped s pq pf).trs.axles.map fun e =>
        if droppedAt (jobsDropped s pq pf) pq' pf' e.1 then (e.1, setResults .notMeasured e.2) else e) = _
  rw [hqueue, hflight, haxles, jobsDropped]

theorem jobsDropped_none (s : State) : jobsDropped s (fun _ => false) (fun _ => false) = s := by
  have hd (k : Nat) : droppedAt s (fun _ => false) (fun _ => false) k = false := by simp [droppedAt]
  have hqueue : s.aee.queue.filter (fun _ => !false) = s.aee.queue := List.filter_eq_self.2 fun _ _ => rfl
  have hflight : s.aee.inFlight.map (discardIf fun _ => false) = s.aee.inFlight := discardIf_none _
  simp only [jobsDropped, hd, hqueue, hflight, Bool.false_eq_true, if_false, List.map_id']
  rfl

/-- Whether a job is of one of some trains. -/
def ofTrains (l : List Nat) (j : Job) : Bool := l.any fun n => isJobOf n j

theorem cancelJobs_dropped (s : State) (n : Nat) : s.cancelJobs n = jobsDropped s (isJobOf n) (isJobOf n) := by
  have hflight : (fun f : InFlight => if liveOf n f.job then { f with discard := true } else f) = discardIf (isJobOf n) := by
    funext f
    cases h : isJobOf n f.job <;> simp [liveOf_eq, discardIf, h]
  rw [cancelJobs_eq]
  unfold jobsCancelled
  rw [hflight]
  rfl

theorem foldl_cancelJobs (s : State) (l : List Nat) :
    l.foldl State.cancelJobs s = jobsDropped s (ofTrains l) (ofTrains l) := by
  induction l generalizing s with
  | nil => exact (jobsDropped_none s).symm
  | cons n l ih => rw [List.foldl_cons, ih, cancelJobs_dropped, jobsDropped_twice]; rfl

theorem removeQueuedLive_dropped (s : State) : s.removeQueuedLive = jobsDropped s isLive (fun _ => false) := by
  have hhit (k : Nat) : ((s.aee.queue.filter isLive).filterMap jobEntry).contains k = droppedAt s isLive (fun _ => false) k := by
    rw [Bool.eq_iff_iff, List.contains_iff_mem, droppedAt_iff]
    simp [List.mem_filterMap, liveFor_iff, and_assoc]
  have hflight : s.aee.inFlight.map (discardIf fun _ => false) = s.aee.inFlight := discardIf_none _
  simp only [State.removeQueuedLive, foldl_onAxle, foldl_adjust _ (setResults_twice _), hhit, jobsDropped, hflight]
  rfl

theorem look_mapIf {α : Type} (p : Nat → Bool) (f : α → α) (m : List (Nat × α)) (k : Nat) :
    look (m.map fun e => if p e.1 then (e.1, f e.2) else e) k = if p k then (look m k).map f else look m k := by
  induction m with
  | nil => simp [look]
  | cons e m ih =>
    rw [List.map_cons]
    by_cases hk : e.1 = k
    · subst hk
      cases p e.1 <;> simp [look]
    · cases p e.1 <;> simp [look, hk, ih]

theorem jobsDropped_look (s : State) (pq pf : Job → Bool) (k : Nat) :
    look (jobsDropped s pq pf).trs.axles k =
      if droppedAt s pq pf k then (look s.trs.axles k).map (setResults .notMeasured) else look s.trs.axles k :=
  look_mapIf _ _ _ _

/-! ### Trains closed one after another -/

/-- A count raised some times. -/
def bumps (k n : Nat) : Nat := (List.range k).foldl (fun n _ => bump n) n

theorem bumps_add (k k' n : Nat) : bumps k' (bumps k n) = bumps (k + k') n := by
  induction k' with
  | zero => rfl
  | succ m ih =>
    have hs (a b : Nat) : bumps (a + 1) b = bump (bumps a b) := by simp [bumps, List.range_succ]
    rw [hs, ih, ← Nat.add_assoc, hs]

/-- How many trains a Closing List with `old` trains hands over early as `new` ones join it (R87). -/
def spillCount (old new : Nat) : Nat := min new (old + new - 4)

/-- The trains handed over early as some join the Closing List. -/
def spilled (s : State) (new : List ClosingTrain) : List ClosingTrain :=
  (s.tas.closing ++ new).take (spillCount s.tas.closing.length new.length)

/-- The numbers of some closing trains. -/
def numbersOf (l : List ClosingTrain) : List Nat := l.map (·.train.number)

/-- A state with the Train Assembler's lists and counts and the hand-over list replaced. -/
def withTrains (s : State) (opens : Pair (Option Train)) (closing : List ClosingTrain) (overflows withdrawn : Nat)
    (handOver : List ClosingTrain) : State :=
  { s with
    tas := { s.tas with opens := opens, closing := closing, overflows := overflows, withdrawn := withdrawn }
    rbu.handOver := handOver }

/-- Some trains closed one after another (R85 to R88): the empty ones counted WITHDRAWN, the others on the Closing List, its heads
handed over with their jobs cancelled as it overflows. -/
def allClosed (s : State) (opens : Pair (Option Train)) (new : List ClosingTrain) (empty : List Train) : State :=
  let k := spillCount s.tas.closing.length new.length
  let early := ofTrains (numbersOf (spilled s new))
  withTrains (jobsDropped s early early) opens ((s.tas.closing ++ new).drop k) (bumps k s.tas.overflows)
    (empty.foldl (fun n _ => bump n) s.tas.withdrawn) (s.rbu.handOver ++ spilled s new)

theorem spillCount_add (old a b : Nat) :
    spillCount old a + spillCount (old + a - spillCount old a) b = spillCount old (a + b) := by
  simp only [spillCount]
  omega

theorem spillCount_le (old new : Nat) : spillCount old new ≤ old + new := by
  simp only [spillCount]
  omega

theorem ofTrains_append (a b : List Nat) : (fun j => ofTrains a j || ofTrains b j) = ofTrains (a ++ b) := by
  funext j
  rw [ofTrains, ofTrains, ofTrains, List.any_append]

theorem closing_split (l n : List ClosingTrain) (n' : List ClosingTrain) :
    (l ++ n).drop (spillCount l.length n.length) ++ n' = (l ++ (n ++ n')).drop (spillCount l.length n.length) ∧
      (l ++ n).take (spillCount l.length n.length) = (l ++ (n ++ n')).take (spillCount l.length n.length) := by
  have hle : spillCount l.length n.length ≤ (l ++ n).length := by
    rw [List.length_append]
    exact spillCount_le _ _
  rw [← List.append_assoc]
  exact ⟨(List.drop_append_of_le_length hle).symm, (List.take_append_of_le_length hle).symm⟩

theorem allClosed_twice (s : State) (o o' : Pair (Option Train)) (n n' : List ClosingTrain) (e e' : List Train) :
    allClosed (allClosed s o n e) o' n' e' = allClosed s o' (n ++ n') (e ++ e') := by
  have hclosing : (allClosed s o n e).tas.closing =
    (s.tas.closing ++ n).drop (spillCount s.tas.closing.length n.length) := rfl
  have hlen : (allClosed s o n e).tas.closing.length =
      s.tas.closing.length + n.length - spillCount s.tas.closing.length n.length := by
    rw [hclosing, List.length_drop, List.length_append]
  have hk : spillCount s.tas.closing.length n.length + spillCount (allClosed s o n e).tas.closing.length n'.length =
      spillCount s.tas.closing.length (n ++ n').length := by
    rw [hlen, List.length_append]
    exact spillCount_add _ _ _
  obtain ⟨hdrop, htake⟩ := closing_split s.tas.closing n n'
  have hnext : (allClosed s o n e).tas.closing ++ n' =
      (s.tas.closing ++ (n ++ n')).drop (spillCount s.tas.closing.length n.length) := by
    rw [hclosing, hdrop]
  have hspill : spilled s n ++ spilled (allClosed s o n e) n' = spilled s (n ++ n') := by
    rw [spilled, spilled, hnext, htake, ← List.take_add, hk, spilled]
  have hearly : (fun j => ofTrains (numbersOf (spilled s n)) j || ofTrains (numbersOf (spilled (allClosed s o n e) n')) j) =
      ofTrains (numbersOf (spilled s (n ++ n'))) := by
    rw [ofTrains_append, ← hspill, numbersOf, numbersOf, numbersOf, List.map_append]
  have hopen : allClosed (allClosed s o n e) o' n' e' =
      withTrains
        (jobsDropped (jobsDropped s (ofTrains (numbersOf (spilled s n))) (ofTrains (numbersOf (spilled s n))))
          (ofTrains (numbersOf (spilled (allClosed s o n e) n'))) (ofTrains (numbersOf (spilled (allClosed s o n e) n'))))
        o'
        (((allClosed s o n e).tas.closing ++ n').drop (spillCount (allClosed s o n e).tas.closing.length n'.length))
        (bumps (spillCount (allClosed s o n e).tas.closing.length n'.length)
          (bumps (spillCount s.tas.closing.length n.length) s.tas.overflows))
        (e'.foldl (fun n _ => bump n) (e.foldl (fun n _ => bump n) s.tas.withdrawn))
        (s.rbu.handOver ++ spilled s n ++ spilled (allClosed s o n e) n') := rfl
  rw [hopen, jobsDropped_twice, hearly, hnext, List.drop_drop, hk, bumps_add, hk, ← List.foldl_append, List.append_assoc,
    hspill]
  rfl

theorem allClosed_none (s : State) : allClosed s s.tas.opens [] [] = s := by
  have hk (n : Nat) : spillCount n 0 = 0 := by simp [spillCount]
  have hs : spilled s [] = [] := by simp [spilled, hk]
  simp only [allClosed, hs, List.length_nil, hk, List.drop_zero, List.append_nil]
  exact congrArg (fun w => withTrains w s.tas.opens s.tas.closing s.tas.overflows s.tas.withdrawn s.rbu.handOver)
    (jobsDropped_none s)

/-- The closing train that a close makes of a track's open one, if it is not empty. -/
def newcomers (s : State) (t : Track) (reason : CloseReason) : List ClosingTrain :=
  ((s.tas.opens.get t).toList.filter fun tr => !emptyTrain tr).map fun tr => ⟨tr, reason, s.stamp⟩

/-- A track's open train, if it is empty. -/
def emptyOpen (s : State) (t : Track) : List Train := (s.tas.opens.get t).toList.filter emptyTrain

/-- A train that joins the Closing List is one newcomer. -/
theorem joinClosing_allClosed (s : State) (c : ClosingTrain) : s.joinClosing c = allClosed s s.tas.opens [c] [] := by
  by_cases hl : s.tas.closing.length < 4
  · have hk : spillCount s.tas.closing.length 1 = 0 := by simp only [spillCount]; omega
    have hs : spilled s [c] = [] := by rw [spilled, List.length_singleton, hk, List.take_zero]
    rw [joinClosing_room c hl, allClosed, hs, List.length_singleton, hk, List.drop_zero, List.append_nil]
    exact congrArg
      (fun w => withTrains w s.tas.opens (s.tas.closing ++ [c]) s.tas.overflows s.tas.withdrawn s.rbu.handOver)
      (jobsDropped_none s).symm
  · obtain ⟨head, rest, hc⟩ : ∃ head rest, s.tas.closing = head :: rest := by
      cases hc : s.tas.closing with
      | nil => simp [hc] at hl
      | cons head rest => exact ⟨head, rest, rfl⟩
    have hk : spillCount s.tas.closing.length 1 = 1 := by simp only [spillCount]; omega
    have hs : spilled s [c] = [head] := by rw [spilled, List.length_singleton, hk, hc]; rfl
    rw [joinClosing_full c hl hc, ← cancelJobs_eq, show s.cancelJobs head.train.number = _ from
      foldl_cancelJobs s [head.train.number], allClosed, hs, List.length_singleton, hk, hc]
    rfl

/-- The close request of a track as one of the changes of `allClosed`. -/
theorem closeRequest_allClosed (s : State) (t : Track) (reason : CloseReason) :
    s.closeRequest t reason = allClosed s (s.tas.opens.set t none) (newcomers s t reason) (emptyOpen s t) := by
  cases ho : s.tas.opens.get t with
  | none =>
    have hn : newcomers s t reason = [] := by rw [newcomers, ho]; rfl
    have he : emptyOpen s t = [] := by rw [emptyOpen, ho]; rfl
    rw [closeRequest_none reason ho, hn, he, ← ho, Pair.set_get, allClosed_none]
  | some tr =>
    have hone : s.closeRequest t reason = s.closeTrain t tr reason := by simp only [State.closeRequest, ho]
    rw [hone, State.closeTrain]
    cases hempty : emptyTrain tr with
    | true =>
      have hn : newcomers s t reason = [] := by simp [newcomers, ho, hempty]
      have he : emptyOpen s t = [tr] := by simp [emptyOpen, ho, hempty]
      rw [hn, he, if_pos rfl]
      exact congrArg (fun w : State => { w with tas.withdrawn := bump s.tas.withdrawn })
        (allClosed_none { s with tas.opens := s.tas.opens.set t none }).symm
    | false =>
      have hn : newcomers s t reason = [⟨tr, reason, s.stamp⟩] := by simp [newcomers, ho, hempty]
      have he : emptyOpen s t = [] := by simp [emptyOpen, ho, hempty]
      rw [hn, he, if_neg Bool.false_ne_true]
      exact joinClosing_allClosed { s with tas.opens := s.tas.opens.set t none } ⟨tr, reason, s.stamp⟩

end Sys2Proof.Machine
end

