-- ==== Sys2Proof/Proofs/TornCopyAndPorts.lean ====
section
/-! SUPPORT. A snapshot copy ended at once (R176), and the requests answered RESTARTED on the ports. -/

namespace Sys2Proof.Machine

variable {s u : State}

/-! ### The columns of a copy -/

theorem read_column (m : List (Nat × Sample)) (x : Nat × List Sample) {r c : Nat} (hr : r < 20) (hx : x.1 < 8192)
    (hc : c < 8192) :
    Memory.read (Memory.writeColumn m x.1 allRows fun r => x.2.getD r 0) (cell r c) =
      if c = x.1 then x.2.getD r 0 else Memory.read m (cell r c) := by
  have hrow : r ∈ allRows := List.mem_range.2 hr
  refine (Memory.read_writeColumn m x.1 allRows _ r c (fun y hy => List.mem_range.1 hy) hx hc).trans ?_
  simp only [hrow, true_and]

/-- Columns written one after another stand, each inside the snapshot area and none twice (R174, R175). -/
theorem columnsStand_writeColumns (m : List (Nat × Sample)) (l : List (Nat × List Sample)) :
    ColumnsStand m (writeColumns m l) l := by
  induction l generalizing m with
  | nil => exact fun _ _ => ⟨nofun, fun r c _ _ _ => rfl⟩
  | cons x l ih =>
    intro hin hnodup
    obtain ⟨hx, hl⟩ := List.nodup_cons.1 hnodup
    obtain ⟨hwritten, hother⟩ := ih (Memory.writeColumn m x.1 allRows fun r => x.2.getD r 0)
      (fun y hy => hin y (List.mem_cons_of_mem x hy)) hl
    have hx8 : x.1 < 8192 := (hin x (List.mem_cons_self ..)).2
    refine ⟨fun y hy r hr => ?_, fun r c hr hc hne => ?_⟩
    · rcases List.mem_cons.1 hy with rfl | hy
      · refine (hother r y.1 hr hx8 fun z hz heq => hx (List.mem_map.2 ⟨z, hz, heq⟩)).trans ?_
        rw [read_column m y hr hx8 hx8, if_pos rfl]
      · exact hwritten y hy r hr
    · refine (hother r c hr hc fun y hy => hne y (List.mem_cons_of_mem x hy)).trans ?_
      rw [read_column m x hr hx8 hc, if_neg fun h => hne x (List.mem_cons_self ..) h.symm]

theorem columnsByNow_bounds (s : State) (c : SnapshotCopy) :
    c.done ≤ columnsByNow s c ∧ columnsByNow s c ≤ c.done + c.todo.length ∧
      min (c.done + c.todo.length) (s.cac.count - c.began) ≤ columnsByNow s c := by
  have hmod (a b : Nat) : a % (b + 1) ≤ b := Nat.le_of_lt_succ (Nat.mod_lt a (Nat.succ_pos b))
  have hle := hmod (Config.freeProgress s.free)
    (c.done + c.todo.length - max c.done (min (c.done + c.todo.length) (s.cac.count - c.began)))
  simp only [columnsByNow]
  omega

/-- Ending a copy touches capture memory, the watch and the free value alone. -/
theorem tearCopy_alone (s : State) :
    s.tearCopy = { s with cac.mem := s.tearCopy.cac.mem, wat := s.tearCopy.wat, free := s.tearCopy.free } := by
  cases hc : s.wat.copy with
  | none =>
    have h : s.tearCopy = s := by simp only [State.tearCopy, State.copyByNow, hc]
    rw [h]
  | some c =>
    simp only [State.tearCopy, State.copyByNow, hc, State.copyWrites]

/-- What ending a copy leaves of the watch and of capture memory (R176). -/
theorem tearCopy_torn {v : State} {now : Nat} (hw : v.wat = s.wat) (hmem : v.cac.mem = s.cac.mem)
    (hcount : v.cac.count = countAt s now) (huw : u.wat = v.tearCopy.wat) (hum : u.cac.mem = v.tearCopy.cac.mem) :
    CopyTorn s u now := by
  refine ⟨fun hc => ?_, fun c hc => ?_⟩
  · have h : v.tearCopy = v := by simp only [State.tearCopy, State.copyByNow, hw, hc]
    rw [huw, hum, h, hw, hmem]
    exact ⟨rfl, rfl⟩
  · obtain ⟨hdone, htotal, hleast⟩ := columnsByNow_bounds v c
    have hmem' : v.tearCopy.cac.mem = writeColumns s.cac.mem (c.todo.take (columnsByNow v c - c.done)) := by
      simp only [State.tearCopy, State.copyByNow, hw, hc, State.copyWrites, hmem]
    refine ⟨columnsByNow v c - c.done, by omega, by rw [← hcount]; omega, hum.trans hmem', ?_, huw.trans ?_⟩
    · rw [hum, hmem']
      exact columnsStand_writeColumns _ _
    · simp only [State.tearCopy, State.copyByNow, hw, hc, State.copyWrites, writtenRange]

/-! ### The ports -/

/-- A port whose pending request has been answered without data. -/
def portAnswered (u : PortState) (status : Status) : PortState :=
  match u.slot with
  | .pending tag req _ => { u with slot := .answered tag req.row status .none 1 }
  | _ => u

theorem answer_none (s : State) (p : Port) (st : Status) :
    s.answer p st .none = { s with ptu := s.ptu.set p (portAnswered (s.ptu.get p) st) } := rfl

theorem portAnswered_pending {x : PortState} {tag : Nat} {r : Request} {served : Bool} (h : x.slot = .pending tag r served)
    (st : Status) : portAnswered x st = { x with slot := .answered tag r.row st .none 1 } := by
  simp only [portAnswered, h]

theorem portAnswered_other {x : PortState} (h : ∀ tag r served, x.slot ≠ .pending tag r served) (st : Status) :
    portAnswered x st = x := by
  unfold portAnswered
  split
  · next tag r served hslot => exact absurd hslot (h tag r served)
  · rfl

/-- Answering RESTARTED each port that a test picks, where the test looks at that port's slot alone. -/
theorem foldl_answerRestarted (q : Port → PortState → Bool) (s : State) :
    allPorts.foldl (fun s p => if q p (s.ptu.get p) then s.answerRestarted p else s) s =
      { s with
        ptu := ⟨if q .rp s.ptu.rp then portAnswered s.ptu.rp .restarted else s.ptu.rp,
          if q .ap s.ptu.ap then portAnswered s.ptu.ap .restarted else s.ptu.ap,
          if q .sp s.ptu.sp then portAnswered s.ptu.sp .restarted else s.ptu.sp⟩ } := by
  have hone (s : State) (p : Port) : (if q p (s.ptu.get p) then s.answerRestarted p else s) =
      { s with ptu := s.ptu.set p (if q p (s.ptu.get p) then portAnswered (s.ptu.get p) .restarted else s.ptu.get p) } := by
    split
    · rfl
    · rw [Ports.set_get]
  simp only [hone, allPorts, List.foldl_cons, List.foldl_nil]
  rfl

end Sys2Proof.Machine
end

