-- ==== Sys2Proof/Proofs/RestartDone.lean ====
section
/-! RESTART (O58). -/

namespace Sys2Proof.Machine

variable {s u : State} {t : Track}

/-! ### The trains -/

theorem closeRequests_allClosed (s : State) (reason : CloseReason) :
    (s.closeRequest .one reason).closeRequest .two reason =
      allClosed s ⟨none, none⟩ (newcomers s .one reason ++ newcomers s .two reason)
        (emptyOpen s .one ++ emptyOpen s .two) := by
  have hf := closeRequest_frame s .one reason
  have hopen : (s.closeRequest .one reason).tas.opens = ⟨none, s.tas.opens.two⟩ := closeRequest_opens s .one reason
  have hstamp : (s.closeRequest .one reason).stamp = s.stamp := by rw [State.stamp, State.stamp, hf.cac]
  have hn : newcomers (s.closeRequest .one reason) .two reason = newcomers s .two reason := by
    rw [newcomers, newcomers, hopen, hstamp]
    rfl
  have he : emptyOpen (s.closeRequest .one reason) .two = emptyOpen s .two := by
    rw [emptyOpen, emptyOpen, hopen]
    rfl
  rw [closeRequest_allClosed (s.closeRequest .one reason), hn, he, hopen, closeRequest_allClosed s, allClosed_twice]
  rfl

/-- The trains that two closes of one reason put on the Closing List, track 1's first. -/
theorem closedTrains_eq (s : State) (reason : CloseReason) :
    closedTrains s false reason s.stamp = newcomers s .one reason ++ newcomers s .two reason := by
  rw [closedTrains, List.filter_append, List.map_append]
  rfl

theorem emptyOpens_eq (s : State) :
    (s.tas.opens.one.toList ++ s.tas.opens.two.toList).filter emptyTrain = emptyOpen s .one ++ emptyOpen s .two :=
  List.filter_append ..

/-- The numbers of the trains that are closing after RESTART, with those that `new` closes add (R93). -/
def heldNumbers (s : State) (new : List ClosingTrain) : List Nat :=
  numbersOf (s.rbu.handOver ++ s.tas.closing ++ new) ++ (s.rbu.closeOp.map (·.closing.train.number)).toList

theorem ofTrains_iff (l : List Nat) (j : Job) : ofTrains l j = true ↔ ∃ n ∈ l, isJobOf n j = true := by
  simp only [ofTrains, List.any_eq_true]

theorem ofTrains_congr {l l' : List Nat} (h : ∀ n, n ∈ l ↔ n ∈ l') : ofTrains l = ofTrains l' := by
  funext j
  rw [Bool.eq_iff_iff, ofTrains_iff, ofTrains_iff]
  simp only [h]

theorem numbersOf_append (l l' : List ClosingTrain) : numbersOf (l ++ l') = numbersOf l ++ numbersOf l' := List.map_append

theorem closingTrains_numbers (s : State) :
    (closingTrains s).map (·.number) =
      numbersOf s.tas.closing ++ numbersOf s.rbu.handOver ++ (s.rbu.closeOp.map (·.closing.train.number)).toList := by
  simp only [closingTrains, numbersOf, List.map_append, List.map_map]
  cases s.rbu.closeOp <;> rfl

theorem mem_heldNumbers (s : State) (new : List ClosingTrain) (n : Nat) :
    n ∈ numbersOf (spilled s new) ++
        (numbersOf ((s.tas.closing ++ new).drop (spillCount s.tas.closing.length new.length)) ++
          numbersOf (s.rbu.handOver ++ spilled s new) ++ (s.rbu.closeOp.map (·.closing.train.number)).toList) ↔
      n ∈ heldNumbers s new := by
  have hsplit : n ∈ numbersOf (s.tas.closing ++ new) ↔ n ∈ numbersOf (spilled s new) ∨
      n ∈ numbersOf ((s.tas.closing ++ new).drop (spillCount s.tas.closing.length new.length)) := by
    rw [← List.mem_append, ← numbersOf_append, spilled, List.take_append_drop]
  rw [heldNumbers, List.append_assoc s.rbu.handOver, numbersOf_append s.rbu.handOver, numbersOf_append s.rbu.handOver]
  simp only [List.mem_append, hsplit]
  tauto

/-- The Train Assembler and the engine at RESTART (R70, R93): every closing train handed over in close order, its jobs
cancelled, the queue emptied. -/
theorem restartTrains_eq (s : State) :
    let new := newcomers s .one .forced ++ newcomers s .two .forced
    s.restartTrains =
      withTrains
        (withJobs s [] (s.aee.inFlight.map (discardIf (ofTrains (heldNumbers s new))))
          (jobsDropped s (ofTrains (heldNumbers s new)) (ofTrains (heldNumbers s new))).trs.axles)
        ⟨none, none⟩ [] (bumps (spillCount s.tas.closing.length new.length) s.tas.overflows)
        ((emptyOpen s .one ++ emptyOpen s .two).foldl (fun n _ => bump n) s.tas.withdrawn)
        (s.rbu.handOver ++ s.tas.closing ++ new) := by
  intro new
  let w := allClosed s ⟨none, none⟩ new (emptyOpen s .one ++ emptyOpen s .two)
  have hfold : (closingTrains w).foldl (fun s tr => s.cancelJobs tr.number) w =
      jobsDropped w (ofTrains ((closingTrains w).map (·.number))) (ofTrains ((closingTrains w).map (·.number))) := by
    rw [← foldl_cancelJobs, List.foldl_map]
  have hnow : (closingTrains w).map (·.number) =
      numbersOf ((s.tas.closing ++ new).drop (spillCount s.tas.closing.length new.length)) ++
        numbersOf (s.rbu.handOver ++ spilled s new) ++ (s.rbu.closeOp.map (·.closing.train.number)).toList :=
    closingTrains_numbers w
  have hmem (n : Nat) : n ∈ numbersOf (spilled s new) ++ (closingTrains w).map (·.number) ↔ n ∈ heldNumbers s new := by
    rw [hnow]
    exact mem_heldNumbers s new n
  have hall : (fun j => ofTrains (numbersOf (spilled s new)) j || ofTrains ((closingTrains w).map (·.number)) j) =
      ofTrains (heldNumbers s new) := (ofTrains_append _ _).trans (ofTrains_congr hmem)
  have hjobs := jobsDropped_twice s (ofTrains (numbersOf (spilled s new))) (ofTrains (numbersOf (spilled s new)))
    (ofTrains ((closingTrains w).map (·.number))) (ofTrains ((closingTrains w).map (·.number)))
  rw [hall] at hjobs
  have hhand : s.rbu.handOver ++ spilled s new ++ (s.tas.closing ++ new).drop (spillCount s.tas.closing.length new.length) =
      s.rbu.handOver ++ s.tas.closing ++ new := by
    rw [List.append_assoc, spilled, List.take_append_drop, List.append_assoc]
  have hopen : s.restartTrains =
      withTrains
        (withJobs s []
          (jobsDropped (jobsDropped s (ofTrains (numbersOf (spilled s new))) (ofTrains (numbersOf (spilled s new))))
            (ofTrains ((closingTrains w).map (·.number))) (ofTrains ((closingTrains w).map (·.number)))).aee.inFlight
          (jobsDropped (jobsDropped s (ofTrains (numbersOf (spilled s new))) (ofTrains (numbersOf (spilled s new))))
            (ofTrains ((closingTrains w).map (·.number))) (ofTrains ((closingTrains w).map (·.number)))).trs.axles)
        ⟨none, none⟩ [] (bumps (spillCount s.tas.closing.length new.length) s.tas.overflows)
        ((emptyOpen s .one ++ emptyOpen s .two).foldl (fun n _ => bump n) s.tas.withdrawn)
        (s.rbu.handOver ++ spilled s new ++ (s.tas.closing ++ new).drop (spillCount s.tas.closing.length new.length)) := by
    rw [State.restartTrains, closeRequests_allClosed]
    exact congrArg (fun x : State => State.handOverAll { x with aee.queue := [] }) hfold
  rw [hopen, hjobs, hhand]
  rfl

/-! ### The tracks -/

/-- The refresh of a track after RESTART (R34, R36). -/
def restartedRefresh (s : State) : Option Refresh := if s.sup.mode = .run then some ⟨s.cac.newest + 1, 0⟩ else none

/-- A state with one track restarted, nothing else touched. -/
def withTrackRestarted (s : State) (t : Track) : State :=
  { s with
    ts := s.ts.set t (restartedTrack s t s.cac.count)
    cac.refresh := s.cac.refresh.set t (restartedRefresh s) }

/-- A track's sequencer once RESTART has stopped its timers and dropped its pending crossing (R26). -/
def haltedTrack (q : Sequencer) : Sequencer :=
  { stopStuck (stopIdle (stopTrain q)) with pending := none, recovery := none }

theorem restartTrack_clean (h : s.trs.errors = []) (t : Track) : s.restartTrack t = withTrackRestarted s t := by
  have hstuck (g : Head) : stuckBegun ((s.abandonRefresh t).fitted t)
        ((s.abandonRefresh t).timer (stuckItem (s.abandonRefresh t) t)) (haltedTrack (s.ts.get t)) g =
      if (s.ts.get t).heads.get (headIx g) = true ∧
          (s.setting (itemFitted t) ≠ 1 ∨ (s.ts.get t).occupied = false) then
        some (s.cac.count + s.settingNat (if s.setting (itemFitted t) = 1 then itemTStuck else itemTAbandon) * 100000)
      else none := by
    have hnone : (haltedTrack (s.ts.get t)).stuck.get (headIx g) = none := by cases g <;> rfl
    simp only [stuckBegun, hnone, stuckItem, fitted_iff, fitted_false_iff]
    rfl
  have hrun : s.restartTrack t =
      (((s.abandonRefresh t).onTrack t haltedTrack).enterArming t).resumeStuck t := rfl
  rw [hrun, enterArming_onTrack (by exact h), armingOf_resumeStuck (by exact h)]
  simp only [show (s.abandonRefresh t).ts = s.ts from rfl, hstuck]
  by_cases hm : s.sup.mode = .run
  · have hm' : (s.abandonRefresh t).sup.mode = .run := hm
    simp only [armingOf, withTrackRestarted, restartedTrack, restartedRefresh, if_pos hm, if_pos hm', Pair.get_set_same]
    simp only [State.abandonRefresh, Pair.set_set]
    rfl
  · have hm' : (s.abandonRefresh t).sup.mode ≠ .run := hm
    simp only [armingOf, withTrackRestarted, restartedTrack, restartedRefresh, if_neg hm, if_neg hm', Pair.get_set_same]
    rfl

theorem restartTracks_clean (h : s.trs.errors = []) :
    (s.restartTrack .one).restartTrack .two =
      { s with
        ts := ⟨restartedTrack s .one s.cac.count, restartedTrack s .two s.cac.count⟩
        cac.refresh := ⟨restartedRefresh s, restartedRefresh s⟩ } := by
  have hother : restartedTrack (withTrackRestarted s .one) .two s.cac.count = restartedTrack s .two s.cac.count := by
    by_cases hm : s.sup.mode = .run
    · have hm' : (withTrackRestarted s .one).sup.mode = .run := hm
      simp only [restartedTrack, armingOf, if_pos hm, if_pos hm', Pair.get_set_same]
      rfl
    · have hm' : (withTrackRestarted s .one).sup.mode ≠ .run := hm
      simp only [restartedTrack, armingOf, if_neg hm, if_neg hm', Pair.get_set_same]
      rfl
  rw [restartTrack_clean h, restartTrack_clean (by exact h), withTrackRestarted,
    show (withTrackRestarted s .one).cac.count = s.cac.count from rfl, hother]
  rfl

theorem restartedTrack_congr {v : State} (hts : v.ts = s.ts) (hset : v.settings = s.settings) (hsup : v.sup = s.sup)
    (t : Track) (count : Nat) : restartedTrack v t count = restartedTrack s t count := by
  have hs (n : Nat) : v.setting n = s.setting n := by rw [State.setting, State.setting, hset]
  have hn (n : Nat) : v.settingNat n = s.settingNat n := by rw [State.settingNat, State.settingNat, hs]
  unfold restartedTrack
  by_cases hm : s.sup.mode = .run
  · have hm' : v.sup.mode = .run := by rw [hsup, hm]
    simp only [armingOf, if_pos hm, if_pos hm', Pair.get_set_same, hts, hs, hn]
  · have hm' : v.sup.mode ≠ .run := by rw [hsup]; exact hm
    simp only [armingOf, if_neg hm, if_neg hm', Pair.get_set_same, hts, hs, hn]

/-! ### The whole of it -/

/-- The part at RESTART before the copy is ended and the requests are answered. -/
def restartedPart (s : State) : State :=
  { s.restartTrains with
    ts := ⟨restartedTrack s .one s.cac.count, restartedTrack s .two s.cac.count⟩
    cac := { s.cac with refresh := ⟨restartedRefresh s, restartedRefresh s⟩ } }

theorem restart_tracks (h : s.trs.errors = []) :
    (s.restartTrains.restartTrack .one).restartTrack .two = restartedPart s := by
  have hclean : s.restartTrains.trs.errors = [] := by rw [restartTrains_eq]; exact h
  have hts : s.restartTrains.ts = s.ts := by rw [restartTrains_eq]; rfl
  have hset : s.restartTrains.settings = s.settings := by rw [restartTrains_eq]; rfl
  have hsup : s.restartTrains.sup = s.sup := by rw [restartTrains_eq]; rfl
  have hcac : s.restartTrains.cac = s.cac := by rw [restartTrains_eq]; rfl
  have hrefresh : restartedRefresh s.restartTrains = restartedRefresh s := by
    rw [restartedRefresh, restartedRefresh, hsup, hcac]
  rw [restartTracks_clean hclean, restartedTrack_congr hts hset hsup, restartedTrack_congr hts hset hsup, hrefresh, hcac]
  rfl

/-- The ports after RESTART on one of them (R195, R207). -/
def restartedPorts (s : State) (p : Port) : Ports PortState :=
  let each (q : Port) : PortState := portAnswered (s.ptu.get q) (if q = p then .done else .restarted)
  ⟨each .rp, each .ap, each .sp⟩

theorem restartedPorts_get (s : State) (p q : Port) :
    (restartedPorts s p).get q = portAnswered (s.ptu.get q) (if q = p then .done else .restarted) := by
  cases q <;> rfl

theorem answer_others (s : State) (p : Port) :
    (s.restartOthers p).answer p .done .none = { s with ptu := restartedPorts s p } := by
  have hothers : s.restartOthers p = allPorts.foldl
      (fun s q => if (fun q (_ : PortState) => decide (q ≠ p)) q (s.ptu.get q) then s.answerRestarted q else s) s := by
    simp only [State.restartOthers, decide_eq_true_eq, ne_eq, ite_not]
  rw [hothers.trans (foldl_answerRestarted (fun q _ => decide (q ≠ p)) s), answer_none]
  cases p <;> rfl

/-- What RESTART leaves (R207). -/
def restarted (s : State) (p : Port) : State :=
  { restartedPart s with
    cac := { (restartedPart s).cac with mem := (restartedPart s).tearCopy.cac.mem }
    wat := (restartedPart s).tearCopy.wat
    free := (restartedPart s).tearCopy.free
    ptu := restartedPorts s p }

theorem restart_clean (h : s.trs.errors = []) (p : Port) : s.restart p = restarted s p := by
  have hptu : (restartedPart s).tearCopy.ptu = s.ptu := by
    rw [tearCopy_alone, restartedPart, restartTrains_eq]
    rfl
  have hports : restartedPorts (restartedPart s).tearCopy p = restartedPorts s p := by
    simp only [restartedPorts, hptu]
  rw [State.restart, restart_tracks h, answer_others, hports, tearCopy_alone]
  rfl

end Sys2Proof.Machine

namespace Sys2Proof.Proofs
open Sys2Proof.Machine

variable {s : State}

theorem heldTrains_numbers (u : State) :
    (heldTrains u).map (·.number) = numbersOf u.rbu.handOver ++ (u.rbu.closeOp.map (·.closing.train.number)).toList := by
  rw [heldTrains, numbersOf, List.map_append, List.map_map]
  cases u.rbu.closeOp <;> rfl

theorem liveJob_iff (n k : Nat) (j : Job) :
    isJobOf n j = true ∧ liveFor k j = true ↔ ∃ i, j.owner = .live n k i := by
  simp only [isJobOf, liveFor]
  cases j.owner <;> simp

/-- The jobs that RESTART drops are those the statement calls cancelled (R70, R93). -/
theorem dropped_iff_cancelled {l : List Nat} (s : State) {u : State} (hu : (heldTrains u).map (·.number) = l) (k : Nat) :
    droppedAt s (ofTrains l) (ofTrains l) k = true ↔ Cancelled s u k := by
  rw [droppedAt_iff]
  simp only [ofTrains_iff, ← hu, List.mem_map, Cancelled]
  constructor
  · rintro (⟨j, hj, ⟨n, htr, hn⟩, hk⟩ | ⟨f, hf, ⟨n, htr, hn⟩, hk, hd⟩)
    · obtain ⟨i, ho⟩ := (liveJob_iff n k j).1 ⟨hn, hk⟩
      exact ⟨n, i, htr, .inl ⟨j, hj, ho⟩⟩
    · obtain ⟨i, ho⟩ := (liveJob_iff n k f.job).1 ⟨hn, hk⟩
      exact ⟨n, i, htr, .inr ⟨f, hf, hd, ho⟩⟩
  · rintro ⟨n, i, htr, ⟨j, hj, ho⟩ | ⟨f, hf, hd, ho⟩⟩
    · obtain ⟨hn, hk⟩ := (liveJob_iff n k j).2 ⟨i, ho⟩
      exact .inl ⟨j, hj, ⟨n, htr, hn⟩, hk⟩
    · obtain ⟨hn, hk⟩ := (liveJob_iff n k f.job).2 ⟨i, ho⟩
      exact .inr ⟨f, hf, ⟨n, htr, hn⟩, hk, hd⟩

/-- A job in flight marked for some trains, as the statements put it. -/
theorem discardIf_ofTrains (l : List Nat) (f : InFlight) :
    discardIf (ofTrains l) f =
      match f.job.owner with
      | .live n _ _ => { f with discard := f.discard || l.any fun m => m == n }
      | .service _ _ _ _ => f := by
  cases ho : f.job.owner with
  | live n k i =>
    have hl : ofTrains l f.job = l.any fun m => m == n := by
      have hj (m : Nat) : isJobOf m f.job = (m == n) := by simp [isJobOf, ho, Bool.beq_comm]
      rw [ofTrains, funext hj]
    rw [discardIf, hl]
  | service p c q d =>
    have hl : ofTrains l f.job = false := by
      have hj (m : Nat) : isJobOf m f.job = false := by simp [isJobOf, ho]
      simp [ofTrains, hj]
    rw [discardIf, hl, Bool.or_false]

/-- Settles O58: the closes and cancellations are one (`restartTrains_eq`), each track is restarted alone
(`restartTracks_clean`), and what is left is the copy (`tearCopy_torn`) and the ports. -/
theorem restartDone : Obligations.RestartDone := by
  intro s p tag now hr empty closed count
  have hlead := leadsTo_of_ready hr (i := .restart p now) rfl rfl (restart_clean (s := reached s now) hr.clean p)
  have hnew : closed = newcomers (reached s now) .one .forced ++ newcomers (reached s now) .two .forced :=
    closedTrains_eq (reached s now) .forced
  have hempty : empty = emptyOpen (reached s now) .one ++ emptyOpen (reached s now) .two := emptyOpens_eq (reached s now)
  have htrack (t : Track) (c : Nat) : restartedTrack (reached s now) t c = restartedTrack s t c :=
    restartedTrack_congr (s := s) (v := reached s now) rfl rfl rfl t c
  have hrefresh : (⟨restartedRefresh (reached s now), restartedRefresh (reached s now)⟩ : Pair (Option Refresh)) =
      if s.sup.mode = .run then ⟨some ⟨s.cac.newest + 1, 0⟩, some ⟨s.cac.newest + 1, 0⟩⟩ else ⟨none, none⟩ := by
    by_cases hm : s.sup.mode = .run
    · rw [if_pos hm, restartedRefresh, if_pos (by exact hm)]; rfl
    · rw [if_neg hm, restartedRefresh, if_neg (by exact hm)]
  have hpart := restartedPart.eq_1 (reached s now)
  rw [restartTrains_eq, ← hnew, ← hempty, htrack, htrack, hrefresh] at hpart
  have hnums : (heldTrains (restarted (reached s now) p)).map (·.number) = heldNumbers (reached s now) closed := by
    rw [heldTrains_numbers, restarted, hpart]
    rfl
  have haxles : (restarted (reached s now) p).trs.axles =
      (jobsDropped s (ofTrains (heldNumbers (reached s now) closed)) (ofTrains (heldNumbers (reached s now) closed))).trs.axles := by
    rw [restarted, hpart]
    rfl
  have hflight : (restarted (reached s now) p).aee.inFlight =
      s.aee.inFlight.map (discardIf (ofTrains (heldNumbers (reached s now) closed))) := by
    rw [restarted, hpart]
    rfl
  refine ⟨restarted (reached s now) p, hlead, ?_, fun hlen => ?_, ?_, fun k a hk ha => ?_, fun k hk => ?_, ?_, ?_,
    fun q hq => ⟨fun tag' r v hslot => ?_, fun hslot => ?_⟩⟩
  · unfold restarted
    rw [hpart]
    rfl
  · have hspill : spillCount s.tas.closing.length closed.length = s.tas.closing.length + closed.length - 4 := by
      simp only [spillCount]
      omega
    rw [← hspill, restarted, hpart]
    rfl
  · rw [hflight, ← hnums]
    simp only [funext (discardIf_ofTrains _), List.any_map] <;> rfl
  · rw [haxles, jobsDropped_look, if_pos ((dropped_iff_cancelled s hnums k).2 hk), ha]
    rfl
  · rw [haxles, jobsDropped_look, if_neg fun h => hk ((dropped_iff_cancelled s hnums k).1 h)]
  · refine tearCopy_torn (v := restartedPart (reached s now)) ?_ ?_ ?_ rfl rfl <;> rw [hpart] <;> rfl
  · refine (restartedPorts_get (reached s now) p p).trans ?_
    rw [if_pos rfl]
    exact portAnswered_pending hr.slot _
  · refine (restartedPorts_get (reached s now) p q).trans ?_
    rw [if_neg hq]
    exact portAnswered_pending hslot _
  · refine (restartedPorts_get (reached s now) p q).trans ?_
    rw [if_neg hq]
    exact portAnswered_other hslot _

end Sys2Proof.Proofs
end

