-- ==== Sys2Proof/Proofs/FrozenTracks.lean ====
section
/-! The entry to FROZEN (O39). -/

namespace Sys2Proof.Machine

variable {s u : State} {t : Track}

/-! ### Alarms entered one after another -/

theorem foldl_enterAlarm_alone (h : s.trs.errors = []) (l : List Judgement) :
    l.foldl State.enterAlarm s = { s with alm := (l.foldl State.enterAlarm s).alm } := by
  induction l generalizing s with
  | nil => rfl
  | cons j l ih =>
    have hone := enterAlarm_alone h j
    rw [List.foldl_cons, ih (enterAlarm_errors j h)]
    rw [hone]

theorem SameForAlarms.foldl (h : SameForAlarms s u) (hs : s.trs.errors = []) (hu : u.trs.errors = []) (l : List Judgement) :
    (l.foldl State.enterAlarm u).alm = (l.foldl State.enterAlarm s).alm := by
  induction l generalizing s u with
  | nil => exact h.alm
  | cons j l ih =>
    refine ih ⟨h.entered hs hu j, ?_, ?_⟩ (enterAlarm_errors j hs) (enterAlarm_errors j hu)
    · rw [enterAlarm_alone hs, enterAlarm_alone hu]
      exact h.records
    · rw [enterAlarm_alone hs, enterAlarm_alone hu]
      exact h.stamp

/-- An entry that a judgement has just made (R148, R150). -/
structure MadeBy (a : AlarmEntry) (j : Judgement) : Prop where
  key : a.key = j.key
  severity : a.severity = j.severity
  value : a.value = j.value
  level : a.level = j.level
  reason : a.reason = j.reason
  state : a.state = .raised

/-- Judgements of new keys, all different, join a list that has room for them. -/
theorem foldl_enterAlarm_new (h : s.trs.errors = []) (l : List Judgement) (hsev : ∀ j ∈ l, j.severity ≠ .none)
    (hkeys : ∀ j ∈ l, ∀ a ∈ s.alm.list, a.key ≠ j.key) (hdiff : (l.map (·.key)).Nodup)
    (hroom : s.alm.list.length + l.length ≤ 64) :
    ∃ made, (l.foldl State.enterAlarm s).alm.list = s.alm.list ++ made ∧ List.Forall₂ MadeBy made l := by
  induction l generalizing s with
  | nil => exact ⟨[], (List.append_nil _).symm, .nil⟩
  | cons j l ih =>
    obtain ⟨hj, hl⟩ := List.nodup_cons.1 hdiff
    rw [List.length_cons] at hroom
    have hnew := enterAlarm_new h (hsev j (List.mem_cons_self ..)) (hkeys j (List.mem_cons_self ..)) (by omega)
    obtain ⟨a, ha, hmade⟩ : ∃ a, (s.enterAlarm j).alm.list = s.alm.list ++ [a] ∧ MadeBy a j :=
      ⟨_, hnew, rfl, rfl, rfl, rfl, rfl, rfl⟩
    obtain ⟨made, hlist, hall⟩ := ih (enterAlarm_errors j h) (fun k hk => hsev k (List.mem_cons_of_mem j hk))
      (fun k hk b hb => by
        rw [ha, List.mem_append, List.mem_singleton] at hb
        rcases hb with hb | rfl
        · exact hkeys k (List.mem_cons_of_mem j hk) b hb
        · rw [hmade.key]
          exact fun heq => hj (List.mem_map.2 ⟨k, hk, heq.symm⟩))
      hl (by rw [ha, List.length_append, List.length_singleton]; omega)
    exact ⟨a :: made, by rw [List.foldl_cons, hlist, ha, List.append_assoc]; rfl, .cons hmade hall⟩

/-! ### A track -/

/-- A track's sequencer after the entry to FROZEN (R27, R203). -/
def frozenTrack (s : State) (t : Track) : Sequencer :=
  let q := s.ts.get t
  if q.mode = .arming ∨ q.mode = .passing ∨ q.mode = .standstill then
    { q with
      mode := .armed, tSettle := none, tEnd := none, tStand := none, tAbandon := none, recovery := none,
      tDormant := some (s.cac.count + s.settingNat itemTDormant * 100000),
      tRetare := some (s.cac.count + s.settingNat itemTRetare * 100000) }
  else q

/-- The SUPPLY alarm of a track's open train (R203). -/
def freezeAlarms (s : State) (t : Track) : List Judgement := ((s.tas.opens.get t).map (freezeAlarm t)).toList

/-- A state with its tracks, its refreshes and its alarms replaced. -/
def withTracks (s : State) (ts : Pair Sequencer) (refresh : Pair (Option Refresh)) (alm : Alarms) : State :=
  { s with ts := ts, cac.refresh := refresh, alm := alm }

/-- What the freeze leaves of a track and its train, nothing else touched. -/
def trackFrozen (s : State) (t : Track) : State :=
  withTracks (allClosed s (s.tas.opens.set t none) (newcomers s t .power) (emptyOpen s t)) (s.ts.set t (frozenTrack s t))
    (s.cac.refresh.set t none) ((freezeAlarms s t).foldl State.enterAlarm s).alm

theorem freezeTrack_open (h : s.trs.errors = []) (hm : s.sup.mode = .frozen) {tr : Train} (ho : s.tas.opens.get t = some tr)
    (hq : (s.ts.get t).mode = .passing ∨ (s.ts.get t).mode = .standstill) : s.freezeTrack t = trackFrozen s t := by
  have hrun : s.sup.mode ≠ .run := by rw [hm]; nofun
  have hna : (s.ts.get t).mode ≠ .arming := by rcases hq with hq | hq <;> rw [hq] <;> nofun
  let w : State := withTracks (allClosed s (s.tas.opens.set t none) (newcomers s t .power) (emptyOpen s t))
    (s.ts.set t (frozenTrack s t)) (s.cac.refresh.set t none) s.alm
  have hclose : (s.abandonRefresh t).closeToArming t .power = w := by
    rw [State.closeToArming, closeRequest_allClosed, enterArming_clean (by exact h), armingOf, if_neg (by exact hrun)]
    simp only [w, frozenTrack, if_pos (Or.inr hq)]
    rfl
  rw [freezeTrack_some tr (by rw [checkSetting_clean s _ h]; exact ho), checkSetting_clean s _ h, stopRefresh, if_neg hna, hclose,
    enterAlarm_alone (by exact h)]
  have halarm : freezeAlarms s t = [freezeAlarm t tr] := by rw [freezeAlarms, ho]; rfl
  have hent : ∀ w : State, SameForAlarms s w → w.trs.errors = [] →
      (w.enterAlarm (freezeAlarm t tr)).alm = ([freezeAlarm t tr].foldl State.enterAlarm s).alm :=
    fun w hw he => hw.entered h he _
  rw [trackFrozen, halarm, ← hent w ⟨rfl, rfl, rfl⟩ h]
  rfl

theorem freezeTrack_shut (h : s.trs.errors = []) (ho : s.tas.opens.get t = none)
    (hq : trainMode (s.ts.get t).mode = false) : s.freezeTrack t = trackFrozen s t := by
  have hn : newcomers s t .power = [] := by rw [newcomers, ho]; rfl
  have he : emptyOpen s t = [] := by rw [emptyOpen, ho]; rfl
  have ha : freezeAlarms s t = [] := by rw [freezeAlarms, ho]; rfl
  have hopens : s.tas.opens.set t none = s.tas.opens := by rw [← ho, Pair.set_get]
  rw [freezeTrack_none (by rw [checkSetting_clean s _ h]; exact ho), checkSetting_clean s _ h, stopRefresh, trackFrozen, hn,
    he, ha, hopens, allClosed_none, frozenTrack]
  by_cases hm : (s.ts.get t).mode = .arming
  · rw [if_pos hm, if_pos (.inl hm), enterArmed_clean (by exact h)]
    rfl
  · have hm' : ¬ ((s.ts.get t).mode = .arming ∨ (s.ts.get t).mode = .passing ∨ (s.ts.get t).mode = .standstill) := by
      rintro (hx | hx | hx)
      · exact hm hx
      · rw [hx] at hq; cases hq
      · rw [hx] at hq; cases hq
    rw [if_neg hm, if_neg hm', Pair.set_get]
    rfl

/-- The freeze of a track, where its open train agrees with its mode (R10). -/
theorem freezeTrack_clean (h : s.trs.errors = []) (hm : s.sup.mode = .frozen)
    (hopen : (s.tas.opens.get t).isSome = trainMode (s.ts.get t).mode) : s.freezeTrack t = trackFrozen s t := by
  cases ho : s.tas.opens.get t with
  | none => exact freezeTrack_shut h ho (by rw [← hopen, ho]; rfl)
  | some tr =>
    refine freezeTrack_open h hm ho ?_
    have htrain : trainMode (s.ts.get t).mode = true := by rw [← hopen, ho]; rfl
    revert htrain
    cases (s.ts.get t).mode <;> simp [trainMode]

/-- The freeze of both tracks, track 1 first. -/
def tracksFrozen (s : State) : State :=
  withTracks (allClosed s ⟨none, none⟩ (newcomers s .one .power ++ newcomers s .two .power) (emptyOpen s .one ++ emptyOpen s .two))
    ⟨frozenTrack s .one, frozenTrack s .two⟩ ⟨none, none⟩
    ((freezeAlarms s .one ++ freezeAlarms s .two).foldl State.enterAlarm s).alm

theorem freezeTracks_clean (h : s.trs.errors = []) (hm : s.sup.mode = .frozen)
    (hopen : ∀ t, (s.tas.opens.get t).isSome = trainMode (s.ts.get t).mode) :
    (s.freezeTrack .one).freezeTrack .two = tracksFrozen s := by
  let w := trackFrozen s .one
  have halm : ((freezeAlarms w .two).foldl State.enterAlarm w).alm =
      ((freezeAlarms s .one ++ freezeAlarms s .two).foldl State.enterAlarm s).alm := by
    have herr : ((freezeAlarms s .one).foldl State.enterAlarm s).trs.errors = [] := by
      rw [foldl_enterAlarm_alone h]; exact h
    have hsame : SameForAlarms ((freezeAlarms s .one).foldl State.enterAlarm s) w := by
      refine ⟨rfl, ?_, ?_⟩ <;> rw [foldl_enterAlarm_alone h] <;> rfl
    rw [List.foldl_append]
    exact hsame.foldl herr h _
  have hsecond : trackFrozen w .two =
      withTracks
        (allClosed (allClosed s (s.tas.opens.set .one none) (newcomers s .one .power) (emptyOpen s .one)) ⟨none, none⟩
          (newcomers s .two .power) (emptyOpen s .two))
        ⟨frozenTrack s .one, frozenTrack s .two⟩ ⟨none, none⟩ ((freezeAlarms w .two).foldl State.enterAlarm w).alm := rfl
  rw [freezeTrack_clean h hm (hopen .one), freezeTrack_clean (by exact h) (by exact hm) (by exact hopen .two), hsecond, halm,
    allClosed_twice]
  rfl

end Sys2Proof.Machine
end

