-- ==== Sys2Proof/Proofs/FreezeBegins.lean ====
section
/-! HOLDUP_LOW freezes the part (O39): the engine, the copy and the ports, then the tracks. -/

namespace Sys2Proof.Machine

variable {s : State} {t : Track}

/-! ### The part as the tracks are taken -/

/-- A port once an owed Evaluate Snapshot has been answered RESTARTED (R71). -/
def evaluationRestarted (x : PortState) : PortState :=
  match x.slot with
  | .pending _ _ true => portAnswered x .restarted
  | _ => x

/-- Whether a port's slot is PENDING with its service job in being. -/
def owed (x : PortState) : Bool :=
  match x.slot with
  | .pending _ _ true => true
  | _ => false

theorem evaluationRestarted_eq (x : PortState) :
    (if owed x then portAnswered x .restarted else x) = evaluationRestarted x := by
  rw [owed, evaluationRestarted]
  cases x.slot with
  | pending tag r served => cases served <;> rfl
  | _ => rfl

theorem restartEvaluations_eq (s : State) :
    s.restartEvaluations =
      { s with
        ptu := ⟨evaluationRestarted s.ptu.rp, evaluationRestarted s.ptu.ap, evaluationRestarted s.ptu.sp⟩ } := by
  have h : s.restartEvaluations =
      allPorts.foldl (fun s p => if (fun _ x => owed x) p (s.ptu.get p) then s.answerRestarted p else s) s := rfl
  rw [h.trans (foldl_answerRestarted (fun _ x => owed x) s)]
  simp only [evaluationRestarted_eq]

/-- Every port once an owed Evaluate Snapshot has been answered. -/
def evaluatedPorts (s : State) : Ports PortState :=
  ⟨evaluationRestarted s.ptu.rp, evaluationRestarted s.ptu.ap, evaluationRestarted s.ptu.sp⟩

theorem evaluatedPorts_get (s : State) (p : Port) : (evaluatedPorts s).get p = evaluationRestarted (s.ptu.get p) := by
  cases p <;> rfl

/-- The engine's part of the entry to FROZEN, with the ports (R71, R203). -/
def engineFrozen (s : State) : State :=
  { withJobs s [] s.aee.inFlight (jobsDropped s isLive fun _ => false).trs.axles with ptu := evaluatedPorts s }

theorem freezeEngine_eq (s : State) : s.freezeEngine = engineFrozen s := by
  have hflight : (jobsDropped s isLive fun _ => false).aee.inFlight = s.aee.inFlight := discardIf_none _
  rw [State.freezeEngine, removeQueuedLive_dropped, restartEvaluations_eq]
  exact congrArg (fun o : Option InFlight =>
    { withJobs s [] o (jobsDropped s isLive fun _ => false).trs.axles with ptu := evaluatedPorts s }) hflight

/-- A train with POWER set (R78). -/
def powered (tr : Train) : Train := { tr with power := true }

/-- The part entering FROZEN with its jobs dropped, its copy ended and POWER set on its open trains. -/
def frozenButTracks (s : State) : State :=
  { engineFrozen (enteringFrozen s) with
    cac := { s.cac with mem := (engineFrozen (enteringFrozen s)).tearCopy.cac.mem }
    wat := (engineFrozen (enteringFrozen s)).tearCopy.wat
    free := (engineFrozen (enteringFrozen s)).tearCopy.free
    tas := { s.tas with opens := ⟨s.tas.opens.one.map powered, s.tas.opens.two.map powered⟩ } }

theorem beforeTracks_eq (s : State) : beforeTracks s = frozenButTracks s := by
  rw [beforeTracks, freezeEngine_eq, tearCopy_alone]
  rfl

/-! ### Trains marked POWER -/

theorem emptyTrain_powered (tr : Train) : emptyTrain (powered tr) = emptyTrain tr := rfl

theorem filter_powered (p : Train → Bool) (hp : ∀ tr, p (powered tr) = p tr) (o : Option Train) :
    (o.map powered).toList.filter p = (o.toList.filter p).map powered := by
  cases o with
  | none => rfl
  | some tr => cases h : p tr <;> simp [hp, h]

/-- A train that is open closes POWER as one of the newcomers after the marks. -/
theorem newcomer_powered (o : Option Train) (reason : CloseReason) (time : Stamp) :
    ((o.map powered).toList.filter fun tr => !emptyTrain tr).map (fun tr => (⟨tr, reason, time⟩ : ClosingTrain)) =
      (o.toList.filter fun tr => !emptyTrain tr).map fun tr => ⟨powered tr, reason, time⟩ := by
  rw [filter_powered (fun tr => !emptyTrain tr) (fun _ => rfl), List.map_map]
  rfl

theorem closedTrains_powered {s v : State}
    (hopens : v.tas.opens = ⟨s.tas.opens.one.map powered, s.tas.opens.two.map powered⟩) (reason : CloseReason) :
    newcomers v .one reason ++ newcomers v .two reason = closedTrains s true reason v.stamp := by
  rw [newcomers, newcomers, hopens, closedTrains, List.filter_append, List.map_append]
  exact congrArg₂ (· ++ ·) (newcomer_powered _ _ _) (newcomer_powered _ _ _)

theorem emptyOpen_powered {s v : State}
    (hopens : v.tas.opens = ⟨s.tas.opens.one.map powered, s.tas.opens.two.map powered⟩) :
    emptyOpen v .one ++ emptyOpen v .two =
      ((s.tas.opens.one.toList ++ s.tas.opens.two.toList).filter emptyTrain).map powered := by
  rw [emptyOpen, emptyOpen, hopens, List.filter_append, List.map_append]
  simp only [Pair.get, filter_powered _ emptyTrain_powered]

end Sys2Proof.Machine

namespace Sys2Proof.Proofs
open Sys2Proof.Machine

variable {s : State}

/-- HOLDUP_LOW outside FROZEN freezes the part (R202, R203). -/
theorem holdupLow_freezes (s : State) (now : Nat) (hm : s.sup.mode ≠ .frozen) :
    exec (.holdupLowActive now) s = whenUp s (some (State.freeze { reached s now with sup.holdupLow := true })) := by
  have hexec : exec (.holdupLowActive now) s = execHoldupLowActive now s := rfl
  rw [hexec, execHoldupLowActive]
  cases h : s.sup.mode with
  | run => rfl
  | reduced => rfl
  | frozen => exact absurd h hm

/-- The part as the freeze takes the tracks. -/
def takenByFreeze (s : State) (now : Nat) : State := beforeTracks { reached s now with sup.holdupLow := true }

theorem freeze_clean (hc : s.trs.errors = []) (hagree : ∀ t, TrackAgrees s t) (now : Nat) :
    State.freeze { reached s now with sup.holdupLow := true } = tracksFrozen (takenByFreeze s now) := by
  have hB := beforeTracks_eq { reached s now with sup.holdupLow := true }
  rw [freeze_eq, takenByFreeze]
  refine freezeTracks_clean ?_ ?_ fun t => ?_
  · rw [hB]
    exact hc
  · rw [hB]
    rfl
  · rw [hB]
    have ho := (hagree t).opened
    cases t <;> exact Option.isSome_map.trans ho

/-- What the freeze leaves of the axle entries: those of the queued live jobs and of the cancelled job in flight change. -/
theorem freeze_look {s v : State} (haxles : v.trs.axles = (jobsDropped s isLive fun _ => false).trs.axles) (l : List Nat)
    (k : Nat) :
    look (jobsDropped v (ofTrains l) (ofTrains l)).trs.axles k =
      if droppedAt s isLive (fun _ => false) k || droppedAt v (ofTrains l) (ofTrains l) k then
        (look s.trs.axles k).map (setResults .notMeasured)
      else look s.trs.axles k := by
  rw [jobsDropped_look, haxles, jobsDropped_look]
  cases droppedAt s isLive (fun _ => false) k <;> cases droppedAt v (ofTrains l) (ofTrains l) k <;>
    simp [Function.comp_def, setResults_twice]

theorem queuedLive_iff (s : State) (k : Nat) :
    droppedAt s isLive (fun _ => false) k = true ↔ ∃ j ∈ s.aee.queue, ∃ n i, j.owner = .live n k i := by
  have hlive (j : Job) : isLive j = true ∧ liveFor k j = true ↔ ∃ n i, j.owner = .live n k i := by
    simp only [isLive, liveFor]
    cases j.owner <;> simp
  rw [droppedAt_iff]
  simp only [hlive, Bool.false_eq_true, false_and, and_false, exists_false, or_false]

theorem flightDropped_iff {v : State} (hqueue : v.aee.queue = []) (l : List Nat) (k : Nat) :
    droppedAt v (ofTrains l) (ofTrains l) k = true ↔
      ∃ f n i, v.aee.inFlight = some f ∧ f.discard = false ∧ f.job.owner = .live n k i ∧ n ∈ l := by
  rw [droppedAt_iff, hqueue]
  simp only [ofTrains_iff, List.not_mem_nil, false_and, exists_false, false_or]
  constructor
  · rintro ⟨f, hf, ⟨n, hn, hj⟩, hk, hd⟩
    obtain ⟨i, ho⟩ := (liveJob_iff n k f.job).1 ⟨hj, hk⟩
    exact ⟨f, n, i, hf, hd, ho, hn⟩
  · rintro ⟨f, n, i, hf, hd, ho, hn⟩
    obtain ⟨hj, hk⟩ := (liveJob_iff n k f.job).2 ⟨i, ho⟩
    exact ⟨f, hf, ⟨n, hn, hj⟩, hk, hd⟩

/-- The alarm of a train closed by the freeze, as the statement writes it. -/
theorem freezeAlarms_powered {v : State} (hopens : v.tas.opens = ⟨s.tas.opens.one.map powered, s.tas.opens.two.map powered⟩)
    (t : Track) : freezeAlarms v t = ((s.tas.opens.get t).map (freezeAlarm t)).toList := by
  have hget : v.tas.opens.get t = (s.tas.opens.get t).map powered := by rw [hopens]; cases t <;> rfl
  rw [freezeAlarms, hget, Option.map_map]
  rfl

/-- The alarms of the trains closed by the freeze, track 1's first. -/
def suppliedAlarms (s : State) : List Judgement :=
  (s.tas.opens.one.map (freezeAlarm .one)).toList ++ (s.tas.opens.two.map (freezeAlarm .two)).toList

theorem mem_suppliedAlarms {s : State} {j : Judgement} (h : j ∈ suppliedAlarms s) :
    ∃ t tr, s.tas.opens.get t = some tr ∧ j = freezeAlarm t tr := by
  simp only [suppliedAlarms, List.mem_append, Option.mem_toList, Option.map_eq_some_iff] at h
  rcases h with ⟨tr, ho, rfl⟩ | ⟨tr, ho, rfl⟩
  · exact ⟨.one, tr, ho, rfl⟩
  · exact ⟨.two, tr, ho, rfl⟩

theorem suppliedAlarms_keys (s : State) : ((suppliedAlarms s).map (·.key)).Nodup := by
  unfold suppliedAlarms
  cases s.tas.opens.one <;> cases s.tas.opens.two <;> simp [freezeAlarm]

theorem suppliedAlarms_map_key (s : State) :
    (suppliedAlarms s).map (·.key) =
      (s.tas.opens.one.map fun tr => (freezeAlarm .one tr).key).toList ++
        (s.tas.opens.two.map fun tr => (freezeAlarm .two tr).key).toList := by
  rw [suppliedAlarms, List.map_append]
  exact congrArg₂ (· ++ ·) (by cases s.tas.opens.one <;> rfl) (by cases s.tas.opens.two <;> rfl)

theorem suppliedAlarms_length (s : State) : (suppliedAlarms s).length ≤ 2 := by
  unfold suppliedAlarms
  cases s.tas.opens.one <;> cases s.tas.opens.two <;> simp

theorem madeBy_keys {made : List AlarmEntry} {l : List Judgement} (h : List.Forall₂ MadeBy made l) :
    made.map (·.key) = l.map (·.key) := by
  induction h with
  | nil => rfl
  | cons hm _ ih => rw [List.map_cons, List.map_cons, hm.key, ih]

theorem madeBy_mem {made : List AlarmEntry} {l : List Judgement} (h : List.Forall₂ MadeBy made l) {a : AlarmEntry}
    (ha : a ∈ made) : ∃ j ∈ l, MadeBy a j := by
  induction h with
  | nil => cases ha
  | cons hm _ ih =>
    rcases List.mem_cons.1 ha with rfl | ha
    · exact ⟨_, List.mem_cons_self .., hm⟩
    · obtain ⟨j, hj, hmade⟩ := ih ha
      exact ⟨j, List.mem_cons_of_mem _ hj, hmade⟩

/-- The alarms of the freeze join a list that has room for them and lists none of their keys (R203). -/
theorem freezeAlarms_join (hc : s.trs.errors = []) (hlen : s.alm.list.length ≤ 62)
    (hkeys : ∀ t tr, s.tas.opens.get t = some tr → ∀ a ∈ s.alm.list, a.key ≠ (freezeAlarm t tr).key) :
    ∃ l, ((suppliedAlarms s).foldl State.enterAlarm s).alm.list = s.alm.list ++ l ∧
      l.map (·.key) = (suppliedAlarms s).map (·.key) ∧
      ∀ a ∈ l, a.severity = .watch ∧ a.reason = .freeze ∧ a.level = 0 ∧ a.state = .raised ∧
        ∃ t tr, s.tas.opens.get t = some tr ∧ a.key = (freezeAlarm t tr).key ∧ a.value = tr.stack.length + tr.phantoms := by
  obtain ⟨made, hlist, hmade⟩ := foldl_enterAlarm_new hc (suppliedAlarms s)
    (fun j hj => by
      obtain ⟨t, tr, -, rfl⟩ := mem_suppliedAlarms hj
      nofun)
    (fun j hj a ha => by
      obtain ⟨t, tr, ho, rfl⟩ := mem_suppliedAlarms hj
      exact hkeys t tr ho a ha)
    (suppliedAlarms_keys s) (by have := suppliedAlarms_length s; omega)
  refine ⟨made, hlist, madeBy_keys hmade, fun a ha => ?_⟩
  obtain ⟨j, hj, hby⟩ := madeBy_mem hmade ha
  obtain ⟨t, tr, ho, rfl⟩ := mem_suppliedAlarms hj
  exact ⟨hby.severity, hby.reason, hby.level, hby.state, t, tr, ho, hby.key, hby.value⟩

theorem takenByFreeze_eq (s : State) (now : Nat) :
    takenByFreeze s now = frozenButTracks { reached s now with sup.holdupLow := true } :=
  beforeTracks_eq { reached s now with sup.holdupLow := true }

theorem takenByFreeze_queue (s : State) (now : Nat) : (takenByFreeze s now).aee.queue = [] := by
  rw [takenByFreeze_eq]
  rfl

theorem takenByFreeze_flight (s : State) (now : Nat) : (takenByFreeze s now).aee.inFlight = s.aee.inFlight := by
  rw [takenByFreeze_eq]
  rfl

theorem takenByFreeze_axles (s : State) (now : Nat) :
    (takenByFreeze s now).trs.axles = (jobsDropped s isLive fun _ => false).trs.axles := by
  rw [takenByFreeze_eq]
  rfl

theorem takenByFreeze_opens (s : State) (now : Nat) :
    (takenByFreeze s now).tas.opens = ⟨s.tas.opens.one.map powered, s.tas.opens.two.map powered⟩ := by
  rw [takenByFreeze_eq]
  rfl

/-- What the alarms of the freeze ask of the part is as it was (R203). -/
theorem takenByFreeze_sameForAlarms (s : State) (now : Nat) : SameForAlarms (reached s now) (takenByFreeze s now) := by
  refine ⟨?_, ?_, ?_⟩ <;> rw [takenByFreeze_eq] <;> rfl

theorem frozen_alarms (hc : s.trs.errors = []) (now : Nat) :
    (tracksFrozen (takenByFreeze s now)).alm =
      ((suppliedAlarms (reached s now)).foldl State.enterAlarm (reached s now)).alm := by
  have herr : (takenByFreeze s now).trs.errors = [] := by rw [takenByFreeze_eq]; exact hc
  have hlist : freezeAlarms (takenByFreeze s now) .one ++ freezeAlarms (takenByFreeze s now) .two =
      suppliedAlarms (reached s now) := by
    rw [freezeAlarms_powered (takenByFreeze_opens s now), freezeAlarms_powered (takenByFreeze_opens s now)]
    rfl
  rw [← (takenByFreeze_sameForAlarms s now).foldl hc herr, ← hlist]
  rfl

/-- The frozen part, its newcomers and empty trains named as the statement names them (R78, R86, R203). -/
theorem tracksFrozen_taken (s : State) (now : Nat) :
    let v := takenByFreeze s now
    tracksFrozen v =
      withTracks
        (allClosed v ⟨none, none⟩ (closedTrains s true .power (stampAt s.cac.siteTime (countAt s now)))
          (((s.tas.opens.one.toList ++ s.tas.opens.two.toList).filter emptyTrain).map powered))
        ⟨frozenTrack v .one, frozenTrack v .two⟩ ⟨none, none⟩
        ((freezeAlarms v .one ++ freezeAlarms v .two).foldl State.enterAlarm v).alm := by
  have hstamp : (takenByFreeze s now).stamp = stampAt s.cac.siteTime (countAt s now) := by
    rw [takenByFreeze_eq]
    rfl
  dsimp only
  rw [tracksFrozen, closedTrains_powered (takenByFreeze_opens s now), emptyOpen_powered (takenByFreeze_opens s now), hstamp]

theorem takenByFreeze_spilled (s : State) (now : Nat) (new : List ClosingTrain) :
    spilled (takenByFreeze s now) new =
      (s.tas.closing ++ new).take (min new.length (s.tas.closing.length + new.length - 4)) := by
  rw [spilled, takenByFreeze_eq]
  rfl

/-- Settles O39: before the tracks are taken the freeze has dropped the queued jobs, ended the copy and set POWER
(`beforeTracks_eq`); the tracks are then taken one after the other (`freezeTracks_clean`). -/
theorem freezeBegins : Obligations.FreezeBegins := by
  intro s now hs hc hm hagree count key alarm empty closed spill early ofEarly unmeasured
  have hlead := leadsTo_of_eq (holdupLow_freezes s now hm) hs (freeze_clean hc hagree now)
  have hB := takenByFreeze_eq s now
  have hu := tracksFrozen_taken s now
  dsimp only at hu
  rw [allClosed, takenByFreeze_spilled, List.foldl_map] at hu
  have hunmeasured (k : Nat) : (droppedAt s isLive (fun _ => false) k ||
      droppedAt (takenByFreeze s now) (ofTrains (numbersOf early)) (ofTrains (numbersOf early)) k) = true ↔ unmeasured k := by
    rw [Bool.or_eq_true, queuedLive_iff, flightDropped_iff (takenByFreeze_queue s now), takenByFreeze_flight]
    simp only [numbersOf, List.mem_map, unmeasured, ofEarly, List.any_eq_true, beq_iff_eq]
  have haxles (k : Nat) := freeze_look (takenByFreeze_axles s now) (numbersOf early) k
  have halm := frozen_alarms hc now
  refine ⟨tracksFrozen (takenByFreeze s now), hlead, ?_, fun t => ?_, ?_, fun k a hk ha => ?_, fun k hk => ?_, halm,
    fun hlen hkeys => ?_, ?_, fun p tag r hslot => ?_, fun p hslot => ?_⟩
  · rw [hu, hB]
    rfl
  · rw [hu, hB]
    cases t <;> rfl
  · rw [hu]
    refine (congrArg (Option.map (discardIf (ofTrains (numbersOf early)))) (takenByFreeze_flight s now)).trans ?_
    simp only [funext (discardIf_ofTrains _), numbersOf, List.any_map] <;> rfl
  · rw [hu]
    refine (haxles k).trans ?_
    rw [if_pos ((hunmeasured k).2 hk), ha]
    rfl
  · rw [hu]
    exact (haxles k).trans (if_neg fun h => hk ((hunmeasured k).1 h))
  · obtain ⟨l, hlist, hnames, hall⟩ := freezeAlarms_join (s := reached s now) hc hlen hkeys
    exact ⟨l, (congrArg (·.list) halm).trans hlist, hnames.trans (suppliedAlarms_map_key (reached s now)), hall⟩
  · refine tearCopy_torn (v := engineFrozen (enteringFrozen { reached s now with sup.holdupLow := true })) rfl rfl rfl ?_ ?_ <;>
      rw [hu, hB] <;> rfl
  · rw [hu, hB]
    refine (evaluatedPorts_get s p).trans ?_
    rw [evaluationRestarted, hslot]
    exact portAnswered_pending hslot _
  · rw [hu, hB]
    refine (evaluatedPorts_get s p).trans ?_
    unfold evaluationRestarted
    split
    · next tag r heq => exact absurd heq (hslot tag r)
    · rfl

end Sys2Proof.Proofs
end

