-- ==== Sys2Proof/Proofs/StoreBounds.lean ====
section
/-! SUPPORT. What `Bounded` asks of everything but the lines (`Fits`), a step that keeps it while the count runs on (`Onward`),
and the store's work - checked reads, alarms, room made, judgements - as such a step (`StoreWork`). -/

namespace Sys2Proof.Machine

variable {s u v : State}

/-- `Bounded` without the lines. -/
structure Fits (s : State) : Prop where
  memory : Memory.wf s.cac.mem = true
  window : ∀ w, s.cac.window = some w → windowFits w
  count : s.cac.count ≤ Config.countMax
  queue : s.aee.queue.length ≤ Config.queueSize
  depth : ∀ t tr, s.tas.opens.get t = some tr → tr.stack.length ≤ Config.stackSize
  closing : s.tas.closing.length ≤ Config.closingSize
  op : ∀ o, s.rbu.closeOp = some o → OpSound o
  axles : poolFits s.trs.axles Config.axlePoolSize
  vehicles : poolFits s.trs.vehicles Config.vehiclePoolSize
  headers : poolFits s.trs.headers Config.headerCount
  alarms : s.alm.list.length ≤ Config.alarmListSize
  matched : s.wat.matchCount ≤ 255
  copy : ∀ c, s.wat.copy = some c → copyFits c

theorem bounded_iff (s : State) : Bounded s ↔ Fits s ∧ s.lines = linesOf s :=
  ⟨fun h => ⟨{ h with }, h.lines⟩, fun ⟨h, hl⟩ => { h with lines := hl }⟩

/-- The count runs on, or stands, and every bound is kept. -/
structure Onward (s u : State) : Prop where
  count : s.cac.count ≤ u.cac.count
  fits : Fits s → Fits u

namespace Onward

theorem refl (s : State) : Onward s s := ⟨Nat.le_refl _, id⟩

theorem trans (h : Onward s u) (k : Onward u v) : Onward s v :=
  ⟨Nat.le_trans h.count k.count, fun hs => k.fits (h.fits hs)⟩

/-- A step that leaves the count alone. -/
theorem still (hc : u.cac.count = s.cac.count) (h : Fits s → Fits u) : Onward s u := ⟨Nat.le_of_eq hc.symm, h⟩

end Onward

theorem foldl_onward {β : Type} (f : State → β → State) (hf : ∀ s b, Onward s (f s b)) (l : List β) (s : State) :
    Onward s (l.foldl f s) := by
  induction l generalizing s with
  | nil => exact .refl s
  | cons b l ih => exact (hf s b).trans (ih _)

/-! ### Pools -/

section Pools

variable {α : Type} {m : List (Nat × α)} {size : Nat}

theorem poolFits_put (h : poolFits m size) {k : Nat} (hk : k < size) (v : α) : poolFits (put m k v) size := by
  refine ⟨rising_put m k v h.1, fun e he => ?_⟩
  rcases mem_put m k v e he with rfl | he
  · exact hk
  · exact h.2 e he

theorem poolFits_filter (h : poolFits m size) (p : Nat × α → Bool) : poolFits (m.filter p) size :=
  ⟨rising_filter m p h.1, fun e he => h.2 e (List.mem_filter.1 he).1⟩

theorem poolFits_freeAll (h : poolFits m size) (l : List Nat) : poolFits (freeAll m l) size := by
  unfold freeAll
  induction l generalizing m with
  | nil => exact h
  | cons n l ih => exact ih (poolFits_filter h _)

/-- Changing a listed value keeps every place. -/
theorem mem_adjust {n : Nat} {f : α → α} {e : Nat × α} (he : e ∈ adjust m n f) : ∃ e' ∈ m, e'.1 = e.1 := by
  obtain ⟨e', he', rfl⟩ := List.mem_map.1 he
  refine ⟨e', he', ?_⟩
  split <;> rfl

theorem rising_adjust (n : Nat) (f : α → α) (h : rising m = true) : rising (adjust m n f) = true := by
  induction m with
  | nil => rfl
  | cons a l ih =>
    obtain ⟨ha, hl⟩ := (rising_cons _ _).1 h
    have hfst : (if a.1 = n then (a.1, f a.2) else a).1 = a.1 := by split <;> rfl
    refine (rising_cons _ (adjust l n f)).2 ⟨fun e he => ?_, ih hl⟩
    obtain ⟨e', he', heq⟩ := mem_adjust he
    rw [hfst, ← heq]
    exact ha e' he'

theorem poolFits_adjust (h : poolFits m size) (n : Nat) (f : α → α) : poolFits (adjust m n f) size := by
  refine ⟨rising_adjust n f h.1, fun e he => ?_⟩
  obtain ⟨e', he', heq⟩ := mem_adjust he
  exact heq ▸ h.2 e' he'

theorem lowestFree_lt {k : Nat} (h : lowestFree m size = some k) : k < size := by
  simp only [lowestFree] at h
  split at h <;> cases h
  assumption

end Pools

/-! ### The store's work -/

/-- Work of the store, the alarms and the settings words: it leaves the close operation itself alone, keeps each pool and keeps
the alarm list in its size. -/
structure StoreWork (s u : State) : Prop where
  only : CloseWorkOnly s u
  op : u.rbu.closeOp = s.rbu.closeOp
  axles : poolFits s.trs.axles Config.axlePoolSize → poolFits u.trs.axles Config.axlePoolSize
  vehicles : poolFits s.trs.vehicles Config.vehiclePoolSize → poolFits u.trs.vehicles Config.vehiclePoolSize
  headers : poolFits s.trs.headers Config.headerCount → poolFits u.trs.headers Config.headerCount
  alarms : s.alm.list.length ≤ Config.alarmListSize → u.alm.list.length ≤ Config.alarmListSize

namespace StoreWork

theorem refl (s : State) : StoreWork s s := ⟨.refl s, rfl, id, id, id, id⟩

theorem trans (h : StoreWork s u) (k : StoreWork u v) : StoreWork s v :=
  ⟨h.only.trans k.only, k.op.trans h.op, k.axles ∘ h.axles, k.vehicles ∘ h.vehicles, k.headers ∘ h.headers,
    k.alarms ∘ h.alarms⟩

/-- Work that writes no pool entry and lists no alarm. -/
theorem of_only (h : CloseWorkOnly s u) (hop : u.rbu.closeOp = s.rbu.closeOp)
    (hpools : (u.trs.axles, u.trs.vehicles, u.trs.headers) = (s.trs.axles, s.trs.vehicles, s.trs.headers))
    (halm : u.alm.list.length ≤ s.alm.list.length) : StoreWork s u := by
  simp only [Prod.mk.injEq] at hpools
  obtain ⟨haxles, hvehicles, hheaders⟩ := hpools
  exact ⟨h, hop, by rw [haxles]; exact id, by rw [hvehicles]; exact id, by rw [hheaders]; exact id, Nat.le_trans halm⟩

theorem fits (h : StoreWork s u) (hs : Fits s) : Fits u where
  memory := by rw [h.only.cac]; exact hs.memory
  window := by rw [h.only.cac]; exact hs.window
  count := by rw [h.only.cac]; exact hs.count
  queue := by rw [h.only.aee]; exact hs.queue
  depth := by rw [h.only.tas]; exact hs.depth
  closing := by rw [h.only.tas]; exact hs.closing
  op := by rw [h.op]; exact hs.op
  axles := h.axles hs.axles
  vehicles := h.vehicles hs.vehicles
  headers := h.headers hs.headers
  alarms := h.alarms hs.alarms
  matched := by rw [h.only.wat]; exact hs.matched
  copy := by rw [h.only.wat]; exact hs.copy

theorem onward (h : StoreWork s u) : Onward s u := .still (by rw [h.only.cac]) h.fits

end StoreWork

theorem foldl_store {β : Type} (f : State → β → State) (hf : ∀ s b, StoreWork s (f s b)) (l : List β) (s : State) :
    StoreWork s (l.foldl f s) := by
  induction l generalizing s with
  | nil => exact .refl s
  | cons b l ih => exact (hf s b).trans (ih _)

theorem checkWords_store (s : State) (want : WordError → Bool) (fix : State → WordError → State)
    (hf : ∀ s e, StoreWork s (fix s e)) : StoreWork s (s.checkWords want fix) := by
  refine foldl_store _ (fun s e => ?_) _ s
  split
  · exact hf s e
  · exact .refl s

/-! ### Settings words -/

theorem readSettingWord_store (s : State) (e : WordError) : StoreWork s (readSettingWord s e) := by
  refine .of_only (readSettingWord_only s e) ?_ ?_ (Nat.le_of_eq ?_) <;> simp only [readSettingWord] <;> split <;> rfl

theorem defaultGeometry_store (s : State) (t : Track) : StoreWork s (s.defaultGeometry t) :=
  foldl_store (fun s k => State.cleanEntry { s with settings := drop s.settings k } .settings k)
    (fun _ _ => .of_only (by constructor <;> rfl) rfl rfl (Nat.le_refl _)) (geometryItems t) s

theorem settleSpan_store (s : State) (t : Track) (n : Nat) : StoreWork s (s.settleSpan t n) := by
  simp only [State.settleSpan]
  split
  · exact checkWords_store s _ _ readSettingWord_store
  · exact .trans (checkWords_store s _ _ readSettingWord_store) (defaultGeometry_store _ t)

theorem fixSetting_store (s : State) (e : WordError) : StoreWork s (fixSetting s e) := by
  simp only [fixSetting]
  repeat' split
  · exact .trans (readSettingWord_store s e) (settleSpan_store _ _ _)
  · exact readSettingWord_store s e
  · exact readSettingWord_store s e

theorem checkSettings_store (s : State) (l : List Nat) : StoreWork s (s.checkSettings l) :=
  checkWords_store s _ _ fixSetting_store

theorem checkSetting_store (s : State) (n : Nat) : StoreWork s (s.checkSetting n) := checkSettings_store s [n]

/-! ### The alarm list -/

theorem fixAlarm_store (s : State) (e : WordError) : StoreWork s (fixAlarm s e) := by
  have hf : StoreWork s (s.foundError e .absent) := .of_only (by constructor <;> rfl) rfl rfl (Nat.le_refl _)
  simp only [fixAlarm]
  repeat' split
  · exact hf.trans (.of_only (by constructor <;> rfl) rfl rfl (List.length_filter_le _ _))
  · exact hf.trans (.of_only (cleanWord_only _ e) rfl rfl (Nat.le_refl _))
  · exact .refl s

theorem checkAlarms_store (s : State) : StoreWork s s.checkAlarms := checkWords_store s _ _ fixAlarm_store

theorem lowestAlarm_mem {l : List AlarmEntry} {a : AlarmEntry} (h : lowestAlarm l = some a) : a ∈ l := by
  induction l generalizing a with
  | nil => cases h
  | cons b l ih =>
    simp only [lowestAlarm] at h
    repeat' split at h
    all_goals cases h
    · next heq _ => exact List.mem_cons_of_mem _ (ih heq)
    · exact List.mem_cons_self ..
    · exact List.mem_cons_self ..

/-- Evicting the entry of a listed slot makes room (R151). -/
theorem length_filter_slot {l : List AlarmEntry} {a : AlarmEntry} (h : a ∈ l) :
    (l.filter fun b => b.slot != a.slot).length < l.length :=
  List.length_filter_lt_length_iff_exists.2 ⟨a, h, by simp⟩

/-- An entry inserted where the list has room (R148). -/
theorem insertAlarm_store (j : Judgement) (h : s.alm.list.length < Config.alarmListSize) : StoreWork s (s.insertAlarm j) :=
  ⟨by constructor <;> rfl, rfl, id, id, id, fun _ => by
    simp only [State.insertAlarm, List.length_append, List.length_singleton]; omega⟩

theorem enterListed_store (s : State) (j : Judgement) : StoreWork s (s.enterListed j) := by
  simp only [State.enterListed]
  split
  · exact .of_only (by constructor <;> rfl) rfl rfl (Nat.le_of_eq (List.length_map _))
  · split
    · next hlt => exact insertAlarm_store j hlt
    · split
      · next low hlow =>
        have hroom := length_filter_slot (lowestAlarm_mem hlow)
        split
        · refine ⟨by constructor <;> rfl, rfl, id, id, id, fun hle => ?_⟩
          simp only [State.insertAlarm, List.length_append, List.length_singleton]
          omega
        · exact .of_only (by constructor <;> rfl) rfl rfl (Nat.le_refl _)
      · exact .refl s

theorem testNotice_store (s : State) : StoreWork s s.testNotice := by
  simp only [State.testNotice]
  split
  · exact .of_only (by constructor <;> rfl) rfl rfl (Nat.le_refl _)
  · exact .refl s

theorem enterAlarm_store (s : State) (j : Judgement) : StoreWork s (s.enterAlarm j) := by
  simp only [State.enterAlarm]
  split
  · exact .refl s
  · exact ((checkAlarms_store s).trans (enterListed_store _ j)).trans (testNotice_store _)

theorem judgeValue_store (s : State) (key : AlarmKey) (v : Nat) (c : ValueClass) : StoreWork s (s.judgeValue key v c).1 :=
  (checkSettings_store s _).trans (enterAlarm_store _ _)

theorem retireAlarms_store (s : State) (n : Nat) : StoreWork s (s.retireAlarms n) :=
  .of_only (by constructor <;> rfl) rfl rfl (List.length_filter_le _ _)

theorem setLinks_store (s : State) (n : Nat) (l : RecordLink) : StoreWork s (s.setLinks n l) :=
  .of_only (by constructor <;> rfl) rfl rfl (Nat.le_of_eq (List.length_map _))

/-! ### Words of the store -/

theorem onAxle_store (s : State) (n : Nat) (f : AxleEntry → AxleEntry) : StoreWork s (s.onAxle n f) :=
  { StoreWork.refl s with only := onAxle_only s n f, axles := fun h => poolFits_adjust h n f }

theorem onHeader_store (s : State) (n : Nat) (f : Header → Header) : StoreWork s (s.onHeader n f) :=
  { StoreWork.refl s with
    only := by constructor <;> rfl
    headers := fun h => by simp only [State.onHeader]; exact poolFits_adjust h n _ }

theorem flagDamaged_store (s : State) (n : Nat) : StoreWork s (s.flagDamaged n) := by
  simp only [State.flagDamaged]
  split
  · exact onHeader_store s _ _
  · exact .refl s

theorem cleanEntry_store (s : State) (a : Area) (n : Nat) : StoreWork s (s.cleanEntry a n) :=
  .of_only (cleanEntry_only s a n) rfl rfl (Nat.le_refl _)
theorem cleanWord_store (s : State) (e : WordError) : StoreWork s (s.cleanWord e) :=
  .of_only (cleanWord_only s e) rfl rfl (Nat.le_refl _)
theorem countError_store (s : State) (e : WordError) : StoreWork s (s.countError e) :=
  .of_only (countError_only s e) rfl rfl (Nat.le_refl _)
theorem offer_store (s : State) (e : WordError) (o : LocusOwner) : StoreWork s (s.offer e o) :=
  .of_only (offer_only s e o) rfl rfl (Nat.le_refl _)

theorem foundError_store (s : State) (e : WordError) (o : LocusOwner) : StoreWork s (s.foundError e o) :=
  (countError_store s e).trans (offer_store _ e o)

theorem fixAxle_store (s : State) (e : WordError) : StoreWork s (fixAxle s e) := by
  simp only [fixAxle]
  split
  · refine .trans ?_ (offer_store _ e _)
    cases axleOwner s e.index with
    | some w =>
      exact ((((onAxle_store s e.index _).trans (cleanEntry_store _ .axle e.index)).trans (flagDamaged_store _ w.train)).trans
        (countError_store _ e)).trans (enterAlarm_store _ _)
    | none => exact ((onAxle_store s e.index _).trans (cleanEntry_store _ .axle e.index)).trans (countError_store _ e)
  · exact (foundError_store s e _).trans (cleanWord_store _ e)

theorem checkAxle_store (s : State) (n : Nat) (l : List WordField) : StoreWork s (s.checkAxle n l) :=
  checkWords_store s _ _ fixAxle_store

theorem fixHeader_store (s : State) (e : WordError) : StoreWork s (fixHeader s e) := by
  have hf (o : LocusOwner) : StoreWork s ((s.foundError e o).cleanWord e) := (foundError_store s e o).trans (cleanWord_store _ e)
  simp only [fixHeader]
  split
  · cases headerOwner s e.index with
    | some r => exact ((hf _).trans (onHeader_store _ e.index _)).trans (enterAlarm_store _ _)
    | none => exact (hf _).trans (onHeader_store _ e.index _)
  · exact hf _

theorem checkHeader_store (s : State) (n : Nat) (l : List WordField) : StoreWork s (s.checkHeader n l) :=
  checkWords_store s _ _ fixHeader_store

/-- A vehicle entry rewritten in its place. -/
theorem adjustVehicle_store (s : State) (n : Nat) (f : VehicleEntry → VehicleEntry) :
    StoreWork s { s with trs.vehicles := adjust s.trs.vehicles n f } :=
  { StoreWork.refl s with only := by constructor <;> rfl, vehicles := fun h => poolFits_adjust h n f }

theorem fixVehicle_store (s : State) (e : WordError) : StoreWork s (fixVehicle s e) := by
  have hf (o : LocusOwner) (f : VehicleEntry → VehicleEntry) := ((foundError_store s e o).trans
    (adjustVehicle_store _ e.index f)).trans (cleanEntry_store _ .vehicle e.index)
  simp only [fixVehicle]
  split
  · cases vehicleOwner s e.index with
    | some w => exact ((hf _ _).trans (flagDamaged_store _ w.train)).trans (enterAlarm_store _ _)
    | none => exact hf _ _
  · exact (foundError_store s e _).trans (cleanWord_store _ e)

theorem checkVehicle_store (s : State) (n : Nat) : StoreWork s (s.checkVehicle n) := checkWords_store s _ _ fixVehicle_store

/-! ### Records leaving, and room made -/

theorem removeRecord_store (s : State) (r : RecordDir) : StoreWork s (s.removeRecord r) := by
  refine .trans ?_ (setLinks_store _ r.number .gone)
  exact ⟨by constructor <;> rfl, rfl, fun h => poolFits_freeAll h _, fun h => poolFits_freeAll h _,
    fun h => poolFits_filter h _, id⟩

theorem reclaim_store (s : State) (room : State → Bool) (n : Nat) : StoreWork s (s.reclaim room n) := by
  induction n generalizing s with
  | zero => exact .refl s
  | succ n ih =>
    simp only [State.reclaim]
    repeat' split
    · exact .refl s
    · next r _ =>
      refine .trans ((removeRecord_store s r).trans ?_) (ih _)
      exact .of_only (by constructor <;> rfl) rfl rfl (Nat.le_refl _)
    · exact .refl s

theorem evict_store (s : State) (r : RecordDir) : StoreWork s (s.evict r) := by
  refine .trans (.trans (checkHeader_store s r.header [.headerAxleCount]) (removeRecord_store _ r))
    (.trans ?_ (enterAlarm_store _ _))
  exact .of_only (by constructor <;> rfl) rfl rfl (Nat.le_refl _)

theorem evictFor_store (s : State) (room : State → Bool) (n : Nat) : StoreWork s (s.evictFor room n) := by
  induction n generalizing s with
  | zero => exact .refl s
  | succ n ih =>
    simp only [State.evictFor]
    repeat' split
    · exact .refl s
    · exact (evict_store s _).trans (ih _)
    · exact .refl s

theorem makeRoom_store (s : State) (room : State → Bool) : StoreWork s (s.makeRoom room) := by
  have h (n : Nat) := (checkSetting_store s itemRetentionPolicy).trans (reclaim_store _ room n)
  simp only [State.makeRoom]
  split
  · exact h _
  · exact (h _).trans (evictFor_store _ room _)

theorem takeVehicles_store (l : List VehicleEntry) (s : State) : StoreWork s (s.takeVehicles l).1 := by
  induction l generalizing s with
  | nil => exact .refl s
  | cons v l ih =>
    simp only [State.takeVehicles]
    split
    · next k hk =>
      refine .trans ?_ (ih _)
      exact { StoreWork.refl s with
        only := by constructor <;> rfl
        vehicles := fun h => poolFits_put h (lowestFree_lt hk) v }
    · exact .refl s

/-! ### Judgements -/

theorem judgeAxle_store (s : State) (key : AlarmKey) (n v : Nat) (c : ValueClass) :
    StoreWork s (s.judgeAxle key n v c).1 := by
  simp only [State.judgeAxle]
  split
  · exact judgeValue_store s key v c
  · exact ((judgeValue_store s key v c).trans (checkAxle_store _ n _)).trans (onAxle_store _ n _)

theorem judgeClose_store (s : State) (j : CloseJudgement) : StoreWork s (s.judgeClose j).1 := by
  simp only [State.judgeClose]
  split
  · exact judgeAxle_store _ _ _ _ _
  · exact judgeValue_store _ _ _ _
  · exact judgeValue_store _ _ _ _

end Sys2Proof.Machine
end

