-- ==== Sys2Proof/Proofs/CloseAndEngineBounds.lean ====
section
/-! SUPPORT. The close operation, the engine and the watch keep every bound (R96 to R111, R47 to R71, R169 to R176). -/

namespace Sys2Proof.Machine

variable {s u v : State}

/-! ### The close operation's soundness, piece by piece -/

section Ops

variable {o : CloseOp}

theorem OpSound.header_none (h : OpSound o) (hp : o.phase ≠ .recording) : o.header = none :=
  Classical.byContradiction fun hne => hp (h.header hne)

theorem OpSound.read_le (h : OpSound o) : o.read.length ≤ o.closing.train.stack.length := by
  have := congrArg List.length h.read
  simp only [List.length_map, List.length_take] at this
  omega

/-- GROUPING has read one entry more, the next of the stack (R97). -/
theorem OpSound.readNext (h : OpSound o) (hp : o.phase = .grouping) {i : StackItem} {rest : List StackItem}
    (hd : o.closing.train.stack.drop o.read.length = i :: rest) (a : AxleEntry) (d : Bool) :
    OpSound { o with read := o.read ++ [⟨i.entry, a⟩], damaged := d } :=
  { h with
    read := by
      have hi : o.closing.train.stack[o.read.length]? = some i := by rw [← List.head?_drop, hd]; rfl
      simp only [List.map_append, h.read, List.map_cons, List.map_nil, List.length_append, List.length_singleton,
        List.take_add_one, List.getElem?_map, hi, Option.map_some, Option.toList_some]
    grouped := fun hne => absurd hp hne }

/-- GROUPING ends with the whole stack read (R104). -/
theorem OpSound.endGrouping (h : OpSound o) (hp : o.phase = .grouping)
    (hd : o.closing.train.stack.drop o.read.length = []) (l : List CloseJudgement) :
    OpSound { o with phase := .judging, todo := l } :=
  { h with
    grouped := fun _ => Nat.le_antisymm h.read_le (List.drop_eq_nil_iff.1 hd)
    judged := nofun
    header := fun hne => absurd (h.header_none (by rw [hp]; decide)) hne }

/-- JUDGING has handed one judgement on, and with the last one RECORDING begins (R106). -/
theorem OpSound.handOn (h : OpSound o) (hp : o.phase = .judging) (rest : List CloseJudgement)
    (r : List (CloseJudgement × Severity)) (d : Bool) :
    OpSound { o with
      phase := if rest.isEmpty then .recording else .judging, todo := rest, returned := r, damaged := d } :=
  { h with
    grouped := fun _ => h.grouped (by rw [hp]; decide)
    judged := fun hr => by
      dsimp only at hr
      split at hr
      · next he => exact List.isEmpty_iff.1 he
      · cases hr
    header := fun hne => absurd (h.header_none (by rw [hp]; decide)) hne }

theorem OpSound.beginRecording (h : OpSound o) (hp : o.phase = .judging) (ht : o.todo = []) :
    OpSound { o with phase := .recording } :=
  { h with
    grouped := fun _ => h.grouped (by rw [hp]; decide)
    judged := fun _ => ht
    header := fun _ => rfl }

theorem OpSound.takeHeader (h : OpSound o) (hp : o.phase = .recording) {k : Nat} (hk : k < Config.headerCount) :
    OpSound { o with header := some k } :=
  { h with
    header := fun _ => hp
    vehicles := fun _ => nofun
    place := fun k' hk' => by cases hk'; exact hk }

theorem OpSound.takeGroups (h : OpSound o) {k : Nat} (hk : o.header = some k) (refs : Option (List Nat)) (c : Bool) :
    OpSound { o with vehicles := refs, cut := c } :=
  { h with vehicles := fun _ => by rw [hk]; nofun }

theorem freshOp_sound (s : State) (c : ClosingTrain) (early : Bool) : OpSound (freshOp s c early) where
  read := rfl
  grouped := fun h => absurd rfl h
  judged := fun _ => rfl
  header := fun h => absurd rfl h
  vehicles := fun h => absurd rfl h
  place := nofun

end Ops

/-! ### The pieces -/

/-- Store work, and then a close operation set that is sound. -/
theorem withOp_onward (h : StoreWork s u) {o : CloseOp} (ho : Fits s → OpSound o) : Onward s (u.withOp o) :=
  .still (by rw [State.withOp_cac, h.only.cac]) fun hs => { h.fits hs with op := by rintro o' ⟨⟩; exact ho hs }

theorem requestHeader_store {o : Option Nat} (h : s.requestHeader = (u, o)) : StoreWork s u := by
  have hs := makeRoom_store s headerRoom
  obtain rfl : s.makeRoom headerRoom = u := congrArg Prod.fst h
  exact hs

theorem requestHeader_lt {k : Nat} (h : s.requestHeader = (u, some k)) : k < Config.headerCount :=
  lowestFree_lt (congrArg Prod.snd h)

theorem allocateHeader_store (s : State) {k : Nat} (hk : k < Config.headerCount) : StoreWork s (s.allocateHeader k) :=
  { StoreWork.refl s with only := by constructor <;> rfl, headers := fun h => poolFits_put h hk _ }

/-- A merge or a cut of the vehicle list is counted (R99, R110). -/
theorem countTruncated_store (s : State) (b : Bool) :
    StoreWork s (if b then { s with rbu.truncated := bump s.rbu.truncated } else s) := by
  split
  · exact .of_only (by constructor <;> rfl) rfl rfl (Nat.le_refl _)
  · exact .refl s

theorem takeGroups_onward {o : CloseOp} (ho : s.rbu.closeOp = some o) {k : Nat} (hk : o.header = some k) :
    Onward s (s.takeGroups o) := by
  simp only [State.takeGroups]
  refine withOp_onward ?_ fun hs => (hs.op o ho).takeGroups hk _ _
  exact .trans (.trans (makeRoom_store s _) (countTruncated_store _ _)) (takeVehicles_store _ _)

theorem closePiece_onward (s : State) : Onward s s.closePiece := by
  simp only [State.closePiece]
  split
  · exact .refl s
  · next o ho =>
    split
    · next hp =>
      split
      · next i rest hd => exact withOp_onward (checkAxle_store s i.entry []) fun hs => (hs.op o ho).readNext hp hd _ _
      · next hd => exact withOp_onward (countTruncated_store s _) fun hs => (hs.op o ho).endGrouping hp hd _
    · next hp =>
      split
      · next j rest _ => exact withOp_onward (judgeClose_store s j) fun hs => (hs.op o ho).handOn hp rest _ _
      · next ht => exact withOp_onward (.refl s) fun hs => (hs.op o ho).beginRecording hp ht
    · next hp =>
      split
      · simp only [State.takeHeader]
        split
        · next s1 k hk =>
          exact withOp_onward ((requestHeader_store hk).trans (allocateHeader_store s1 (requestHeader_lt hk)))
            fun hs => (hs.op o ho).takeHeader hp (requestHeader_lt hk)
        · exact .refl s
      · next k hk _ => exact takeGroups_onward ho hk
      · exact .refl s

theorem closePieces_onward (s : State) (n : Nat) : Onward s (s.closePieces n) := by
  induction n generalizing s with
  | zero => exact .refl s
  | succ n ih => exact (closePiece_onward s).trans (ih _)

theorem letClose_onward (s : State) : Onward s s.letClose := by
  simp only [State.letClose]
  split
  · refine .trans ?_ (closePieces_onward _ _)
    exact .still rfl fun hs => { hs with }
  · exact .refl s

theorem finishPieces_onward (s : State) (o : CloseOp) : Onward s (s.finishPieces o) :=
  (closePieces_onward s _).trans (closePieces_onward _ _)

/-! ### The take and the two ends of a close operation -/

theorem takeClosing_onward {c : ClosingTrain} (h : s.takeClosing = some (c, u)) : Onward s u := by
  simp only [State.takeClosing] at h
  repeat' split at h
  all_goals cases h
  · exact .still rfl fun hs => { hs with }
  · next heq _ =>
    refine .still rfl fun hs => { hs with closing := ?_ }
    have := hs.closing
    rw [heq, List.length_cons] at this
    exact Nat.le_of_succ_le this

theorem beginClose_onward (s : State) (c : ClosingTrain) (early : Bool) : Onward s (s.beginClose c early) :=
  withOp_onward (checkSettings_store s [itemBMax, itemVMin]) fun _ => freshOp_sound _ c early

/-- A close operation over: the Report Builder holds none (R111, R112). -/
theorem endOp_onward (s : State) {b : Builder} (hb : b.closeOp = none) : Onward s { s with rbu := b } :=
  .still rfl fun hs => { hs with op := fun o ho => by rw [hb] at ho; cases ho }

/-- A header place written, and the records listed with it. -/
theorem putHeader_store (s : State) {k : Nat} (hk : k < Config.headerCount) (slot : HeaderSlot) (l : List RecordDir) :
    StoreWork s { s with trs.headers := put s.trs.headers k slot, trs.records := l } :=
  { StoreWork.refl s with only := by constructor <;> rfl, headers := fun h => poolFits_put h hk _ }

theorem makeRecord_onward (s : State) (o : CloseOp) {k : Nat} (hk : k < Config.headerCount) (refs : List Nat) :
    Onward s (s.makeRecord o k refs) := by
  have hc := checkSettings_store s [itemReportHolder, itemAlarmHoldLevel]
  unfold State.makeRecord
  generalize s.checkSettings [itemReportHolder, itemAlarmHoldLevel] = w at hc ⊢
  refine .trans ?_ ((cleanEntry_store _ .header k).trans (setLinks_store _ _ .present)).onward
  exact (hc.trans (putHeader_store w hk _ _)).onward.trans (endOp_onward _ rfl)

theorem makeRecord_count (s : State) (o : CloseOp) (k : Nat) (refs : List Nat) :
    (s.makeRecord o k refs).cac.count = s.cac.count :=
  congrArg (·.count) (checkSettings_only s [itemReportHolder, itemAlarmHoldLevel]).cac

theorem discardTrain_onward (s : State) (o : CloseOp) : Onward s (s.discardTrain o) := by
  have hf : StoreWork s { s with trs.axles := freeAll s.trs.axles (o.closing.train.stack.map StackItem.entry) } :=
    { StoreWork.refl s with only := by constructor <;> rfl, axles := fun h => poolFits_freeAll h _ }
  have hl := (hf.trans (enterAlarm_store _ (discardAlarm o.closing.train (trainTotals o).axleCount))).trans
    (setLinks_store _ o.closing.train.number .none)
  exact hl.onward.trans (endOp_onward _ rfl)
/-! ### Jobs -/

/-- Marking jobs in flight or axle entries, and jobs leaving the queue. -/
theorem dropJobs_onward (s : State) (l : List Job) (f : Option InFlight) (h : l.length ≤ s.aee.queue.length) :
    Onward s { s with aee.queue := l, aee.inFlight := f } :=
  .still rfl fun hs => { hs with queue := Nat.le_trans h hs.queue }

theorem markEntries_store (s : State) (c : ValueClass) (l : List Nat) :
    StoreWork s (l.foldl (fun s n => s.onAxle n (setResults c)) s) :=
  foldl_store _ (fun s n => onAxle_store s n (setResults c)) l s

theorem unwindJob_onward (s : State) (entry : Nat) : Onward s (s.unwindJob entry) :=
  dropJobs_onward s _ _ (List.length_filter_le _ _)

theorem cancelJobs_onward (s : State) (n : Nat) : Onward s (s.cancelJobs n) := by
  have hm := markEntries_store s .notMeasured (jobEntries s (isJobOf n))
  exact hm.onward.trans (dropJobs_onward _ _ _ (by rw [hm.only.aee]; exact List.length_filter_le _ _))

theorem removeQueuedLive_onward (s : State) : Onward s s.removeQueuedLive := by
  have hm := markEntries_store s .notMeasured ((s.aee.queue.filter isLive).filterMap jobEntry)
  exact hm.onward.trans (dropJobs_onward _ _ _ (by rw [hm.only.aee]; exact List.length_filter_le _ _))

theorem requestJob_onward (s : State) (n : Nat) (t : Track) (k i : Nat) (c : Crossing) (speed : Nat × ValueClass) :
    Onward s (s.requestJob n t k i c speed) := by
  simp only [State.requestJob]
  split
  · next hlt =>
    have hc := checkSettings_store s [itemD t, itemGs t, itemGe t, itemH t, itemW t]
    refine .still (congrArg (·.count) hc.only.cac) fun hs => { hc.fits hs with queue := ?_ }
    rw [List.length_append, List.length_singleton, hc.only.aee]
    exact hlt
  · exact (onAxle_store s k _).onward.trans (.still rfl fun hs => { hs with })

theorem answer_onward (s : State) (p : Port) (st : Status) (pl : Payload) : Onward s (s.answer p st pl) :=
  .still rfl fun hs => { hs with }

/-! ### The watch -/

theorem sampleRange_eq (first : Int) (n : Nat) :
    sampleRange first n = (List.range n).map fun i : Nat => first + (i : Int) := by
  simp only [sampleRange, List.pure_def, List.bind_eq_flatMap, List.map_eq_flatMap, List.flatMap_assoc, List.flatMap_singleton]

theorem mem_sampleRange {first k : Int} {n : Nat} : k ∈ sampleRange first n ↔ first ≤ k ∧ k < first + n := by
  rw [sampleRange_eq, List.mem_map]
  refine ⟨fun ⟨i, hi, hk⟩ => ?_, fun hk => ⟨(k - first).toNat, List.mem_range.2 ?_, ?_⟩⟩
  · have := List.mem_range.1 hi
    omega
  all_goals omega

theorem nodup_sampleRange (first : Int) (n : Nat) : (sampleRange first n).Nodup := by
  rw [sampleRange_eq]
  exact List.nodup_range.map fun a b hab => by omega

/-- The columns that a copy writes for its source range lie in the snapshot area, none twice (R174). -/
theorem copyColumns_fit (s : State) (first : Int) {length : Nat} (h : length ≤ 512) (began done column : Nat) :
    copyFits ⟨began, done, column, copyColumns s first length⟩ := by
  have hcolumns : (copyColumns s first length).map (·.1) =
      ((sampleRange first length).filter (present s.cac.newest)).map fun k => (Config.snapshotFirst + (k - first)).toNat := by
    simp only [copyColumns, List.map_map]; rfl
  have hrange {k : Int} (hk : k ∈ (sampleRange first length).filter (present s.cac.newest)) :
      first ≤ k ∧ k < first + length := mem_sampleRange.1 (List.mem_filter.1 hk).1
  refine ⟨fun x hx => ?_, ?_⟩
  · have hx := List.mem_map_of_mem (f := (·.1)) hx
    rw [hcolumns] at hx
    obtain ⟨k, hk, hx⟩ := List.mem_map.1 hx
    have := hrange hk
    simp only [Config.snapshotFirst, Config.columnCount] at hx ⊢
    omega
  · rw [hcolumns]
    refine ((nodup_sampleRange first length).filter _).map_on fun a ha b hb hab => ?_
    have := hrange ha
    have := hrange hb
    simp only [Config.snapshotFirst] at hab
    omega

theorem sourceRange_le (j : Job) (peak : Option Int) : (sourceRange j peak).2 ≤ 512 := by
  simp only [sourceRange]
  repeat' split
  · omega
  all_goals exact Nat.le_refl _

theorem settleSnapshot_onward (s : State) (j : Job) (peak : Option Int) : Onward s (s.settleSnapshot j peak) := by
  simp only [State.settleSnapshot]
  repeat' split
  · exact .still rfl fun hs => { hs with }
  · exact .still rfl fun hs => { hs with }
  all_goals
    refine .still rfl fun hs => { hs with copy := ?_ }
    rintro c ⟨⟩
    exact copyColumns_fit s _ (sourceRange_le j peak) _ _ _

theorem lockWatch_onward (s : State) (j : Job) (train entry : Nat) (peak : Option Int) :
    Onward s (s.lockWatch j train entry peak) := by
  have hr := (onAxle_store s entry fun a => { a with watched := true }).trans (checkAxle_store _ entry [])
  simp only [State.lockWatch]
  refine hr.onward.trans (.trans ?_ (settleSnapshot_onward _ j peak))
  exact .still rfl fun hs => { hs with matched := Nat.le_add_left 1 254 }

theorem testWatch_onward (s : State) (j : Job) (train entry : Nat) (r : Results) :
    Onward s (s.testWatch j train entry r) := by
  simp only [State.testWatch, State.actOnMatch]
  repeat' split
  · exact .refl s
  · exact lockWatch_onward s j train entry _
  · exact (onAxle_store s entry _).onward.trans (.still rfl fun hs => { hs with matched := Nat.min_le_right _ _ })
  · exact .refl s

theorem copyWrites_onward {c : SnapshotCopy} (hc : s.wat.copy = some c) (k : Nat) : Onward s (s.copyWrites c k) := by
  refine .still rfl fun hs => { hs with memory := wf_writeColumns _ _ hs.memory, copy := ?_ }
  rintro c' ⟨⟩
  obtain ⟨hrange, hnodup⟩ := hs.copy c hc
  refine ⟨fun x hx => hrange x (List.mem_of_mem_drop hx), ?_⟩
  rw [List.map_drop]
  exact hnodup.sublist (List.drop_sublist _ _)

theorem copyByNow_onward (s : State) : Onward s s.copyByNow := by
  simp only [State.copyByNow]
  split
  · next c hc => exact (copyWrites_onward hc _).trans (.still rfl fun hs => { hs with })
  · exact .refl s

theorem tearCopy_onward (s : State) : Onward s s.tearCopy := by
  simp only [State.tearCopy]
  refine (copyByNow_onward s).trans ?_
  split
  · exact .still rfl fun hs => { hs with copy := nofun }
  · exact .refl _

/-! ### Deliveries and takes -/

theorem judgeLive_store (s : State) (t : Track) (train entry axle : Nat) (r : Results) :
    StoreWork s (s.judgeLive t train entry axle r) :=
  foldl_store _ (fun s (q : AlarmKind × Option Side × Nat × ValueClass) =>
    judgeAxle_store s ⟨some t, some train, some axle, q.2.1, q.1⟩ entry q.2.2.1 q.2.2.2) (axleJudgements r) s

theorem deliver_onward (s : State) (j : Job) (train entry axle : Nat) (r : Results) :
    Onward s (s.deliver j train entry axle r) := by
  have hw := (onAxle_store s entry (writeResults r)).onward
  have hd : Onward s { s.onAxle entry (writeResults r) with free := s.free + 1 } := hw.trans (.still rfl fun hs => { hs with })
  simp only [State.deliver]
  repeat' split
  · exact (hd.trans (testWatch_onward _ j train entry r)).trans (judgeLive_store _ _ _ _ _ _).onward
  · exact (hd.trans (judgeLive_store _ _ _ _ _ _).onward).trans (testWatch_onward _ j train entry r)
  · exact hw.trans (judgeLive_store _ _ _ _ _ _).onward

theorem complete_onward (s : State) (f : InFlight) : Onward s (s.complete f) := by
  have he : Onward s { s with aee.inFlight := none } := .still rfl fun hs => { hs with }
  simp only [State.complete]
  repeat' split
  · exact .still rfl fun hs => { hs with }
  · exact he.trans (deliver_onward _ _ _ _ _ _)
  · exact he.trans (answer_onward _ _ _ _)
  · exact he

theorem takeJob_onward (s : State) (j : Job) : Onward s (s.takeJob j) := by
  have hc := (checkSettings_store s (((trackRows j.track).map itemGain) ++ [itemPMin])).onward
  have ht (w : State) (f : Option InFlight) (n : Nat) :
      Onward w { w with aee.queue := w.aee.queue.erase j, aee.inFlight := f, aee.stale := n } :=
    .still rfl fun hs => { hs with queue := Nat.le_trans (List.length_erase_le ..) hs.queue }
  simp only [State.takeJob]
  split
  · exact (hc.trans (ht _ _ _)).trans (complete_onward _ _)
  · exact hc.trans (ht _ _ _)

end Sys2Proof.Machine
end

