-- ==== Sys2Proof/Proofs/TrackBounds.lean ====
section
/-! SUPPORT. Trains, tracks and sample writes keep every bound (R3 to R27, R30 to R36, R76 to R88). -/

namespace Sys2Proof.Machine

variable {s u v : State}

/-! ### Trains -/

/-- The open train of a track replaced by one with a stack in its size, or by none. -/
theorem withOpen_onward (s : State) (t : Track) {o : Option Train}
    (h : Fits s → ∀ tr, o = some tr → tr.stack.length ≤ Config.stackSize) :
    Onward s { s with tas.opens := s.tas.opens.set t o } := by
  refine .still rfl fun hs => { hs with depth := fun k tr hk => ?_ }
  by_cases hkt : k = t
  · subst hkt
    exact h hs tr (by simpa using hk)
  · exact hs.depth k tr (by simpa [hkt] using hk)

theorem onOpen_onward (s : State) (t : Track) {f : Train → Train}
    (h : ∀ tr, s.tas.opens.get t = some tr → tr.stack.length ≤ Config.stackSize → (f tr).stack.length ≤ Config.stackSize) :
    Onward s (s.onOpen t f) := by
  refine withOpen_onward s t fun hs tr htr => ?_
  obtain ⟨tr', ho, rfl⟩ := Option.map_eq_some_iff.1 htr
  exact h tr' ho (hs.depth t tr' ho)

/-- A change of the open train that leaves its stack alone. -/
theorem onOpen_same_stack (s : State) (t : Track) {f : Train → Train} (h : ∀ tr, (f tr).stack = tr.stack) :
    Onward s (s.onOpen t f) :=
  onOpen_onward s t fun tr _ hle => by rw [h]; exact hle

theorem pushAxle_onward {t : Track} {tr : Train} (ho : s.tas.opens.get t = some tr) (hd : tr.stack.length < Config.stackSize)
    (c : Crossing) (speed : Nat × ValueClass) {k : Nat} (hk : k < Config.axlePoolSize) :
    Onward s (s.pushAxle t tr c speed k) := by
  have hp (a : AxleEntry) : StoreWork s (State.cleanEntry { s with trs.axles := put s.trs.axles k a } .axle k) :=
    { StoreWork.refl s with only := by constructor <;> rfl, axles := fun h => poolFits_put h hk a }
  refine .trans (.trans (hp _).onward (onOpen_onward _ t fun tr' ho' _ => ?_)) (requestJob_onward _ _ _ _ _ _ _)
  obtain rfl : tr = tr' := Option.some.inj (ho.symm.trans ho')
  rw [List.length_append]
  exact hd

theorem forward_onward {t : Track} {tr : Train} (ho : s.tas.opens.get t = some tr) (c : Crossing) (speed : Nat × ValueClass) :
    Onward s (s.forward t tr c speed) := by
  have hr := makeRoom_store s axleRoom
  simp only [State.forward]
  repeat' split
  · exact onOpen_same_stack s t fun _ => rfl
  · exact onOpen_same_stack s t fun _ => rfl
  · exact hr.onward.trans (onOpen_same_stack _ t fun _ => rfl)
  · next hd _ k hk =>
    exact hr.onward.trans (pushAxle_onward (by rw [hr.only.tas]; exact ho) (Nat.lt_of_not_le hd) c speed (lowestFree_lt hk))

theorem unwind_onward (s : State) (t : Track) (top : StackItem) : Onward s (s.unwind t top) := by
  have ho (w : State) : Onward w (w.onOpen t fun tr => { tr with stack := tr.stack.dropLast }) :=
    onOpen_onward w t fun tr _ hle => by rw [List.length_dropLast]; exact Nat.le_trans (Nat.sub_le _ _) hle
  refine .trans ((unwindJob_onward s top.entry).trans (ho _)) ?_
  exact .still rfl fun hs => { hs with axles := poolFits_filter hs.axles _ }

theorem reverse_onward (s : State) (t : Track) (tr : Train) : Onward s (s.reverse t tr) := by
  have hu : Onward s (s.onOpen t fun tr => { tr with unwinds := bump tr.unwinds }) := onOpen_same_stack s t fun _ => rfl
  simp only [State.reverse]
  refine hu.trans ?_
  repeat' split
  · exact onOpen_same_stack _ t fun _ => rfl
  · exact unwind_onward _ t _
  · exact onOpen_same_stack _ t fun _ => rfl

theorem handCrossing_onward (s : State) (t : Track) (c : Crossing) (speed : Nat × ValueClass) :
    Onward s (s.handCrossing t c speed) := by
  simp only [State.handCrossing]
  repeat' split
  · next tr ho _ => exact forward_onward ho c speed
  · exact reverse_onward s t _
  · exact .refl s

theorem openTrain_onward (s : State) (t : Track) (c : Crossing) (speed : Nat × ValueClass) :
    Onward s (s.openTrain t c speed) := by
  have hn (n : Nat) : Onward s (State.retireAlarms { s with tas.lastTrain := n } n) := by
    refine .trans ?_ (retireAlarms_store _ n).onward
    exact .still rfl fun hs => { hs with }
  rw [openTrain_eq]
  refine .trans (.trans (hn _) (withOpen_onward _ t fun _ tr htr => ?_)) (handCrossing_onward _ t c speed)
  cases htr
  exact Nat.zero_le _

theorem joinClosing_onward (s : State) (c : ClosingTrain) : Onward s (s.joinClosing c) := by
  simp only [State.joinClosing]
  split
  · next hlt =>
    refine .still rfl fun hs => { hs with closing := ?_ }
    rw [List.length_append, List.length_singleton]
    exact hlt
  · split
    · next head rest heq =>
      have hc := cancelJobs_onward s head.train.number
      refine ⟨hc.count, fun hs => { hc.fits hs with closing := ?_ }⟩
      have := hs.closing
      rw [heq] at this
      rw [List.length_append]
      exact this
    · exact .still rfl fun hs => { hs with closing := Nat.le_add_left 1 3 }

theorem closeRequest_onward (s : State) (t : Track) (reason : CloseReason) : Onward s (s.closeRequest t reason) := by
  have hl : Onward s { s with tas.opens := s.tas.opens.set t none } := withOpen_onward s t fun _ => nofun
  simp only [State.closeRequest, State.closeTrain]
  repeat' split
  · exact hl.trans (.still rfl fun hs => { hs with })
  · exact hl.trans (joinClosing_onward _ _)
  · exact .refl s

theorem powerFlags_onward (s : State) : Onward s s.powerFlags := by
  have h (w : State) (t : Track) : Onward w (w.onOpen t fun tr => { tr with power := true }) :=
    onOpen_same_stack w t fun _ => rfl
  exact (h s .one).trans (h _ .two)

/-! ### Timers and modes -/

theorem Onward.onTrack (h : Onward s u) {t : Track} {f : Sequencer → Sequencer} : Onward s (u.onTrack t f) :=
  h.trans (.still rfl fun hs => { hs with })

theorem Onward.checkSetting (h : Onward s u) {item : Nat} : Onward s (u.checkSetting item) :=
  h.trans (checkSetting_store u item).onward

theorem abandonRefresh_onward (s : State) (t : Track) : Onward s (s.abandonRefresh t) := .still rfl fun hs => { hs with }

theorem advance_onward (s : State) (now : Nat) : Onward s (s.advance now) :=
  ⟨Nat.le_max_left _ _, fun hs => { hs with count := Nat.max_le.2 ⟨hs.count, Nat.min_le_right _ _⟩ }⟩

theorem atTrack_onward (s : State) (t : Track) (now : Nat) : Onward s (s.atTrack t now) := (advance_onward s now).checkSetting

/-- Each timer of a track starts so: its setting is read, and the track is changed. -/
theorem timer_onward (s : State) {item : Nat} {t : Track} {f : Sequencer → Sequencer} :
    Onward s ((s.checkSetting item).onTrack t f) := (Onward.refl s).checkSetting.onTrack

theorem startStuckIfOn_onward (s : State) (t : Track) (h : Head) : Onward s (s.startStuckIfOn t h) := by
  simp only [State.startStuckIfOn, State.startStuck]
  split
  · exact timer_onward s
  · exact .refl s

theorem startStuckBoth_onward (s : State) (t : Track) : Onward s ((s.startStuckIfOn t .a).startStuckIfOn t .b) :=
  (startStuckIfOn_onward s t .a).trans (startStuckIfOn_onward _ t .b)

theorem resumeStuck_onward (s : State) (t : Track) : Onward s (s.resumeStuck t) :=
  (Onward.refl s).checkSetting.trans (startStuckBoth_onward _ t)

theorem startTSettle_onward (s : State) (t : Track) : Onward s (s.startTSettle t) := by
  unfold State.startTSettle; exact timer_onward s
theorem startTEnd_onward (s : State) (t : Track) : Onward s (s.startTEnd t) := by
  unfold State.startTEnd; exact timer_onward s
theorem startTStand_onward (s : State) (t : Track) : Onward s (s.startTStand t) := by
  unfold State.startTStand; exact timer_onward s
theorem startTAbandon_onward (s : State) (t : Track) : Onward s (s.startTAbandon t) := by
  unfold State.startTAbandon; exact timer_onward s
theorem startTDormant_onward (s : State) (t : Track) : Onward s (s.startTDormant t) := by
  unfold State.startTDormant; exact timer_onward s
theorem startTRetare_onward (s : State) (t : Track) : Onward s (s.startTRetare t) := by
  unfold State.startTRetare; exact timer_onward s

theorem enterArmed_onward (s : State) (t : Track) : Onward s (s.enterArmed t) := by
  simp only [State.enterArmed]
  exact ((Onward.refl s).onTrack.trans (startTDormant_onward _ t)).trans (startTRetare_onward _ t)

theorem enterArming_onward (s : State) (t : Track) : Onward s (s.enterArming t) := by
  have hm {f : Sequencer → Sequencer} : Onward s (s.onTrack t f) := (Onward.refl s).onTrack
  simp only [State.enterArming]
  split
  · exact hm.trans (.still rfl fun hs => { hs with })
  · exact hm.trans (enterArmed_onward _ t)

theorem startTrainTimer_onward (s : State) (t : Track) : Onward s (s.startTrainTimer t) := by
  simp only [State.startTrainTimer]
  repeat' split
  · exact startTStand_onward s t
  · exact startTSettle_onward s t
  · exact startTEnd_onward s t

theorem closeToArming_onward (s : State) (t : Track) (reason : CloseReason) : Onward s (s.closeToArming t reason) :=
  (closeRequest_onward s t reason).trans (enterArming_onward _ t)

theorem enterFault_onward (s : State) (t : Track) (h : Head) : Onward s (s.enterFault t h) := by
  have hc := (closeRequest_onward s t .detectorFault).trans (abandonRefresh_onward _ t)
  simp only [State.enterFault]
  exact hc.onTrack.trans (enterAlarm_store _ _).onward

/-! ### Crossings and occupancy -/

theorem disposeCrossing_onward (s : State) (t : Track) (c : Crossing) (speed : Nat × ValueClass) :
    Onward s (s.disposeCrossing t c speed) := by
  have hopen := (abandonRefresh_onward s t).trans (openTrain_onward _ t c speed)
  have hhand := handCrossing_onward s t c speed
  simp only [State.disposeCrossing]
  repeat' split
  · exact (Onward.refl s).onTrack
  · exact hopen.onTrack.trans (startTrainTimer_onward _ t)
  · exact hopen.onTrack.trans (startTrainTimer_onward _ t)
  · exact hhand.trans (startTrainTimer_onward _ t)
  · exact hhand.onTrack.trans (startTrainTimer_onward _ t)
  · exact .refl s
  · exact .refl s

theorem recognise_onward (s : State) (t : Track) (first : Head) (time : Nat) : Onward s (s.recognise t first time) := by
  simp only [State.recognise]
  exact ((Onward.refl s).onTrack.trans (checkSettings_store _ _).onward).trans (disposeCrossing_onward _ t _ _)

theorem headCrossing_onward (s : State) (t : Track) (h : Head) : Onward s (s.headCrossing t h) := by
  simp only [State.headCrossing]
  repeat' split
  · exact (Onward.refl s).onTrack
  · exact (Onward.refl s).onTrack
  · exact recognise_onward s t _ _

theorem headOnActive_onward (s : State) (t : Track) (h : Head) : Onward s (s.headOnActive t h) := by
  have hs := startStuckIfOn_onward s t h
  simp only [State.headOnActive]
  split
  · exact (hs.trans (enterArming_onward _ t)).trans (headCrossing_onward _ t h)
  · exact hs.trans (headCrossing_onward _ t h)

theorem occupancyClears_onward (s : State) (t : Track) : Onward s (s.occupancyClears t) := by
  have hs := startStuckBoth_onward s t
  simp only [State.occupancyClears]
  split
  · exact hs.onTrack.trans (startTSettle_onward _ t)
  · exact hs.trans (startTSettle_onward _ t)
  · exact hs

theorem occupancyFills_onward (s : State) (t : Track) : Onward s (s.occupancyFills t) := by
  have hs : Onward s (s.onTrack t stopStuck) := (Onward.refl s).onTrack
  simp only [State.occupancyFills]
  split
  · exact hs.onTrack.trans (startTStand_onward _ t)
  · exact hs.onTrack
  · exact hs

/-! ### Samples -/

theorem completeRefresh_onward (s : State) (t : Track) : Onward s (s.completeRefresh t) := by
  simp only [State.completeRefresh]
  refine .trans (.trans (checkSetting_store s (itemFitted t)).onward ?_) (enterArmed_onward _ t)
  exact .still rfl fun hs => { hs with }

/-- A column written (R30, R35). -/
theorem writeColumn_onward (s : State) (column : Nat) (rows : List Nat) (value : Nat → Sample) :
    Onward s { s with cac.mem := Memory.writeColumn s.cac.mem column rows value } :=
  .still rfl fun hs => { hs with memory := Memory.wf_writeColumn _ _ _ _ hs.memory }

theorem refreshStep_onward (s : State) (t : Track) (value : Nat → Sample) : Onward s (s.refreshStep t value) := by
  simp only [State.refreshStep]
  repeat' split
  · exact (writeColumn_onward s _ _ value).trans (completeRefresh_onward _ t)
  · exact (writeColumn_onward s _ _ value).trans (.still rfl fun hs => { hs with })
  · exact .refl s
  · exact .refl s

theorem writeSample_onward (s : State) (samples : List Sample) : Onward s (s.writeSample samples) := by
  simp only [State.writeSample]
  refine .trans (.trans ((advance_onward s (250 * (s.cac.newest + 1))).trans ?_) (refreshStep_onward _ .one _))
    (refreshStep_onward _ .two _)
  exact .still rfl fun hs => { hs with
    memory := Memory.wf_writeColumn _ _ _ _ hs.memory
    queue := by rw [List.length_map]; exact hs.queue }

end Sys2Proof.Machine
end

