-- ==== Sys2Proof/Proofs/CommandBounds.lean ====
section
/-! SUPPORT. Every request, the supply, RESTART and the START check keep every bound, and so every command does. -/

namespace Sys2Proof.Machine

variable {s u v : State}

/-! ### Requests that read -/

theorem recordList_onward (s : State) (p : Port) (first : Nat) : Onward s (s.recordList p first) := by
  simp only [State.recordList]
  split
  · exact answer_onward s p _ _
  · exact (foldl_store _ (fun s (r : RecordDir) => checkHeader_store s r.header summaryFields) _ s).onward.trans
      (answer_onward _ p _ _)

theorem headerRead_onward (s : State) (p : Port) (n : Nat) : Onward s (s.headerRead p n) := by
  simp only [State.headerRead]
  split
  · exact (checkHeader_store s _ []).onward.trans (answer_onward _ p _ _)
  · exact answer_onward s p _ _

theorem axleRead_onward (s : State) (p : Port) (n first : Nat) : Onward s (s.axleRead p n first) := by
  simp only [State.axleRead]
  repeat' split
  · exact answer_onward s p _ _
  · next r _ =>
    exact ((checkHeader_store s r.header [.stackDepth, .phantomCount]).trans
      (foldl_store _ (fun s k => checkAxle_store s k []) _ _)).onward.trans (answer_onward _ p _ _)
  · exact answer_onward s p _ _

theorem vehicleRead_onward (s : State) (p : Port) (n first : Nat) : Onward s (s.vehicleRead p n first) := by
  simp only [State.vehicleRead]
  repeat' split
  · exact answer_onward s p _ _
  · next r _ =>
    exact ((checkHeader_store s r.header [.vehicleCount]).trans
      (foldl_store _ (fun s k => checkVehicle_store s k) _ _)).onward.trans (answer_onward _ p _ _)
  · exact answer_onward s p _ _

theorem liveAxleRead_onward (s : State) (p : Port) (n : Nat) : Onward s (s.liveAxleRead p n) := by
  simp only [State.liveAxleRead]
  repeat' split
  · exact answer_onward s p _ _
  · exact answer_onward s p _ _
  · exact (foldl_store _ (fun s k => checkAxle_store s k []) _ s).onward.trans (answer_onward _ p _ _)

theorem giveStatus_onward (s : State) (p : Port) (sect : Nat) : Onward s (s.giveStatus p sect) := by
  have hc : Onward s (if sect = 7 then s.checkSetting itemRetentionPolicy else s) := by
    split
    · exact (Onward.refl s).checkSetting
    · exact .refl s
  simp only [State.giveStatus]
  split
  · exact hc.trans (answer_onward _ p _ _)
  · exact hc.trans (answer_onward _ p _ _)

theorem settingsRead_onward (s : State) (p : Port) (first count : Nat) : Onward s (s.settingsRead p first count) := by
  simp only [State.settingsRead]
  split
  · exact answer_onward s p _ _
  · exact (checkSettings_store s _).onward.trans (answer_onward _ p _ _)

/-! ### Records and alarms -/

theorem releaseRecord_onward (s : State) (p : Port) (n : Nat) : Onward s (s.releaseRecord p n) := by
  simp only [State.releaseRecord]
  repeat' split
  all_goals exact .still rfl fun hs => { hs with }

theorem purgeRecord_onward (s : State) (p : Port) (n : Nat) : Onward s (s.purgeRecord p n) := by
  simp only [State.purgeRecord]
  repeat' split
  · exact answer_onward s p _ _
  · exact (removeRecord_store s _).onward.trans (.still rfl fun hs => { hs with })
  · exact answer_onward s p _ _

/-- Entries of the alarm list changed one by one. -/
theorem mapAlarms_store (s : State) (f : AlarmEntry → AlarmEntry) :
    StoreWork s { s with alm.list := s.alm.list.map f } :=
  .of_only (by constructor <;> rfl) rfl rfl (Nat.le_of_eq (List.length_map _))

theorem alarmRead_onward (s : State) (p : Port) (selection first : Nat) : Onward s (s.alarmRead p selection first) := by
  have hc := checkAlarms_store s
  simp only [State.alarmRead]
  repeat' split
  · exact answer_onward s p _ _
  · exact (hc.trans (mapAlarms_store _ _)).onward.trans (answer_onward _ p _ _)
  · exact hc.onward.trans (answer_onward _ p _ _)

theorem clearNumber_onward (s : State) (p : Port) (n : Nat) : Onward s (s.clearNumber p n) := by
  have hc := checkAlarms_store s
  simp only [State.clearNumber]
  repeat' split
  · exact answer_onward s p _ _
  · exact hc.onward.trans (answer_onward _ p _ _)
  · exact (hc.trans (mapAlarms_store _ _)).onward.trans (answer_onward _ p _ _)
  · exact hc.onward.trans (answer_onward _ p _ _)

theorem clearTrack_onward (s : State) (p : Port) (n : Nat) : Onward s (s.clearTrack p n) := by
  simp only [State.clearTrack]
  split
  · exact ((checkAlarms_store s).trans (mapAlarms_store _ _)).onward.trans (answer_onward _ p _ _)
  · exact answer_onward s p _ _

/-! ### The window -/

theorem windowOf_fits {a b c d o : Nat} {w : Window} (h : windowOf a b c d o = some w) : windowFits w := by
  simp only [windowOf] at h
  split at h
  · next hr =>
    obtain ⟨ord, -, rfl⟩ := Option.map_eq_some_iff.1 h
    exact ⟨hr.2.2.1, hr.1, hr.2.2.2, hr.2.1, Nat.mul_pos (Nat.succ_pos _) (Nat.succ_pos _)⟩
  · cases h

/-- The cursor moved on stays inside the window, or returns to element 0 (R40, R42). -/
theorem advance_fits {w : Window} (h : windowFits w) (m : Nat) : windowFits (w.advance m) := by
  obtain ⟨hrow, hlast, hcol, hend, hcur⟩ := h
  refine ⟨hrow, hlast, hcol, hend, ?_⟩
  show (if w.cursor + m < w.size then w.cursor + m else 0) < w.size
  split
  · assumption
  · exact Nat.lt_of_le_of_lt (Nat.zero_le _) hcur

theorem windowRead_onward (s : State) (p : Port) (count : Nat) : Onward s (s.windowRead p count) := by
  have hb (b : Bool) : Onward s (if b then s.copyByNow else s) := by
    split
    · exact copyByNow_onward s
    · exact .refl s
  simp only [State.windowRead]
  split
  · exact answer_onward s p _ _
  · next w hw =>
    have hb := hb (copying s && w.touchesSnapshot)
    generalize (if (copying s && w.touchesSnapshot) = true then s.copyByNow else s) = v at hb ⊢
    split
    · exact answer_onward s p _ _
    · refine ⟨hb.count, fun hs => { hb.fits hs with window := ?_ }⟩
      rintro w' ⟨⟩
      exact advance_fits (hs.window w hw) _

theorem windowWrite_onward (s : State) (p : Port) (samples : List Sample) : Onward s (s.windowWrite p samples) := by
  simp only [State.windowWrite]
  repeat' split
  · exact answer_onward s p _ _
  · exact answer_onward s p _ _
  · exact answer_onward s p _ _
  · next w hw _ _ =>
    refine .still rfl fun hs => { hs with memory := wf_writeElements _ _ _ _ hs.memory, window := ?_ }
    rintro w' ⟨⟩
    exact advance_fits (hs.window w hw) _

/-! ### The watch and Evaluate Snapshot -/

theorem setCondition_onward (s : State) (c : Condition) : Onward s (s.setCondition c) := by
  simp only [State.setCondition]
  split <;> exact .still rfl fun hs => { hs with }

theorem releasedWatch_same (w : Watch) :
    (releasedWatch w).matchCount = w.matchCount ∧ (releasedWatch w).copy = w.copy := by
  unfold releasedWatch
  repeat' split
  all_goals exact ⟨rfl, rfl⟩

theorem releaseWatch_onward (s : State) (p : Port) : Onward s (s.releaseWatch p) := by
  obtain ⟨hcount, hcopy⟩ := releasedWatch_same s.wat
  simp only [State.releaseWatch]
  repeat' split
  · exact answer_onward s p _ _
  · exact answer_onward s p _ _
  · refine .trans ?_ (answer_onward _ p _ _)
    refine .still rfl fun hs => ?_
    exact { hs with matched := by rw [hcount]; exact hs.matched, copy := by rw [hcopy]; exact hs.copy }

theorem acceptSnapshot_onward (s : State) (p : Port) (f : SnapshotFields) (gate : Int × Int) (d : Nat)
    (h : s.aee.queue.length < Config.queueSize) : Onward s (s.acceptSnapshot p f gate d) := by
  have hc := checkSettings_store s [itemGs f.track, itemGe f.track, itemVLow]
  simp only [State.acceptSnapshot]
  refine ⟨hc.onward.count, fun hs => { hc.fits hs with queue := ?_ }⟩
  rw [State.onPort_aee, List.length_append, List.length_singleton, hc.only.aee]
  exact h

theorem evaluateSnapshot_onward (s : State) (p : Port) (f : SnapshotFields) : Onward s (s.evaluateSnapshot p f) := by
  have hc := checkSettings_store s [itemD f.track, itemH f.track, itemW f.track]
  simp only [State.evaluateSnapshot]
  repeat' split
  · exact hc.onward.trans (answer_onward _ p _ _)
  · exact hc.onward.trans (answer_onward _ p _ _)
  · exact hc.onward.trans (answer_onward _ p _ _)
  · next hroom => exact hc.onward.trans (acceptSnapshot_onward _ p f _ _ (Nat.lt_of_not_le fun hle => hroom (.inl hle)))

/-! ### Settings, permissions and Force Close -/

theorem storeItems_store (s : State) (l : List (Nat × Int)) : StoreWork s (s.storeItems l) :=
  foldl_store (fun s (e : Nat × Int) => State.cleanEntry { s with settings := putSetting s.settings e.1 e.2 } .settings e.1)
    (fun _ _ => .of_only (by constructor <;> rfl) rfl rfl (Nat.le_refl _)) l s

theorem rewatchStuck_onward (s : State) (l : List (Nat × Int)) (t : Track) : Onward s (s.rewatchStuck l t) := by
  simp only [State.rewatchStuck]
  split
  · exact (Onward.refl s).onTrack.trans (resumeStuck_onward _ t)
  · exact .refl s

theorem settingsWrite_onward (s : State) (p : Port) (pairs : List (Nat × Nat)) : Onward s (s.settingsWrite p pairs) := by
  simp only [State.settingsWrite]
  generalize (pairs.map fun e => (e.1, writtenValue e.1 e.2)) = l
  have hg : Onward s (s.readGeometry l) := (checkSettings_store s _).onward
  repeat' split
  · exact answer_onward s p _ _
  · exact hg.trans (answer_onward _ p _ _)
  · exact hg.trans (answer_onward _ p _ _)
  · simp only [State.applyWrite]
    exact ((hg.trans (storeItems_store _ _).onward).trans (rewatchStuck_onward _ _ .one)).trans
      ((rewatchStuck_onward _ _ .two).trans (answer_onward _ p _ _))

theorem setPermissions_onward (s : State) (p : Port) (entries : List Nat) : Onward s (s.setPermissions p entries) := by
  simp only [State.setPermissions]
  split
  · exact answer_onward s p _ _
  · exact (storeItems_store s _).onward.trans (answer_onward _ p _ _)

theorem forceClose_onward (s : State) (p : Port) (n : Nat) : Onward s (s.forceClose p n) := by
  simp only [State.forceClose]
  repeat' split
  · exact answer_onward s p _ _
  · exact answer_onward s p _ _
  · exact ((Onward.refl s).checkSetting.trans (closeToArming_onward _ _ .forced)).trans (answer_onward _ p _ _)
  · exact ((Onward.refl s).checkSetting.trans (closeToArming_onward _ _ .forced)).trans (answer_onward _ p _ _)

/-! ### RESTART and the freeze -/

theorem emptyQueue_onward (s : State) : Onward s { s with aee.queue := [] } :=
  .still rfl fun hs => { hs with queue := Nat.zero_le _ }

theorem handOverAll_onward (s : State) : Onward s s.handOverAll := .still rfl fun hs => { hs with closing := Nat.zero_le _ }

theorem restartTrains_onward (s : State) : Onward s s.restartTrains := by
  have hclose := (closeRequest_onward s .one .forced).trans (closeRequest_onward _ .two .forced)
  have hcancel (w : State) : Onward w ((closingTrains w).foldl (fun s tr => s.cancelJobs tr.number) w) :=
    foldl_onward _ (fun s (tr : Train) => cancelJobs_onward s tr.number) _ w
  exact ((hclose.trans (hcancel _)).trans (emptyQueue_onward _)).trans (handOverAll_onward _)

theorem restartTrack_onward (s : State) (t : Track) : Onward s (s.restartTrack t) := by
  simp only [State.restartTrack]
  exact ((abandonRefresh_onward s t).onTrack.trans (enterArming_onward _ t)).trans (resumeStuck_onward _ t)

theorem restartOthers_onward (s : State) (p : Port) : Onward s (s.restartOthers p) := by
  refine foldl_onward _ (fun s q => ?_) _ s
  split
  · exact .refl s
  · exact answer_onward s q _ _

theorem restart_onward (s : State) (p : Port) : Onward s (s.restart p) := by
  have ht := ((restartTrains_onward s).trans (restartTrack_onward _ .one)).trans (restartTrack_onward _ .two)
  exact ((ht.trans (tearCopy_onward _)).trans (restartOthers_onward _ p)).trans (answer_onward _ p _ _)

theorem freezeEngine_onward (s : State) : Onward s s.freezeEngine := by
  have he (w : State) : Onward w w.restartEvaluations := by
    refine foldl_onward _ (fun s p => ?_) _ w
    split
    · exact answer_onward s p _ _
    · exact .refl s
  exact ((removeQueuedLive_onward s).trans (emptyQueue_onward _)).trans (he _)

theorem freezeTrack_onward (s : State) (t : Track) : Onward s (s.freezeTrack t) := by
  have hc := (Onward.refl s).checkSetting (item := itemFitted t)
  have hw : Onward s (if ((s.checkSetting (itemFitted t)).ts.get t).mode = .arming then
      ((s.checkSetting (itemFitted t)).abandonRefresh t).enterArmed t
      else (s.checkSetting (itemFitted t)).abandonRefresh t) := by
    split
    · exact (hc.trans (abandonRefresh_onward _ t)).trans (enterArmed_onward _ t)
    · exact hc.trans (abandonRefresh_onward _ t)
  simp only [State.freezeTrack]
  split
  · exact (hw.trans (closeToArming_onward _ t .power)).trans (enterAlarm_store _ _).onward
  · exact hw

theorem freeze_onward (s : State) : Onward s s.freeze := by
  have he : Onward s (enteringFrozen s) := .still rfl fun hs => { hs with }
  have hb : Onward s (beforeTracks s) :=
    ((he.trans (freezeEngine_onward _)).trans (tearCopy_onward _)).trans (powerFlags_onward _)
  rw [freeze_eq]
  exact (hb.trans (freezeTrack_onward _ .one)).trans (freezeTrack_onward _ .two)

theorem leaveTrack_onward (s : State) (t : Track) : Onward s (s.leaveTrack t) := by
  have he : Onward s ((s.checkSetting (itemFitted t)).enterArming t) :=
    (Onward.refl s).checkSetting.trans (enterArming_onward _ t)
  simp only [State.leaveTrack]
  split
  · exact he.trans (resumeStuck_onward _ t)
  · exact he

theorem testLeave_onward (s : State) : Onward s s.testLeave := by
  simp only [State.testLeave]
  split
  · exact .still rfl fun hs => { hs with }
  · exact .refl s

/-! ### The START check's end -/

theorem poolFits_nil {α : Type} (size : Nat) : poolFits ([] : List (Nat × α)) size := ⟨rfl, nofun⟩

/-- What the blocks outside the retained region hold after START is inside every bound (R206). -/
theorem startBlocks_fits (hs : Fits s) (inputs : Inputs) : Fits (s.startBlocks inputs) := by
  have hopens (t : Track) : (s.startBlocks inputs).tas.opens.get t = none := by cases t <;> rfl
  have hwindow : (s.startBlocks inputs).cac.window = none := rfl
  have hop : (s.startBlocks inputs).rbu.closeOp = none := rfl
  have hcopy : (s.startBlocks inputs).wat.copy = none := rfl
  exact { hs with
    memory := rfl
    window := by rw [hwindow]; nofun
    count := Nat.zero_le _
    queue := Nat.zero_le _
    depth := fun t => by rw [hopens]; nofun
    closing := Nat.zero_le _
    op := fun o h => by rw [hop] at h; cases h
    matched := Nat.zero_le _
    copy := by rw [hcopy]; nofun }

theorem readRecord_store (s : State) (r : RecordDir) : StoreWork s (s.readRecord r) :=
  ((checkHeader_store s r.header []).trans (foldl_store _ (fun s k => checkVehicle_store s k) r.vehicles _)).trans
    (foldl_store _ (fun s k => checkAxle_store s k []) r.axles _)

theorem freeRest_store (s : State) : StoreWork s s.freeRest :=
  ⟨by constructor <;> rfl, rfl, fun h => poolFits_filter h _, fun h => poolFits_filter h _, fun h => poolFits_filter h _, id⟩

theorem keepRegion_store (s : State) : StoreWork s s.keepRegion := by
  have hr := (foldl_store _ readRecord_store s.trs.records s).trans (freeRest_store _)
  exact ((hr.trans (checkAlarms_store _)).trans (checkSettings_store _ allItems)).trans (mapAlarms_store _ _)

theorem clearRegion_onward (s : State) : Onward s s.clearRegion :=
  .still rfl fun hs => { hs with
    axles := poolFits_nil _, vehicles := poolFits_nil _, headers := poolFits_nil _, alarms := Nat.zero_le _ }

theorem checkRegion_onward (s : State) (take : Bool) : Onward s (s.checkRegion take) := by
  have he (w : State) : Onward w (w.endRegion take) := .still rfl fun hs => { hs with }
  simp only [State.checkRegion]
  split
  · exact (clearRegion_onward s).trans (he _)
  · exact (keepRegion_store s).onward.trans (he _)

theorem startSupply_onward (s : State) : Onward s s.startSupply := by
  simp only [State.startSupply]
  repeat' split
  · exact .still rfl fun hs => { hs with }
  · exact .still rfl fun hs => { hs with }
  · exact .refl s

theorem startTrack_onward (s : State) (t : Track) : Onward s (s.startTrack t) := by
  simp only [State.startTrack]
  split
  · exact (Onward.refl s).onTrack.trans (resumeStuck_onward _ t)
  · exact (enterArming_onward s t).trans (resumeStuck_onward _ t)

theorem intoService_fits (hs : Fits s) (inputs : Inputs) (samples : List Sample) : Fits (s.intoService inputs samples) := by
  have ht := (((checkRegion_onward (s.startBlocks inputs) inputs.take).trans (startSupply_onward _)).trans
    (startTrack_onward _ .one)).trans (startTrack_onward _ .two)
  have hz (w : State) : Onward w (w.sampleZero samples) := writeColumn_onward w _ _ _
  have hn := (ht.trans (hz _)).trans (testNotice_store _).onward
  simp only [State.intoService]
  split
  · exact (enterAlarm_store _ uncleanStart).fits (hn.fits (startBlocks_fits hs inputs))
  · exact hn.fits (startBlocks_fits hs inputs)

/-! ### Commands -/

/-- The count runs on and every bound is kept in the state an outcome leads to. -/
def RunsOn (s : State) (o : Host.Outcome State Fault Refusal) : Prop := ∀ u, o = .next u → Onward s u

theorem runsOn_next (h : Onward s u) : RunsOn s (.next u) := by
  rintro v ⟨⟩; exact h

theorem driveLines_onward (s : State) : Onward s s.driveLines := .still rfl fun hs => { hs with }

theorem runsOn_whenUp {r : Option State} (h : ∀ u, r = some u → Onward s u) : RunsOn s (whenUp s r) := by
  rcases whenUp_next s r with hn | ⟨u, hu, hn⟩
  · rw [hn]; exact runsOn_next (.refl s)
  · rw [hn]; exact runsOn_next (((h u hu).trans (letClose_onward u)).trans (driveLines_onward _))

theorem runsOn_some (h : Onward s u) : RunsOn s (whenUp s (some u)) := runsOn_whenUp (by rintro v ⟨⟩; exact h)

theorem runsOn_expiry {timer : Timer} {f : Nat → State} (h : ∀ e, Onward s (f e)) : RunsOn s (whenUp s (timer.map f)) := by
  refine runsOn_whenUp fun u hu => ?_
  obtain ⟨e, -, rfl⟩ := Option.map_eq_some_iff.1 hu
  exact h e

theorem runsOn_work (p : Port) (now : Nat) {work : Request → Option (State → State)}
    (h : ∀ r f, work r = some f → ∀ w, Onward w (f w)) : RunsOn s (workEvent p now s work) := by
  rcases workEvent_next p now s work with hn | ⟨r, f, -, hf, hn⟩
  · rw [hn]; exact runsOn_next (.refl s)
  · rw [hn]
    have hc := (advance_onward s now).checkSetting (item := itemPermission r.row)
    refine runsOn_next (.trans (.trans ?_ (letClose_onward _)) (driveLines_onward _))
    rcases serve_cases (s.advance now) p r f with h1 | h1 | h1 <;> rw [h1]
    · exact hc.trans (.still rfl fun hs => { hs with })
    · exact hc.trans (answer_onward _ p _ _)
    · exact hc.trans (h r f hf _)

/-- An event of a track at a count: the setting is read, the track changed, and something done. -/
theorem atTrack_changed_onward (s : State) (t : Track) (now : Nat) {f : Sequencer → Sequencer} :
    Onward s ((s.atTrack t now).onTrack t f) := (atTrack_onward s t now).onTrack

theorem headOn_runsOn (s : State) (t : Track) (h : Head) (now : Nat) : RunsOn s (exec (.headOn t h now) s) := by
  have h1 := atTrack_changed_onward s t now (f := setHead h true)
  refine runsOn_some ?_
  split
  · exact h1.onTrack
  · exact h1.trans (headOnActive_onward _ t h)

theorem headOff_runsOn (s : State) (t : Track) (h : Head) (now : Nat) : RunsOn s (exec (.headOff t h now) s) := by
  have h1 := atTrack_changed_onward s t now (f := setHead h false)
  refine runsOn_some ?_
  split <;> exact h1.onTrack

theorem approachPulse_runsOn (s : State) (t : Track) (now : Nat) : RunsOn s (exec (.approachPulse t now) s) := by
  have h1 := atTrack_onward s t now
  refine runsOn_some ?_
  split
  · exact h1.trans (enterArming_onward _ t)
  · exact h1.trans (startTDormant_onward _ t)
  all_goals exact h1

theorem occupancy_runsOn (s : State) (t : Track) (level : Bool) (now : Nat) {act : State → State}
    (hact : ∀ w, Onward w (act w)) :
    RunsOn s (whenUp s (some
      (if occupancyActs ((s.atTrack t now).setOccupied t level) t then act ((s.atTrack t now).setOccupied t level)
        else (s.atTrack t now).setOccupied t level))) := by
  have h1 : Onward s ((s.atTrack t now).setOccupied t level) := atTrack_changed_onward s t now
  refine runsOn_some ?_
  split
  · exact h1.trans (hact _)
  · exact h1

/-- The expiry of a timer of a track: it stops, and where `acts` holds something more is done. -/
theorem trackTimer_runsOn (s : State) (t : Track) {timer : Timer} {f : Sequencer → Sequencer} {acts : State → Prop}
    [∀ w, Decidable (acts w)] {act : State → State} (hact : ∀ w, Onward w (act w)) :
    RunsOn s (whenUp s (timer.map fun e =>
      if acts ((s.atTrack t e).onTrack t f) then act ((s.atTrack t e).onTrack t f) else (s.atTrack t e).onTrack t f)) := by
  refine runsOn_expiry fun e => ?_
  have h1 := atTrack_changed_onward s t e (f := f)
  split
  · exact h1.trans (hact _)
  · exact h1

end Sys2Proof.Machine
end

