-- ==== Sys2Proof/Proofs/BoundedKept.lean ====
section
/-! Every step keeps every bound (O5), the count never runs back (O9), the lines stand after every command (O11), and the step
on an empty queue (O2). -/

namespace Sys2Proof.Machine

variable {s u v : State}

/-! ### Commands of the tracks, the engine and the watch -/

theorem tDormantExpiry_runsOn (s : State) (t : Track) : RunsOn s (exec (.tDormantExpiry t) s) := by
  refine runsOn_expiry fun e => ?_
  have h2 := (atTrack_changed_onward s t e (f := fun q => { q with tDormant := none })).checkSetting (item := itemDormancy t)
  dsimp only
  split
  · exact h2.onTrack
  · exact h2

theorem stuckTimerExpiry_runsOn (s : State) (t : Track) (h : Head) : RunsOn s (exec (.stuckTimerExpiry t h) s) := by
  refine runsOn_expiry fun e => ?_
  have h1 := atTrack_changed_onward s t e (f := fun q => { q with stuck := q.stuck.set (headIx h) none })
  dsimp only
  split
  · exact h1
  · exact h1.trans (enterFault_onward _ t h)

theorem refreshComplete_runsOn (s : State) (t : Track) (samples : List Sample) :
    RunsOn s (exec (.refreshComplete t samples) s) := by
  refine runsOn_whenUp fun u hu => ?_
  split at hu <;> cases hu
  exact writeSample_onward s samples

theorem jobTake_runsOn (s : State) : RunsOn s (exec .jobTake s) := by
  refine runsOn_whenUp fun u hu => ?_
  split at hu <;> cases hu
  exact takeJob_onward s _

theorem liveJobComplete_runsOn (s : State) (now : Nat) : RunsOn s (exec (.liveJobComplete now) s) := by
  refine runsOn_whenUp fun u hu => ?_
  repeat' split at hu
  all_goals cases hu
  exact (advance_onward s now).trans (complete_onward _ _)

theorem serviceJobComplete_runsOn (s : State) (now : Nat) : RunsOn s (exec (.serviceJobComplete now) s) := by
  refine runsOn_whenUp fun u hu => ?_
  repeat' split at hu
  all_goals cases hu
  exact (advance_onward s now).trans (complete_onward _ _)

theorem snapshotCopyEnd_runsOn (s : State) (now : Nat) : RunsOn s (exec (.snapshotCopyEnd now) s) := by
  refine runsOn_whenUp fun u hu => ?_
  split at hu
  · next c hc =>
    cases hu
    refine ((advance_onward s now).trans (copyWrites_onward (s := s.advance now) hc c.todo.length)).trans ?_
    exact .still rfl fun hs => { hs with copy := nofun }
  · cases hu

/-! ### Commands of the Report Builder -/

theorem closeTake_runsOn (s : State) : RunsOn s (exec .closeTake s) := by
  refine runsOn_whenUp fun u hu => ?_
  split at hu
  · next c s1 _ hc =>
    cases hu
    exact (takeClosing_onward hc).trans (beginClose_onward s1 c _)
  · cases hu

theorem recordAppend_runsOn (s : State) (now : Nat) : RunsOn s (exec (.recordAppend now) s) := by
  refine runsOn_whenUp fun u hu => ?_
  obtain ⟨o, -, hu⟩ := Option.bind_eq_some_iff.1 hu
  obtain ⟨o', ho', hu⟩ := Option.bind_eq_some_iff.1 hu
  have hf := (advance_onward s now).trans (finishPieces_onward _ o)
  split at hu
  · next k refs hk _ =>
    cases hu
    refine ⟨by rw [makeRecord_count]; exact hf.count, fun hs => ?_⟩
    have hlt : k < Config.headerCount := ((hf.fits hs).op o' ho').place k hk
    exact (makeRecord_onward _ o' hlt refs).fits (hf.fits hs)
  · cases hu

theorem discardedFull_runsOn (s : State) (now : Nat) : RunsOn s (exec (.discardedFull now) s) := by
  refine runsOn_whenUp fun u hu => ?_
  obtain ⟨o, -, hu⟩ := Option.bind_eq_some_iff.1 hu
  obtain ⟨o', -, hu⟩ := Option.bind_eq_some_iff.1 hu
  have hf := (advance_onward s now).trans (finishPieces_onward _ o)
  split at hu
  · next s2 _ hr =>
    cases hu
    exact (hf.trans (requestHeader_store hr).onward).trans (discardTrain_onward s2 o')
  · cases hu

/-! ### Commands of the handshake and the supply -/

theorem takeRises_runsOn (s : State) (now : Nat) : RunsOn s (exec (.takeRises now) s) := by
  have h1 : Onward s { s.advance now with alm.takeHigh := true } :=
    (advance_onward s now).trans (.still rfl fun hs => { hs with })
  refine runsOn_some ?_
  split
  · refine h1.trans (.trans (mapAlarms_store _ takenAlarm).onward ?_)
    exact .still rfl fun hs => { hs with }
  all_goals exact h1

theorem takeFalls_runsOn (s : State) (now : Nat) : RunsOn s (exec (.takeFalls now) s) := by
  have h1 : Onward s { s.advance now with alm.takeHigh := false } :=
    (advance_onward s now).trans (.still rfl fun hs => { hs with })
  refine runsOn_some ?_
  split
  · refine h1.trans (.trans ?_ (testNotice_store _).onward)
    exact .still rfl fun hs => { hs with }
  · exact h1.trans (testNotice_store _).onward
  · exact h1

/-- The Supply Monitor changed at a count. -/
theorem withSupply_onward (s : State) (now : Nat) (x : Supply) : Onward s { s.advance now with sup := x } :=
  (advance_onward s now).trans (.still rfl fun hs => { hs with })

theorem supplyFailActive_runsOn (s : State) (now : Nat) : RunsOn s (exec (.supplyFailActive now) s) := by
  refine runsOn_some ?_
  split <;> exact withSupply_onward s now _

theorem supplyFailInactive_runsOn (s : State) (now : Nat) : RunsOn s (exec (.supplyFailInactive now) s) := by
  refine runsOn_some ?_
  split
  · exact withSupply_onward s now _
  · exact withSupply_onward s now _
  · exact (withSupply_onward s now _).trans (testLeave_onward _)

theorem holdupLowActive_runsOn (s : State) (now : Nat) : RunsOn s (exec (.holdupLowActive now) s) := by
  refine runsOn_some ?_
  split
  · exact (withSupply_onward s now _).trans (freeze_onward _)
  · exact (withSupply_onward s now _).trans (freeze_onward _)
  · exact withSupply_onward s now _

theorem failTimerExpiry_runsOn (s : State) : RunsOn s (exec .failTimerExpiry s) := by
  refine runsOn_expiry fun e => ?_
  dsimp only
  split
  · exact (withSupply_onward s e _).trans (powerFlags_onward _)
  · exact withSupply_onward s e _

theorem recoveryTimerExpiry_runsOn (s : State) : RunsOn s (exec .recoveryTimerExpiry s) := by
  refine runsOn_expiry fun e => ?_
  dsimp only
  split <;> exact withSupply_onward s e _

theorem freezeComplete_runsOn (s : State) : RunsOn s (exec .freezeComplete s) := by
  refine runsOn_whenUp fun u hu => ?_
  split at hu <;> cases hu
  refine .trans ?_ (testLeave_onward _)
  exact .still rfl fun hs => { hs with }

theorem leaveTimerExpiry_runsOn (s : State) : RunsOn s (exec .leaveTimerExpiry s) := by
  refine runsOn_expiry fun e => ?_
  dsimp only
  split
  · refine (advance_onward s e).trans (.trans ?_ ((leaveTrack_onward _ .one).trans (leaveTrack_onward _ .two)))
    exact .still rfl fun hs => { hs with }
  · exact withSupply_onward s e _

/-! ### Requests -/

theorem setWindow_runsOn (s : State) (p : Port) (now : Nat) : RunsOn s (exec (.setWindow p now) s) := by
  refine runsOn_work p now fun r f hf w => ?_
  split at hf <;> cases hf
  dsimp only
  split
  · next x hx =>
    refine .still rfl fun hs => { hs with window := ?_ }
    rintro x' ⟨⟩
    exact windowOf_fits hx
  · exact answer_onward w p _ _

theorem setWatch_runsOn (s : State) (p : Port) (now : Nat) : RunsOn s (exec (.setWatch p now) s) := by
  refine runsOn_work p now fun r f hf w => ?_
  split at hf <;> cases hf
  dsimp only
  split
  · exact (setCondition_onward w _).trans (answer_onward _ p _ _)
  · exact answer_onward w p _ _

theorem evaluateSnapshot_runsOn (s : State) (p : Port) (now : Nat) : RunsOn s (exec (.evaluateSnapshot p now) s) := by
  refine runsOn_work p now fun r f hf w => ?_
  split at hf <;> cases hf
  dsimp only
  split
  · exact evaluateSnapshot_onward w p _
  · exact answer_onward w p _ _

theorem clearAlarmNumber_runsOn (s : State) (p : Port) (now : Nat) : RunsOn s (exec (.clearAlarmNumber p now) s) := by
  refine runsOn_work p now fun r f hf w => ?_
  split at hf
  · split at hf <;> cases hf
    · exact clearNumber_onward w p _
    · exact answer_onward w p _ _
  · cases hf

theorem clearAlarmTrack_runsOn (s : State) (p : Port) (now : Nat) : RunsOn s (exec (.clearAlarmTrack p now) s) := by
  refine runsOn_work p now fun r f hf w => ?_
  split at hf
  · split at hf <;> cases hf
    · exact clearTrack_onward w p _
    · exact answer_onward w p _ _
  · cases hf

/-! ### Every command -/

/-- Every command but the end of a START check lets the count run on and keeps every bound. -/
theorem exec_runsOn (i : Instr) (s : State) (hi : ∀ inputs samples, i ≠ .startCheckEnd inputs samples) :
    RunsOn s (exec i s) := by
  cases i with
  | headOn t h now => exact headOn_runsOn s t h now
  | headOff t h now => exact headOff_runsOn s t h now
  | approachPulse t now => exact approachPulse_runsOn s t now
  | occupancyClear t now => exact occupancy_runsOn s t false now fun w => occupancyClears_onward w t
  | occupancyOccupied t now => exact occupancy_runsOn s t true now fun w => occupancyFills_onward w t
  | tSettleExpiry t =>
    exact trackTimer_runsOn s t (acts := fun w => trainMode (w.ts.get t).mode = true) fun w => closeToArming_onward w t .normal
  | tEndExpiry t =>
    exact trackTimer_runsOn s t (acts := fun w => trainMode (w.ts.get t).mode = true) fun w => closeToArming_onward w t .normal
  | tStandExpiry t =>
    exact trackTimer_runsOn s t (acts := fun w => (w.ts.get t).mode = .passing)
      fun w => (Onward.refl w).onTrack.trans (startTAbandon_onward _ t)
  | tAbandonExpiry t =>
    exact trackTimer_runsOn s t (acts := fun w => trainMode (w.ts.get t).mode = true)
      fun w => closeToArming_onward w t .abandoned
  | tDormantExpiry t => exact tDormantExpiry_runsOn s t
  | tRetareExpiry t =>
    exact trackTimer_runsOn s t (acts := fun w => (w.ts.get t).mode = .armed) fun w => enterArming_onward w t
  | stuckTimerExpiry t h => exact stuckTimerExpiry_runsOn s t h
  | faultRecoveryExpiry t =>
    exact trackTimer_runsOn s t (acts := fun w => (w.ts.get t).mode = .fault)
      fun w => (enterArming_onward w t).trans (resumeStuck_onward _ t)
  | sampleWrite samples => exact runsOn_some (writeSample_onward s samples)
  | refreshComplete t samples => exact refreshComplete_runsOn s t samples
  | jobTake => exact jobTake_runsOn s
  | liveJobComplete now => exact liveJobComplete_runsOn s now
  | serviceJobComplete now => exact serviceJobComplete_runsOn s now
  | snapshotCopyEnd now => exact snapshotCopyEnd_runsOn s now
  | closeTake => exact closeTake_runsOn s
  | recordAppend now => exact recordAppend_runsOn s now
  | discardedFull now => exact discardedFull_runsOn s now
  | takeRises now => exact takeRises_runsOn s now
  | takeFalls now => exact takeFalls_runsOn s now
  | supplyFailActive now => exact supplyFailActive_runsOn s now
  | supplyFailInactive now => exact supplyFailInactive_runsOn s now
  | holdupLowActive now => exact holdupLowActive_runsOn s now
  | holdupLowInactive now => exact runsOn_some ((withSupply_onward s now _).trans (testLeave_onward _))
  | failTimerExpiry => exact failTimerExpiry_runsOn s
  | recoveryTimerExpiry => exact recoveryTimerExpiry_runsOn s
  | freezeComplete => exact freezeComplete_runsOn s
  | leaveTimerExpiry => exact leaveTimerExpiry_runsOn s
  | start => exact runsOn_next (.still rfl fun hs => { hs with })
  | startCheckEnd inputs samples => exact absurd rfl (hi inputs samples)
  | requestPeriod p bytes => exact runsOn_next (.still rfl fun hs => { hs with })
  | answerFetch p => exact runsOn_next (.still rfl fun hs => { hs with })
  | readPeriodEnd p bytes => exact runsOn_next (.still rfl fun hs => { hs with })
  | setWindow p now => exact setWindow_runsOn s p now
  | setWatch p now => exact setWatch_runsOn s p now
  | evaluateSnapshot p now => exact evaluateSnapshot_runsOn s p now
  | clearAlarmNumber p now => exact clearAlarmNumber_runsOn s p now
  | clearAlarmTrack p now => exact clearAlarmTrack_runsOn s p now
  | settingsWrite p now =>
    exact runsOn_work p now fun r f hf w => by split at hf <;> cases hf; exact settingsWrite_onward w p _
  | forceClose p now =>
    exact runsOn_work p now fun r f hf w => by split at hf <;> cases hf; exact forceClose_onward w p _
  | restart p now =>
    exact runsOn_work p now fun r f hf w => by split at hf <;> cases hf; exact restart_onward w p
  | recordList p now =>
    exact runsOn_work p now fun r f hf w => by split at hf <;> cases hf; exact recordList_onward w p _
  | headerRead p now =>
    exact runsOn_work p now fun r f hf w => by split at hf <;> cases hf; exact headerRead_onward w p _
  | axleRead p now =>
    exact runsOn_work p now fun r f hf w => by split at hf <;> cases hf; exact axleRead_onward w p _ _
  | vehicleRead p now =>
    exact runsOn_work p now fun r f hf w => by split at hf <;> cases hf; exact vehicleRead_onward w p _ _
  | releaseRecord p now =>
    exact runsOn_work p now fun r f hf w => by split at hf <;> cases hf; exact releaseRecord_onward w p _
  | alarmRead p now =>
    exact runsOn_work p now fun r f hf w => by split at hf <;> cases hf; exact alarmRead_onward w p _ _
  | clearUnlisted p now =>
    exact runsOn_work p now fun r f hf w => by split at hf <;> cases hf; exact .still rfl fun hs => { hs with }
  | liveAxleRead p now =>
    exact runsOn_work p now fun r f hf w => by split at hf <;> cases hf; exact liveAxleRead_onward w p _
  | setSiteTime p now =>
    exact runsOn_work p now fun r f hf w => by split at hf <;> cases hf; exact .still rfl fun hs => { hs with }
  | windowRead p now =>
    exact runsOn_work p now fun r f hf w => by split at hf <;> cases hf; exact windowRead_onward w p _
  | windowWrite p now =>
    exact runsOn_work p now fun r f hf w => by split at hf <;> cases hf; exact windowWrite_onward w p _
  | watchRead p now =>
    exact runsOn_work p now fun r f hf w => by split at hf <;> cases hf; exact answer_onward w p _ _
  | releaseWatch p now =>
    exact runsOn_work p now fun r f hf w => by split at hf <;> cases hf; exact releaseWatch_onward w p
  | settingsRead p now =>
    exact runsOn_work p now fun r f hf w => by split at hf <;> cases hf; exact settingsRead_onward w p _ _
  | setPermissions p now =>
    exact runsOn_work p now fun r f hf w => by split at hf <;> cases hf; exact setPermissions_onward w p _
  | purgeRecord p now =>
    exact runsOn_work p now fun r f hf w => by split at hf <;> cases hf; exact purgeRecord_onward w p _
  | status p now =>
    exact runsOn_work p now fun r f hf w => by split at hf <;> cases hf; exact giveStatus_onward w p _
  | clearErrorCapture p now =>
    exact runsOn_work p now fun r f hf w => by split at hf <;> cases hf; exact .still rfl fun hs => { hs with }

/-- Every command keeps every bound. -/
theorem exec_fits (hs : Fits s) (i : Instr) (h : exec i s = .next u) : Fits u := by
  by_cases hi : ∃ inputs samples, i = .startCheckEnd inputs samples
  · obtain ⟨inputs, samples, rfl⟩ := hi
    change (if s.startCheck then _ else _) = _ at h
    split at h <;> cases h
    · exact (driveLines_onward _).fits (intoService_fits hs inputs samples)
    · exact hs
  · exact (exec_runsOn i s (fun inputs samples heq => hi ⟨inputs, samples, heq⟩) u h).fits hs

/-! ### The lines -/

/-- The lines stand as the rules give them in the state an outcome leads to. -/
def LinesStand (o : Host.Outcome State Fault Refusal) : Prop := ∀ u, o = .next u → u.lines = linesOf u

theorem linesStand_next (h : u.lines = linesOf u) : LinesStand (.next u) := by
  rintro v ⟨⟩; exact h

theorem linesStand_whenUp (hs : s.lines = linesOf s) {o : Host.Outcome State Fault Refusal} (ho : ∃ r, o = whenUp s r) :
    LinesStand o := by
  obtain ⟨r, rfl⟩ := ho
  rcases whenUp_next s r with hn | ⟨u, -, hn⟩
  · rw [hn]; exact linesStand_next hs
  · rw [hn]; exact linesStand_next rfl

/-- Every command drives the lines, but for the select periods, which change nothing that the lines show. -/
theorem exec_linesStand (hs : s.lines = linesOf s) (i : Instr) : LinesStand (exec i s) := by
  cases i with
  | start => exact linesStand_next rfl
  | startCheckEnd inputs samples =>
    show LinesStand (if s.startCheck then _ else _)
    split
    · exact linesStand_next rfl
    · exact linesStand_next hs
  | requestPeriod p bytes => exact linesStand_next hs
  | answerFetch p => exact linesStand_next hs
  | readPeriodEnd p bytes => exact linesStand_next hs
  | headOn | headOff | approachPulse | occupancyClear | occupancyOccupied | sampleWrite | takeRises | takeFalls
  | supplyFailActive | supplyFailInactive | holdupLowActive | holdupLowInactive =>
    exact linesStand_whenUp hs ⟨some _, rfl⟩
  | _ => exact linesStand_whenUp hs ⟨_, rfl⟩

end Sys2Proof.Machine

namespace Sys2Proof.Proofs

open Sys2Proof.Machine

/-- Settles O5: the bounds are kept by every command (`exec_fits`) and by the clock, and the lines by `exec_linesStand`. -/
theorem boundedKept : Obligations.BoundedKept := by
  intro s u hs hu
  obtain ⟨hf, hl⟩ := (bounded_iff s).1 hs
  rw [bounded_iff]
  rw [step] at hu
  split at hu
  · next i rest _ =>
    exact ⟨exec_fits (s := { s with pending := rest }) { hf with } i hu,
      exec_linesStand (s := { s with pending := rest }) hl i u hu⟩
  · cases hu
    simp only [State.idle]
    split
    · exact ⟨hf, hl⟩
    · exact ⟨(((advance_onward s _).trans (letClose_onward _)).trans (driveLines_onward _)).fits hf, rfl⟩

/-- Settles O9: each command but the end of a START check moves on (`exec_runsOn`). -/
theorem countNeverRunsBack : Obligations.CountNeverRunsBack :=
  fun i s u hi hu => (exec_runsOn i s hi u hu).count

/-- Settles O2: the three cases of `State.idle`. -/
theorem stepWithNoCommand : Obligations.StepWithNoCommand := by
  intro s hp
  have hstep : step s = .next s.idle := by rw [step, hp]
  rw [hstep]
  refine ⟨fun hc => ?_, fun hd => ?_, fun hc hd => ?_⟩
  · simp only [State.idle, hc, Bool.true_or, if_true]
  · simp only [State.idle, hd, Bool.or_true, if_true]
  · simp only [State.idle, hc, hd, Bool.or_false, Bool.false_eq_true, if_false]
    rfl

end Sys2Proof.Proofs
end

