-- ==== Sys2Proof/Proofs/LinesShown.lean ====
section
/-! The discrete lines as the rules word them (O11; R43, R130, R158, R160, R161, R206). -/

namespace Sys2Proof.Machine

variable {s : State} {k : Track}

theorem signalled_iff (a : AlarmEntry) : signalled a = true ↔ a.state = .raised ∨ a.state = .seen := by
  simp only [signalled, Bool.or_eq_true, beq_iff_eq]

theorem stopLine_iff : stopLine s k = true ↔
    ∃ a ∈ s.alm.list, a.severity = .stop ∧ a.key.track = some k ∧ (a.state = .raised ∨ a.state = .seen) := by
  simp only [stopLine, List.any_eq_true, Bool.and_eq_true, beq_iff_eq, signalled_iff, and_assoc]

theorem warnLine_iff : warnLine s k = true ↔
    (∃ a ∈ s.alm.list, a.severity = .alert ∧ a.key.track = some k ∧ (a.state = .raised ∨ a.state = .seen)) ∨
      0 < s.alm.unlisted := by
  simp only [warnLine, Bool.or_eq_true, List.any_eq_true, Bool.and_eq_true, beq_iff_eq, signalled_iff, and_assoc,
    decide_eq_true_eq]

theorem trackQuiet_iff : trackQuiet s k = true ↔ (s.ts.get k).mode = .armed ∨ (s.ts.get k).mode = .dormant := by
  simp only [trackQuiet, Bool.or_eq_true, beq_iff_eq]

theorem trackHasJob_false_iff : trackHasJob s k = false ↔
    (∀ j ∈ s.aee.queue, j.track ≠ k) ∧ ∀ f, s.aee.inFlight = some f → f.job.track ≠ k := by
  simp only [trackHasJob, Bool.or_eq_false_iff, List.any_eq_false, beq_iff_eq]
  cases s.aee.inFlight <;> simp

theorem quietLine_iff : quietLine s k = true ↔
    ((s.ts.get k).mode = .armed ∨ (s.ts.get k).mode = .dormant) ∧ (∀ j ∈ s.aee.queue, j.track ≠ k) ∧
      ∀ f, s.aee.inFlight = some f → f.job.track ≠ k := by
  simp only [quietLine, Bool.and_eq_true, Bool.not_eq_true', trackQuiet_iff, trackHasJob_false_iff]

theorem forall_track {p : Track → Prop} : (∀ k, p k) ↔ p .one ∧ p .two :=
  ⟨fun h => ⟨h .one, h .two⟩, fun ⟨h1, h2⟩ k => by cases k <;> assumption⟩

theorem reportLine_iff : reportLine s = true ↔
    s.settingNat itemReportLineCount ≤ (s.trs.records.filter fun r => r.holders.report).length ∨
      (1 ≤ (s.trs.records.filter fun r => r.holders.report).length ∧
        ∀ k, (s.ts.get k).mode = .armed ∨ (s.ts.get k).mode = .dormant) := by
  simp only [reportLine, Bool.or_eq_true, Bool.and_eq_true, decide_eq_true_eq, trackQuiet_iff, forall_track, and_assoc]
  rfl

/-- During the START check every line is negated (R206). -/
theorem linesOf_checking (h : s.startCheck = true) :
    linesOf s = ⟨⟨false, false⟩, ⟨false, false⟩, false, false, ⟨false, false⟩⟩ := by
  simp only [linesOf, h, if_true]

theorem linesOf_up (h : s.startCheck = false) :
    (linesOf s).stop.get k = stopLine s k ∧ (linesOf s).warn.get k = warnLine s k ∧
      (linesOf s).notice = (s.alm.handshake == .notified) ∧ (linesOf s).reportReady = reportLine s ∧
      (linesOf s).quiet.get k = quietLine s k := by
  rw [linesOf, h, if_neg Bool.false_ne_true]
  cases k <;> exact ⟨rfl, rfl, rfl, rfl, rfl⟩

theorem pair_false_get (k : Track) : (Pair.mk false false).get k = false := by cases k <;> rfl

end Sys2Proof.Machine

namespace Sys2Proof.Proofs

open Sys2Proof.Machine

/-- Settles O11: the lines stand after every command (`exec_linesStand`), and each is what its rule words. -/
theorem linesShown : Obligations.LinesShown := by
  refine ⟨fun i s u hs hu k => ?_, fun i s u hs hu => ?_⟩ <;> rw [exec_linesStand hs i u hu]
  · refine ⟨fun hc => ?_, fun hc => ?_⟩
    · rw [linesOf_checking hc]
      exact ⟨pair_false_get k, pair_false_get k⟩
    · obtain ⟨hstop, hwarn, -, -, -⟩ := linesOf_up (k := k) hc
      rw [hstop, hwarn]
      exact ⟨stopLine_iff, warnLine_iff⟩
  · refine ⟨fun hc => ?_, fun hc => ?_⟩
    · rw [linesOf_checking hc]
      exact ⟨rfl, rfl, pair_false_get⟩
    · obtain ⟨-, -, hnotice, hreport, -⟩ := linesOf_up (k := .one) hc
      rw [hnotice, hreport]
      refine ⟨beq_iff_eq, reportLine_iff, fun k => ?_⟩
      obtain ⟨-, -, -, -, hquiet⟩ := linesOf_up (k := k) hc
      rw [hquiet]
      exact quietLine_iff

end Sys2Proof.Proofs
end

