-- ==== Sys2Proof/Proofs/PurgeAndTime.lean ====
section
/-! SUPPORT. A record that leaves the store by its equation, and the proof of O51. -/

namespace Sys2Proof.Machine

variable {s : State}

/-- A request served whose work answers on its port, from a state in which the ports are as they were. -/
theorem leadsTo_of_answer {u : State} {p : Port} {tag now row : Nat} {r : Request} {st : Status} {pl : Payload} {i : Instr}
    {work : Request → Option (State → State)} {f : State → State} (hr : Ready s p tag r)
    (hi : exec i s = workEvent p now s work) (hw : work r = some f) (hu : u.ptu = s.ptu) (hrow : r.row = row)
    (hf : f (reached s now) = u.answer p st pl) : LeadsTo i s (answeredOn u p tag row st pl) := by
  refine leadsTo_of_ready hr hi hw (hf.trans ?_)
  rw [answer_pending (hu ▸ hr.slot), hrow]

theorem freeAll_eq_filter {α : Type} (m : List (Nat × α)) (l : List Nat) :
    freeAll m l = m.filter fun e => !l.contains e.1 := by
  unfold freeAll
  induction l generalizing m with
  | nil => simp
  | cons n l ih =>
    rw [List.foldl_cons, ih, drop, List.filter_filter]
    refine List.filter_congr fun e _ => ?_
    rw [List.contains_cons, Bool.not_or, Bool.and_comm]
    rfl

theorem removeRecord_eq (s : State) (r : RecordDir) : s.removeRecord r = recordGone s r := by
  simp only [State.removeRecord, State.setLinks, recordGone, freeAll_eq_filter, drop]

theorem findRecord_missing {n : Nat} (h : ∀ r ∈ s.trs.records, r.number ≠ n) : findRecord s n = none :=
  List.find?_eq_none.2 fun r hr => by simpa using h r hr

/-! ### Purge Record (R126) -/

theorem purgeRecord_outOfRange (s : State) (p : Port) {n : Nat} (h : n = 0 ∨ 65535 < n) :
    s.purgeRecord p n = s.answer p .badValue .none :=
  if_pos (by omega)

theorem purgeRecord_missing {n : Nat} (p : Port) (h1 : 1 ≤ n) (h2 : n ≤ 65535) (h : ∀ r ∈ s.trs.records, r.number ≠ n) :
    s.purgeRecord p n = s.answer p .gone .none := by
  rw [State.purgeRecord, if_neg (by omega), findRecord_missing h]

theorem purgeRecord_found {n : Nat} {r : RecordDir} (p : Port) (h1 : 1 ≤ n) (h2 : n ≤ 65535) (h : findRecord s n = some r) :
    s.purgeRecord p n =
      State.answer { recordGone s r with trs.purges := min (s.trs.purges + 1) 65535 } p .done (.holders r.holders) := by
  rw [State.purgeRecord, if_neg (by omega), h]
  simp only [removeRecord_eq]
  rfl

theorem purgeRecord_leads {p : Port} {tag n : Nat} (now : Nat) (hr : Ready s p tag (.purgeRecord n)) :
    (n = 0 ∨ 65535 < n → LeadsTo (.purgeRecord p now) s (answeredOn (reached s now) p tag 23 .badValue .none)) ∧
    (1 ≤ n → n ≤ 65535 → (∀ r ∈ s.trs.records, r.number ≠ n) →
      LeadsTo (.purgeRecord p now) s (answeredOn (reached s now) p tag 23 .gone .none)) ∧
    (∀ r, 1 ≤ n → n ≤ 65535 → findRecord s n = some r →
      LeadsTo (.purgeRecord p now) s
        (answeredOn { recordGone (reached s now) r with trs.purges := min (s.trs.purges + 1) 65535 } p tag 23 .done
          (.holders r.holders))) := by
  refine ⟨fun h => ?_, fun h1 h2 h => ?_, fun r h1 h2 h => ?_⟩
  all_goals refine leadsTo_of_answer hr rfl rfl rfl rfl ?_
  · exact purgeRecord_outOfRange _ p h
  · exact purgeRecord_missing p h1 h2 h
  · exact purgeRecord_found p h1 h2 h

end Sys2Proof.Machine

namespace Sys2Proof.Proofs

open Sys2Proof.Machine

/-- Settles O51: a stamp is `stampAt` of the pair and the count, the record that leaves is `recordGone` (`removeRecord_eq`), and the
other two requests write one value each. -/
theorem purgeCaptureTime : Obligations.PurgeCaptureTime := by
  refine ⟨⟨fun _ _ _ _ => rfl, fun _ => rfl, fun _ => rfl⟩, fun s p tag n now =>
    ⟨purgeRecord_leads now, fun hr => ?_, fun hr => ?_⟩⟩
  · exact leadsTo_of_answer hr rfl rfl rfl rfl rfl
  · exact leadsTo_of_answer hr rfl rfl rfl rfl rfl

end Sys2Proof.Proofs
end

