-- ==== Sys2Proof/Proofs/WindowRequests.lean ====
section
/-! SUPPORT. Where the elements of a window stand (R39), what a Window Read and a Window Write do, and the proof of O54. -/

namespace Sys2Proof.Machine

variable {s : State} {w : Window}

/-! ### The elements of a window (R39) -/

theorem address_eq (w : Window) (e : Nat) : w.address e = elementAddress w e := rfl

/-- The row and the column of an element, inside the window. -/
theorem elementAddress_cell {e : Nat} (he : e < w.size) :
    ∃ r c, elementAddress w e = cell (w.firstRow + r) (w.firstColumn + c) ∧ r < w.rows ∧ c < w.columns ∧
      e = (match w.order with | .alongRow => r * w.columns + c | .acrossRows => c * w.rows + r) := by
  have hrows : 0 < w.rows := Nat.succ_pos _
  have hcolumns : 0 < w.columns := Nat.succ_pos _
  simp only [← address_eq, Window.address]
  cases w.order with
  | alongRow =>
    exact ⟨e / w.columns, e % w.columns, rfl, (Nat.div_lt_iff_lt_mul hcolumns).2 he, Nat.mod_lt e hcolumns,
      (Nat.div_add_mod' e w.columns).symm⟩
  | acrossRows =>
    exact ⟨e % w.rows, e / w.rows, rfl, Nat.mod_lt e hrows, (Nat.div_lt_iff_lt_mul hrows).2 (Nat.mul_comm _ _ ▸ he),
      (Nat.div_add_mod' e w.rows).symm⟩

/-- A row and a column of a window lie in capture memory. -/
theorem windowFits.inside (hw : windowFits w) {r c : Nat} (hr : r < w.rows) (hc : c < w.columns) :
    w.firstRow + r < Config.rowCount ∧ w.firstColumn + c < Config.columnCount := by
  obtain ⟨hrow, hlast, hcolumn, hend, -⟩ := hw
  simp only [Window.rows, Window.columns] at hr hc
  omega

theorem elementAddress_lt (hw : windowFits w) {e : Nat} (he : e < w.size) :
    elementAddress w e < Config.rowCount * Config.columnCount := by
  obtain ⟨r, c, hcell, hr, hc, -⟩ := elementAddress_cell he
  obtain ⟨hrow, hcolumn⟩ := hw.inside hr hc
  rw [hcell]
  simp only [cell, Config.rowCount, Config.columnCount] at *
  omega

theorem elementAddress_inj (hw : windowFits w) {e e' : Nat} (he : e < w.size) (he' : e' < w.size)
    (h : elementAddress w e = elementAddress w e') : e = e' := by
  obtain ⟨r, c, hcell, hr, hc, heq⟩ := elementAddress_cell he
  obtain ⟨r', c', hcell', hr', hc', heq'⟩ := elementAddress_cell he'
  rw [hcell, hcell'] at h
  obtain ⟨hrow, hcolumn⟩ := cell_inj (hw.inside hr hc).2 (hw.inside hr' hc').2 h
  rw [heq, heq', Nat.add_left_cancel hrow, Nat.add_left_cancel hcolumn]

/-- The cursor after `m` more of the elements that are left (R40, R42). -/
theorem advance_eq (hw : windowFits w) {m : Nat} (hm : m ≤ elementsLeft w) :
    w.advance m = { w with cursor := if m = elementsLeft w then 0 else w.cursor + m } := by
  have hcursor : w.cursor < w.size := hw.2.2.2.2
  have hleft : elementsLeft w = w.size - w.cursor := rfl
  have hiff : w.cursor + m < w.size ↔ ¬ m = elementsLeft w := by omega
  rw [Window.advance]
  simp only [hiff, ite_not]

/-! ### Samples written into consecutive elements (R42) -/

theorem read_writeElements_other (w : Window) (l : List Sample) (m : List (Nat × Sample)) (e : Nat) {a : Nat}
    (h : ∀ i, i < l.length → a ≠ elementAddress w (e + i)) : Memory.read (writeElements m w e l) a = Memory.read m a := by
  induction l generalizing m e with
  | nil => rfl
  | cons v l ih =>
    refine (ih _ (e + 1) fun i hi => ?_).trans (Memory.read_write_other _ _ _ _ (h 0 (Nat.succ_pos _)))
    rw [Nat.add_right_comm]
    exact h (i + 1) (Nat.succ_lt_succ hi)

theorem read_writeElements (hw : windowFits w) (l : List Sample) (m : List (Nat × Sample)) (e : Nat)
    (h : e + l.length ≤ w.size) {i : Nat} (hi : i < l.length) :
    Memory.read (writeElements m w e l) (elementAddress w (e + i)) = l.getD i 0 := by
  induction l generalizing m e i with
  | nil => cases hi
  | cons v l ih =>
    rw [List.length_cons] at h hi
    cases i with
    | zero =>
      have hother (k : Nat) (hk : k < l.length) : elementAddress w e ≠ elementAddress w (e + 1 + k) := fun heq => by
        have := elementAddress_inj hw (by omega) (by omega) heq
        omega
      refine (read_writeElements_other w l _ (e + 1) hother).trans ?_
      exact (Memory.read_write _ _ _ _ (elementAddress_lt hw (by omega))).trans (if_pos rfl)
    | succ i =>
      have := ih (Memory.write m (w.address e) v) (e + 1) (by omega) (Nat.lt_of_succ_lt_succ hi)
      rw [Nat.add_right_comm] at this
      exact this

/-! ### Window Read (R40) -/

/-- What a Window Read of `m` elements answers from capture memory as it then stands. -/
def windowAnswer (w : Window) (m newest : Nat) (mem : List (Nat × Sample)) (copying : Bool) : Payload :=
  .windowRead
    { firstElement := w.cursor, count := m,
      samples := (List.range m).map fun i => Memory.read mem (elementAddress w (w.cursor + i)),
      newest := newest, wrapped := decide (m = elementsLeft w), copying := copying }

/-- The window with its cursor moved on over `m` of the elements that are left. -/
def windowMoved (w : Window) (m : Nat) : Window :=
  { w with cursor := if m = elementsLeft w then 0 else w.cursor + m }

theorem windowRead_badValue (p : Port) {n : Nat} (h : s.cac.window = none ∨ n = 0 ∨ 120 < n) :
    s.windowRead p n = s.answer p .badValue .none := by
  rw [State.windowRead]
  split
  · rfl
  · next w hw => exact if_pos (by rw [hw] at h; simp at h; omega)

/-- A Window Read in range, after the copy has been brought up to date where the window includes a snapshot column. -/
theorem windowRead_inRange {u : State} (p : Port) {n : Nat} {b : Bool} (hw : s.cac.window = some w) (hfit : windowFits w)
    (h1 : 1 ≤ n) (h2 : n ≤ 120) (hb : (copying s && w.touchesSnapshot) = b) (hu : (if b then s.copyByNow else s) = u) :
    s.windowRead p n =
      State.answer { u with cac.window := some (windowMoved w (min n (elementsLeft w))) } p .done
        (windowAnswer w (min n (elementsLeft w)) u.cac.newest u.cac.mem b) := by
  rw [State.windowRead, hw]
  dsimp only
  rw [if_neg (by omega), hb, hu]
  have hm := advance_eq hfit (Nat.min_le_right n (elementsLeft w))
  rw [show w.size - w.cursor = elementsLeft w from rfl, hm]
  rfl

/-- A copy brought up to this moment has written some of its columns, at least one a microsecond (R175, log 15). -/
theorem copyByNow_some {c : SnapshotCopy} (hc : s.wat.copy = some c) :
    ∃ k, k ≤ c.todo.length ∧ min (c.done + c.todo.length) (s.cac.count - c.began) ≤ c.done + k ∧
      s.copyByNow = { s.copyWrites c k with free := s.free + 1 } := by
  obtain ⟨hdone, htotal, hleast⟩ := columnsByNow_bounds s c
  refine ⟨columnsByNow s c - c.done, by omega, by omega, ?_⟩
  simp only [State.copyByNow, hc]

/-! ### Window Write (R41, R42) -/

theorem windowWrite_badValue (p : Port) {l : List Sample}
    (h : s.cac.window = none ∨ l = [] ∨ 120 < l.length ∨ ∃ w, s.cac.window = some w ∧ w.firstColumn < 7680) :
    s.windowWrite p l = s.answer p .badValue .none := by
  rw [State.windowWrite]
  split
  · rfl
  · next w hw =>
    refine if_pos ?_
    rw [hw] at h
    simpa [Config.snapshotFirst] using h

theorem windowWrite_busy (p : Port) {l : List Sample} (hw : s.cac.window = some w) (hne : l ≠ []) (hlen : l.length ≤ 120)
    (hcol : 7680 ≤ w.firstColumn) (h : s.wat.copy ≠ none ∨ serviceJobExists s = true) :
    s.windowWrite p l = s.answer p .busy .none := by
  rw [State.windowWrite, hw]
  dsimp only
  rw [if_neg (by simp [hne, hlen, hcol, Config.snapshotFirst]), if_pos]
  simpa [copying, Option.isSome_iff_ne_none] using h

theorem windowWrite_done (p : Port) {l : List Sample} (hw : s.cac.window = some w) (hne : l ≠ []) (hlen : l.length ≤ 120)
    (hcol : 7680 ≤ w.firstColumn) (hfit : windowFits w) (hcopy : s.wat.copy = none) (hjob : serviceJobExists s = false) :
    s.windowWrite p l =
      State.answer
        { s with
          cac.mem := writeElements s.cac.mem w w.cursor (l.take (min l.length (elementsLeft w)))
          cac.window := some (windowMoved w (min l.length (elementsLeft w))) }
        p .done (.windowWrite (min l.length (elementsLeft w)) (decide (min l.length (elementsLeft w) = elementsLeft w))) := by
  rw [State.windowWrite, hw]
  dsimp only
  rw [if_neg (by simp [hne, hlen, hcol, Config.snapshotFirst]), if_neg (by simp [copying, hcopy, hjob])]
  rw [show w.size - w.cursor = elementsLeft w from rfl, advance_eq hfit (Nat.min_le_right _ _)]
  rfl

/-- The elements that a Window Write fills hold its samples (R42). -/
theorem read_written (hfit : windowFits w) (m : List (Nat × Sample)) (l : List Sample) {i : Nat}
    (hi : i < min l.length (elementsLeft w)) :
    Memory.read (writeElements m w w.cursor (l.take (min l.length (elementsLeft w)))) (elementAddress w (w.cursor + i)) =
      l.getD i 0 := by
  have hlength : (l.take (min l.length (elementsLeft w))).length = min l.length (elementsLeft w) := by simp
  have hleft : elementsLeft w = w.size - w.cursor := rfl
  have hcursor : w.cursor < w.size := hfit.2.2.2.2
  rw [read_writeElements hfit _ m w.cursor (by omega) (by omega), List.getD_eq_getElem?_getD, List.getD_eq_getElem?_getD,
    List.getElem?_take, if_pos hi]

theorem read_unwritten (m : List (Nat × Sample)) (l : List Sample) {a : Nat}
    (h : ∀ i, i < min l.length (elementsLeft w) → a ≠ elementAddress w (w.cursor + i)) :
    Memory.read (writeElements m w w.cursor (l.take (min l.length (elementsLeft w)))) a = Memory.read m a :=
  read_writeElements_other w _ m w.cursor fun i hi => h i (by simp only [List.length_take] at hi; omega)

/-! ### Set Window (R38) -/

theorem windowOf_some {a b c d e : Nat} {o : WindowOrder} (hb : b < 20) (hd : d < 8192) (hab : a ≤ b) (hcd : c ≤ d)
    (ho : windowOrderOf e = some o) : windowOf a b c d e = some ⟨a, b, c, d, o, 0⟩ := by
  rw [windowOf, if_pos ⟨hb, hd, hab, hcd⟩, ho]
  rfl

theorem windowOf_none {a b c d e : Nat} (h : 20 ≤ b ∨ 8192 ≤ d ∨ b < a ∨ d < c ∨ 1 < e) : windowOf a b c d e = none := by
  rw [windowOf]
  split
  · next hr =>
    obtain ⟨hb, hd, hab, hcd⟩ := hr
    simp only [Config.rowCount, Config.columnCount] at hb hd
    match e with
    | 0 | 1 => omega
    | _ + 2 => rfl
  · rfl

end Sys2Proof.Machine

namespace Sys2Proof.Proofs

open Sys2Proof.Machine

theorem windowSetAndRead : WindowSetAndRead := by
  intro s p tag now
  refine ⟨fun a b c d e o hr => ⟨fun hb hd hab hcd ho => ?_, fun h => ?_⟩, fun n hr => ⟨fun h => ?_, fun w hw hfit h1 h2 => ?_⟩⟩
  · exact leadsTo_of_answer hr rfl rfl rfl rfl (by rw [windowOf_some hb hd hab hcd ho])
  · exact leadsTo_of_answer hr rfl rfl rfl rfl (by rw [windowOf_none h])
  · exact leadsTo_of_answer hr rfl rfl rfl rfl (windowRead_badValue p h)
  refine ⟨fun h => ?_, fun c hc hcol => ?_⟩
  · refine leadsTo_of_answer hr rfl rfl rfl rfl (windowRead_inRange (s := reached s now) (b := false) p hw hfit h1 h2 ?_ rfl)
    rcases h with h | h
    · rw [show copying (reached s now) = false from congrArg Option.isSome h, Bool.false_and]
    · rw [show w.touchesSnapshot = false from decide_eq_false (Nat.not_le.2 h), Bool.and_false]
  · obtain ⟨k, hk, hleast, hcopied⟩ := copyByNow_some (s := reached s now) hc
    have hseen : (copying (reached s now) && w.touchesSnapshot) = true := by
      rw [show copying (reached s now) = true from congrArg Option.isSome hc,
        show w.touchesSnapshot = true from decide_eq_true hcol, Bool.true_and]
    refine ⟨k, hk, hleast, columnsStand_writeColumns _ _, ?_⟩
    exact leadsTo_of_answer hr rfl rfl rfl rfl
      (windowRead_inRange (s := reached s now) p hw hfit h1 h2 hseen hcopied)

theorem windowWritten : WindowWritten := by
  intro s p tag now l hr
  refine ⟨fun h => ?_, fun w hw hne hlen hcol => ⟨fun h => ?_, fun hfit hcopy hjob => ?_⟩⟩
  · exact leadsTo_of_answer hr rfl rfl rfl rfl (windowWrite_badValue p h)
  · exact leadsTo_of_answer hr rfl rfl rfl rfl (windowWrite_busy p hw hne hlen hcol h)
  · refine ⟨_, leadsTo_of_answer hr rfl rfl ?_ rfl (windowWrite_done p hw hne hlen hcol hfit hcopy hjob), ?_, ?_, rfl⟩
    · rfl
    · exact fun i hi => read_written hfit _ l hi
    · exact fun a ha => read_unwritten _ l ha

/-- Settles O54: the elements of a window stand at different places (`elementAddress_inj`), so that what a Window Write puts into
one is read there and nowhere else (`read_written`, `read_unwritten`). -/
theorem windowRequests : Obligations.WindowRequests := ⟨windowSetAndRead, windowWritten⟩

end Sys2Proof.Proofs
end

