-- ==== Sys2Proof/Proofs/JobTaken.lean ====
section
/-! SUPPORT. Where an evaluation reads its samples (R51, R56), the take checks (R55) and the results they leave, and the proof of
O30. -/

namespace Sys2Proof.Machine

variable {s : State} {v : TakeValues} {read : Reader} {j : Job}

/-! ### The rows that are read -/

/-- The row of capture memory at a place among the ten of a track: rails 1 and 2, then the two sides. -/
def rowAt (t : Track) (i : Nat) : Nat :=
  match t with
  | .one => if i < 8 then i else i + 8
  | .two => if i < 8 then i + 8 else i + 10

theorem trackRows_getD (t : Track) : ∀ i, i < 10 → (trackRows t).getD i 0 = rowAt t i := by
  cases t <;> decide

theorem readerOf_live {n e x : Nat} {mem : List (Nat × Sample)} (h : j.owner = .live n e x) {i : Nat} (hi : i < 10) (k : Int) :
    readerOf mem j i k = Memory.read mem (cell (rowAt j.track i) (64 + k.toNat % 7616)) := by
  simp only [readerOf, h, trackRows_getD j.track i hi]
  rfl

theorem readerOf_service {p : Port} {c l o : Nat} {mem : List (Nat × Sample)} (h : j.owner = .service p c l o) {i : Nat}
    (hi : i < 10) (k : Int) :
    readerOf mem j i k = Memory.read mem (cell (rowAt j.track i) ((c : Int) + (k - o)).toNat) := by
  simp only [readerOf, h, trackRows_getD j.track i hi]

/-! ### Rails and sides -/

/-- The place of a rail's row `i` among the track's ten. -/
def railRow : Side → Nat → Nat
  | .one, i => i
  | .two, i => i + 4

theorem activeRows_nil_iff (v : TakeValues) (r : Side) :
    activeRows v r = [] ↔ ∀ i, i < 4 → v.gains.getD (railRow r i) 0 = 0 := by
  have hrows : railRows r = (List.range 4).map (railRow r) := by cases r <;> rfl
  simp [activeRows, hrows, List.filter_eq_nil_iff]

theorem activeRows_ne_nil_iff (v : TakeValues) (r : Side) :
    activeRows v r ≠ [] ↔ ∃ i, i < 4 ∧ v.gains.getD (railRow r i) 0 ≠ 0 := by
  rw [Ne, activeRows_nil_iff]
  push Not
  rfl

theorem railResult_absent {r : Side} (check : Option ValueClass) (h : activeRows v r = []) :
    railResult v read j check r = (blankRail .absent, none) := if_pos h

theorem railResult_evaluated {r : Side} (h : activeRows v r ≠ []) : railResult v read j none r = evalRail v read j r := if_neg h

theorem sideResult_checked (c : ValueClass) (sd : Side) :
    sideResult v read j (some c) sd = ⟨0, if v.gains.getD (sideRow sd) 0 = 0 then .absent else c⟩ := by
  simp only [sideResult]
  split <;> rfl

/-! ### The sample handed to the Watch Unit (R174) -/

theorem peakOf_both (h1 : activeRows v .one ≠ []) (h2 : activeRows v .two ≠ []) :
    peakOf (railResult v read j none .one) (railResult v read j none .two) =
      if (railResult v read j none .one).1.peak < (railResult v read j none .two).1.peak
      then (evalRail v read j .two).2 else (evalRail v read j .one).2 := by
  rw [railResult_evaluated h1, railResult_evaluated h2]
  rfl

theorem peakOf_first (h1 : activeRows v .one ≠ []) (h2 : activeRows v .two = []) :
    peakOf (railResult v read j none .one) (railResult v read j none .two) = (evalRail v read j .one).2 := by
  rw [railResult_evaluated h1, railResult_absent none h2]
  rfl

theorem peakOf_second (h1 : activeRows v .one = []) (h2 : activeRows v .two ≠ []) :
    peakOf (railResult v read j none .one) (railResult v read j none .two) = (evalRail v read j .two).2 := by
  rw [railResult_absent none h1, railResult_evaluated h2]
  rfl

theorem peakOf_neither (h1 : activeRows v .one = []) (h2 : activeRows v .two = []) :
    peakOf (railResult v read j none .one) (railResult v read j none .two) = none := by
  rw [railResult_absent none h1, railResult_absent none h2]
  rfl

/-! ### The take (R53 to R55) -/

/-- A live job whose bearing gate is no longer present. -/
abbrev GateGone (newest : Nat) (j : Job) : Prop := isLive j = true ∧ present newest j.bs = false

/-- The class that the take checks give the bearings of a job whose loads they leave to be evaluated. -/
def bearingCheck (newest : Nat) (j : Job) : Option ValueClass := if GateGone newest j then some .stale else none

/-- Neither slow nor too long, nor with a window overwritten: the take checks leave the loads to be evaluated. -/
theorem takeChecks_evaluated {newest : Nat} (hslow : j.speedClass ≠ .lowSpeed) (hlen : windowLength j ≤ 6000)
    (hls : isLive j = true → present newest j.ls = true) : takeChecks j newest = (none, bearingCheck newest j) := by
  rw [takeChecks, if_neg (not_or.2 ⟨hslow, Int.not_lt.2 hlen⟩), bearingCheck]
  cases ho : j.owner with
  | live n e x =>
    have hlive : isLive j = true := by simp only [isLive, ho]
    simp only [hls hlive, GateGone, hlive, Bool.true_eq_false, if_false, true_and]
    split <;> rfl
  | service p c l o =>
    have hlive : isLive j = false := by simp only [isLive, ho]
    simp only [GateGone, hlive, Bool.false_eq_true, false_and, if_false]

theorem evaluate_evaluated {mem : List (Nat × Sample)} {b : Option ValueClass} (h : takeChecks j v.newest = (none, b)) :
    evaluate mem v j =
      { rails := ⟨(railResult v (readerOf mem j) j none .one).1, (railResult v (readerOf mem j) j none .two).1⟩
        sides := ⟨sideResult v (readerOf mem j) j b .one, sideResult v (readerOf mem j) j b .two⟩
        peakSample := peakOf (railResult v (readerOf mem j) j none .one) (railResult v (readerOf mem j) j none .two) } := by
  simp only [evaluate, h]

theorem evaluate_rails {mem : List (Nat × Sample)} {b : Option ValueClass} (h : takeChecks j v.newest = (none, b)) (r : Side) :
    (evaluate mem v j).rails.get r = (railResult v (readerOf mem j) j none r).1 := by
  rw [evaluate_evaluated h]
  cases r <;> rfl

theorem evaluate_sides {mem : List (Nat × Sample)} {b : Option ValueClass} (h : takeChecks j v.newest = (none, b)) (sd : Side) :
    (evaluate mem v j).sides.get sd = sideResult v (readerOf mem j) j b sd := by
  rw [evaluate_evaluated h]
  cases sd <;> rfl

theorem nextJob_eq
    (h : s.aee.queue.find? (fun j => isLive j && j.ready) = some j ∨
      (s.aee.queue.find? (fun j => isLive j && j.ready) = none ∧
        s.aee.queue.find? (fun j => !isLive j && j.ready) = some j)) : nextJob s = some j := by
  rw [nextJob]
  rcases h with h | ⟨h, h'⟩
  · rw [h]; rfl
  · rw [h]; exact h'

theorem takeJob_evaluated {b : Option ValueClass} (hc : s.trs.errors = []) (h : takeChecks j s.cac.newest = (none, b)) :
    s.takeJob j =
      { s with
        aee :=
          { s.aee with
            queue := s.aee.queue.erase j
            inFlight := some ⟨j, takeValues s j, evaluate s.cac.mem (takeValues s j) j, false⟩
            stale := if b = some .stale then bump s.aee.stale else s.aee.stale } } := by
  have hchecks : takeChecks j (takeValues s j).newest = (none, b) := h
  simp only [State.takeJob, checkSettings_clean s _ hc, hchecks]
  rfl

theorem bearingCheck_stale (newest : Nat) (j : Job) : bearingCheck newest j = some .stale ↔ GateGone newest j := by
  unfold bearingCheck
  split
  · exact iff_of_true rfl ‹_›
  · exact iff_of_false nofun ‹_›

end Sys2Proof.Machine

namespace Sys2Proof.Proofs

open Sys2Proof.Machine

theorem samplesRead : SamplesRead := fun _ _ _ k hi =>
  ⟨fun _ _ _ ho _ => readerOf_live ho hi k, fun _ _ _ _ ho => readerOf_service ho hi k⟩

theorem engineTakes : EngineTakes := by
  intro s j hs hc hfree live service hnext hslow hlen hls take gone
  have hchecks := takeChecks_evaluated hslow hlen hls
  have htaken : exec .jobTake s = whenUp s (some (s.takeJob j)) := by
    refine congrArg (whenUp s) ?_
    rw [hfree, nextJob_eq hnext]
  refine ⟨_, rfl, leadsTo_of_eq htaken hs ?_, fun hg sd => ?_, fun hg sd => ?_, fun r h => ?_, fun r h => ?_, ?_⟩
  · rw [takeJob_evaluated hc hchecks]
    simp only [bearingCheck_stale]
    rfl
  · refine (evaluate_sides (v := take) hchecks sd).trans ?_
    rw [bearingCheck, if_pos hg, sideResult_checked]
    cases sd <;> rfl
  · refine (evaluate_sides (v := take) hchecks sd).trans ?_
    rw [bearingCheck, if_neg hg]
  · refine (evaluate_rails (v := take) hchecks r).trans ?_
    rw [railResult_absent none ((activeRows_nil_iff take r).2 h)]
    rfl
  · refine (evaluate_rails (v := take) hchecks r).trans ?_
    rw [railResult_evaluated ((activeRows_ne_nil_iff take r).2 h)]
  · intro evaluated peakAt
    have hpeak : (evaluate s.cac.mem take j).peakSample =
        peakOf (railResult take (readerOf s.cac.mem j) j none .one) (railResult take (readerOf s.cac.mem j) j none .two) := by
      rw [evaluate_evaluated hchecks]
    have hyes {r : Side} (h : evaluated r) : activeRows take r ≠ [] := (activeRows_ne_nil_iff take r).2 h
    have hno {r : Side} (h : ¬ evaluated r) : activeRows take r = [] :=
      not_not.1 fun hne => h ((activeRows_ne_nil_iff take r).1 hne)
    refine ⟨fun h1 h2 => ?_, fun h1 h2 => ?_, fun h1 h2 => ?_, fun h1 h2 => ?_⟩
    · rw [hpeak, peakOf_both (hyes h1) (hyes h2), evaluate_rails hchecks, evaluate_rails hchecks]
    · exact hpeak.trans (peakOf_first (hyes h1) (hno h2))
    · exact hpeak.trans (peakOf_second (hno h1) (hyes h2))
    · exact hpeak.trans (peakOf_neither (hno h1) (hno h2))

/-- Settles O30: the take checks leave the loads of such a job to be evaluated and class its bearings STALE exactly where its gate
is gone (`takeChecks_evaluated`); the values are those of the take by definition. -/
theorem jobTaken : Obligations.JobTaken := ⟨samplesRead, engineTakes⟩

end Sys2Proof.Proofs
end

/-! SUPPORT. A crossing against the open train's direction (R82 to R84), and the proof of O24. -/

namespace Sys2Proof.Machine

variable {s : State} {t : Track} {tr : Train}

/-- Two changes of an open train in a row: the second stands in the first one's place. -/
theorem onOpen_twice (ho : s.tas.opens.get t = some tr) (f g : Train → Train) :
    (s.onOpen t f).onOpen t g = { s with tas.opens := s.tas.opens.set t (some (g (f tr))) } := by
  have hf : (s.onOpen t f).tas.opens.get t = some (f tr) := by rw [onOpen_some ho]; exact Pair.get_set_same ..
  rw [onOpen_some hf, onOpen_some ho]
  simp only [Pair.set_set]

theorem handCrossing_reverse (ho : s.tas.opens.get t = some tr) (c : Crossing) (hd : c.dir ≠ tr.dir)
    (speed : Nat × ValueClass) : s.handCrossing t c speed = s.reverse t tr := by
  simp only [State.handCrossing, ho, if_neg hd]

/-- The job of an entry is a live job, so the mark of a job in flight asks for nothing more (R69). -/
theorem discardFlight_isJobFor (e : Nat) (f : InFlight) :
    discardFlight (isJobFor e) f = if isJobFor e f.job then { f with discard := true } else f := by
  have hlive (h : isJobFor e f.job = true) : isLive f.job = true := by
    unfold isJobFor at h
    unfold isLive
    split at h
    · rfl
    · cases h
  by_cases h : isJobFor e f.job = true
  · simp only [discardFlight, hlive h, h, Bool.and_self]
  · simp only [discardFlight, h, Bool.and_false]

theorem unwindJob_eq (s : State) (e : Nat) :
    s.unwindJob e =
      { s with
        aee.queue := s.aee.queue.filter fun j => !isJobFor e j
        aee.inFlight := s.aee.inFlight.map fun f => if isJobFor e f.job then { f with discard := true } else f } := by
  rw [State.unwindJob, funext (discardFlight_isJobFor e)]

/-- The newest axle unwound (R69, R83): its job is dealt with, it leaves the stack, and its entry is freed. -/
theorem unwind_some (ho : s.tas.opens.get t = some tr) (top : StackItem) :
    s.unwind t top =
      { s.unwindJob top.entry with
        tas.opens := s.tas.opens.set t (some { tr with stack := tr.stack.dropLast })
        trs.axles := drop s.trs.axles top.entry } := by
  have hjob : (s.unwindJob top.entry).tas.opens.get t = some tr := ho
  rw [State.unwind, onOpen_some hjob]
  rfl

/-! ### The three outcomes of a reverse crossing (R83) -/

theorem reverse_phantom (ho : s.tas.opens.get t = some tr) (hp : 0 < tr.phantoms) :
    s.reverse t tr =
      { s with
        tas.opens := s.tas.opens.set t (some { tr with unwinds := bump tr.unwinds, phantoms := tr.phantoms - 1 }) } := by
  rw [State.reverse, if_pos hp]
  exact onOpen_twice ho ..

theorem reverse_withdrawal (ho : s.tas.opens.get t = some tr) (hp : tr.phantoms = 0) (hl : tr.stack = []) :
    s.reverse t tr =
      { s with
        tas.opens := s.tas.opens.set t
          (some { tr with unwinds := bump tr.unwinds, withdrawals := bump tr.withdrawals }) } := by
  have htop : tr.stack.getLast? = none := by rw [hl, List.getLast?_nil]
  simp only [State.reverse, if_neg (show ¬ 0 < tr.phantoms by omega), htop]
  exact onOpen_twice ho ..

theorem reverse_unwind (ho : s.tas.opens.get t = some tr) (hp : tr.phantoms = 0) {l : List StackItem} {top : StackItem}
    (hl : tr.stack = l ++ [top]) :
    s.reverse t tr =
      { s.unwindJob top.entry with
        tas.opens := s.tas.opens.set t (some { tr with unwinds := bump tr.unwinds, stack := l })
        trs.axles := drop s.trs.axles top.entry } := by
  have htop : tr.stack.getLast? = some top := by rw [hl, List.getLast?_concat]
  have hrest : tr.stack.dropLast = l := by rw [hl, List.dropLast_concat]
  have hcounted : (s.onOpen t fun tr => { tr with unwinds := bump tr.unwinds }).tas.opens.get t =
      some { tr with unwinds := bump tr.unwinds } := by rw [onOpen_some ho]; exact Pair.get_set_same ..
  simp only [State.reverse, if_neg (show ¬ 0 < tr.phantoms by omega), htop]
  rw [unwind_some hcounted, onOpen_some ho]
  simp only [Pair.set_set, hrest]
  rfl

end Sys2Proof.Machine

namespace Sys2Proof.Proofs

open Sys2Proof.Machine

/-- Settles O24: the crossing is a reverse one (`handCrossing_reverse`), and R83's three cases are the three equations of
`State.reverse`; the freed entry is looked up by `look_drop`. -/
theorem reverseCrossing : Obligations.ReverseCrossing := by
  intro s t tr c speed ho hd u counted left isJob
  have hu : u = s.reverse t tr := handCrossing_reverse ho c hd speed
  refine ⟨fun hp => hu.trans (reverse_phantom ho hp), fun hp hl => hu.trans (reverse_withdrawal ho hp hl),
    fun l top hp hl => ?_⟩
  have hnext := hu.trans (reverse_unwind ho hp hl)
  have haxles : u.trs.axles = drop s.trs.axles top.entry := congrArg (fun v : State => v.trs.axles) hnext
  refine ⟨?_, fun k hk => ?_, ?_⟩
  · rw [haxles, look_drop, if_pos rfl]
  · rw [haxles, look_drop, if_neg hk]
  · rw [haxles, hnext, unwindJob_eq]
    rfl

end Sys2Proof.Proofs

/-! SUPPORT. CLOSE_TAKE (R95, R96) and grouping (R98, R99): axles run together into bogies and bogies into vehicles by one rule, with
the proofs of O35 and O16. -/

namespace Sys2Proof.Machine

/-! ### Runs -/

section Runs

variable {α : Type} {joins : α → Prop} {a b : α} {l : List α} {g : List α} {gs r : List (List α)}

/-- `r` cuts `l` into runs: an element joins the run of the one before it exactly where `joins` holds of it. -/
structure IsRuns (joins : α → Prop) (l : List α) (r : List (List α)) : Prop where
  flatten : r.flatten = l
  nonempty : ∀ g ∈ r, g ≠ []
  inside : ∀ g ∈ r, ∀ a ∈ g.tail, joins a
  between : ∀ g ∈ r.tail, ∀ a, g.head? = some a → ¬ joins a

namespace IsRuns

theorem nil : IsRuns joins [] [] := ⟨rfl, nofun, nofun, nofun⟩

theorem single : IsRuns joins [a] [[a]] :=
  ⟨rfl, by simp, by simp, nofun⟩

/-- The first run begins with the first element. -/
theorem head (h : IsRuns joins (b :: l) (g :: gs)) : g.head? = some b := by
  have hne := h.nonempty g (List.mem_cons_self ..)
  have hf := h.flatten
  cases g with
  | nil => exact absurd rfl hne
  | cons x t => simp only [List.flatten_cons, List.cons_append, List.cons.injEq] at hf; rw [List.head?_cons, hf.1]

theorem ne_nil (h : IsRuns joins (b :: l) r) : r ≠ [] := by
  rintro rfl
  exact absurd h.flatten (by simp)

/-- An element before one that joins it lengthens the first run. -/
theorem join (h : IsRuns joins (b :: l) (g :: gs)) (hb : joins b) : IsRuns joins (a :: b :: l) ((a :: g) :: gs) where
  flatten := by rw [← h.flatten]; rfl
  nonempty := by
    intro x hx
    rcases List.mem_cons.1 hx with rfl | hx
    · exact List.cons_ne_nil _ _
    · exact h.nonempty x (List.mem_cons_of_mem _ hx)
  inside := by
    intro x hx y hy
    rcases List.mem_cons.1 hx with rfl | hx
    · cases g with
      | nil => cases hy
      | cons z t =>
        obtain rfl : z = b := Option.some.inj h.head
        rcases List.mem_cons.1 hy with rfl | hy
        · exact hb
        · exact h.inside _ (List.mem_cons_self ..) y hy
    · exact h.inside x (List.mem_cons_of_mem _ hx) y hy
  between := h.between

/-- An element before one that does not join it is a run of its own. -/
theorem split (h : IsRuns joins (b :: l) (g :: gs)) (hb : ¬ joins b) : IsRuns joins (a :: b :: l) ([a] :: g :: gs) where
  flatten := by rw [← h.flatten]; rfl
  nonempty := by
    intro x hx
    rcases List.mem_cons.1 hx with rfl | hx
    · exact List.cons_ne_nil _ _
    · exact h.nonempty x hx
  inside := by
    intro x hx y hy
    rcases List.mem_cons.1 hx with rfl | hx
    · cases hy
    · exact h.inside x hx y hy
  between := by
    intro x hx y hy
    rcases List.mem_cons.1 hx with rfl | hx
    · rw [h.head] at hy
      cases hy
      exact hb
    · exact h.between x hx y hy

end IsRuns

end Runs

/-! ### Bogies and vehicles -/

theorem gapOf_eq (g : List HandAxle) : gapOf g = (g.head?.map fun a => a.axle.spacing).getD 0 := by
  cases g <;> rfl

/-- Bogies are the runs of axles whose spacing is at most B_max (R98). -/
theorem bogies_isRuns (bMax : Nat) (l : List HandAxle) : IsRuns (fun a => a.axle.spacing ≤ bMax) l (bogies bMax l) := by
  induction l with
  | nil => exact .nil
  | cons a l ih =>
    cases l with
    | nil => exact .single
    | cons b l =>
      unfold bogies
      cases hr : bogies bMax (b :: l) with
      | nil => exact absurd hr ih.ne_nil
      | cons g gs =>
        rw [hr] at ih
        dsimp only
        split
        · next hb => exact ih.join hb
        · next hb => exact ih.split hb

/-- Vehicles are the runs of bogies whose gap is at least V_min (R99). -/
theorem vehicles_isRuns (vMin : Nat) (l : List (List HandAxle)) :
    ∃ w, IsRuns (fun g => vMin ≤ gapOf g) l w ∧ vehicles vMin l = w.map List.flatten := by
  induction l with
  | nil => exact ⟨[], .nil, rfl⟩
  | cons g l ih =>
    obtain ⟨w, hw, heq⟩ := ih
    cases l with
    | nil => exact ⟨[[g]], .single, by simp [vehicles]⟩
    | cons g2 l =>
      cases w with
      | nil => exact absurd rfl hw.ne_nil
      | cons x ws =>
        unfold vehicles
        rw [heq, List.map_cons]
        dsimp only
        split
        · next hb => exact ⟨(g :: x) :: ws, hw.join hb, rfl⟩
        · next hb => exact ⟨[g] :: x :: ws, hw.split hb, by simp⟩

theorem vehicles_flatten (vMin : Nat) (l : List (List HandAxle)) : (vehicles vMin l).flatten = l.flatten := by
  obtain ⟨w, hw, heq⟩ := vehicles_isRuns vMin l
  rw [heq, ← hw.flatten, List.flatten_flatten]

theorem vehicles_nonempty (vMin : Nat) {l : List (List HandAxle)} (hl : ∀ g ∈ l, g ≠ []) : ∀ g ∈ vehicles vMin l, g ≠ [] := by
  obtain ⟨w, hw, heq⟩ := vehicles_isRuns vMin l
  intro g hg
  rw [heq] at hg
  obtain ⟨x, hx, rfl⟩ := List.mem_map.1 hg
  obtain ⟨y, hy⟩ := List.exists_mem_of_ne_nil x (hw.nonempty x hx)
  have hyl : y ∈ l := hw.flatten ▸ List.mem_flatten.2 ⟨x, hx, hy⟩
  exact fun h => hl y hyl (List.flatten_eq_nil_iff.1 h y hy)

/-! ### The cut of a vehicle list -/

/-- A cut vehicle list keeps every axle, where a vehicle is left to take them. -/
theorem mergeFrom_flatten (k : Nat) (vs : List (List HandAxle)) : (mergeFrom (k + 1) vs).flatten = vs.flatten := by
  simp only [mergeFrom]
  split
  · rfl
  · calc (vs.take k ++ [(vs.drop k).flatten]).flatten = (vs.take k).flatten ++ (vs.drop k).flatten := by simp
      _ = vs.flatten := by rw [← List.flatten_append, List.take_append_drop]

theorem mergeFrom_length (k : Nat) (vs : List (List HandAxle)) : (mergeFrom k vs).length = min vs.length k := by
  cases k with
  | zero => cases vs <;> rfl
  | succ k =>
    simp only [mergeFrom]
    split
    · next h => exact (Nat.min_eq_left h).symm
    · next h => simp only [List.length_append, List.length_take, List.length_singleton]; omega

/-- The vehicles before the last of a cut list stay as they are. -/
theorem mergeFrom_take (k : Nat) (vs : List (List HandAxle)) : (mergeFrom (k + 1) vs).take k = vs.take k := by
  simp only [mergeFrom]
  split
  · rfl
  · next h => rw [List.take_append_of_le_length (by simp; omega), List.take_take, Nat.min_self]

end Sys2Proof.Machine

namespace Sys2Proof.Proofs

open Sys2Proof.Machine

/-- Settles O35: where no word carries an error the take reads the settings as they stand, and `State.takeClosing` picks the train. -/
theorem closeTaken : Obligations.CloseTaken := by
  intro s c rest hs hc hop op
  refine ⟨fun hh => ?_, fun hh hl hj => ?_, fun hh hl hj => ?_⟩
  · refine leadsTo_of_eq (v := State.beginClose { s with rbu.handOver := rest } c true) ?_ hs ?_
    · simp only [exec, execCloseTake, hop, State.takeClosing, hh, List.isEmpty_cons, Bool.not_false]
    · rw [State.beginClose, checkSettings_clean _ _ (by exact hc)]
      rfl
  · refine leadsTo_of_eq (v := State.beginClose { s with tas.closing := rest } c false) ?_ hs ?_
    · simp only [exec, execCloseTake, hop, State.takeClosing, hh, hl, if_pos hj, List.isEmpty_nil, Bool.not_true]
    · rw [State.beginClose, checkSettings_clean _ _ (by exact hc)]
      rfl
  · simp only [exec, execCloseTake, hop, State.takeClosing, hh, hl, if_neg (Nat.ne_of_gt hj), whenUp_none]

/-- Settles O16: bogies are runs of axles and vehicles runs of bogies (`bogies_isRuns`, `vehicles_isRuns`), and the cut to 160 keeps
the axles (`mergeFrom_flatten`). -/
theorem groupingKeepsAxles : Obligations.GroupingKeepsAxles := by
  intro bMax vMin l gap b v
  have hb : IsRuns (fun a => a.axle.spacing ≤ bMax) l b := bogies_isRuns bMax l
  have hgap (g : List HandAxle) : gap g = gapOf g := (gapOf_eq g).symm
  obtain ⟨w, hw, hv⟩ : ∃ w, IsRuns (fun g => vMin ≤ gapOf g) b w ∧ v = w.map List.flatten := vehicles_isRuns vMin b
  have hflat : v.flatten = l := (vehicles_flatten vMin b).trans hb.flatten
  refine ⟨hb.flatten, fun g hg => ⟨hb.nonempty g hg, hb.inside g hg⟩, fun g hg => ?_,
    ⟨w, hw.flatten, hv, fun x hx => ⟨hw.nonempty x hx, fun g hg => ?_⟩, fun x hx g hg => ?_⟩, hflat,
    vehicles_nonempty vMin hb.nonempty, (mergeFrom_flatten 159 v).trans hflat, mergeFrom_length 160 v, mergeFrom_take 159 v⟩
  · cases g with
    | nil => exact absurd rfl (hb.nonempty [] (List.mem_of_mem_tail hg))
    | cons a t => exact Nat.lt_of_not_le (hb.between _ hg a rfl)
  · rw [hgap]; exact hw.inside x hx g hg
  · rw [hgap]; exact Nat.lt_of_not_le (hw.between x hx g hg)

end Sys2Proof.Proofs

/-! SUPPORT. The sums over a train's axles (R100 to R103), the close judgements (R104, R105) and the worst severities (R107), with the
proof of O17. -/

namespace Sys2Proof.Machine

/-! ### Sums over axles -/

/-- A sum that takes 0 outside a class is the sum over the class. -/
theorem sum_map_if {α : Type} (p : α → Prop) [DecidablePred p] (f : α → Nat) (l : List α) :
    (l.map fun a => if p a then f a else 0).sum = ((l.filter fun a => decide (p a)).map f).sum := by
  induction l with
  | nil => rfl
  | cons a l ih =>
    by_cases h : p a
    · simp [h, ih]
    · simp [h, ih]

theorem validSum_eq (r : Side) (l : List HandAxle) : validSum r l = (validLoads r l).sum :=
  sum_map_if _ _ l

theorem validSum_append (r : Side) (l l' : List HandAxle) : validSum r (l ++ l') = validSum r l + validSum r l' := by
  simp only [validSum, List.map_append, List.sum_append]

/-- The gross load of all axles is the sum of that of their groups (R102). -/
theorem gross_flatten (i : Nat) (vs : List (List HandAxle)) :
    validSum .one vs.flatten + validSum .two vs.flatten = (vs.map fun g => (vehicleOf i g).gross).sum := by
  induction vs with
  | nil => rfl
  | cons g vs ih =>
    have hg : (vehicleOf i g).gross = validSum .one g + validSum .two g := rfl
    simp only [List.flatten_cons, validSum_append, List.map_cons, List.sum_cons, hg]
    omega

theorem anyWheel_iff (p : ValueClass → Bool) (l : List HandAxle) :
    anyWheel p l = true ↔ ∃ a ∈ l, ∃ r, p (a.axle.rails.get r).loadClass = true := by
  simp only [anyWheel, List.any_eq_true, Bool.or_eq_true]
  constructor
  · rintro ⟨a, ha, h | h⟩
    · exact ⟨a, ha, .one, h⟩
    · exact ⟨a, ha, .two, h⟩
  · rintro ⟨a, ha, r, h⟩
    cases r
    · exact ⟨a, ha, .inl h⟩
    · exact ⟨a, ha, .inr h⟩

theorem natAbs_sub (a b : Nat) : ((a : Int) - b).natAbs = max a b - min a b := by omega

theorem imbalanceOf_le (a b : Nat) : imbalanceOf a b ≤ 1000 := by
  simp only [imbalanceOf]
  split
  · omega
  · exact Nat.div_le_of_le_mul (Nat.mul_le_mul_right 1000 (show max a b - min a b ≤ a + b by omega))

/-! ### Train totals -/

/-- The least of some numbers is one of them, and above none. -/
theorem leastOf_spec {l : List Nat} (h : l ≠ []) : leastOf l ∈ l ∧ ∀ x ∈ l, leastOf l ≤ x := by
  cases l with
  | nil => exact absurd rfl h
  | cons a l => exact List.min?_eq_some_iff.1 List.min?_cons'

/-- The greatest of some numbers is one of them, and below none. -/
theorem greatest_spec {l : List Nat} (h : l ≠ []) : l.foldl max 0 ∈ l ∧ ∀ x ∈ l, x ≤ l.foldl max 0 := by
  obtain ⟨hm, hge⟩ : l.foldl max 0 ∈ 0 :: l ∧ ∀ x ∈ 0 :: l, x ≤ l.foldl max 0 := List.max?_eq_some_iff.1 List.max?_cons'
  have hl : ∀ x ∈ l, x ≤ l.foldl max 0 := fun x hx => hge x (List.mem_cons_of_mem _ hx)
  refine ⟨?_, hl⟩
  rcases List.mem_cons.1 hm with h0 | hin
  · obtain ⟨x, hx⟩ := List.exists_mem_of_ne_nil l h
    have hx0 : l.foldl max 0 = x := Nat.le_antisymm (by rw [h0]; exact Nat.zero_le x) (hl x hx)
    rwa [hx0]
  · exact hin

/-- A wheel that counts as measured (R103). -/
def measuredWheel (c : ValueClass) : Nat := if c = .valid ∨ c = .over then 1 else 0

/-- Every wheel is measured or not, and each phantom has two that are not (R103). -/
theorem unmeasured_eq (l : List HandAxle) (phantoms : Nat) :
    unmeasured l phantoms + (l.map fun a =>
      measuredWheel (a.axle.rails.get .one).loadClass + measuredWheel (a.axle.rails.get .two).loadClass).sum =
    2 * (l.length + phantoms) := by
  induction l with
  | nil => simp [unmeasured]
  | cons a l ih =>
    have wheel (c : ValueClass) : (if c = .valid ∨ c = .over then 0 else 1) + measuredWheel c = 1 := by
      simp only [measuredWheel]
      split <;> rfl
    have h1 := wheel (a.axle.rails.get .one).loadClass
    have h2 := wheel (a.axle.rails.get .two).loadClass
    simp only [unmeasured, List.map_cons, List.sum_cons, List.length_cons] at ih ⊢
    omega

/-! ### Close judgements -/

theorem relativeJudgements_few {tr : Train} {sd : Side} {l : List HandAxle} (h : (validRises sd l).length < 4) :
    relativeJudgements tr sd l = [] := by
  have hm : sideMean sd l = none := if_pos h
  rw [relativeJudgements, hm]

/-- The axles whose bearing on a side is judged against the mean (R104). -/
def judgedBearing (sd : Side) (mean : Nat) (a : HandAxle) : Bool :=
  (a.axle.sides.get sd).cls == .over || ((a.axle.sides.get sd).cls == .valid && decide (mean ≤ (a.axle.sides.get sd).rise))

theorem relativeOf_eq (mean : Nat) (b : SideResult) :
    relativeOf mean b =
      if b.cls == .over || (b.cls == .valid && decide (mean ≤ b.rise)) then some (b.rise - mean, b.cls) else none := by
  obtain ⟨rise, cls⟩ := b
  cases cls <;> simp [relativeOf]

theorem relativeJudgements_enough {tr : Train} {sd : Side} {l : List HandAxle} (h : 4 ≤ (validRises sd l).length) :
    relativeJudgements tr sd l =
      (l.filter (judgedBearing sd ((validRises sd l).sum / (validRises sd l).length))).map fun a =>
        ⟨.axle a.entry, ⟨some tr.track, some tr.number, some a.axle.index, some sd, .bearingRelative⟩,
          (a.axle.sides.get sd).rise - (validRises sd l).sum / (validRises sd l).length, (a.axle.sides.get sd).cls⟩ := by
  have hm : sideMean sd l = some ((validRises sd l).sum / (validRises sd l).length) := if_neg (Nat.not_lt.2 h)
  rw [relativeJudgements, hm]
  generalize (validRises sd l).sum / (validRises sd l).length = mean
  dsimp only
  rw [← List.filterMap_eq_map, ← List.filterMap_eq_filter, List.filterMap_filterMap]
  refine List.filterMap_congr fun a _ => ?_
  rw [relativeOf_eq]
  by_cases hj : judgedBearing sd mean a = true
  · have hj' := hj
    unfold judgedBearing at hj'
    rw [if_pos hj', Option.guard, if_pos hj]
    rfl
  · have hj' := hj
    unfold judgedBearing at hj'
    rw [if_neg hj', Option.guard, if_neg hj]
    rfl

/-! ### Worst severities -/

/-- The higher of two severities is one of them and not below either. -/
theorem sevMax_cases (a b : Severity) :
    sevRank a ≤ sevRank (sevMax a b) ∧ sevRank b ≤ sevRank (sevMax a b) ∧ (sevMax a b = a ∨ sevMax a b = b) := by
  simp only [sevMax]
  split
  · exact ⟨by omega, Nat.le_refl _, .inr rfl⟩
  · exact ⟨Nat.le_refl _, by omega, .inl rfl⟩

theorem foldl_sevMax (l : List Severity) (w : Severity) :
    sevRank w ≤ sevRank (l.foldl sevMax w) ∧ (∀ x ∈ l, sevRank x ≤ sevRank (l.foldl sevMax w)) ∧
      (l.foldl sevMax w = w ∨ l.foldl sevMax w ∈ l) := by
  induction l generalizing w with
  | nil => exact ⟨Nat.le_refl _, nofun, .inl rfl⟩
  | cons a l ih =>
    obtain ⟨hw, ha, hone⟩ := sevMax_cases w a
    obtain ⟨h1, h2, h3⟩ := ih (sevMax w a)
    simp only [List.foldl_cons, List.mem_cons, forall_eq_or_imp]
    refine ⟨Nat.le_trans hw h1, ⟨Nat.le_trans ha h1, h2⟩, ?_⟩
    rcases h3 with h3 | h3
    · rcases hone with ho | ho
      · exact .inl (h3.trans ho)
      · exact .inr (.inl (h3.trans ho))
    · exact .inr (.inr h3)

theorem sevMaxAll_highest (l : List Severity) : Highest (sevMaxAll l) l :=
  ⟨(foldl_sevMax l .none).2.1, (foldl_sevMax l .none).2.2⟩

/-- The highest of some severities is that of the same ones in another order, NONE counted or not. -/
theorem Highest.congr {w : Severity} {l l' : List Severity} (h : Highest w l) (hsub : ∀ x ∈ l', x ∈ l)
    (hsup : ∀ x ∈ l, x ≠ .none → x ∈ l') : Highest w l' := by
  obtain ⟨hle, hmem⟩ := h
  refine ⟨fun x hx => hle x (hsub x hx), ?_⟩
  by_cases hw : w = .none
  · exact .inl hw
  · exact .inr (hsup w (hmem.resolve_left hw) hw)

end Sys2Proof.Machine

namespace Sys2Proof.Proofs

open Sys2Proof.Machine

theorem vehicleFields (i : Nat) (g : List HandAxle) : VehicleFields i g := by
  have hne (a b : Nat) (h : 0 < a + b) : imbalanceOf a b = ((a : Int) - b).natAbs * 1000 / (a + b) := by
    rw [imbalanceOf, if_neg (by omega), natAbs_sub]
  refine ⟨rfl, fun a ha => ?_, rfl, validSum_eq .one g, validSum_eq .two g, rfl, fun h => if_pos h, hne _ _,
    imbalanceOf_le _ _, ?_⟩
  · simp only [vehicleOf, ha, Option.map_some, Option.getD_some]
  · refine (anyWheel_iff (fun c => c != .valid) g).trans ?_
    simp only [bne_iff_ne]

theorem totalsFields (l : List HandAxle) (phantoms : Nat) : TotalsFields l phantoms := by
  refine ⟨rfl, fun h => ?_, fun h => ?_, fun bMax vMin i => ?_, fun hpos => ?_⟩
  · have hs : validSpeeds l = [] := h
    simp only [totalsOf, hs]
    exact ⟨rfl, rfl, rfl⟩
  · obtain ⟨hmin, hle⟩ := leastOf_spec h
    obtain ⟨hmax, hge⟩ := greatest_spec h
    exact ⟨hmin, hmax, fun v hv => ⟨hle v hv, hge v hv⟩, rfl⟩
  · have hflat : (mergeFrom 160 (vehicles vMin (bogies bMax l))).flatten = l := by
      rw [mergeFrom_flatten 159, vehicles_flatten, (bogies_isRuns bMax l).flatten]
    rw [← gross_flatten i, hflat]
    rfl
  · have hcount : (totalsOf l phantoms).axleCount = l.length + phantoms := rfl
    have hun := unmeasured_eq l phantoms
    rw [hcount] at hpos ⊢
    have heq : (totalsOf l phantoms).coverage = unmeasured l phantoms * 1000 / (2 * (l.length + phantoms)) := rfl
    refine ⟨?_, ?_⟩
    · rw [heq]
      congr 2
      exact Nat.eq_sub_of_add_eq hun
    · rw [heq]
      exact Nat.div_le_of_le_mul (Nat.mul_le_mul_right 1000 (by omega))

theorem relativeFields (tr : Train) (sd : Side) (l : List HandAxle) : RelativeFields tr sd l :=
  ⟨relativeJudgements_few, relativeJudgements_enough⟩

theorem worstFields (o : CloseOp) : WorstFields o := by
  refine ⟨fun i g => sevMaxAll_highest _, ?_⟩
  refine (sevMaxAll_highest _).congr (fun x hx => ?_) fun x hx hne => ?_
  all_goals
    simp only [severitiesOf, List.mem_append, List.mem_cons] at hx ⊢
    cases hr : o.closing.reason
    all_goals
      simp only [hr, reasonSeverity, List.mem_singleton, List.not_mem_nil, or_false] at hx ⊢
      tauto

/-- Settles O17: the fields are sums over a class of axles (`validSum_eq`, `gross_flatten`, `unmeasured_eq`), the judgements of a side
take the axles of `judgedBearing`, and `sevMaxAll` is the highest of its list. -/
theorem totalsAndJudgements : Obligations.TotalsAndJudgements :=
  ⟨vehicleFields, totalsFields, relativeFields, fun o => ⟨worstFields o, rfl⟩⟩

end Sys2Proof.Proofs

/-! SUPPORT. The pieces of a close operation where no word carries an error (R97 to R110): one equation per piece, and what the
requests for a header and for vehicle entries find, with the proof of O18. -/

namespace Sys2Proof.Machine

variable {s : State} {o : CloseOp}

/-! ### Room where none has to be made -/

theorem reclaim_room {room : State → Bool} (hr : room s = true) (n : Nat) : s.reclaim room n = s := by
  cases n with
  | zero => rfl
  | succ n => exact if_pos hr

theorem evictFor_room {room : State → Bool} (hr : room s = true) (n : Nat) : s.evictFor room n = s := by
  cases n with
  | zero => rfl
  | succ n => exact if_pos hr

/-- A request that has its room is served as the store stands (R123). -/
theorem makeRoom_room (h : s.trs.errors = []) {room : State → Bool} (hr : room s = true) : s.makeRoom room = s := by
  simp only [State.makeRoom, checkSetting_clean s _ h, reclaim_room hr, evictFor_room hr, ite_self]

theorem reclaim_held {room : State → Bool} (hk : ∀ r ∈ s.trs.records, r.holders.report = true ∨ r.holders.alarm = true)
    (n : Nat) : s.reclaim room n = s := by
  cases n with
  | zero => rfl
  | succ n =>
    have hf : s.trs.records.find? released = none := by
      refine List.find?_eq_none.2 fun r hr => ?_
      rcases hk r hr with h | h <;> simp [released, h]
    simp only [State.reclaim, hf, ite_self]

/-- Under KEEP_OLD with no record released nothing leaves the store (R125). -/
theorem makeRoom_kept (h : s.trs.errors = []) (room : State → Bool) (hold : s.setting itemRetentionPolicy = 1)
    (hk : ∀ r ∈ s.trs.records, r.holders.report = true ∨ r.holders.alarm = true) : s.makeRoom room = s := by
  have ho : keepOld s = true := by simp [keepOld, hold]
  simp only [State.makeRoom, checkSetting_clean s _ h, reclaim_held hk, ho, if_true]

/-! ### GROUPING -/

theorem asRead_eq (a : AxleEntry) : asRead a = usedEntry a := rfl

/-- GROUPING reads the next entry of the stack (R97). -/
theorem closePiece_reads (h : s.trs.errors = []) (ho : s.rbu.closeOp = some o) (hp : o.phase = .grouping) {i : StackItem}
    {rest : List StackItem} (hd : o.closing.train.stack.drop o.read.length = i :: rest) :
    s.closePiece = s.withOp
      { o with read := o.read ++ [⟨i.entry, usedEntry (s.axle i.entry)⟩], damaged := o.damaged || foundDamaged s i.entry } := by
  simp only [State.closePiece, ho, hp, hd, State.readNext, checkAxle_clean s _ _ h, asRead_eq]

/-- A merge at the limit of 160 vehicles counted, or none (R99). -/
def mergeCounted (s : State) (o : CloseOp) : State :=
  if mergedVehicles o then { s with rbu.truncated := bump s.rbu.truncated } else s

/-- GROUPING ends once the stack is read (R104). -/
theorem closePiece_groups (ho : s.rbu.closeOp = some o) (hp : o.phase = .grouping)
    (hd : o.closing.train.stack.drop o.read.length = []) :
    s.closePiece = (mergeCounted s o).withOp { o with phase := .judging, todo := closeJudgements o } := by
  simp only [State.closePiece, ho, hp, hd, State.endGrouping, mergeCounted]

/-! ### JUDGING -/

/-- The judgement that a close judgement comes to with the levels as they stand (R142). -/
def closeSaid (s : State) (j : CloseJudgement) : Judgement := judgedNow s j.key j.value j.cls

theorem judgeValue_clean (h : s.trs.errors = []) (key : AlarmKey) (value : Nat) (cls : ValueClass) :
    s.judgeValue key value cls = (s.enterAlarm (judgedNow s key value cls), (judgedNow s key value cls).severity) := by
  simp only [State.judgeValue, checkSettings_clean s _ h]
  rfl

/-- The part once a close judgement is entered and, for one about an axle, its mark raised (R106, R144). -/
def judgedClose (s : State) (j : CloseJudgement) : State :=
  match j.about with
  | .axle n =>
    if (closeSaid s j).severity = .none then s.enterAlarm (closeSaid s j)
    else (s.enterAlarm (closeSaid s j)).onAxle n (raiseMark j.key.kind (closeSaid s j).severity)
  | .vehicle _ | .train => s.enterAlarm (closeSaid s j)

theorem judgeClose_clean (h : s.trs.errors = []) (j : CloseJudgement) :
    s.judgeClose j = (judgedClose s j, (closeSaid s j).severity) := by
  simp only [State.judgeClose, judgedClose]
  cases j.about with
  | axle n =>
    simp only [State.judgeAxle, judgeValue_clean h]
    by_cases hn : (judgedNow s j.key j.value j.cls).severity = .none
    · rw [if_pos hn, if_pos (by exact hn)]
      rfl
    · rw [if_neg hn, if_neg (by exact hn), checkAxle_clean _ _ _ (enterAlarm_errors _ h)]
      rfl
  | vehicle _ => exact judgeValue_clean h _ _ _
  | train => exact judgeValue_clean h _ _ _

theorem enterAlarm_trs (h : s.trs.errors = []) (j : Judgement) : (s.enterAlarm j).trs = s.trs := by
  rw [enterAlarm_alone h]

theorem raiseMark_speedClass (k : AlarmKind) (sev : Severity) (a : AxleEntry) : (raiseMark k sev a).speedClass = a.speedClass := by
  cases k <;> rfl

theorem foundDamaged_onAxle {f : AxleEntry → AxleEntry} (hf : ∀ a, (f a).speedClass = a.speedClass) (m n : Nat) :
    foundDamaged (s.onAxle m f) n = foundDamaged s n := by
  have hl : look (s.onAxle m f).trs.axles n = if n = m then (look s.trs.axles n).map f else look s.trs.axles n :=
    look_adjust s.trs.axles m n f
  simp only [foundDamaged, State.axle, hl]
  split
  · cases look s.trs.axles n with
    | none => rfl
    | some a => simp only [Option.map_some, Option.getD_some, hf]
  · rfl

/-- A judgement makes no entry DAMAGED, and mends none. -/
theorem foundDamaged_judgedClose (h : s.trs.errors = []) (j : CloseJudgement) (n : Nat) :
    foundDamaged (judgedClose s j) n = foundDamaged s n := by
  have he : foundDamaged (s.enterAlarm (closeSaid s j)) n = foundDamaged s n := by
    simp only [foundDamaged, State.axle, enterAlarm_trs h]
  unfold judgedClose
  split
  · split
    · exact he
    · rw [foundDamaged_onAxle (raiseMark_speedClass _ _), he]
  · exact he
  · exact he

theorem damagedSubject_judgedClose (h : s.trs.errors = []) (j : CloseJudgement) :
    damagedSubject (judgedClose s j) j = damagedSubject s j := by
  simp only [damagedSubject, foundDamaged_judgedClose h]

/-- JUDGING hands one judgement on (R106). -/
theorem closePiece_judges (h : s.trs.errors = []) (ho : s.rbu.closeOp = some o) (hp : o.phase = .judging) {j : CloseJudgement}
    {rest : List CloseJudgement} (ht : o.todo = j :: rest) :
    s.closePiece = (judgedClose s j).withOp
      { o with
        phase := if rest = [] then .recording else .judging
        todo := rest
        returned := o.returned ++ [(j, (closeSaid s j).severity)]
        damaged := o.damaged || damagedSubject s j } := by
  simp only [State.closePiece, ho, hp, ht, State.handOn, judgeClose_clean h, damagedSubject_judgedClose h, List.isEmpty_iff]

/-- JUDGING with nothing left to hand on goes over to RECORDING. -/
theorem closePiece_judged (ho : s.rbu.closeOp = some o) (hp : o.phase = .judging) (ht : o.todo = []) :
    s.closePiece = s.withOp { o with phase := .recording } := by
  simp only [State.closePiece, ho, hp, ht]

/-! ### The header -/

/-- A header found FREE is allocated (R109). -/
theorem closePiece_header (h : s.trs.errors = []) (ho : s.rbu.closeOp = some o) (hp : o.phase = .recording) (hn : o.header = none)
    {k : Nat} (hk : lowestFree (s.makeRoom headerRoom).trs.headers Config.headerCount = some k) :
    s.closePiece =
      { s.makeRoom headerRoom with
        trs.headers := put (s.makeRoom headerRoom).trs.headers k .allocated
        rbu.closeOp := some { o with header := some k } } := by
  have hq : s.requestHeader = (s.makeRoom headerRoom, some k) := by rw [State.requestHeader, hk]
  simp only [State.closePiece, ho, hp, hn, State.takeHeader, hq, State.allocateHeader,
    cleanEntry_clean (s := { s.makeRoom headerRoom with trs.headers := put (s.makeRoom headerRoom).trs.headers k .allocated })
      (makeRoom_errors headerRoom h)]
  rfl

/-- A header request that fails is DISCARDED_FULL's own event; until then nothing is done (R109, R112). -/
theorem closePiece_noHeader (ho : s.rbu.closeOp = some o) (hp : o.phase = .recording) (hn : o.header = none)
    (hk : lowestFree (s.makeRoom headerRoom).trs.headers Config.headerCount = none) : s.closePiece = s := by
  have hq : s.requestHeader = (s.makeRoom headerRoom, none) := by rw [State.requestHeader, hk]
  simp only [State.closePiece, ho, hp, hn, State.takeHeader, hq]

/-! ### Vehicle entries -/

section Pool

variable {α : Type} {m : List (Nat × α)} {size : Nat}

theorem firstGap_le (l : List Nat) (k : Nat) : firstGap l k ≤ k + l.length := by
  induction l generalizing k with
  | nil => exact Nat.le_refl _
  | cons n l ih =>
    simp only [firstGap, List.length_cons]
    split
    · have := ih (k + 1)
      omega
    · omega

/-- A pool that is not full has a FREE place. -/
theorem lowestFree_some (hl : m.length < size) : ∃ k, lowestFree m size = some k := by
  have hg := firstGap_le (m.map (·.1)) 0
  rw [List.length_map] at hg
  exact ⟨_, if_pos (by omega)⟩

theorem length_put {n : Nat} (hn : look m n = none) (v : α) : (put m n v).length = m.length + 1 := by
  induction m with
  | nil => rfl
  | cons e l ih =>
    obtain ⟨k, w⟩ := e
    by_cases hk : k = n
    · simp [look, hk] at hn
    · rw [look, if_neg hk] at hn
      rw [put, if_neg (show ¬ n = k from fun he => hk he.symm)]
      split
      · rfl
      · simp only [List.length_cons, ih hn]

/-- `m'` is `m` with the values `l` put, in order, at the places `refs`, which were FREE and lie inside the pool. -/
structure PutAt (size : Nat) (m : List (Nat × α)) (l : List α) (refs : List Nat) (m' : List (Nat × α)) : Prop where
  length : refs.length = l.length
  nodup : refs.Nodup
  free : ∀ k ∈ refs, look m k = none ∧ k < size
  listed : ∀ (i k : Nat) (v : α), refs[i]? = some k → l[i]? = some v → look m' k = some v
  others : ∀ k, k ∉ refs → look m' k = look m k

theorem PutAt.nil : PutAt size m [] [] m := ⟨rfl, List.nodup_nil, nofun, nofun, fun _ _ => rfl⟩

/-- One value more, put first at a FREE place. -/
theorem PutAt.cons {m' : List (Nat × α)} {l : List α} {refs : List Nat} {k : Nat} {v : α} (hfree : look m k = none)
    (hk : k < size) (h : PutAt size (put m k v) l refs m') : PutAt size m (v :: l) (k :: refs) m' := by
  have hself : look (put m k v) k = some v := by rw [look_put, if_pos rfl]
  have hnot : k ∉ refs := fun hin => by
    have := (h.free k hin).1
    rw [hself] at this
    cases this
  have hother {n : Nat} (hn : n ≠ k) : look (put m k v) n = look m n := by rw [look_put, if_neg hn]
  refine ⟨congrArg (· + 1) h.length, List.nodup_cons.2 ⟨hnot, h.nodup⟩, fun n hn => ?_, fun i n w hi hw => ?_, fun n hn => ?_⟩
  · rcases List.mem_cons.1 hn with rfl | hin
    · exact ⟨hfree, hk⟩
    · obtain ⟨hf, hlt⟩ := h.free n hin
      exact ⟨(hother fun he => hnot (he ▸ hin)).symm.trans hf, hlt⟩
  · cases i with
    | zero =>
      cases hi
      cases hw
      exact (h.others k hnot).trans hself
    | succ i => exact h.listed i n w hi hw
  · obtain ⟨hne, hin⟩ := not_or.1 (mt List.mem_cons.2 hn)
    exact (h.others n hin).trans (hother hne)

end Pool

/-- As many vehicle entries as are FREE are taken in order, at FREE places (R110, R119). -/
theorem takeVehicles_clean (l : List VehicleEntry) (s : State) (h : s.trs.errors = []) (hp : poolFits s.trs.vehicles 1024)
    (hl : l.length ≤ 1024 - s.trs.vehicles.length) :
    ∃ m refs, PutAt 1024 s.trs.vehicles l refs m ∧ s.takeVehicles l = ({ s with trs.vehicles := m }, refs) := by
  induction l generalizing s with
  | nil => exact ⟨s.trs.vehicles, [], .nil, rfl⟩
  | cons v l ih =>
    rw [List.length_cons] at hl
    obtain ⟨k, hk⟩ : ∃ k, lowestFree s.trs.vehicles 1024 = some k := lowestFree_some (by omega)
    obtain ⟨hfree, hlt⟩ := lowestFree_free s.trs.vehicles 1024 k hp.1 hk
    have hlen := length_put hfree v
    obtain ⟨m, refs, hput, heq⟩ := ih { s with trs.vehicles := put s.trs.vehicles k v } h (poolFits_put hp hlt v)
      (by show l.length ≤ 1024 - (put s.trs.vehicles k v).length; omega)
    refine ⟨m, k :: refs, .cons hfree hlt hput, ?_⟩
    have hk' : lowestFree s.trs.vehicles Config.vehiclePoolSize = some k := hk
    simp only [State.takeVehicles, hk', cleanEntry_clean (s := { s with trs.vehicles := put s.trs.vehicles k v }) h, heq]

/-- The vehicles that entries are taken for, `left` of them being FREE (R110). -/
def groupsFor (left : Nat) (all : List (List HandAxle)) : List (List HandAxle) :=
  if left < all.length then mergeFrom left all else all

theorem groupsFor_length (left : Nat) (all : List (List HandAxle)) : (groupsFor left all).length = min all.length left := by
  unfold groupsFor
  split
  · exact mergeFrom_length left all
  · exact (Nat.min_eq_left (by omega)).symm

theorem vehicleEntries_get (o : CloseOp) (groups : List (List HandAxle)) (i : Nat) :
    (vehicleEntries o groups)[i]? =
      groups[i]?.map fun g => { vehicleOf (i + 1) g with worst := vehicleWorst o (i + 1) g } := by
  simp only [vehicleEntries, List.getElem?_map, List.getElem?_zipIdx, Option.map_map, Nat.add_comm 1 i]
  rfl

theorem vehicleEntries_length (o : CloseOp) (groups : List (List HandAxle)) : (vehicleEntries o groups).length = groups.length := by
  simp [vehicleEntries]

/-- The vehicle entries asked for: the store makes room, and the list is cut to the FREE ones where they are too few (R110). -/
theorem takeGroups_clean (h : s.trs.errors = []) {v : State} (hv : s.makeRoom (vehicleRoom (groupsOf o).length) = v)
    (hp : poolFits v.trs.vehicles 1024) :
    let left := 1024 - v.trs.vehicles.length
    let cut := decide (left < (groupsOf o).length)
    ∃ m refs, PutAt 1024 v.trs.vehicles (vehicleEntries o (groupsFor left (groupsOf o))) refs m ∧
      s.takeGroups o =
        { v with
          trs.vehicles := m
          rbu :=
            { v.rbu with
              closeOp := some { o with vehicles := some refs, cut := cut }
              truncated := if cut then bump v.rbu.truncated else v.rbu.truncated } } := by
  intro left cut
  have hc : v.trs.errors = [] := hv ▸ makeRoom_errors _ h
  have hfree : freeVehicles v = left := rfl
  have hlen : (vehicleEntries o (groupsFor left (groupsOf o))).length ≤ left := by
    rw [vehicleEntries_length, groupsFor_length]
    exact Nat.min_le_right ..
  have htaken (w : State) (ht : w.trs = v.trs) := takeVehicles_clean (vehicleEntries o (groupsFor left (groupsOf o))) w
    (by rw [ht]; exact hc) (by rw [ht]; exact hp) (by rw [ht]; exact hlen)
  simp only [State.takeGroups, hv, hfree]
  by_cases hcut : left < (groupsOf o).length
  · obtain ⟨m, refs, hput, heq⟩ := htaken { v with rbu.truncated := bump v.rbu.truncated } rfl
    refine ⟨m, refs, hput, ?_⟩
    rw [groupsFor, if_pos hcut] at heq
    simp only [cut, hcut, decide_true, if_true, heq]
    rfl
  · obtain ⟨m, refs, hput, heq⟩ := htaken v rfl
    refine ⟨m, refs, hput, ?_⟩
    rw [groupsFor, if_neg hcut] at heq
    simp only [cut, hcut, decide_false, Bool.false_eq_true, if_false, heq]
    rfl

theorem closePiece_groupsAsked (ho : s.rbu.closeOp = some o) (hp : o.phase = .recording) {k : Nat} (hk : o.header = some k)
    (hn : o.vehicles = none) : s.closePiece = s.takeGroups o := by
  simp only [State.closePiece, ho, hp, hk, hn]

end Sys2Proof.Machine

namespace Sys2Proof.Proofs

open Sys2Proof.Machine

/-- The last piece of RECORDING where the entries can be had or nothing leaves the store. -/
theorem vehiclesTaken {s : State} {o : CloseOp} (h : s.trs.errors = []) (ho : s.rbu.closeOp = some o) (hp : o.phase = .recording)
    (hh : o.header ≠ none) (hn : o.vehicles = none) (hpool : poolFits s.trs.vehicles 1024)
    (hroom : s.makeRoom (vehicleRoom (groupsOf o).length) = s) : VehiclesTaken s s.closePiece o := by
  obtain ⟨k, hk⟩ := Option.ne_none_iff_exists'.1 hh
  obtain ⟨m, refs, hput, heq⟩ := takeGroups_clean h hroom hpool
  rw [closePiece_groupsAsked ho hp hk hn, heq]
  refine ⟨refs, rfl, hput.length.trans (vehicleEntries_length _ _), hput.nodup, hput.free, fun i n g hi hg => ?_, hput.others, ?_,
    rfl, rfl, rfl, rfl⟩
  · refine hput.listed i n _ hi ?_
    have hg' : (groupsFor (1024 - s.trs.vehicles.length) (groupsOf o))[i]? = some g := hg
    rw [vehicleEntries_get, hg', Option.map_some]
  · simp only [decide_eq_true_eq]
    rfl

/-- Settles O18: each piece is one equation of `State.closePiece` (`closePiece_reads`, `closePiece_groups`, `closePiece_judges`,
`closePiece_header`, `vehiclesTaken`), and what they touch is `letClose_only`. -/
theorem closeWorkGoesOn : Obligations.CloseWorkGoesOn := by
  refine ⟨fun s => ⟨letClose_only s, letClose_none s, fun hop => ?_⟩, ?_⟩
  · obtain ⟨o, ho⟩ := Option.ne_none_iff_exists'.1 hop
    exact ⟨_, by simp only [State.letClose, ho]; rfl⟩
  intro s o h ho stack list
  refine ⟨fun hp => ⟨?_, ?_⟩, ?_, ?_, ?_⟩
  · intro i hi
    exact closePiece_reads h ho hp (List.drop_eq_getElem?_toList_append.trans (by rw [hi]; rfl))
  · intro hle
    rw [closePiece_groups ho hp (List.drop_eq_nil_iff.2 hle), mergeCounted]
    have hm : mergedVehicles o = decide (160 < list.length) := rfl
    rw [hm]
    by_cases hlt : 160 < list.length
    · simp only [hlt, decide_true, if_true]
      rfl
    · simp only [hlt, decide_false, Bool.false_eq_true, if_false]
      rfl
  · intro hp j rest ht
    exact (closePiece_judges h ho hp ht).trans rfl
  · intro hp hn
    refine ⟨fun k hk => ?_, fun hf hold hk => ?_⟩
    · have hroom : s.makeRoom headerRoom = s := makeRoom_room h (by rw [headerRoom]; exact (congrArg Option.isSome hk).trans rfl)
      have := closePiece_header h ho hp hn (k := k) (by rw [hroom]; exact hk)
      rwa [hroom] at this
    · exact closePiece_noHeader ho hp hn (by rw [makeRoom_kept h _ hold hk]; exact hf)
  · intro hp hh hn hpool hcan
    refine vehiclesTaken h ho hp hh hn hpool ?_
    rcases hcan with hle | ⟨hold, hk⟩
    · exact makeRoom_room h (decide_eq_true hle)
    · exact makeRoom_kept h _ hold hk

end Sys2Proof.Proofs

/-! SUPPORT. The work of a close operation up to RECORDING where no word carries an error: all entries read, all judgements handed on
(R97 to R106), and what its end then finds; with it the discard of a train (R112) and the proof of O37. -/

namespace Sys2Proof.Machine

variable {s u v w : State} {o o' : CloseOp}

/-! ### Pieces in a row -/

theorem closePieces_add (s : State) (m n : Nat) : s.closePieces (m + n) = (s.closePieces m).closePieces n := by
  induction m generalizing s with
  | zero => rw [Nat.zero_add]; rfl
  | succ m ih => rw [Nat.add_right_comm]; exact ih s.closePiece

/-- Where the next piece does nothing, no later one does. -/
theorem closePieces_still (h : s.closePiece = s) (n : Nat) : s.closePieces n = s := by
  induction n with
  | zero => rfl
  | succ n ih => rw [State.closePieces, h, ih]

theorem withOp_self (ho : s.rbu.closeOp = some o) : s.withOp o = s := by
  rw [State.withOp, ← ho]

/-- A close operation past GROUPING. -/
def pastGrouping (s : State) : Prop := ∀ o, s.rbu.closeOp = some o → o.phase ≠ .grouping

/-- Past GROUPING a piece hands on at most one judgement. -/
theorem closePiece_pastGrouping (hp : pastGrouping s) :
    pastGrouping s.closePiece ∧ judgementsLeft s ≤ judgementsLeft s.closePiece + 1 := by
  have set {t : State} {o o' : CloseOp} (ho : s.rbu.closeOp = some o) (hph : o'.phase ≠ .grouping)
      (hl : o.todo.length ≤ o'.todo.length + 1) :
      pastGrouping (t.withOp o') ∧ judgementsLeft s ≤ judgementsLeft (t.withOp o') + 1 := by
    refine ⟨?_, ?_⟩
    · rintro x ⟨⟩
      exact hph
    · simpa only [judgementsLeft, ho, State.withOp_rbu] using hl
  have same : pastGrouping s ∧ judgementsLeft s ≤ judgementsLeft s + 1 := ⟨hp, Nat.le_succ _⟩
  simp only [State.closePiece]
  split
  · exact same
  · next o ho =>
    split
    · next hg => exact absurd hg (hp o ho)
    · next hj =>
      split
      · next j rest ht =>
        refine set ho ?_ (by rw [ht]; exact Nat.le_refl _)
        dsimp only
        split <;> nofun
      · exact set ho nofun (Nat.le_succ _)
    · next hr =>
      split
      · simp only [State.takeHeader]
        split
        · exact set ho (by rw [hr]; nofun) (Nat.le_succ _)
        · exact same
      · exact set ho (by rw [hr]; nofun) (Nat.le_succ _)
      · exact same

theorem closePieces_pastGrouping (hp : pastGrouping s) (n : Nat) :
    judgementsLeft s ≤ judgementsLeft (s.closePieces n) + n := by
  induction n generalizing s with
  | zero => exact Nat.le_refl _
  | succ n ih =>
    obtain ⟨hnext, hle⟩ := closePiece_pastGrouping hp
    have := ih hnext
    rw [State.closePieces]
    omega

/-! ### What the work up to RECORDING leaves -/

/-- Work of a close operation that has come to `o` and asked the store for nothing: it changed marks of axle entries and alarms, and
made the count of cut vehicle lists `n`. -/
structure WorkedTo (s : State) (n : Nat) (o : CloseOp) (u : State) : Prop where
  only : CloseWorkOnly s u
  op : u.rbu.closeOp = some o
  truncated : u.rbu.truncated = n
  store : u.trs = { s.trs with axles := u.trs.axles }
  settings : u.settings = s.settings
  alarms : s.alm.list.length ≤ Config.alarmListSize → u.alm.list.length ≤ Config.alarmListSize
  damaged : ∀ k, foundDamaged u k = foundDamaged s k

namespace WorkedTo

variable {n m : Nat}

theorem errors (h : WorkedTo s n o u) (hc : s.trs.errors = []) : u.trs.errors = [] := by rw [h.store]; exact hc

theorem trans (h : WorkedTo s n o u) (k : WorkedTo u m o' v) : WorkedTo s m o' v where
  only := h.only.trans k.only
  op := k.op
  truncated := k.truncated
  store := by rw [k.store, h.store]
  settings := k.settings.trans h.settings
  alarms := k.alarms ∘ h.alarms
  damaged := fun x => (k.damaged x).trans (h.damaged x)

theorem refl (ho : s.rbu.closeOp = some o) : WorkedTo s s.rbu.truncated o s :=
  ⟨.refl s, ho, rfl, rfl, rfl, id, fun _ => rfl⟩

/-- The operation's own progress set. -/
theorem withOp (ho : s.rbu.closeOp = some o) (hc : o'.closing = o.closing) (he : o'.early = o.early) :
    WorkedTo s s.rbu.truncated o' (s.withOp o') :=
  ⟨withOp_only (.refl s) ho hc he, rfl, rfl, rfl, rfl, id, fun _ => rfl⟩

theorem setting (h : WorkedTo s n o u) (k : Nat) : u.setting k = s.setting k := by
  rw [State.setting, h.settings]
  rfl

theorem said (h : WorkedTo s n o u) (j : CloseJudgement) : closeSaid u j = closeSaid s j := by
  simp only [closeSaid, judgedNow, State.settingNat, h.setting]

theorem subject (h : WorkedTo s n o u) (j : CloseJudgement) : damagedSubject u j = damagedSubject s j := by
  simp only [damagedSubject, h.damaged]

end WorkedTo

/-! ### GROUPING -/

/-- A close operation once it has read some entries more (R97). -/
def withRead (s : State) (o : CloseOp) (l : List StackItem) : CloseOp :=
  { o with
    read := o.read ++ l.map fun i => ⟨i.entry, usedEntry (s.axle i.entry)⟩
    damaged := o.damaged || l.any fun i => foundDamaged s i.entry }

/-- Reading leaves the part alone but for the operation's own progress, so all that is unread is read as it stands. -/
theorem closePieces_read (h : s.trs.errors = []) (l : List StackItem) (o : CloseOp) (hp : o.phase = .grouping)
    (hd : o.closing.train.stack.drop o.read.length = l) :
    (s.withOp o).closePieces l.length = s.withOp (withRead s o l) := by
  induction l generalizing o with
  | nil => simp [State.closePieces, withRead]
  | cons i l ih =>
    have hrest : o.closing.train.stack.drop (o.read.length + 1) = l := by
      rw [← List.drop_drop, hd]
      rfl
    have hpiece : (s.withOp o).closePiece = s.withOp (withRead s o [i]) := by
      rw [closePiece_reads (s := s.withOp o) h rfl hp hd, withRead, List.any_cons, List.any_nil, Bool.or_false]
      rfl
    have hfin := ih (withRead s o [i]) hp (by
      show o.closing.train.stack.drop (o.read ++ [_]).length = l
      rw [List.length_append]
      exact hrest)
    rw [List.length_cons, State.closePieces, hpiece, hfin]
    simp only [withRead, List.append_assoc, Bool.or_assoc, List.map_cons, List.map_nil, List.any_cons, List.any_nil,
      Bool.or_false, List.cons_append, List.nil_append]

/-- A close operation past GROUPING: where it stood in it, with the rest of the stack read and its judgements formed. -/
def groupedOp (s : State) (o : CloseOp) : CloseOp :=
  if o.phase = .grouping then
    let r := withRead s o (o.closing.train.stack.drop o.read.length)
    { r with phase := .judging, todo := closeJudgements r }
  else o

/-- The count of cut vehicle lists past GROUPING (R99). -/
def groupedCount (s : State) (o : CloseOp) : Nat :=
  if o.phase = .grouping ∧ mergedVehicles (withRead s o (o.closing.train.stack.drop o.read.length)) = true then
    bump s.rbu.truncated
  else s.rbu.truncated

theorem mergeCounted_worked (ho : s.rbu.closeOp = some o) :
    WorkedTo s (if mergedVehicles o' = true then bump s.rbu.truncated else s.rbu.truncated) o (mergeCounted s o') := by
  unfold mergeCounted
  split
  · exact ⟨by constructor <;> rfl, ho, rfl, rfl, rfl, id, fun _ => rfl⟩
  · exact .refl ho

theorem grouped_worked (h : s.trs.errors = []) (ho : s.rbu.closeOp = some o) :
    ∃ a, a ≤ o.closing.train.stack.length + 1 ∧ WorkedTo s (groupedCount s o) (groupedOp s o) (s.closePieces a) := by
  by_cases hp : o.phase = .grouping
  · refine ⟨(o.closing.train.stack.drop o.read.length).length + 1, by rw [List.length_drop]; omega, ?_⟩
    generalize hr : withRead s o (o.closing.train.stack.drop o.read.length) = r
    have hread : s.closePieces (o.closing.train.stack.drop o.read.length).length = s.withOp r := by
      rw [← hr, ← closePieces_read h _ o hp rfl, withOp_self ho]
    have hdone : r.closing.train.stack.drop r.read.length = [] := by
      rw [← hr]
      exact List.drop_eq_nil_iff.2 (by simp only [withRead, List.length_append, List.length_map, List.length_drop]; omega)
    have hpr : r.phase = .grouping := by rw [← hr]; exact hp
    have hcl : r.closing = o.closing := by rw [← hr]; rfl
    have he : r.early = o.early := by rw [← hr]; rfl
    have hend : (s.withOp r).closePiece =
        (mergeCounted (s.withOp r) r).withOp { r with phase := .judging, todo := closeJudgements r } :=
      closePiece_groups rfl hpr hdone
    rw [closePieces_add, hread, State.closePieces, State.closePieces, hend, groupedCount, groupedOp, if_pos hp, hr]
    have hcount := mergeCounted_worked (s := s.withOp r) (o' := r) rfl
    have hset := WorkedTo.withOp (o' := { r with phase := .judging, todo := closeJudgements r }) hcount.op rfl rfl
    have hall := ((WorkedTo.withOp (o' := r) ho hcl he).trans hcount).trans hset
    rw [hcount.truncated] at hall
    simp only [hp, true_and]
    exact hall
  · refine ⟨0, Nat.zero_le _, ?_⟩
    rw [groupedCount, groupedOp, if_neg hp, if_neg (fun hc => hp hc.1)]
    exact .refl ho

/-! ### JUDGING -/

theorem judgedClose_worked (h : s.trs.errors = []) (ho : s.rbu.closeOp = some o) (j : CloseJudgement)
    (hc : o'.closing = o.closing) (he : o'.early = o.early) :
    WorkedTo s s.rbu.truncated o' ((judgedClose s j).withOp o') := by
  have hentered : (s.enterAlarm (closeSaid s j)).trs = s.trs := enterAlarm_trs h _
  have heq : judgedClose s j = (s.judgeClose j).1 := by rw [judgeClose_clean h]
  have halone : ∃ axles alm, judgedClose s j = { s with trs.axles := axles, alm := alm } := by
    unfold judgedClose
    split
    · split
      · exact ⟨s.trs.axles, _, enterAlarm_alone h _⟩
      · rw [enterAlarm_alone h]
        exact ⟨_, _, rfl⟩
    · exact ⟨s.trs.axles, _, enterAlarm_alone h _⟩
    · exact ⟨s.trs.axles, _, enterAlarm_alone h _⟩
  have hstore := judgeClose_store s j
  rw [← heq] at hstore
  refine ⟨withOp_only hstore.only ho hc he, rfl, ?_, ?_, ?_, hstore.alarms, fun k => foundDamaged_judgedClose h j k⟩
  all_goals
    obtain ⟨axles, alm, hj⟩ := halone
    rw [hj]
    rfl

/-- A close operation past JUDGING, with its judgements handed on (R106). -/
def judgedOp (s : State) (o : CloseOp) : CloseOp :=
  { o with
    phase := .recording
    todo := []
    returned := o.returned ++ o.todo.map fun j => (j, (closeSaid s j).severity)
    damaged := o.damaged || o.todo.any (damagedSubject s) }

/-- All judgements are handed on, each with the levels as they stand. -/
theorem closePieces_judge (l : List CloseJudgement) (h : s.trs.errors = []) (ho : s.rbu.closeOp = some o) (hp : o.phase = .judging)
    (hl : l ≠ []) (ht : o.todo = l) : WorkedTo s s.rbu.truncated (judgedOp s o) (s.closePieces l.length) := by
  induction l generalizing s o with
  | nil => exact absurd rfl hl
  | cons j rest ih =>
    rw [List.length_cons, State.closePieces, closePiece_judges h ho hp ht]
    have hone : WorkedTo s s.rbu.truncated _ _ := judgedClose_worked h ho j
      (o' := { o with
        phase := if rest = [] then .recording else .judging
        todo := rest
        returned := o.returned ++ [(j, (closeSaid s j).severity)]
        damaged := o.damaged || damagedSubject s j }) rfl rfl
    by_cases hr : rest = []
    · subst hr
      simpa only [judgedOp, ht, if_true, List.map_cons, List.map_nil, List.any_cons, List.any_nil, Bool.or_false,
        List.length_nil, State.closePieces] using hone
    · rw [if_neg hr] at hone ⊢
      have hall := hone.trans (ih (hone.errors h) hone.op rfl hr rfl)
      rw [hone.truncated] at hall
      simpa only [judgedOp, ht, List.map_cons, List.any_cons, List.append_assoc, List.cons_append, List.nil_append, Bool.or_assoc,
        hone.said, funext hone.subject] using hall

theorem judged_worked (h : s.trs.errors = []) (ho : s.rbu.closeOp = some o) (hp : o.phase ≠ .grouping)
    (hj : o.phase = .recording → o.todo = []) :
    ∃ b, b ≤ o.todo.length + 1 ∧ WorkedTo s s.rbu.truncated (judgedOp s o) (s.closePieces b) := by
  cases hph : o.phase with
  | grouping => exact absurd hph hp
  | judging =>
    by_cases ht : o.todo = []
    · refine ⟨1, Nat.le_add_left .., ?_⟩
      have hone := WorkedTo.withOp (o' := { o with phase := .recording }) ho rfl rfl
      rw [State.closePieces, State.closePieces, closePiece_judged ho hph ht]
      simpa only [judgedOp, ht, List.map_nil, List.append_nil, List.any_nil, Bool.or_false] using hone
    · exact ⟨o.todo.length, Nat.le_succ _, closePieces_judge o.todo h ho hph ht rfl⟩
  | recording =>
    have ht := hj hph
    have hself : judgedOp s o = o := by
      simp only [judgedOp, ht, List.map_nil, List.append_nil, List.any_nil, Bool.or_false]
      rw [← hph, ← ht]
    exact ⟨0, Nat.zero_le _, by rw [hself]; exact .refl ho⟩

/-! ### Up to RECORDING -/

/-- A close operation in RECORDING, all its entries read and all its judgements handed on. -/
def recordingOp (s : State) (o : CloseOp) : CloseOp := { finishedOp s o with phase := .recording, todo := [] }

theorem judgedOp_groupedOp {n : Nat} (hs : o.phase = .grouping ∨ OpSound o) (hw : WorkedTo s n (groupedOp s o) u) :
    judgedOp u (groupedOp s o) = recordingOp s o := by
  have hsaid : (fun j => (j, (closeSaid u j).severity)) = fun j => (j, (judgedNow s j.key j.value j.cls).severity) :=
    funext fun j => by rw [hw.said]; rfl
  have hsub : damagedSubject u = damagedSubject s := funext hw.subject
  by_cases hp : o.phase = .grouping
  · simp only [judgedOp, groupedOp, recordingOp, finishedOp, if_pos hp, hsaid, hsub]
    rfl
  · have hunread : o.closing.train.stack.drop o.read.length = [] := 
      List.drop_eq_nil_iff.2 (Nat.le_of_eq ((hs.resolve_left hp).grouped hp).symm)
    simp only [judgedOp, groupedOp, recordingOp, finishedOp, if_neg hp, hsaid, hsub, hunread, List.map_nil, List.append_nil,
      List.any_nil, Bool.or_false]
    rfl

theorem groupedOp_phase (s : State) (o : CloseOp) : (groupedOp s o).phase ≠ .grouping := by
  unfold groupedOp
  split
  · nofun
  · next hp => exact hp

/-- The rest of the work of a close operation, sound or still in GROUPING, leads into RECORDING, with two pieces or more left for its
two requests. -/
theorem finishPieces_recording (h : s.trs.errors = []) (ho : s.rbu.closeOp = some o) (hs : o.phase = .grouping ∨ OpSound o) :
    ∃ w m, WorkedTo s (groupedCount s o) (recordingOp s o) w ∧ s.finishPieces o = w.closePieces (m + 2) := by
  obtain ⟨a, ha, hgrouped⟩ := grouped_worked h ho
  have hleft : judgementsLeft (s.closePieces a) = (groupedOp s o).todo.length := by rw [judgementsLeft, hgrouped.op]
  have hpast : pastGrouping (s.closePieces a) := fun x hx => by
    rw [hgrouped.op] at hx
    cases hx
    exact groupedOp_phase s o
  have hjudged : (groupedOp s o).phase = .recording → (groupedOp s o).todo = [] := by
    unfold groupedOp
    split
    · nofun
    · next hp => exact (hs.resolve_left hp).judged
  obtain ⟨b, hb, hdone⟩ := judged_worked (hgrouped.errors h) hgrouped.op (groupedOp_phase s o) hjudged
  rw [judgedOp_groupedOp hs hgrouped, hgrouped.truncated] at hdone
  obtain ⟨p, hp⟩ : ∃ p, o.closing.train.stack.length + 1 = a + p := ⟨_, (Nat.add_sub_cancel' ha).symm⟩
  have hle := closePieces_pastGrouping hpast p
  have hrun : s.closePieces (o.closing.train.stack.length + 1) = (s.closePieces a).closePieces p := by rw [hp, closePieces_add]
  obtain ⟨m, hm⟩ : ∃ m, p + (judgementsLeft ((s.closePieces a).closePieces p) + 3) = b + (m + 2) :=
    ⟨p + (judgementsLeft ((s.closePieces a).closePieces p) + 3) - b - 2, by omega⟩
  refine ⟨_, m, hgrouped.trans hdone, ?_⟩
  rw [State.finishPieces, hrun, ← closePieces_add, hm, closePieces_add]

end Sys2Proof.Machine

/-! SUPPORT. The end of a close operation whose header request fails (R112): what a judgement leaves in the alarm list whether it is
entered or unlisted (R149 to R151), and the proof of O37. -/

namespace Sys2Proof.Machine

variable {s u w : State} {o : CloseOp}

/-! ### A judgement entered or unlisted -/

theorem lowestAlarm_some {l : List AlarmEntry} (h : l ≠ []) : ∃ low, lowestAlarm l = some low := by
  cases l with
  | nil => exact absurd rfl h
  | cons a l =>
    rw [lowestAlarm]
    split
    · split
      · exact ⟨_, rfl⟩
      · exact ⟨_, rfl⟩
    · exact ⟨_, rfl⟩

theorem lowestAlarm_le {l : List AlarmEntry} {low : AlarmEntry} (h : lowestAlarm l = some low) :
    ∀ a ∈ l, alarmScore low ≤ alarmScore a := by
  induction l generalizing low with
  | nil => cases h
  | cons x l ih =>
    rw [lowestAlarm] at h
    cases hl : lowestAlarm l with
    | none =>
      rw [hl] at h
      cases h
      cases l with
      | nil => simp
      | cons y l =>
        obtain ⟨b, hb⟩ := lowestAlarm_some (List.cons_ne_nil y l)
        rw [hb] at hl
        cases hl
    | some b =>
      rw [hl] at h
      have hb := ih hl
      simp only at h
      intro a ha
      split at h
      · next hlt =>
        cases h
        rcases List.mem_cons.1 ha with rfl | ha
        · omega
        · exact hb a ha
      · next hge =>
        cases h
        rcases List.mem_cons.1 ha with rfl | ha
        · exact Nat.le_refl _
        · exact Nat.le_trans (by omega) (hb a ha)

theorem stateRank_le (x : AlarmState) : stateRank x ≤ 2 := by cases x <;> decide

/-- The rank of the lowest entry's severity is the lowest (R151). -/
theorem lowestAlarm_severity {l : List AlarmEntry} {low : AlarmEntry} (h : lowestAlarm l = some low) {a : AlarmEntry} (ha : a ∈ l) :
    sevRank low.severity ≤ sevRank a.severity := by
  have hle := lowestAlarm_le h a ha
  have hs := stateRank_le a.state
  simp only [alarmScore] at hle
  omega

/-- An entry that a judgement has come into: of its key, with its value or a greater one, its severity or a higher one, and its reason
where the severity is its own. -/
structure EntryOf (j : Judgement) (a : AlarmEntry) : Prop where
  key : a.key = j.key
  value : j.value ≤ a.value
  severity : sevRank j.severity ≤ sevRank a.severity
  reason : a.severity = j.severity → a.reason = j.reason

theorem updatedBy_entryOf {a : AlarmEntry} {j : Judgement} (hk : a.key = j.key) (time : Stamp) : EntryOf j (updatedBy a j time) := by
  unfold updatedBy
  split
  · exact ⟨hk, Nat.le_max_right .., Nat.le_refl _, fun _ => rfl⟩
  · next hge =>
    split
    · next hne => exact ⟨hk, Nat.le_max_right .., Nat.not_lt.1 hge, fun he => absurd he hne⟩
    · split
      · exact ⟨hk, Nat.le_max_right .., Nat.not_lt.1 hge, fun _ => rfl⟩
      · exact ⟨hk, Nat.le_max_right .., Nat.not_lt.1 hge, fun _ => rfl⟩

theorem insertedAlarms_entryOf (s : State) (j : Judgement) : ∃ a ∈ (insertedAlarms s j).list, EntryOf j a :=
  ⟨_, List.mem_append_right _ (List.mem_singleton.2 rfl), rfl, Nat.le_refl _, Nat.le_refl _, fun _ => rfl⟩

theorem testNotice_unlisted (s : State) : s.testNotice.alm.unlisted = s.alm.unlisted := by
  simp only [State.testNotice]
  split <;> rfl

/-- A judgement comes into an entry of its key, or finds a full list whose every entry has a higher severity and is counted as unlisted
(R149 to R151). -/
theorem enterAlarm_listed_or_unlisted (h : s.trs.errors = []) (hlen : s.alm.list.length ≤ Config.alarmListSize) {j : Judgement}
    (hj : j.severity ≠ .none) :
    (∃ a ∈ (s.enterAlarm j).alm.list, EntryOf j a) ∨
      ((s.enterAlarm j).alm.list.length = 64 ∧ (∀ a ∈ (s.enterAlarm j).alm.list, sevRank j.severity < sevRank a.severity) ∧
        1 ≤ (s.enterAlarm j).alm.unlisted) := by
  by_cases hk : ∃ a ∈ s.alm.list, a.key = j.key
  · obtain ⟨a, ha, hak⟩ := hk
    rw [enterAlarm_listed h hj ⟨a, ha, hak⟩]
    exact .inl ⟨_, List.mem_map.2 ⟨a, ha, if_pos hak⟩, updatedBy_entryOf hak _⟩
  · have hany : ¬ (s.alm.list.any fun a => a.key == j.key) = true := by simpa using hk
    rw [enterAlarm_clean h hj, testNotice_list, testNotice_unlisted, State.enterListed, if_neg hany]
    split
    · rw [insertAlarm_clean h]
      exact .inl (insertedAlarms_entryOf s j)
    · next hfull =>
      have h64 : s.alm.list.length = 64 := Nat.le_antisymm hlen (Nat.not_lt.1 hfull)
      obtain ⟨low, hlow⟩ := lowestAlarm_some (l := s.alm.list) (List.ne_nil_of_length_pos (by omega))
      rw [hlow]
      dsimp only
      split
      · rw [insertAlarm_clean (by exact h)]
        exact .inl (insertedAlarms_entryOf _ j)
      · next hlt =>
        refine .inr ⟨h64, fun a ha => Nat.lt_of_lt_of_le (Nat.not_le.1 hlt) (lowestAlarm_severity hlow ha), ?_⟩
        show 1 ≤ min (s.alm.unlisted + 1) 65535
        omega

/-! ### The discard -/

theorem freeAll_look {α : Type} (m : List (Nat × α)) (l : List Nat) (k : Nat) :
    look (freeAll m l) k = if k ∈ l then none else look m k := by
  induction l generalizing m with
  | nil => rfl
  | cons n l ih =>
    have hcons : freeAll m (n :: l) = freeAll (drop m n) l := rfl
    rw [hcons, ih, look_drop]
    by_cases hl : k ∈ l
    · rw [if_pos hl, if_pos (List.mem_cons_of_mem _ hl)]
    · by_cases hn : k = n
      · rw [if_neg hl, if_pos hn, if_pos (hn ▸ List.mem_cons_self ..)]
      · rw [if_neg hl, if_neg hn, if_neg (fun hin => (List.mem_cons.1 hin).elim hn hl)]

/-- The part once its train's axle entries are freed (R112). -/
def axlesFreed (s : State) (o : CloseOp) : State :=
  { s with trs.axles := freeAll s.trs.axles (o.closing.train.stack.map StackItem.entry) }

/-- The alarms of a train, each with one record link. -/
def linked (l : List AlarmEntry) (train : Nat) (link : RecordLink) : List AlarmEntry :=
  l.map fun a => if a.key.train = some train then { a with link := link } else a

theorem linked_length (l : List AlarmEntry) (n : Nat) (x : RecordLink) : (linked l n x).length = l.length := List.length_map _

/-- A record link says nothing of an entry's key, severity, value or reason. -/
theorem linked_forall {p : AlarmEntry → Prop} (hp : ∀ a x, p a → p { a with link := x }) {l : List AlarmEntry} (n : Nat)
    (x : RecordLink) (h : ∀ a ∈ l, p a) : ∀ a ∈ linked l n x, p a := by
  intro a ha
  obtain ⟨b, hb, rfl⟩ := List.mem_map.1 ha
  split
  · exact hp b x (h b hb)
  · exact h b hb

theorem linked_exists {p : AlarmEntry → Prop} (hp : ∀ a x, p a → p { a with link := x }) {l : List AlarmEntry} (n : Nat)
    (x : RecordLink) (h : ∃ a ∈ l, p a) : ∃ a ∈ linked l n x, p a := by
  obtain ⟨b, hb, hpb⟩ := h
  refine ⟨_, List.mem_map.2 ⟨b, hb, rfl⟩, ?_⟩
  split
  · exact hp b x hpb
  · exact hpb

theorem linked_link (l : List AlarmEntry) (n : Nat) (x : RecordLink) : ∀ a ∈ linked l n x, a.key.train = some n → a.link = x := by
  intro a ha hk
  obtain ⟨b, hb, rfl⟩ := List.mem_map.1 ha
  split
  · rfl
  · next hne =>
    rw [if_neg hne] at hk
    exact absurd hk hne

/-- What a discard leaves (R112): the Alarm Unit with the train's loss entered, the entries freed, and no operation in flight. -/
theorem discardTrain_clean (h : s.trs.errors = []) :
    s.discardTrain o =
      let alm := ((axlesFreed s o).enterAlarm (discardAlarm o.closing.train (trainTotals o).axleCount)).alm
      { axlesFreed s o with
        alm := { alm with list := linked alm.list o.closing.train.number .none }
        rbu := { s.rbu with discardedFull := bump s.rbu.discardedFull, closeOp := none } } := by
  have halone := enterAlarm_alone (s := axlesFreed s o) h (discardAlarm o.closing.train (trainTotals o).axleCount)
  simp only [State.discardTrain]
  rw [show ({ s with trs.axles := freeAll s.trs.axles (o.closing.train.stack.map StackItem.entry) } : State) =
    axlesFreed s o from rfl, halone]
  rfl

theorem recordingOp_axleCount (s : State) (hs : OpSound o) :
    (trainTotals (recordingOp s o)).axleCount = o.closing.train.stack.length + o.closing.train.phantoms := by
  have hle := hs.read_le
  show (o.read ++ _).length + o.closing.train.phantoms = _
  rw [List.length_append, List.length_map, List.length_drop]
  omega

/-- DISCARDED_FULL falls where the header cannot be had (R112). -/
theorem discardedFull_leads {now m : Nat} (hs : s.startCheck = false) (ho : s.rbu.closeOp = some o)
    (hf : (s.advance now).finishPieces o = w.closePieces m) (hstill : w.closePiece = w) {o' : CloseOp} (hw : w.rbu.closeOp = some o')
    (hn : o'.header = none) (hroom : w.requestHeader = (w, none)) : LeadsTo (.discardedFull now) s (w.discardTrain o') := by
  refine leadsTo_of_whenUp ?_ hs
  have hfin : (s.advance now).finishPieces o = w := hf.trans (closePieces_still hstill m)
  simp only [exec, execDiscardedFull, ho, Option.bind_some, hfin, hw, hn, hroom]

end Sys2Proof.Machine

namespace Sys2Proof.Proofs

open Sys2Proof.Machine

/-- Settles O37: the work leads into RECORDING (`finishPieces_recording`), where under KEEP_OLD nothing leaves the store, so that the
header request fails and the train is discarded (`discardTrain_clean`); its loss is in the list or unlisted
(`enterAlarm_listed_or_unlisted`). -/
theorem trainDiscardedFull : Obligations.TrainDiscardedFull := by
  intro s o now hs hc hdist ho hsound hnone hold hfull hheld tr key
  obtain ⟨w, m, hw, hfin⟩ := finishPieces_recording (s := s.advance now) hc ho (.inr hsound)
  have hwc := hw.errors hc
  have hroom : w.makeRoom headerRoom = w := makeRoom_kept hwc _ ((hw.setting _).trans hold) (by rw [hw.store]; exact hheld)
  have hlow : lowestFree w.trs.headers Config.headerCount = none := by rw [hw.store]; exact hfull
  have hstill : w.closePiece = w := closePiece_noHeader hw.op rfl hnone (by rw [hroom]; exact hlow)
  have hrequest : w.requestHeader = (w, none) := by simp only [State.requestHeader, hroom, hlow]
  have hlead := discardedFull_leads hs ho hfin hstill hw.op hnone hrequest
  have hlen : w.alm.list.length ≤ Config.alarmListSize := hw.alarms hdist.size
  have hcount := recordingOp_axleCount (s.advance now) hsound
  have hentered := enterAlarm_listed_or_unlisted (s := axlesFreed w (recordingOp (s.advance now) o)) hwc hlen
    (j := discardAlarm tr (trainTotals (recordingOp (s.advance now) o)).axleCount) nofun
  rw [discardTrain_clean hwc] at hlead
  refine ⟨_, hlead, rfl, ?_, hw.only.made, fun i hi => ?_, ?_, ?_, ?_, linked_link _ _ _, ?_, hw.only.ts, hw.only.aee, hw.only.tas,
    hw.only.handOver, hw.only.wat, hw.settings, hw.only.ptu, hw.only.sup, hw.only.cac⟩
  · show bump w.rbu.discardedFull = _
    rw [hw.only.discarded]
    rfl
  · show look (freeAll w.trs.axles (tr.stack.map StackItem.entry)) i.entry = none
    rw [freeAll_look, if_pos (List.mem_map.2 ⟨i, hi, rfl⟩)]
  · show w.trs.records = s.trs.records
    rw [hw.store]
    rfl
  · show w.trs.headers = s.trs.headers
    rw [hw.store]
    rfl
  · show w.trs.vehicles = s.trs.vehicles
    rw [hw.store]
    rfl
  · rcases hentered with hin | ⟨h64, hstop, hcounted⟩
    · refine .inl ?_
      obtain ⟨a, ha, hk, hv, hsev, hr⟩ := linked_exists (p := EntryOf _) (fun a x ⟨hk, hv, hsev, hr⟩ => ⟨hk, hv, hsev, hr⟩)
        tr.number .none hin
      exact ⟨a, ha, hk, by rw [← hcount]; exact hv, hsev, hr⟩
    · refine .inr ⟨(linked_length _ _ _).trans h64, ?_, hcounted⟩
      refine linked_forall (fun _ _ h => h) _ _ fun a ha => ?_
      have hlt : sevRank .alert < sevRank a.severity := hstop a ha
      cases hsev : a.severity with
      | stop => rfl
      | none | watch | alert => rw [hsev] at hlt; exact absurd hlt (by decide)

end Sys2Proof.Proofs

/-! SUPPORT. The end of a close operation that makes a record (R108 to R111): what making room asks of a state, the header and the
vehicle entries taken, and the proof of O36. -/

namespace Sys2Proof.Machine

variable {s u v w : State} {o : CloseOp}

/-! ### What making room asks of a state -/

/-- What making room asks of the part: its records, vehicle entries, settings and counts, and its headers as far as `H` says; no word
carries an error. -/
structure SameStock (H : List (Nat × HeaderSlot) → List (Nat × HeaderSlot) → Prop) (s u : State) : Prop where
  clean : s.trs.errors = []
  errors : u.trs.errors = []
  records : u.trs.records = s.trs.records
  vehicles : u.trs.vehicles = s.trs.vehicles
  settings : u.settings = s.settings
  reclaims : u.trs.reclaims = s.trs.reclaims
  evictions : u.trs.evictions = s.trs.evictions
  headers : H s.trs.headers u.trs.headers

namespace SameStock

variable {H : List (Nat × HeaderSlot) → List (Nat × HeaderSlot) → Prop} {room : State → Bool}

theorem setting (h : SameStock H s u) (n : Nat) : u.setting n = s.setting n := by
  rw [State.setting, h.settings]
  rfl

/-- A record that leaves both leaves them alike. -/
theorem reclaimed (h : SameStock H s u) (hH : ∀ a b n, H a b → H (drop a n) (drop b n)) (r : RecordDir) :
    SameStock H { s.removeRecord r with trs.reclaims := bump (s.removeRecord r).trs.reclaims }
      { u.removeRecord r with trs.reclaims := bump (u.removeRecord r).trs.reclaims } where
  clean := h.clean
  errors := h.errors
  records := congrArg (List.filter fun x : RecordDir => x.number != r.number) h.records
  vehicles := congrArg (freeAll · r.vehicles) h.vehicles
  settings := h.settings
  reclaims := congrArg bump h.reclaims
  evictions := h.evictions
  headers := hH _ _ _ h.headers

theorem evicted (h : SameStock H s u) (hH : ∀ a b n, H a b → H (drop a n) (drop b n)) (r : RecordDir) :
    SameStock H (s.evict r) (u.evict r) := by
  have left {x : State} (hx : x.trs.errors = []) :
      (x.evict r).trs = { (x.removeRecord r).trs with evictions := bump (x.removeRecord r).trs.evictions } ∧
        (x.evict r).settings = x.settings := by
    have hc : ({ x.removeRecord r with trs.evictions := bump (x.removeRecord r).trs.evictions } : State).trs.errors = [] := hx
    simp only [State.evict, checkHeader_clean x _ _ hx]
    exact ⟨enterAlarm_trs hc _, enterAlarm_settings hc _⟩
  obtain ⟨hs, hsset⟩ := left h.clean
  obtain ⟨hu, huset⟩ := left h.errors
  refine ⟨evict_errors r h.clean, evict_errors r h.errors, ?_, ?_, by rw [hsset, huset, h.settings], ?_, ?_, ?_⟩
  all_goals rw [hs, hu]
  · exact congrArg (List.filter fun x : RecordDir => x.number != r.number) h.records
  · exact congrArg (freeAll · r.vehicles) h.vehicles
  · exact h.reclaims
  · exact congrArg bump h.evictions
  · exact hH _ _ _ h.headers

theorem reclaim (h : SameStock H s u) (hH : ∀ a b n, H a b → H (drop a n) (drop b n))
    (hroom : ∀ x y, SameStock H x y → room y = room x) (n : Nat) : SameStock H (s.reclaim room n) (u.reclaim room n) := by
  induction n generalizing s u with
  | zero => exact h
  | succ n ih =>
    simp only [State.reclaim, hroom s u h, h.records]
    split
    · exact h
    · split
      · exact ih (h.reclaimed hH _)
      · exact h

theorem evictFor (h : SameStock H s u) (hH : ∀ a b n, H a b → H (drop a n) (drop b n))
    (hroom : ∀ x y, SameStock H x y → room y = room x) (n : Nat) : SameStock H (s.evictFor room n) (u.evictFor room n) := by
  induction n generalizing s u with
  | zero => exact h
  | succ n ih =>
    simp only [State.evictFor, hroom s u h, h.records]
    split
    · exact h
    · split
      · exact ih (h.evicted hH _)
      · exact h

/-- Room is made alike in two such states for a request that asks nothing more of them. -/
theorem makeRoom (h : SameStock H s u) (hH : ∀ a b n, H a b → H (drop a n) (drop b n))
    (hroom : ∀ x y, SameStock H x y → room y = room x) : SameStock H (s.makeRoom room) (u.makeRoom room) := by
  have hkeep : keepOld u = keepOld s := by rw [keepOld, h.setting]; rfl
  have hreclaimed := h.reclaim hH hroom s.trs.records.length
  simp only [State.makeRoom, checkSetting_clean s _ h.clean, checkSetting_clean u _ h.errors, hkeep, h.records,
    hreclaimed.records]
  split
  · exact hreclaimed
  · exact hreclaimed.evictFor hH hroom _

end SameStock

/-- Two lists of headers alike but at one place. -/
def alikeBut (k : Nat) (a b : List (Nat × HeaderSlot)) : Prop := ∀ n, n ≠ k → look b n = look a n

theorem alikeBut_drop {k : Nat} (a b : List (Nat × HeaderSlot)) (m : Nat) (h : alikeBut k a b) : alikeBut k (drop a m) (drop b m) := by
  intro n hn
  rw [look_drop, look_drop, h n hn]

theorem alikeBut_put (k : Nat) (a : List (Nat × HeaderSlot)) (x : HeaderSlot) : alikeBut k a (put a k x) := by
  intro n hn
  rw [look_put, if_neg hn]

theorem SameStock.headerRoom (h : SameStock Eq s u) : SameStock Eq (s.makeRoom headerRoom) (u.makeRoom headerRoom) :=
  h.makeRoom (fun _ _ _ he => he ▸ rfl) fun _ _ h => by rw [Machine.headerRoom, ← h.headers]; rfl

theorem SameStock.vehicleRoom {k : Nat} (h : SameStock (alikeBut k) s u) (n : Nat) :
    SameStock (alikeBut k) (s.makeRoom (vehicleRoom n)) (u.makeRoom (vehicleRoom n)) :=
  h.makeRoom alikeBut_drop fun _ _ h => by rw [Machine.vehicleRoom, freeVehicles, h.vehicles]; rfl

theorem WorkedTo.sameStock {n : Nat} (h : WorkedTo s n o u) (hc : s.trs.errors = []) : SameStock Eq s u := by
  refine ⟨hc, h.errors hc, ?_, ?_, h.settings, ?_, ?_, ?_⟩
  all_goals rw [h.store]

theorem SameStock.but {k : Nat} (h : SameStock Eq s u) : SameStock (alikeBut k) s u :=
  { h with headers := fun _ _ => by rw [h.headers] }

theorem reclaim_rbu (s : State) (room : State → Bool) (n : Nat) : (s.reclaim room n).rbu = s.rbu := by
  induction n generalizing s with
  | zero => rfl
  | succ n ih =>
    simp only [State.reclaim]
    split
    · rfl
    · split
      · exact ih _
      · rfl

theorem evictFor_rbu (h : s.trs.errors = []) (room : State → Bool) (n : Nat) : (s.evictFor room n).rbu = s.rbu := by
  induction n generalizing s with
  | zero => rfl
  | succ n ih =>
    simp only [State.evictFor]
    split
    · rfl
    · split
      · next r _ =>
        rw [ih (evict_errors r h)]
        simp only [State.evict, checkHeader_clean s _ _ h]
        rw [enterAlarm_alone (by exact h)]
        rfl
      · rfl

/-- Making room is none of the Report Builder's. -/
theorem makeRoom_rbu (h : s.trs.errors = []) (room : State → Bool) : (s.makeRoom room).rbu = s.rbu := by
  simp only [State.makeRoom, checkSetting_clean s _ h]
  split
  · exact reclaim_rbu s room _
  · rw [evictFor_rbu (reclaim_errors room _ h), reclaim_rbu]

/-! ### The header and the vehicle entries -/

/-- The store once it has served the header request of a close operation, where one is still to be made (R109). -/
def headerStore (s : State) (o : CloseOp) : State := if o.header = none then s.makeRoom headerRoom else s

/-- The vehicles of a close operation, its work done (R99). -/
def closeGroups (s : State) (o : CloseOp) : List (List HandAxle) := groupsOf (finishedOp s o)

/-- The store once it has made room for the vehicle entries, where they are still to be asked for (R110). -/
def entryStore (s : State) (o : CloseOp) : State :=
  if o.vehicles = none then (headerStore s o).makeRoom (vehicleRoom (closeGroups s o).length) else headerStore s o

/-- Whether the vehicle list is cut, now or at an earlier request (R110). -/
def entriesCut (s : State) (o : CloseOp) : Bool :=
  if o.vehicles = none then decide (1024 - (entryStore s o).trs.vehicles.length < (closeGroups s o).length) else o.cut

/-- A close operation whose entries are all taken (R109, R110). -/
def readyOp (s : State) (o : CloseOp) (k : Nat) (refs : List Nat) : CloseOp :=
  { recordingOp s o with header := some k, vehicles := some refs, cut := entriesCut s o }

/-- A sound close operation at an event stamped `now`, with header `k` and vehicle entries `refs`: all that is left is to append the
record. -/
structure ReadyToRecord (s : State) (now : Nat) (o : CloseOp) (k : Nat) (refs : List Nat) (f : State) : Prop where
  only : CloseWorkOnly (s.advance now) f
  op : f.rbu.closeOp = some (readyOp s o k refs)
  truncated : f.rbu.truncated =
    if o.vehicles.isNone && entriesCut s o then bump (groupedCount s o) else groupedCount s o
  errors : f.trs.errors = []
  settings : f.settings = s.settings
  records : f.trs.records = (entryStore s o).trs.records
  reclaims : f.trs.reclaims = (entryStore s o).trs.reclaims
  evictions : f.trs.evictions = (entryStore s o).trs.evictions
  headers : alikeBut k (entryStore s o).trs.headers f.trs.headers
  kept : ∀ r, o.vehicles = some r → refs = r ∧ f.trs.vehicles = (entryStore s o).trs.vehicles
  taken : o.vehicles = none →
    PutAt 1024 (entryStore s o).trs.vehicles
      (vehicleEntries (finishedOp s o) (groupsFor (1024 - (entryStore s o).trs.vehicles.length) (closeGroups s o)))
      refs f.trs.vehicles

/-- Whether a header is allocated to a close operation or can be had. -/
def headerFor (s : State) (o : CloseOp) (k : Nat) : Prop :=
  o.header = some k ∨ (o.header = none ∧ lowestFree (headerStore s o).trs.headers Config.headerCount = some k)

/-- The header piece: the header is there, or the next piece allocates it. -/
theorem header_taken {now k n m : Nat} (hc : s.trs.errors = []) (hk : headerFor s o k)
    (hw : WorkedTo (s.advance now) n (recordingOp s o) w) :
    ∃ w1 m1, w.closePieces (m + 2) = w1.closePieces (m1 + 1) ∧ CloseWorkOnly (s.advance now) w1 ∧
      w1.rbu.closeOp = some { recordingOp s o with header := some k } ∧ w1.rbu.truncated = n ∧
      SameStock (alikeBut k) (headerStore s o) w1 := by
  have hstock : SameStock Eq s w := { hw.sameStock (s := s.advance now) hc with }
  rcases hk with hsome | ⟨hnone, hlow⟩
  · refine ⟨w, m + 1, rfl, hw.only, ?_, hw.truncated, ?_⟩
    · rw [hw.op, ← hsome]
      rfl
    · rw [headerStore, if_neg (by rw [hsome]; nofun)]
      exact hstock.but
  · rw [headerStore, if_pos hnone] at hlow ⊢
    have hroom := hstock.headerRoom
    have hpiece := closePiece_header hstock.errors hw.op rfl hnone (k := k) (by rw [← hroom.headers]; exact hlow)
    have honly := hw.only.trans (closePiece_only w)
    refine ⟨w.closePiece, m, rfl, honly, ?_, ?_, ?_⟩
    all_goals rw [hpiece]
    · show (w.makeRoom headerRoom).rbu.truncated = n
      rw [makeRoom_rbu hstock.errors, hw.truncated]
    · exact { hroom.but (k := k) with
        headers := fun x hx => by rw [hroom.headers]; exact alikeBut_put k _ _ x hx }

/-- The vehicle entries are there, or the next piece takes them. -/
theorem finishPieces_ready {now k : Nat} (hc : s.trs.errors = []) (ho : s.rbu.closeOp = some o) (hs : OpSound o)
    (hpool : poolFits s.trs.vehicles 1024) (hk : headerFor s o k) :
    ∃ f refs, ReadyToRecord s now o k refs f ∧ (s.advance now).finishPieces o = f := by
  obtain ⟨w, m, hw, hfin⟩ := finishPieces_recording (s := s.advance now) hc ho (.inr hs)
  obtain ⟨w1, m1, hrun, honly, hop, htrunc, hstock⟩ := header_taken (m := m) hc hk hw
  have settled {f : State} {refs : List Nat} (hf : ReadyToRecord s now o k refs f) (j : Nat) : f.closePieces j = f :=
    closePieces_still (by simp only [State.closePiece, hf.op, readyOp, recordingOp]) j
  rw [hfin, hrun]
  cases hv : o.vehicles with
  | some r =>
    have hready : ReadyToRecord s now o k r w1 := by
      have hcut : entriesCut s o = o.cut := if_neg (by rw [hv]; nofun)
      have hstore : entryStore s o = headerStore s o := if_neg (by rw [hv]; nofun)
      refine ⟨honly, ?_, ?_, hstock.errors, ?_, ?_, ?_, ?_, ?_, ?_, fun hn => by rw [hv] at hn; cases hn⟩
      · rw [hop, readyOp, hcut, ← hv]
        rfl
      · rw [htrunc, hv]
        rfl
      · rw [hstock.settings, headerStore]
        split
        · exact makeRoom_settings hc _
        · rfl
      · rw [hstore, hstock.records]
      · rw [hstore, hstock.reclaims]
      · rw [hstore, hstock.evictions]
      · rw [hstore]
        exact hstock.headers
      · intro r' hr'
        rw [hv] at hr'
        cases hr'
        exact ⟨rfl, by rw [hstore, hstock.vehicles]⟩
    exact ⟨w1, r, hready, settled hready _⟩
  | none =>
    have hstore : entryStore s o = (headerStore s o).makeRoom (vehicleRoom (closeGroups s o).length) := if_pos hv
    have hcut : entriesCut s o = decide (1024 - (entryStore s o).trs.vehicles.length < (closeGroups s o).length) := if_pos hv
    have hroom : SameStock (alikeBut k) (entryStore s o) (w1.makeRoom (vehicleRoom (closeGroups s o).length)) := by
      rw [hstore]
      exact hstock.vehicleRoom _
    have hfits : poolFits (entryStore s o).trs.vehicles 1024 := by
      rw [hstore]
      refine (makeRoom_store _ _).vehicles ?_
      unfold headerStore
      split
      · exact (makeRoom_store s _).vehicles hpool
      · exact hpool
    have hsettings : (entryStore s o).settings = s.settings := by
      rw [hstore, makeRoom_settings hstock.clean, headerStore]
      split
      · exact makeRoom_settings hc _
      · rfl
    have hgroups : groupsOf { recordingOp s o with header := some k } = closeGroups s o := rfl
    obtain ⟨pool, refs, hput, heq⟩ := takeGroups_clean (s := w1) (o := { recordingOp s o with header := some k }) hstock.errors rfl
      (by rw [hgroups, hroom.vehicles]; exact hfits)
    have hpiece : w1.closePiece = w1.takeGroups { recordingOp s o with header := some k } :=
      closePiece_groupsAsked hop rfl rfl hv
    simp only [hgroups, hroom.vehicles] at hput heq
    rw [← hcut] at heq
    have hready : ReadyToRecord s now o k refs w1.closePiece := by
      have honly' := honly.trans (closePiece_only w1)
      rw [hpiece, heq] at honly' ⊢
      refine ⟨honly', rfl, ?_, hroom.errors, hroom.settings.trans hsettings, hroom.records, hroom.reclaims, hroom.evictions,
        hroom.headers, fun r hr => (by rw [hv] at hr; cases hr), fun _ => hput⟩
      simp only [makeRoom_rbu hstock.errors, htrunc, hv, Option.isNone_none, Bool.true_and]
      rfl
    exact ⟨_, refs, hready, settled hready _⟩

/-! ### The record -/

/-- The directory entry of the record of a close operation (R111, R118). -/
def recordOf (s : State) (o : CloseOp) (k : Nat) (refs : List Nat) : RecordDir :=
  ⟨o.closing.train.number, o.closing.train.track, holdersFor s (trainWorst o), k, o.closing.train.stack.map (·.entry), refs⟩

/-- The record appended (R111): its header written, its place at the end of the order, its alarms' links PRESENT. -/
theorem makeRecord_clean (h : s.trs.errors = []) (o : CloseOp) (k : Nat) (refs : List Nat) :
    s.makeRecord o k refs =
      { s with
        trs :=
          { s.trs with
            headers := put s.trs.headers k (.record (headerOf o refs.length))
            records := s.trs.records ++ [recordOf s o k refs] }
        rbu := { s.rbu with made := bump s.rbu.made, closeOp := none }
        alm := { s.alm with list := linked s.alm.list o.closing.train.number .present } } := by
  simp only [State.makeRecord, checkSettings_clean s _ h]
  rw [cleanEntry_clean (by exact h)]
  rfl

/-- The severity that AlarmHoldLevel names has the rank of its code (R196). -/
theorem holdLevel_rank (h : s.settingNat itemAlarmHoldLevel ≤ 3) : sevRank (holdLevel s) = s.settingNat itemAlarmHoldLevel := by
  unfold holdLevel
  generalize s.settingNat itemAlarmHoldLevel = n at h ⊢
  match n with
  | 0 | 1 | 2 | 3 => rfl
  | n + 4 => omega

theorem sevRank_eq_zero (x : Severity) : x = .none ↔ sevRank x = 0 := by cases x <;> simp [sevRank]

/-- ALARM is held where AlarmHoldLevel is not NONE and the worst severity reaches it (R120). -/
theorem holdersFor_alarm (h : s.settingNat itemAlarmHoldLevel ≤ 3) (worst : Severity) :
    (holdersFor s worst).alarm = true ↔
      s.settingNat itemAlarmHoldLevel ≠ 0 ∧ s.settingNat itemAlarmHoldLevel ≤ sevRank worst := by
  simp only [holdersFor, Bool.and_eq_true, bne_iff_ne, ne_eq, decide_eq_true_eq, sevRank_eq_zero, holdLevel_rank h]

theorem headerOf_ready {k : Nat} {refs : List Nat} (hs : OpSound o) :
    HeaderOf (finishedOp s o) refs.length (mergedVehicles (finishedOp s o)) (entriesCut s o)
      (headerOf (readyOp s o k refs) refs.length) :=
  ⟨rfl, rfl, rfl, rfl, rfl, rfl, recordingOp_axleCount s hs, rfl, rfl, rfl, rfl, rfl, rfl, rfl, rfl, rfl, rfl, rfl, rfl⟩

theorem groupedCount_eq (s : State) (o : CloseOp) :
    groupedCount s o =
      if (o.phase == .grouping && mergedVehicles (finishedOp s o)) = true then min (s.rbu.truncated + 1) 65535
      else s.rbu.truncated := by
  simp only [groupedCount, Bool.and_eq_true, beq_iff_eq]
  rfl

/-- RECORD_APPEND falls where the header and the vehicle entries are there (R111). -/
theorem recordAppend_leads {now k : Nat} {refs : List Nat} {f : State} (hs : s.startCheck = false) (ho : s.rbu.closeOp = some o)
    (hf : ReadyToRecord s now o k refs f) (hfin : (s.advance now).finishPieces o = f) :
    LeadsTo (.recordAppend now) s
      (f.makeRecord (readyOp s o k refs) k refs) := by
  refine leadsTo_of_whenUp ?_ hs
  simp only [exec, execRecordAppend, ho, Option.bind_some, hfin, hf.op, readyOp]

end Sys2Proof.Machine

namespace Sys2Proof.Proofs

open Sys2Proof.Machine

/-- Settles O36: the work leads into RECORDING and on to the header and the vehicle entries (`finishPieces_ready`), which the store gives
as it would have at the beginning (`SameStock`); then the record is appended (`makeRecord_clean`). -/
theorem recordMade : Obligations.RecordMade := by
  intro s o k now hs hc ho hsound hheaders hpool tr w list all withHeader v left cut groups counted hk
  obtain ⟨f, refs, hf, hfin⟩ := finishPieces_ready (now := now) hc ho hsound hpool hk
  have hlead := recordAppend_leads hs ho hf hfin
  rw [makeRecord_clean hf.errors] at hlead
  have hset (n : Nat) : f.setting n = s.setting n := by rw [State.setting, hf.settings]; rfl
  have hlevel : f.settingNat itemAlarmHoldLevel = s.settingNat itemAlarmHoldLevel := congrArg Int.toNat (hset _)
  refine ⟨_, recordOf f (readyOp s o k refs) k refs, headerOf (readyOp s o k refs) refs.length, hlead, rfl,
    congrArg bump hf.only.made, ?_, congrArg (· ++ _) hf.records, rfl, rfl, rfl, rfl, ?_, fun n hn => ?_,
    headerOf_ready hsound, fun r hr => ?_, fun hn => ?_, ?_, fun hle => ?_, linked_link _ _ _, hf.reclaims, hf.evictions, hf.errors,
    hf.only.ts, hf.only.aee, hf.only.tas, hf.only.handOver, hf.only.discarded, hf.only.wat, hf.settings, hf.only.ptu, hf.only.sup,
    hf.only.cac⟩
  · show f.rbu.truncated = _
    rw [hf.truncated, groupedCount_eq]
    rfl
  · exact (look_put _ _ _ _).trans (if_pos rfl)
  · exact (alikeBut_put k _ _ n hn).trans (hf.headers n hn)
  · obtain ⟨hrefs, hvehicles⟩ := hf.kept r hr
    exact ⟨hrefs, fun n => congrArg (look · n) hvehicles⟩
  · have hput := hf.taken hn
    refine ⟨hput.length.trans (vehicleEntries_length _ _), hput.nodup, hput.free, fun i n g hi hg => ?_, hput.others⟩
    exact hput.listed i n _ hi ((vehicleEntries_get _ _ i).trans (congrArg (Option.map _) hg))
  · show (f.setting itemReportHolder == 1) = true ↔ _
    rw [hset, beq_iff_eq]
  · rw [← hlevel] at hle ⊢
    exact holdersFor_alarm hle _

end Sys2Proof.Proofs

/-! SUPPORT. The one word in error of a stored entry, found by a checked read (R131 to R133): whose entry it is, and one equation per
kind of word. -/

namespace Sys2Proof.Machine

variable {s x : State} {e : WordError}

/-! ### Owners -/

theorem placeIn_some {l : List Nat} {n k : Nat} (h : placeIn l n = some k) : 1 ≤ k ∧ l[k - 1]? = some n := by
  induction l generalizing k with
  | nil => cases h
  | cons a l ih =>
    rw [placeIn] at h
    split at h
    · next ha =>
      cases h
      exact ⟨Nat.le_refl _, congrArg some ha⟩
    · obtain ⟨j, hj, rfl⟩ := Option.map_eq_some_iff.1 h
      obtain ⟨h1, hget⟩ := ih hj
      refine ⟨Nat.le_add_left .., ?_⟩
      rw [Nat.add_sub_cancel, ← hget, show j = j - 1 + 1 by omega, List.getElem?_cons_succ, Nat.add_sub_cancel]

theorem placeIn_none {l : List Nat} {n : Nat} : placeIn l n = none ↔ n ∉ l := by
  induction l with
  | nil => simp [placeIn]
  | cons a l ih =>
    rw [placeIn, List.mem_cons, not_or]
    split
    · next ha => simp [ha]
    · next ha => simp [ih, show ¬ n = a from fun he => ha he.symm]

/-- The owner of an axle entry among the trains alone. -/
def trainOwner (s : State) (n : Nat) : Option EntryOwner :=
  (liveTrains s).findSome? fun t => (placeIn (t.stack.map (·.entry)) n).map fun k => ⟨t.number, t.track, k⟩

/-- The owner of an axle entry among the records alone. -/
def recordOwner (s : State) (n : Nat) : Option EntryOwner :=
  s.trs.records.findSome? fun r => (placeIn r.axles n).map fun k => ⟨r.number, r.track, k⟩

theorem axleOwner_eq (s : State) (n : Nat) : axleOwner s n = (trainOwner s n).orElse fun _ => recordOwner s n := rfl

theorem trainOwner_some {n : Nat} {w : EntryOwner} (h : trainOwner s n = some w) :
    1 ≤ w.place ∧ ∃ tr ∈ liveTrains s, tr.number = w.train ∧ tr.track = w.track ∧
      (tr.stack.map (·.entry))[w.place - 1]? = some n := by
  obtain ⟨tr, htr, hf⟩ := List.exists_of_findSome?_eq_some h
  obtain ⟨k, hk, rfl⟩ := Option.map_eq_some_iff.1 hf
  obtain ⟨h1, hget⟩ := placeIn_some hk
  exact ⟨h1, tr, htr, rfl, rfl, hget⟩

theorem recordOwner_some {n : Nat} {w : EntryOwner} (h : recordOwner s n = some w) :
    1 ≤ w.place ∧ ∃ r ∈ s.trs.records, r.number = w.train ∧ r.track = w.track ∧ r.axles[w.place - 1]? = some n := by
  obtain ⟨r, hr, hf⟩ := List.exists_of_findSome?_eq_some h
  obtain ⟨k, hk, rfl⟩ := Option.map_eq_some_iff.1 hf
  obtain ⟨h1, hget⟩ := placeIn_some hk
  exact ⟨h1, r, hr, rfl, rfl, hget⟩

theorem trainOwner_none {n : Nat} : trainOwner s n = none ↔ ∀ tr ∈ liveTrains s, ∀ i ∈ tr.stack, i.entry ≠ n := by
  simp only [trainOwner, List.findSome?_eq_none_iff, Option.map_eq_none_iff, placeIn_none, List.mem_map, not_exists, not_and]

theorem recordOwner_none {n : Nat} : recordOwner s n = none ↔ ∀ r ∈ s.trs.records, n ∉ r.axles := by
  simp only [recordOwner, List.findSome?_eq_none_iff, Option.map_eq_none_iff, placeIn_none]

/-! ### A read that finds the one word in error -/

theorem checkWords_finds (h : s.trs.errors = [e]) {want : WordError → Bool} (hw : want e = true)
    (fix : State → WordError → State) : s.checkWords want fix = fix s e := by
  simp [State.checkWords, h, hw]

theorem checkWords_passes (h : s.trs.errors = [e]) {want : WordError → Bool} (hw : want e = false)
    (fix : State → WordError → State) : s.checkWords want fix = s := by
  simp [State.checkWords, h, hw]

theorem checkAxle_finds (h : s.trs.errors = [e]) (ha : e.area = .axle) : s.checkAxle e.index [] = fixAxle s e :=
  checkWords_finds h (by simp [ha]) _

theorem checkAxle_passes (h : s.trs.errors = [e]) {n : Nat} (hn : e.area ≠ .axle ∨ n ≠ e.index) (l : List WordField) :
    s.checkAxle n l = s :=
  checkWords_passes h (by rcases hn with hn | hn <;> simp [hn, Ne.symm hn]) _

theorem checkVehicle_finds (h : s.trs.errors = [e]) (ha : e.area = .vehicle) : s.checkVehicle e.index = fixVehicle s e :=
  checkWords_finds h (by simp [ha]) _

theorem checkVehicle_passes (h : s.trs.errors = [e]) {n : Nat} (hn : n ≠ e.index) : s.checkVehicle n = s :=
  checkWords_passes h (by simp [Ne.symm hn]) _

theorem checkHeader_finds (h : s.trs.errors = [e]) (ha : e.area = .header) : s.checkHeader e.index [] = fixHeader s e :=
  checkWords_finds h (by simp [ha]) _

theorem checkHeader_passes (h : s.trs.errors = [e]) (ha : e.area ≠ .header) (n : Nat) (l : List WordField) :
    s.checkHeader n l = s :=
  checkWords_passes h (by simp [ha]) _

theorem checkSettings_passes (h : s.trs.errors = [e]) (ha : e.area ≠ .settings) (l : List Nat) : s.checkSettings l = s :=
  checkWords_passes h (by simp [ha]) _

/-- A single error is corrected: counted, offered, and the word is clean (R131). -/
theorem foundError_cleaned (h : s.trs.errors = [e]) (owner : LocusOwner) :
    (s.foundError e owner).cleanWord e = foundIn s e owner [] := by
  have hf : (s.foundError e owner).trs.errors = [e] := h
  simp only [State.cleanWord, hf, List.filter_cons, beq_self_eq_true, Bool.and_self, Bool.not_true, Bool.false_eq_true, if_false,
    List.filter_nil]
  rfl

/-- An entry rewritten whole leaves no word of it in error (R119). -/
theorem cleanEntry_one {area : Area} (h : x.trs.errors = [e]) (ha : e.area = area) :
    x.cleanEntry area e.index = { x with trs.errors := [] } := by
  simp only [State.cleanEntry, h, ha, List.filter_cons, beq_self_eq_true, Bool.and_self, Bool.not_true, Bool.false_eq_true, if_false,
    List.filter_nil]

theorem flagDamaged_eq (s : State) (n : Nat) : s.flagDamaged n = { s with trs.headers := flaggedHeaders s n } := by
  unfold State.flagDamaged flaggedHeaders
  cases s.trs.records.find? fun r => r.number == n <;> rfl

/-- The alarm of a damaged entry asks of the part what it asked before the finding. -/
theorem enterAlarm_loss (hx : SameForAlarms s x) (hc : x.trs.errors = []) (track : Track) (train : Nat) (axle : Option Nat)
    (value : Nat) : x.enterAlarm (damageAlarm track train axle value) = { x with alm := lossOf s track train axle value } := by
  rw [enterAlarm_alone hc, SameForAlarms.entered (s := { s with trs.errors := [] }) ⟨hx.alm, hx.records, hx.stamp⟩ rfl hc]
  rfl

/-! ### Axle entries -/

/-- Changing an index that is not listed changes nothing. -/
theorem adjust_absent {α : Type} {m : List (Nat × α)} {n : Nat} (h : look m n = none) (f : α → α) : adjust m n f = m := by
  induction m with
  | nil => rfl
  | cons a l ih =>
    obtain ⟨k, v⟩ := a
    by_cases hk : k = n
    · simp [look, hk] at h
    · rw [look, if_neg hk] at h
      have hl : adjust l n f = l := ih h
      show (if k = n then (k, f v) else (k, v)) :: adjust l n f = _
      rw [if_neg hk, hl]

/-- The axle entries with the one in error rewritten, at a place in its train (R132). -/
def axlesRewritten (s : State) (e : WordError) (place : Nat) : List (Nat × AxleEntry) :=
  adjust s.trs.axles e.index fun a => damagedAxle a e.holds place

theorem fixAxle_single (h : s.trs.errors = [e]) (hd : e.double = false) :
    fixAxle s e = foundIn s e (ownerName (axleOwner s e.index)) [] := by
  simp only [fixAxle, hd, Bool.false_eq_true, if_false, foundError_cleaned h]

/-- A double error in a word of an entry with no owner (R132). -/
theorem fixAxle_pool (h : s.trs.errors = [e]) (ha : e.area = .axle) (hd : e.double = true) (ho : axleOwner s e.index = none) :
    fixAxle s e = { foundIn s e .pool [] with trs.axles := axlesRewritten s e 0 } := by
  have hclean := cleanEntry_one (x := s.onAxle e.index fun a => damagedAxle a e.holds 0) h ha
  simp only [fixAxle, hd, if_true, ho, hclean]
  simp only [State.countError, State.offer, foundIn, hd, if_true]
  rfl

/-- The part with an entry in use rewritten DAMAGED, its record flagged and the error counted, before the alarm (R132). -/
def axleDamaged (s : State) (e : WordError) (w : EntryOwner) : State :=
  { s with
    trs :=
      { s.trs with
        axles := axlesRewritten s e w.place
        headers := flaggedHeaders s w.train
        errors := []
        doubles := bump s.trs.doubles } }

/-- A double error in a word of an entry in use (R132). -/
theorem fixAxle_owned (h : s.trs.errors = [e]) (ha : e.area = .axle) (hd : e.double = true) {w : EntryOwner}
    (ho : axleOwner s e.index = some w) :
    fixAxle s e =
      { foundIn s e (.train w.train) [] with
        trs.axles := axlesRewritten s e w.place
        trs.headers := flaggedHeaders s w.train
        alm := lossOf s w.track w.train (some ((look (axlesRewritten s e w.place) e.index).getD blankAxle).index) e.index } := by
  have hclean := cleanEntry_one (x := s.onAxle e.index fun a => damagedAxle a e.holds w.place) h ha
  have halarm : fixAxle s e = ((axleDamaged s e w).enterAlarm
      (damageAlarm w.track w.train (some ((axleDamaged s e w).axle e.index).index) e.index)).offer e (.train w.train) := by
    simp only [fixAxle, hd, if_true, ho, hclean, flagDamaged_eq, State.countError]
    rfl
  rw [halarm, enterAlarm_loss (s := s) (x := axleDamaged s e w) ⟨rfl, rfl, rfl⟩ rfl]
  simp only [State.offer, foundIn, hd, if_true]
  rfl

/-- What a finding in an axle word leaves as it was. -/
structure AxleFound (s : State) (e : WordError) (u : State) : Prop where
  errors : u.trs.errors = []
  rbu : u.rbu = s.rbu
  others : ∀ n, n ≠ e.index → u.axle n = s.axle n

theorem look_axlesRewritten {place n : Nat} (hn : n ≠ e.index) : look (axlesRewritten s e place) n = look s.trs.axles n := by
  rw [axlesRewritten, look_adjust, if_neg hn]

theorem fixAxle_found (h : s.trs.errors = [e]) (ha : e.area = .axle) : AxleFound s e (fixAxle s e) := by
  cases hd : e.double with
  | false =>
    rw [fixAxle_single h hd]
    exact ⟨rfl, rfl, fun _ _ => rfl⟩
  | true =>
    cases ho : axleOwner s e.index with
    | none =>
      rw [fixAxle_pool h ha hd ho]
      exact ⟨rfl, rfl, fun n hn => congrArg (Option.getD · blankAxle) (look_axlesRewritten hn)⟩
    | some w =>
      rw [fixAxle_owned h ha hd ho]
      exact ⟨rfl, rfl, fun n hn => congrArg (Option.getD · blankAxle) (look_axlesRewritten hn)⟩

/-! ### Vehicle entries -/

theorem fixVehicle_single (h : s.trs.errors = [e]) (hd : e.double = false) :
    fixVehicle s e = foundIn s e (ownerName (vehicleOwner s e.index)) [] := by
  simp only [fixVehicle, hd, Bool.false_eq_true, if_false, foundError_cleaned h]

/-- The part with a vehicle entry in use rewritten and its record flagged, before the alarm (R133). -/
def vehicleDamaged (s : State) (e : WordError) (w : EntryOwner) : State :=
  { foundIn s e (.train w.train) [] with
    trs.vehicles := adjust s.trs.vehicles e.index fun v => damagedVehicle v e.holds w.place
    trs.headers := flaggedHeaders s w.train }

theorem fixVehicle_owned (h : s.trs.errors = [e]) (ha : e.area = .vehicle) (hd : e.double = true) {w : EntryOwner}
    (ho : vehicleOwner s e.index = some w) :
    fixVehicle s e = { vehicleDamaged s e w with alm := lossOf s w.track w.train none e.index } := by
  have halarm : fixVehicle s e = (vehicleDamaged s e w).enterAlarm (damageAlarm w.track w.train none e.index) := by
    simp only [fixVehicle, hd, if_true, ho]
    rw [cleanEntry_one (by exact h) ha, flagDamaged_eq]
    rfl
  rw [halarm, enterAlarm_loss (s := s) (x := vehicleDamaged s e w) ⟨rfl, rfl, rfl⟩ rfl]

/-- A finding in a vehicle word leaves none in error. -/
theorem fixVehicle_errors (h : s.trs.errors = [e]) (ha : e.area = .vehicle) : (fixVehicle s e).trs.errors = [] := by
  cases hd : e.double with
  | false => rw [fixVehicle_single h hd]; rfl
  | true =>
    cases ho : vehicleOwner s e.index with
    | none =>
      simp only [fixVehicle, hd, if_true, ho]
      rw [cleanEntry_one (by exact h) ha]
    | some w => rw [fixVehicle_owned h ha hd ho]; rfl

/-! ### Headers -/

/-- A header with the fields of some words 0 (R133). -/
def fieldsZeroed (h : Header) (holds : List WordField) : Header :=
  { headerAfter h holds with
    flags := if holds.contains .flags then ⟨false, false, false, false, false, false, false⟩ else h.flags }

theorem fieldsZeroed_cons (h : Header) (f : WordField) (l : List WordField) :
    fieldsZeroed (zeroField h f) l = fieldsZeroed h (f :: l) := by
  cases f <;> simp [fieldsZeroed, headerAfter, zeroField]

theorem foldl_zeroField (h : Header) (l : List WordField) : l.foldl zeroField h = fieldsZeroed h l := by
  induction l generalizing h with
  | nil => rfl
  | cons f l ih => rw [List.foldl_cons, ih, fieldsZeroed_cons]

theorem damagedHeader_eq (h : Header) (l : List WordField) : damagedHeader h l = headerAfter h l := by
  rw [damagedHeader, foldl_zeroField]
  rfl

/-- The locus owner of a header: its record's train, or POOL for one of no record (R131). -/
def recordName (o : Option RecordDir) : LocusOwner :=
  match o with
  | some r => .train r.number
  | none => .pool

theorem fixHeader_single (h : s.trs.errors = [e]) (hd : e.double = false) :
    fixHeader s e = foundIn s e (recordName (headerOwner s e.index)) [] := by
  simp only [fixHeader, hd, Bool.false_eq_true, if_false, foundError_cleaned h]
  rfl

/-- The part with a header rewritten, before the alarm (R133). -/
def headerDamaged (s : State) (e : WordError) (r : RecordDir) : State :=
  (foundIn s e (.train r.number) []).onHeader e.index fun h => headerAfter h e.holds

theorem fixHeader_owned (h : s.trs.errors = [e]) (hd : e.double = true) {r : RecordDir} (ho : headerOwner s e.index = some r) :
    fixHeader s e = { headerDamaged s e r with alm := lossOf s r.track r.number none e.index } := by
  have halarm : fixHeader s e = (headerDamaged s e r).enterAlarm (damageAlarm r.track r.number none e.index) := by
    simp only [fixHeader, hd, if_true, ho, foundError_cleaned h, damagedHeader_eq]
    rfl
  rw [halarm, enterAlarm_loss (s := s) (x := headerDamaged s e r) ⟨rfl, rfl, rfl⟩ rfl]

/-- A finding in a header word leaves the records as they were. -/
theorem fixHeader_records (h : s.trs.errors = [e]) : (fixHeader s e).trs.records = s.trs.records := by
  cases hd : e.double with
  | false => rw [fixHeader_single h hd]; rfl
  | true =>
    cases ho : headerOwner s e.index with
    | none => simp only [fixHeader, hd, if_true, ho]; rfl
    | some r => rw [fixHeader_owned h hd ho]; rfl

end Sys2Proof.Machine

namespace Sys2Proof.Proofs

open Sys2Proof.Machine

theorem ownerFound : OwnerFound := by
  intro s n
  rw [axleOwner_eq]
  cases ht : trainOwner s n with
  | some w =>
    refine ⟨?_, ?_⟩
    · rintro x ⟨⟩
      obtain ⟨h1, hin⟩ := trainOwner_some ht
      exact ⟨h1, .inl hin⟩
    · refine ⟨nofun, fun ⟨hnone, _⟩ => ?_⟩
      rw [trainOwner_none.2 hnone] at ht
      cases ht
  | none =>
    refine ⟨fun w hw => ?_, ?_⟩
    · obtain ⟨h1, hin⟩ := recordOwner_some hw
      exact ⟨h1, .inr hin⟩
    · exact recordOwner_none.trans ⟨fun h => ⟨trainOwner_none.1 ht, h⟩, And.right⟩

theorem axleWordRead : AxleWordRead := by
  intro s e h ha o found
  rw [checkAxle_finds h ha]
  refine ⟨fixAxle_single h, ?_⟩
  intro hd rewritten axles
  refine ⟨fun ho => ?_, fun _ hn => adjust_absent hn _, fun a w hl ho => ?_⟩
  · have heq := fixAxle_pool h ha hd ho
    simp only [found, axles, rewritten, ho]
    exact heq
  · have hidx : ((look (axlesRewritten s e w.place) e.index).getD blankAxle).index = (rewritten a).index := by
      rw [axlesRewritten, look_adjust, if_pos rfl, hl]
      simp only [rewritten, ho]
      rfl
    have heq := fixAxle_owned h ha hd ho
    rw [hidx] at heq
    simp only [found, axles, rewritten, ho] at heq ⊢
    exact heq

theorem vehicleWordRead : VehicleWordRead := by
  intro s e h ha o found
  rw [checkVehicle_finds h ha]
  refine ⟨fixVehicle_single h, fun w hd ho => ?_⟩
  simp only [found, ho]
  exact fixVehicle_owned h ha hd ho

theorem headerWordRead : HeaderWordRead := by
  intro s e h ha o found
  rw [checkHeader_finds h ha]
  refine ⟨fixHeader_single h, fun r hd ho => ?_⟩
  simp only [found, ho]
  exact fixHeader_owned h hd ho

end Sys2Proof.Proofs

/-! SUPPORT. The commands that find a word in error of a stored entry: the reads of records (R128, R129) and RECORD_APPEND (R97), and the
proof of O60. -/

namespace Sys2Proof.Machine

variable {s u v w : State} {o : CloseOp} {e : WordError}

/-! ### Requests of records -/

/-- A request that nothing turns away is served where no settings word carries the error. -/
theorem leadsTo_of_awaited {p : Port} {tag now : Nat} {r : Request} (ha : Awaited s p tag r) (h : s.trs.errors = [e])
    (he : e.area ≠ .settings) {i : Instr} {work : Request → Option (State → State)} {f : State → State} {st : Status} {pl : Payload}
    (hi : exec i s = workEvent p now s work) (hw : work r = some f) (hv : CloseWorkOnly (reached s now) v)
    (hf : f (reached s now) = v.answer p st pl) : LeadsTo i s (answeredOn v p tag r.row st pl) := by
  obtain ⟨hs, hslot, hp, hm⟩ := ha
  have hwait : waiting s p = some r := by simp only [waiting, hslot]
  have hserve : (s.advance now).serve p r f = f (s.advance now) := by
    have hcheck : (s.advance now).checkSetting (itemPermission r.row) = s.advance now :=
      checkSettings_passes (s := s.advance now) h he _
    have hp' : permitted (s.advance now) p r.row = true := hp
    have hm' : available (s.advance now).sup.mode r = true := hm
    simp only [State.serve, hcheck, hp', hm', Bool.true_eq_false, if_false]
  have hvslot : (v.ptu.get p).slot = .pending tag r false := by rw [hv.ptu]; exact hslot
  refine leadsTo_of_eq (hi.trans ?_) hs ((hf.trans (answer_pending hvslot st pl)))
  rw [workEvent, hwait, Option.bind_some, hw, Option.map_some, hserve, advance_eq_reached]

theorem findRecord_number {n : Nat} {r : RecordDir} (h : findRecord s n = some r) : r.number = n := by
  have := List.find?_some h
  simpa using this

/-- The position of a record is one past the records before it (R118). -/
theorem positionOf_eq {n : Nat} {l l' : List RecordDir} {r : RecordDir} (h : s.trs.records = l ++ r :: l')
    (hl : ∀ x ∈ l, x.number ≠ n) (hr : r.number = n) : positionOf s n = l.length + 1 := by
  have htake : (l ++ r :: l').takeWhile (fun r => r.number != n) = l := by
    rw [List.takeWhile_append_of_pos (fun x hx => by simpa using hl x hx), List.takeWhile_cons]
    simp [hr]
  rw [positionOf, h, htake]

/-- A chain of checked reads finds the one word in error where it comes to it, and nothing before or after. -/
theorem foldl_finds {check : State → Nat → State} (hpass : ∀ k, k ≠ e.index → check s k = s)
    (hclean : ∀ x k, x.trs.errors = [] → check x k = x) (hfound : (check s e.index).trs.errors = []) {l : List Nat}
    (hl : e.index ∈ l) : l.foldl check s = check s e.index := by
  induction l with
  | nil => cases hl
  | cons k l ih =>
    rw [List.foldl_cons]
    by_cases hk : k = e.index
    · rw [hk]
      exact foldl_clean check l _ hfound hclean
    · rw [hpass k hk]
      exact ih ((List.mem_cons.1 hl).resolve_left (Ne.symm hk))

/-! ### RECORD_APPEND -/

/-- A finding in an axle word is the same whatever the progress of the close operation that reads it. -/
theorem fixAxle_withOp (h : s.trs.errors = [e]) (ha : e.area = .axle) (ho : s.rbu.closeOp = some o) {o' : CloseOp}
    (hc : o'.closing = o.closing) : fixAxle (s.withOp o') e = (fixAxle s e).withOp o' := by
  have hown : axleOwner (s.withOp o') e.index = axleOwner s e.index := by
    have hlive : liveTrains (s.withOp o') = liveTrains s := by
      simp only [liveTrains, openTrains, closingTrains, State.withOp_rbu, State.withOp_tas, ho, hc]
    simp only [axleOwner_eq, trainOwner, recordOwner, hlive, State.withOp_trs]
  have hw : (s.withOp o').trs.errors = [e] := h
  cases hd : e.double with
  | false =>
    rw [fixAxle_single hw hd, fixAxle_single h hd, hown]
    rfl
  | true =>
    cases how : axleOwner s e.index with
    | none =>
      rw [fixAxle_pool hw ha hd (hown.trans how), fixAxle_pool h ha hd how]
      rfl
    | some x =>
      have hloss (t : Track) (n : Nat) (a : Option Nat) (val : Nat) : lossOf (s.withOp o') t n a val = lossOf s t n a val :=
        SameForAlarms.entered (s := { s with trs.errors := [] }) (u := { s.withOp o' with trs.errors := [] }) ⟨rfl, rfl, rfl⟩ rfl rfl
          (damageAlarm t n a val)
      rw [fixAxle_owned hw ha hd (hown.trans how), fixAxle_owned h ha hd how, hloss]
      rfl

/-- GROUPING reads the next entry, in error or not. -/
theorem closePiece_readNext (hp : o.phase = .grouping) {i : StackItem} {l : List StackItem}
    (hd : o.closing.train.stack.drop o.read.length = i :: l) : (s.withOp o).closePiece = (s.withOp o).readNext o i := by
  simp only [State.closePiece, State.withOp_rbu, hp, hd]

/-- Reading on from a state and from the one that the finding leaves comes to the same state once the entry in error is read. -/
theorem closePieces_meet (h : s.trs.errors = [e]) (ha : e.area = .axle) (ho : s.rbu.closeOp = some o) (l : List StackItem)
    (o' : CloseOp) (hc : o'.closing = o.closing) (hp : o'.phase = .grouping)
    (hd : o'.closing.train.stack.drop o'.read.length = l) (hin : ∃ x ∈ l, x.entry = e.index) :
    ∃ m, m ≤ l.length ∧ (s.withOp o').closePieces m = ((fixAxle s e).withOp o').closePieces m := by
  have hfound := fixAxle_found h ha
  induction l generalizing o' with
  | nil => obtain ⟨x, hx, _⟩ := hin; cases hx
  | cons i l ih =>
    have hclean : ((fixAxle s e).withOp o').checkAxle i.entry [] = (fixAxle s e).withOp o' := checkAxle_clean _ _ _ hfound.errors
    by_cases hi : i.entry = e.index
    · refine ⟨1, Nat.le_add_left .., ?_⟩
      have hcheck : (s.withOp o').checkAxle i.entry [] = (fixAxle s e).withOp o' := by
        rw [hi, checkAxle_finds (s := s.withOp o') h ha, fixAxle_withOp h ha ho hc]
      simp only [State.closePieces, closePiece_readNext hp hd, State.readNext, hcheck, hclean]
    · have hpass : (s.withOp o').checkAxle i.entry [] = s.withOp o' := checkAxle_passes (s := s.withOp o') h (.inr hi) _
      have hsame : ((fixAxle s e).withOp o').axle i.entry = (s.withOp o').axle i.entry := hfound.others _ hi
      have hnext (x : State) (hx : x.withOp o' = (x.withOp o').checkAxle i.entry [])
          (hax : (x.withOp o').axle i.entry = (s.withOp o').axle i.entry) :
          (x.withOp o').closePiece = x.withOp
            { o' with
              read := o'.read ++ [⟨i.entry, asRead ((s.withOp o').axle i.entry)⟩]
              damaged := o'.damaged || foundDamaged (s.withOp o') i.entry } := by
        rw [closePiece_readNext hp hd, State.readNext, ← hx]
        simp only [foundDamaged, hax]
        rfl
      have hrest (a : HandAxle) : o'.closing.train.stack.drop (o'.read ++ [a]).length = l := by
        rw [List.length_append, ← List.drop_drop, hd]
        rfl
      have hin' : ∃ x ∈ l, x.entry = e.index := by
        obtain ⟨x, hx, hxe⟩ := hin
        rcases List.mem_cons.1 hx with rfl | hx
        · exact absurd hxe hi
        · exact ⟨x, hx, hxe⟩
      obtain ⟨m, hm, heq⟩ := ih
        { o' with
          read := o'.read ++ [⟨i.entry, asRead ((s.withOp o').axle i.entry)⟩]
          damaged := o'.damaged || foundDamaged (s.withOp o') i.entry } hc hp (hrest _) hin'
      refine ⟨m + 1, Nat.succ_le_succ hm, ?_⟩
      rw [State.closePieces, State.closePieces, hnext s hpass.symm rfl, hnext (fixAxle s e) hclean.symm hsame, heq]

/-- The whole work of the operation comes to the same state from both. -/
theorem finishPieces_meet (h : s.trs.errors = [e]) (ha : e.area = .axle) (ho : s.rbu.closeOp = some o) (hp : o.phase = .grouping)
    (hin : ∃ x ∈ o.closing.train.stack.drop o.read.length, x.entry = e.index) :
    s.finishPieces o = (fixAxle s e).finishPieces o := by
  obtain ⟨m, hm, heq⟩ := closePieces_meet h ha ho _ o rfl hp rfl hin
  rw [withOp_self ho, withOp_self (s := fixAxle s e) (by rw [(fixAxle_found h ha).rbu]; exact ho)] at heq
  rw [List.length_drop] at hm
  obtain ⟨j, hj⟩ : ∃ j, o.closing.train.stack.length + 1 = m + j := ⟨_, (Nat.add_sub_cancel' (by omega)).symm⟩
  have hrun : s.closePieces (o.closing.train.stack.length + 1) = (fixAxle s e).closePieces (o.closing.train.stack.length + 1) := by
    rw [hj, closePieces_add, closePieces_add, heq]
  rw [State.finishPieces, State.finishPieces, hrun]

/-- Where a header can be had, the work of a close operation in GROUPING comes to an end with both its requests served. -/
theorem finishPieces_served {now k : Nat} (hc : s.trs.errors = []) (ho : s.rbu.closeOp = some o) (hp : o.phase = .grouping)
    (hk : headerFor s o k) :
    ∃ o' refs, ((s.advance now).finishPieces o).rbu.closeOp = some o' ∧ o'.header = some k ∧ o'.vehicles = some refs := by
  obtain ⟨w, m, hw, hfin⟩ := finishPieces_recording (s := s.advance now) hc ho (.inl hp)
  obtain ⟨w1, m1, hrun, -, hop, -, -⟩ := header_taken (m := m) hc hk hw
  have settled {f : State} {o' : CloseOp} {refs : List Nat} (hf : f.rbu.closeOp = some o') (hph : o'.phase = .recording)
      (hh : o'.header = some k) (hv : o'.vehicles = some refs) (j : Nat) : f.closePieces j = f :=
    closePieces_still (by simp only [State.closePiece, hf, hph, hh, hv]) j
  rw [hfin, hrun]
  cases hv : o.vehicles with
  | some refs =>
    rw [settled hop rfl rfl hv]
    exact ⟨_, refs, hop, rfl, hv⟩
  | none =>
    rw [State.closePieces, closePiece_groupsAsked hop rfl rfl hv, settled rfl rfl rfl rfl]
    exact ⟨_, _, rfl, rfl, rfl⟩

/-- A count that has reached an event's stamp does not move at it. -/
theorem advance_reached {now : Nat} (h : v.cac = (reached s now).cac) : v.advance now = v := by
  have hcount : max v.cac.count (min now Config.countMax) = v.cac.count := by
    rw [h]
    show max (max s.cac.count (min now Config.countMax)) _ = _
    rw [Nat.max_assoc, Nat.max_self]
    rfl
  rw [State.advance, hcount]

end Sys2Proof.Machine

namespace Sys2Proof.Proofs

open Sys2Proof.Machine

theorem recordReadsFind : RecordReadsFind := by
  intro s p tag n i now r e h hr
  have hreached : (reached s now).trs.errors = [e] := h
  refine ⟨fun ha he hidx => ?_, fun ha h1 h512 he hin => ?_, fun ha h1 h160 he hin => ?_⟩
  · intro v l l' hrec hl
    have hvrec : v.trs.records = l ++ r :: l' := by
      rw [← hrec]
      exact (congrArg (fun x : State => x.trs.records) (checkHeader_finds hreached he)).trans (fixHeader_records hreached)
    refine leadsTo_of_awaited (r := .headerRead n) ha h (by rw [he]; nofun) (by rfl) rfl (checkHeader_only _ _ _) ?_
    have hfind : findRecord (reached s now) n = some r := hr
    simp only [State.headerRead, hfind, ← hidx]
    rw [positionOf_eq (s := v) hvrec hl (findRecord_number hr)]
  · intro v
    have hfound : v.trs.errors = [] := by
      rw [show v = fixAxle (reached s now) e from checkAxle_finds hreached he]
      exact (fixAxle_found hreached he).errors
    refine leadsTo_of_awaited (r := .axleRead n i) ha h (by rw [he]; nofun) (by rfl) rfl (checkAxle_only _ _ _) ?_
    have hfind : findRecord (reached s now) n = some r := hr
    have hchain := foldl_finds (s := reached s now) (check := fun s k => s.checkAxle k [])
      (fun k hk => checkAxle_passes hreached (.inr hk) []) (fun x k hx => checkAxle_clean x k [] hx) hfound hin
    simp only [State.axleRead, if_neg (show ¬ (i < 1 ∨ 512 < i) by omega), hfind,
      checkHeader_passes hreached (show e.area ≠ .header by rw [he]; nofun), hchain]
    rfl
  · intro v
    have hfound : v.trs.errors = [] := by
      rw [show v = fixVehicle (reached s now) e from checkVehicle_finds hreached he]
      exact fixVehicle_errors hreached he
    refine leadsTo_of_awaited (r := .vehicleRead n i) ha h (by rw [he]; nofun) (by rfl) rfl (checkVehicle_only _ _) ?_
    have hfind : findRecord (reached s now) n = some r := hr
    have hchain := foldl_finds (s := reached s now) (check := fun s k => s.checkVehicle k)
      (fun k hk => checkVehicle_passes hreached hk) (fun x k hx => checkVehicle_clean x k hx) hfound hin
    simp only [State.vehicleRead, if_neg (show ¬ (i < 1 ∨ 160 < i) by omega), hfind,
      checkHeader_passes hreached (show e.area ≠ .header by rw [he]; nofun), hchain]
    rfl

theorem appendFinds : AppendFinds := by
  intro s o e now hs ho hp h ha hin v hhad
  have hreached : (reached s now).trs.errors = [e] := h
  have hv : v = fixAxle (reached s now) e := checkAxle_finds hreached ha
  have hfound := fixAxle_found hreached ha
  rw [← hv] at hfound
  have honly : CloseWorkOnly (reached s now) v := checkAxle_only _ _ _
  have hvo : v.rbu.closeOp = some o := by rw [hfound.rbu]; exact ho
  refine ⟨hfound.errors, hfound.rbu, ?_⟩
  have hadv : v.advance now = v := advance_reached honly.cac
  have hmeet : (s.advance now).finishPieces o = v.finishPieces o := by
    rw [hv]
    exact finishPieces_meet (s := reached s now) hreached ha ho hp hin
  obtain ⟨k, hk⟩ : ∃ k, headerFor v o k := by
    by_cases hh : o.header = none
    · obtain ⟨k, hk⟩ := Option.ne_none_iff_exists'.1 hhad
      exact ⟨k, .inr ⟨hh, by rw [headerStore, if_pos hh]; exact hk⟩⟩
    · obtain ⟨k, hk⟩ := Option.ne_none_iff_exists'.1 hh
      exact ⟨k, .inl hk⟩
  obtain ⟨o', refs, hop, hheader, hvehicles⟩ := finishPieces_served (now := now) hfound.errors hvo hp hk
  rw [hadv] at hop
  have hup : v.startCheck = false := by rw [honly.startCheck]; exact hs
  simp only [exec, execRecordAppend, ho, hvo, Option.bind_some, hmeet, hadv, hop, hheader, hvehicles, whenUp_some _ _ hs,
    whenUp_some _ _ hup]

/-- Settles O60: one word in error is found once (`checkWords_finds`); what its finding leaves is one equation per kind of word
(`fixAxle_owned`, `fixVehicle_owned`, `fixHeader_owned`), and reading on from it meets the command's own run (`finishPieces_meet`). -/
theorem storedWordsRead : Obligations.StoredWordsRead :=
  ⟨ownerFound, axleWordRead, vehicleWordRead, headerWordRead, recordReadsFind, appendFinds⟩

end Sys2Proof.Proofs

/-! SUPPORT. What leaves the Supply Monitor, the retention marker and the START check alone (`SameSupply`): the checked reads, the
store's work, the alarm list and the close operation. -/

namespace Sys2Proof.Machine

variable {s u v : State}

/-- Nothing that `SupplyAgrees` looks at differs. -/
def SameSupply (s u : State) : Prop :=
  u.sup = s.sup ∧ u.trs.marker = s.trs.marker ∧ u.startCheck = s.startCheck

namespace SameSupply

theorem refl (s : State) : SameSupply s s := ⟨rfl, rfl, rfl⟩

theorem trans (h : SameSupply s u) (k : SameSupply u v) : SameSupply s v :=
  ⟨k.1.trans h.1, k.2.1.trans h.2.1, k.2.2.trans h.2.2⟩

theorem agrees (h : SameSupply s u) (ha : SupplyAgrees s) : SupplyAgrees u := by
  obtain ⟨hsup, hmarker, hcheck⟩ := h
  constructor <;> rw [hsup]
  case frozen => exact ha.frozen
  case marker => rw [hmarker, hcheck]; exact ha.marker
  case fail => exact ha.fail
  case recovery => exact ha.recovery
  case leave => exact ha.leave

end SameSupply

theorem foldl_supply {β : Type} (f : State → β → State) (hf : ∀ s b, SameSupply s (f s b)) (l : List β) (s : State) :
    SameSupply s (l.foldl f s) := by
  induction l generalizing s with
  | nil => exact .refl s
  | cons b l ih => exact (hf s b).trans (ih _)

/-- A checked read touches what its fix touches. -/
theorem checkWords_supply (s : State) (want : WordError → Bool) (fix : State → WordError → State)
    (hf : ∀ s e, SameSupply s (fix s e)) : SameSupply s (s.checkWords want fix) := by
  refine foldl_supply _ (fun s e => ?_) _ s
  split
  · exact hf s e
  · exact .refl s

/-! ### Settings words and the alarm list -/

theorem readSettingWord_supply (s : State) (e : WordError) : SameSupply s (readSettingWord s e) := by
  simp only [readSettingWord]; split <;> exact ⟨rfl, rfl, rfl⟩

theorem defaultGeometry_supply (s : State) (t : Track) : SameSupply s (s.defaultGeometry t) :=
  foldl_supply (fun s k => State.cleanEntry { s with settings := drop s.settings k } .settings k)
    (fun _ _ => ⟨rfl, rfl, rfl⟩) _ s

theorem fixSetting_supply (s : State) (e : WordError) : SameSupply s (fixSetting s e) := by
  have hr := readSettingWord_supply s e
  have hs (w : State) (t : Track) (n : Nat) : SameSupply w (w.settleSpan t n) := by
    simp only [State.settleSpan]
    split
    · exact checkWords_supply w _ _ readSettingWord_supply
    · exact (checkWords_supply w _ _ readSettingWord_supply).trans (defaultGeometry_supply _ t)
  simp only [fixSetting]
  repeat' split
  · exact hr.trans (hs _ _ _)
  · exact hr
  · exact hr

theorem checkSettings_supply (s : State) (l : List Nat) : SameSupply s (s.checkSettings l) :=
  checkWords_supply s _ _ fixSetting_supply

theorem checkSetting_supply (s : State) (n : Nat) : SameSupply s (s.checkSetting n) := checkSettings_supply s [n]

theorem checkAlarms_supply (s : State) : SameSupply s s.checkAlarms := by
  refine checkWords_supply s _ _ fun s e => ?_
  simp only [fixAlarm]
  repeat' split
  all_goals exact ⟨rfl, rfl, rfl⟩

theorem testNotice_supply (s : State) : SameSupply s s.testNotice := by
  simp only [State.testNotice]; split <;> exact ⟨rfl, rfl, rfl⟩

theorem enterListed_supply (s : State) (j : Judgement) : SameSupply s (s.enterListed j) := by
  simp only [State.enterListed]
  repeat' split
  all_goals exact ⟨rfl, rfl, rfl⟩

theorem enterAlarm_supply (s : State) (j : Judgement) : SameSupply s (s.enterAlarm j) := by
  simp only [State.enterAlarm]
  split
  · exact .refl s
  · exact ((checkAlarms_supply s).trans (enterListed_supply _ j)).trans (testNotice_supply _)

theorem judgeValue_supply (s : State) (key : AlarmKey) (v : Nat) (c : ValueClass) :
    SameSupply s (s.judgeValue key v c).1 :=
  (checkSettings_supply s _).trans (enterAlarm_supply _ _)

/-! ### Words of the store -/

theorem flagDamaged_supply (s : State) (n : Nat) : SameSupply s (s.flagDamaged n) := by
  simp only [State.flagDamaged]; split <;> exact ⟨rfl, rfl, rfl⟩

theorem fixAxle_supply (s : State) (e : WordError) : SameSupply s (fixAxle s e) := by
  have hclean (f : AxleEntry → AxleEntry) : SameSupply s ((s.onAxle e.index f).cleanEntry .axle e.index) := ⟨rfl, rfl, rfl⟩
  have hcount (w : State) : SameSupply w (w.countError e) := ⟨rfl, rfl, rfl⟩
  have hoffer (w : State) (o : LocusOwner) : SameSupply w (w.offer e o) := ⟨rfl, rfl, rfl⟩
  simp only [fixAxle]
  split
  · cases axleOwner s e.index with
    | some w =>
      exact ((((hclean _).trans (flagDamaged_supply _ _)).trans (hcount _)).trans (enterAlarm_supply _ _)).trans (hoffer _ _)
    | none => exact ((hclean _).trans (hcount _)).trans (hoffer _ _)
  · exact ⟨rfl, rfl, rfl⟩

theorem checkAxle_supply (s : State) (n : Nat) (l : List WordField) : SameSupply s (s.checkAxle n l) :=
  checkWords_supply s _ _ fixAxle_supply

theorem checkVehicle_supply (s : State) (n : Nat) : SameSupply s (s.checkVehicle n) := by
  refine checkWords_supply s _ _ fun s e => ?_
  simp only [fixVehicle]
  split
  · cases vehicleOwner s e.index with
    | some w =>
      refine .trans (.trans ?_ (flagDamaged_supply _ w.train)) (enterAlarm_supply _ _)
      exact ⟨rfl, rfl, rfl⟩
    | none => exact ⟨rfl, rfl, rfl⟩
  · exact ⟨rfl, rfl, rfl⟩

theorem checkHeader_supply (s : State) (n : Nat) (l : List WordField) : SameSupply s (s.checkHeader n l) := by
  refine checkWords_supply s _ _ fun s e => ?_
  simp only [fixHeader]
  split
  · cases headerOwner s e.index with
    | some r =>
      refine .trans ?_ (enterAlarm_supply _ _)
      exact ⟨rfl, rfl, rfl⟩
    | none => exact ⟨rfl, rfl, rfl⟩
  · exact ⟨rfl, rfl, rfl⟩

/-! ### Records leaving, room made, and the close operation -/

theorem reclaim_supply (s : State) (room : State → Bool) (n : Nat) : SameSupply s (s.reclaim room n) := by
  induction n generalizing s with
  | zero => exact .refl s
  | succ n ih =>
    simp only [State.reclaim]
    repeat' split
    · exact .refl s
    · refine .trans ?_ (ih _)
      exact ⟨rfl, rfl, rfl⟩
    · exact .refl s

theorem evict_supply (s : State) (r : RecordDir) : SameSupply s (s.evict r) := by
  refine .trans (checkHeader_supply s r.header [.headerAxleCount]) (.trans ?_ (enterAlarm_supply _ _))
  exact ⟨rfl, rfl, rfl⟩

theorem evictFor_supply (s : State) (room : State → Bool) (n : Nat) : SameSupply s (s.evictFor room n) := by
  induction n generalizing s with
  | zero => exact .refl s
  | succ n ih =>
    simp only [State.evictFor]
    repeat' split
    · exact .refl s
    · exact (evict_supply s _).trans (ih _)
    · exact .refl s

theorem makeRoom_supply (s : State) (room : State → Bool) : SameSupply s (s.makeRoom room) := by
  have hr (n : Nat) : SameSupply s ((s.checkSetting itemRetentionPolicy).reclaim room n) :=
    (checkSetting_supply s _).trans (reclaim_supply _ room n)
  simp only [State.makeRoom]
  split
  · exact hr _
  · exact (hr _).trans (evictFor_supply _ room _)

theorem takeVehicles_supply (l : List VehicleEntry) (s : State) : SameSupply s (s.takeVehicles l).1 := by
  induction l generalizing s with
  | nil => exact .refl s
  | cons v l ih =>
    simp only [State.takeVehicles]
    split
    · refine .trans ?_ (ih _)
      exact ⟨rfl, rfl, rfl⟩
    · exact .refl s

theorem judgeAxle_supply (s : State) (key : AlarmKey) (n v : Nat) (c : ValueClass) :
    SameSupply s (s.judgeAxle key n v c).1 := by
  have hj := judgeValue_supply s key v c
  simp only [State.judgeAxle]
  split
  · exact hj
  · exact hj.trans (checkAxle_supply _ n _)

theorem judgeClose_supply (s : State) (j : CloseJudgement) : SameSupply s (s.judgeClose j).1 := by
  simp only [State.judgeClose]
  split
  · exact judgeAxle_supply _ _ _ _ _
  · exact judgeValue_supply _ _ _ _
  · exact judgeValue_supply _ _ _ _

theorem takeGroups_supply (s : State) (o : CloseOp) : SameSupply s (s.takeGroups o) := by
  have hm := makeRoom_supply s (vehicleRoom (groupsOf o).length)
  have ht (w : State) (l : List VehicleEntry) (o' : CloseOp) : SameSupply w ((w.takeVehicles l).1.withOp o') :=
    takeVehicles_supply l w
  simp only [State.takeGroups]
  refine .trans ?_ (ht _ _ _)
  split
  · exact hm.trans ⟨rfl, rfl, rfl⟩
  · exact hm

theorem closePiece_supply (s : State) : SameSupply s s.closePiece := by
  simp only [State.closePiece]
  repeat' split
  · exact .refl s
  · exact checkAxle_supply s _ []
  · simp only [State.endGrouping]
    split <;> exact ⟨rfl, rfl, rfl⟩
  · exact judgeClose_supply s _
  · exact ⟨rfl, rfl, rfl⟩
  · simp only [State.takeHeader, State.requestHeader]
    split
    · next heq =>
      obtain ⟨rfl, -⟩ := Prod.mk.inj heq
      exact makeRoom_supply s headerRoom
    · exact .refl s
  · exact takeGroups_supply s _
  · exact .refl s

theorem closePieces_supply (s : State) (n : Nat) : SameSupply s (s.closePieces n) := by
  induction n generalizing s with
  | zero => exact .refl s
  | succ n ih => exact (closePiece_supply s).trans (ih _)

theorem letClose_supply (s : State) : SameSupply s s.letClose := by
  simp only [State.letClose]
  split
  · exact closePieces_supply { s with free := s.free + 1 } _
  · exact .refl s

theorem finishPieces_supply (s : State) (o : CloseOp) : SameSupply s (s.finishPieces o) :=
  (closePieces_supply s _).trans (closePieces_supply _ _)

end Sys2Proof.Machine

/-! SUPPORT. Trains, tracks, samples, jobs, the watch and the Report Builder leave the supply alone. -/

namespace Sys2Proof.Machine

variable {s u v : State}

/-! ### Trains -/

theorem cancelJobs_supply (s : State) (n : Nat) : SameSupply s (s.cancelJobs n) := by
  rw [cancelJobs_eq]
  exact ⟨rfl, rfl, rfl⟩

theorem closeRequest_supply (s : State) (t : Track) (reason : CloseReason) : SameSupply s (s.closeRequest t reason) := by
  rw [closeRequest_allClosed]
  exact ⟨rfl, rfl, rfl⟩

theorem requestJob_supply (s : State) (n : Nat) (t : Track) (k i : Nat) (c : Crossing) (speed : Nat × ValueClass) :
    SameSupply s (s.requestJob n t k i c speed) := by
  simp only [State.requestJob]
  split
  · exact checkSettings_supply s [itemD t, itemGs t, itemGe t, itemH t, itemW t]
  · exact ⟨rfl, rfl, rfl⟩

theorem pushAxle_supply (s : State) (t : Track) (tr : Train) (c : Crossing) (speed : Nat × ValueClass) (k : Nat) :
    SameSupply s (s.pushAxle t tr c speed k) := by
  simp only [State.pushAxle]
  refine .trans ?_ (requestJob_supply _ _ _ _ _ _ _)
  exact ⟨rfl, rfl, rfl⟩

theorem handCrossing_supply (s : State) (t : Track) (c : Crossing) (speed : Nat × ValueClass) :
    SameSupply s (s.handCrossing t c speed) := by
  have hroom := makeRoom_supply s axleRoom
  simp only [State.handCrossing]
  split
  · split
    · simp only [State.forward]
      repeat' split
      · exact ⟨rfl, rfl, rfl⟩
      · exact ⟨rfl, rfl, rfl⟩
      · exact hroom
      · exact hroom.trans (pushAxle_supply _ t _ c speed _)
    · simp only [State.reverse]
      repeat' split
      all_goals exact ⟨rfl, rfl, rfl⟩
  · exact .refl s

theorem openTrain_supply (s : State) (t : Track) (c : Crossing) (speed : Nat × ValueClass) :
    SameSupply s (s.openTrain t c speed) :=
  handCrossing_supply (withNewTrain s t c) t c speed

/-! ### Timers and modes -/

theorem startStuckIfOn_supply (s : State) (t : Track) (h : Head) : SameSupply s (s.startStuckIfOn t h) := by
  simp only [State.startStuckIfOn]
  split
  · exact checkSetting_supply s (stuckItem s t)
  · exact .refl s

theorem startStuckBoth_supply (s : State) (t : Track) : SameSupply s ((s.startStuckIfOn t .a).startStuckIfOn t .b) :=
  (startStuckIfOn_supply s t .a).trans (startStuckIfOn_supply _ t .b)

theorem resumeStuck_supply (s : State) (t : Track) : SameSupply s (s.resumeStuck t) :=
  (checkSetting_supply s (itemFitted t)).trans (startStuckBoth_supply _ t)

theorem startTSettle_supply (s : State) (t : Track) : SameSupply s (s.startTSettle t) := checkSetting_supply s itemTSettle
theorem startTEnd_supply (s : State) (t : Track) : SameSupply s (s.startTEnd t) := checkSetting_supply s itemTEnd
theorem startTStand_supply (s : State) (t : Track) : SameSupply s (s.startTStand t) := checkSetting_supply s itemTStand
theorem startTAbandon_supply (s : State) (t : Track) : SameSupply s (s.startTAbandon t) := checkSetting_supply s itemTAbandon
theorem startTDormant_supply (s : State) (t : Track) : SameSupply s (s.startTDormant t) := checkSetting_supply s itemTDormant
theorem startTRetare_supply (s : State) (t : Track) : SameSupply s (s.startTRetare t) := checkSetting_supply s itemTRetare

theorem startTrainTimer_supply (s : State) (t : Track) : SameSupply s (s.startTrainTimer t) := by
  simp only [State.startTrainTimer]
  repeat' split
  · exact startTStand_supply s t
  · exact startTSettle_supply s t
  · exact startTEnd_supply s t

theorem onTrack_supply (s : State) (t : Track) (f : Sequencer → Sequencer) : SameSupply s (s.onTrack t f) := ⟨rfl, rfl, rfl⟩

theorem enterArmed_supply (s : State) (t : Track) : SameSupply s (s.enterArmed t) :=
  ((onTrack_supply s t _).trans (startTDormant_supply _ t)).trans (startTRetare_supply _ t)

theorem enterArming_supply (s : State) (t : Track) : SameSupply s (s.enterArming t) := by
  simp only [State.enterArming]
  split
  · exact ⟨rfl, rfl, rfl⟩
  · exact (onTrack_supply s t _).trans (enterArmed_supply _ t)

theorem closeToArming_supply (s : State) (t : Track) (reason : CloseReason) : SameSupply s (s.closeToArming t reason) :=
  (closeRequest_supply s t reason).trans (enterArming_supply _ t)

theorem atTrack_supply (s : State) (t : Track) (now : Nat) : SameSupply s (s.atTrack t now) :=
  checkSetting_supply (s.advance now) (itemFitted t)

theorem enterFault_supply (s : State) (t : Track) (h : Head) : SameSupply s (s.enterFault t h) := by
  simp only [State.enterFault]
  refine (closeRequest_supply s t .detectorFault).trans (.trans ?_ (enterAlarm_supply _ _))
  exact ⟨rfl, rfl, rfl⟩

/-! ### Crossings and occupancy -/

theorem disposeCrossing_supply (s : State) (t : Track) (c : Crossing) (speed : Nat × ValueClass) :
    SameSupply s (s.disposeCrossing t c speed) := by
  have hopen := openTrain_supply (s.abandonRefresh t) t c speed
  have hhand := handCrossing_supply s t c speed
  simp only [State.disposeCrossing]
  repeat' split
  · exact onTrack_supply s t _
  · exact (hopen.trans (onTrack_supply _ t _)).trans (startTrainTimer_supply _ t)
  · exact (hopen.trans (onTrack_supply _ t _)).trans (startTrainTimer_supply _ t)
  · exact hhand.trans (startTrainTimer_supply _ t)
  · exact (hhand.trans (onTrack_supply _ t _)).trans (startTrainTimer_supply _ t)
  · exact .refl s
  · exact .refl s

theorem headOnActive_supply (s : State) (t : Track) (h : Head) : SameSupply s (s.headOnActive t h) := by
  have hcross (w : State) : SameSupply w (w.headCrossing t h) := by
    simp only [State.headCrossing]
    repeat' split
    · exact onTrack_supply w t _
    · exact onTrack_supply w t _
    · simp only [State.recognise]
      exact ((onTrack_supply w t _).trans (checkSettings_supply _ [itemD t, itemVLow])).trans (disposeCrossing_supply _ t _ _)
  have hstuck := startStuckIfOn_supply s t h
  simp only [State.headOnActive]
  refine .trans ?_ (hcross _)
  split
  · exact hstuck.trans (enterArming_supply _ t)
  · exact hstuck

theorem occupancyClears_supply (s : State) (t : Track) : SameSupply s (s.occupancyClears t) := by
  have hstuck := startStuckBoth_supply s t
  simp only [State.occupancyClears]
  split
  · exact (hstuck.trans (onTrack_supply _ t _)).trans (startTSettle_supply _ t)
  · exact hstuck.trans (startTSettle_supply _ t)
  · exact hstuck

theorem occupancyFills_supply (s : State) (t : Track) : SameSupply s (s.occupancyFills t) := by
  simp only [State.occupancyFills]
  split
  · exact ((onTrack_supply s t stopStuck).trans (onTrack_supply _ t _)).trans (startTStand_supply _ t)
  · exact ⟨rfl, rfl, rfl⟩
  · exact onTrack_supply s t _

/-! ### Samples -/

theorem refreshStep_supply (s : State) (t : Track) (value : Nat → Sample) : SameSupply s (s.refreshStep t value) := by
  have htares (w : State) : SameSupply w (withTares w t) := ⟨rfl, rfl, rfl⟩
  have hdone (w : State) : SameSupply w (w.completeRefresh t) := by
    rw [completeRefresh_eq]
    exact (checkSetting_supply w (itemFitted t)).trans ((htares _).trans (enterArmed_supply _ t))
  simp only [State.refreshStep]
  repeat' split
  · refine .trans ?_ (hdone _)
    exact ⟨rfl, rfl, rfl⟩
  all_goals exact ⟨rfl, rfl, rfl⟩

theorem writeSample_supply (s : State) (samples : List Sample) : SameSupply s (s.writeSample samples) := by
  simp only [State.writeSample]
  refine .trans ?_ (.trans (refreshStep_supply _ .one _) (refreshStep_supply _ .two _))
  exact ⟨rfl, rfl, rfl⟩

/-! ### Jobs and the watch -/

theorem answer_supply (s : State) (p : Port) (st : Status) (pl : Payload) : SameSupply s (s.answer p st pl) := ⟨rfl, rfl, rfl⟩

theorem settleSnapshot_supply (s : State) (j : Job) (peak : Option Int) : SameSupply s (s.settleSnapshot j peak) := by
  simp only [State.settleSnapshot]
  repeat' split
  all_goals exact ⟨rfl, rfl, rfl⟩

theorem testWatch_supply (s : State) (j : Job) (train entry : Nat) (r : Results) :
    SameSupply s (s.testWatch j train entry r) := by
  have hmark : SameSupply s (s.onAxle entry fun a => { a with watched := true }) := ⟨rfl, rfl, rfl⟩
  simp only [State.testWatch, State.actOnMatch]
  repeat' split
  · exact .refl s
  · simp only [State.lockWatch]
    refine (hmark.trans (checkAxle_supply _ entry [])).trans (.trans ?_ (settleSnapshot_supply _ j _))
    exact ⟨rfl, rfl, rfl⟩
  · exact ⟨rfl, rfl, rfl⟩
  · exact .refl s

theorem judgeLive_supply (s : State) (t : Track) (train entry axle : Nat) (r : Results) :
    SameSupply s (s.judgeLive t train entry axle r) :=
  foldl_supply _ (fun s (q : AlarmKind × Option Side × Nat × ValueClass) =>
    judgeAxle_supply s ⟨some t, some train, some axle, q.2.1, q.1⟩ entry q.2.2.1 q.2.2.2) (axleJudgements r) s

theorem deliver_supply (s : State) (j : Job) (train entry axle : Nat) (r : Results) :
    SameSupply s (s.deliver j train entry axle r) := by
  have hdrawn : SameSupply s { s.onAxle entry (writeResults r) with free := s.free + 1 } := ⟨rfl, rfl, rfl⟩
  have hwritten : SameSupply s (s.onAxle entry (writeResults r)) := ⟨rfl, rfl, rfl⟩
  simp only [State.deliver]
  repeat' split
  · exact (hdrawn.trans (testWatch_supply _ j train entry r)).trans (judgeLive_supply _ _ _ _ _ _)
  · exact (hdrawn.trans (judgeLive_supply _ _ _ _ _ _)).trans (testWatch_supply _ j train entry r)
  · exact hwritten.trans (judgeLive_supply _ _ _ _ _ _)

theorem complete_supply (s : State) (f : InFlight) : SameSupply s (s.complete f) := by
  have hended : SameSupply s { s with aee.inFlight := none } := ⟨rfl, rfl, rfl⟩
  simp only [State.complete]
  repeat' split
  · exact ⟨rfl, rfl, rfl⟩
  · exact hended.trans (deliver_supply _ _ _ _ _ _)
  · exact hended.trans (answer_supply _ _ _ _)
  · exact hended

theorem takeJob_supply (s : State) (j : Job) : SameSupply s (s.takeJob j) := by
  have hread := checkSettings_supply s (((trackRows j.track).map itemGain) ++ [itemPMin])
  simp only [State.takeJob]
  split
  · refine hread.trans (.trans ?_ (complete_supply _ _))
    exact ⟨rfl, rfl, rfl⟩
  · exact hread.trans ⟨rfl, rfl, rfl⟩

theorem copyByNow_supply (s : State) : SameSupply s s.copyByNow := by
  simp only [State.copyByNow]
  split <;> exact ⟨rfl, rfl, rfl⟩

theorem tearCopy_supply (s : State) : SameSupply s s.tearCopy := by
  have hcopied := copyByNow_supply s
  simp only [State.tearCopy]
  split
  · exact hcopied.trans ⟨rfl, rfl, rfl⟩
  · exact hcopied

/-! ### The Report Builder -/

theorem takeClosing_supply {c : ClosingTrain} (h : s.takeClosing = some (c, u)) : SameSupply s u := by
  simp only [State.takeClosing] at h
  repeat' split at h
  all_goals cases h
  all_goals exact ⟨rfl, rfl, rfl⟩

theorem makeRecord_supply (s : State) (o : CloseOp) (header : Nat) (refs : List Nat) :
    SameSupply s (s.makeRecord o header refs) :=
  checkSettings_supply s [itemReportHolder, itemAlarmHoldLevel]

theorem discardTrain_supply (s : State) (o : CloseOp) : SameSupply s (s.discardTrain o) :=
  enterAlarm_supply { s with trs.axles := freeAll s.trs.axles (o.closing.train.stack.map StackItem.entry) } _

end Sys2Proof.Machine

/-! SUPPORT. The requests, RESTART, the freeze and the START check, by what they do to the supply. -/

namespace Sys2Proof.Machine

variable {s u v : State}

/-! ### Requests -/

theorem recordList_supply (s : State) (p : Port) (first : Nat) : SameSupply s (s.recordList p first) := by
  simp only [State.recordList]
  split
  · exact answer_supply s p _ _
  · refine .trans ?_ (answer_supply _ p _ _)
    exact foldl_supply _ (fun s (r : RecordDir) => checkHeader_supply s r.header summaryFields) _ s

theorem headerRead_supply (s : State) (p : Port) (n : Nat) : SameSupply s (s.headerRead p n) := by
  simp only [State.headerRead]
  split
  · exact (checkHeader_supply s _ []).trans (answer_supply _ p _ _)
  · exact answer_supply s p _ _

theorem axleRead_supply (s : State) (p : Port) (n first : Nat) : SameSupply s (s.axleRead p n first) := by
  simp only [State.axleRead]
  repeat' split
  · exact answer_supply s p _ _
  · next r _ =>
    refine .trans (.trans (checkHeader_supply s r.header [.stackDepth, .phantomCount]) ?_) (answer_supply _ p _ _)
    exact foldl_supply _ (fun s k => checkAxle_supply s k []) _ _
  · exact answer_supply s p _ _

theorem vehicleRead_supply (s : State) (p : Port) (n first : Nat) : SameSupply s (s.vehicleRead p n first) := by
  simp only [State.vehicleRead]
  repeat' split
  · exact answer_supply s p _ _
  · next r _ =>
    refine .trans (.trans (checkHeader_supply s r.header [.vehicleCount]) ?_) (answer_supply _ p _ _)
    exact foldl_supply _ (fun s k => checkVehicle_supply s k) _ _
  · exact answer_supply s p _ _

theorem releaseRecord_supply (s : State) (p : Port) (n : Nat) : SameSupply s (s.releaseRecord p n) := by
  simp only [State.releaseRecord]
  repeat' split
  all_goals exact ⟨rfl, rfl, rfl⟩

theorem purgeRecord_supply (s : State) (p : Port) (n : Nat) : SameSupply s (s.purgeRecord p n) := by
  simp only [State.purgeRecord]
  repeat' split
  all_goals exact ⟨rfl, rfl, rfl⟩

theorem alarmRead_supply (s : State) (p : Port) (selection first : Nat) : SameSupply s (s.alarmRead p selection first) := by
  have hread := checkAlarms_supply s
  simp only [State.alarmRead]
  repeat' split
  · exact answer_supply s p _ _
  · exact hread.trans ⟨rfl, rfl, rfl⟩
  · exact hread.trans (answer_supply _ p _ _)

theorem clearNumber_supply (s : State) (p : Port) (n : Nat) : SameSupply s (s.clearNumber p n) := by
  have hread := checkAlarms_supply s
  simp only [State.clearNumber]
  repeat' split
  · exact answer_supply s p _ _
  · exact hread.trans (answer_supply _ p _ _)
  · exact hread.trans ⟨rfl, rfl, rfl⟩
  · exact hread.trans (answer_supply _ p _ _)

theorem clearTrack_supply (s : State) (p : Port) (n : Nat) : SameSupply s (s.clearTrack p n) := by
  simp only [State.clearTrack]
  split
  · exact (checkAlarms_supply s).trans ⟨rfl, rfl, rfl⟩
  · exact answer_supply s p _ _

theorem liveAxleRead_supply (s : State) (p : Port) (n : Nat) : SameSupply s (s.liveAxleRead p n) := by
  simp only [State.liveAxleRead]
  repeat' split
  · exact answer_supply s p _ _
  · exact answer_supply s p _ _
  · refine .trans ?_ (answer_supply _ p _ _)
    exact foldl_supply _ (fun s k => checkAxle_supply s k []) _ s

theorem windowRead_supply (s : State) (p : Port) (count : Nat) : SameSupply s (s.windowRead p count) := by
  simp only [State.windowRead]
  repeat' split
  · exact answer_supply s p _ _
  · exact answer_supply s p _ _
  · exact (copyByNow_supply s).trans ⟨rfl, rfl, rfl⟩
  · exact ⟨rfl, rfl, rfl⟩

theorem windowWrite_supply (s : State) (p : Port) (samples : List Sample) : SameSupply s (s.windowWrite p samples) := by
  simp only [State.windowWrite]
  repeat' split
  all_goals exact ⟨rfl, rfl, rfl⟩

theorem setCondition_supply (s : State) (c : Condition) : SameSupply s (s.setCondition c) := by
  simp only [State.setCondition]
  split <;> exact ⟨rfl, rfl, rfl⟩

theorem releaseWatch_supply (s : State) (p : Port) : SameSupply s (s.releaseWatch p) := by
  simp only [State.releaseWatch]
  repeat' split
  all_goals exact ⟨rfl, rfl, rfl⟩

theorem evaluateSnapshot_supply (s : State) (p : Port) (f : SnapshotFields) : SameSupply s (s.evaluateSnapshot p f) := by
  have hread := checkSettings_supply s [itemD f.track, itemH f.track, itemW f.track]
  simp only [State.evaluateSnapshot]
  repeat' split
  · exact hread.trans (answer_supply _ p _ _)
  · exact hread.trans (answer_supply _ p _ _)
  · exact hread.trans (answer_supply _ p _ _)
  · exact hread.trans (checkSettings_supply _ [itemGs f.track, itemGe f.track, itemVLow])

theorem settingsRead_supply (s : State) (p : Port) (first count : Nat) : SameSupply s (s.settingsRead p first count) := by
  simp only [State.settingsRead]
  split
  · exact answer_supply s p _ _
  · exact (checkSettings_supply s _).trans (answer_supply _ p _ _)

theorem storeItems_supply (s : State) (l : List (Nat × Int)) : SameSupply s (s.storeItems l) :=
  foldl_supply
    (fun (s : State) (e : Nat × Int) =>
      State.cleanEntry { s with settings := putSetting s.settings e.1 e.2 } .settings e.1)
    (fun _ _ => ⟨rfl, rfl, rfl⟩) l s

theorem setPermissions_supply (s : State) (p : Port) (entries : List Nat) : SameSupply s (s.setPermissions p entries) := by
  simp only [State.setPermissions]
  split
  · exact answer_supply s p _ _
  · exact (storeItems_supply s _).trans (answer_supply _ p _ _)

theorem settingsWrite_supply (s : State) (p : Port) (pairs : List (Nat × Nat)) : SameSupply s (s.settingsWrite p pairs) := by
  have hread (l : List (Nat × Int)) : SameSupply s (s.readGeometry l) := checkSettings_supply s (presentItems l)
  have hstuck (w : State) (l : List (Nat × Int)) (t : Track) : SameSupply w (w.rewatchStuck l t) := by
    simp only [State.rewatchStuck]
    split
    · exact (onTrack_supply w t stopStuck).trans (resumeStuck_supply _ t)
    · exact .refl w
  simp only [State.settingsWrite]
  repeat' split
  · exact answer_supply s p _ _
  · exact (hread _).trans (answer_supply _ p _ _)
  · exact (hread _).trans (answer_supply _ p _ _)
  · exact (hread _).trans ((storeItems_supply _ _).trans ((hstuck _ _ .one).trans ((hstuck _ _ .two).trans
      (answer_supply _ p _ _))))

theorem forceClose_supply (s : State) (p : Port) (n : Nat) : SameSupply s (s.forceClose p n) := by
  simp only [State.forceClose]
  split
  · exact answer_supply s p _ _
  · next t _ =>
    split
    · exact answer_supply s p _ _
    · exact ((checkSetting_supply s (itemFitted t)).trans (closeToArming_supply _ t .forced)).trans (answer_supply _ p _ _)

theorem giveStatus_supply (s : State) (p : Port) (sect : Nat) : SameSupply s (s.giveStatus p sect) := by
  have hread : SameSupply s (if sect = 7 then s.checkSetting itemRetentionPolicy else s) := by
    split
    · exact checkSetting_supply s itemRetentionPolicy
    · exact .refl s
  simp only [State.giveStatus]
  split <;> exact hread.trans (answer_supply _ p _ _)

/-! ### RESTART -/

theorem restartTrains_supply (s : State) : SameSupply s s.restartTrains := by
  have hcancel (l : List Train) (w : State) : SameSupply w (l.foldl (fun s tr => s.cancelJobs tr.number) w) :=
    foldl_supply _ (fun s tr => cancelJobs_supply s tr.number) l w
  have hover (w : State) : SameSupply w (State.handOverAll { w with aee.queue := [] }) := ⟨rfl, rfl, rfl⟩
  exact ((closeRequest_supply s .one .forced).trans (closeRequest_supply _ .two .forced)).trans
    ((hcancel _ _).trans (hover _))

theorem restartTrack_supply (s : State) (t : Track) : SameSupply s (s.restartTrack t) := by
  simp only [State.restartTrack]
  have habandon : SameSupply s (s.abandonRefresh t) := ⟨rfl, rfl, rfl⟩
  exact ((habandon.trans (onTrack_supply _ t _)).trans (enterArming_supply _ t)).trans (resumeStuck_supply _ t)

theorem restart_supply (s : State) (p : Port) : SameSupply s (s.restart p) := by
  have hothers (w : State) : SameSupply w (w.restartOthers p) := by
    refine foldl_supply _ (fun s q => ?_) _ w
    split
    · exact .refl s
    · exact answer_supply s q _ _
  have htracks := ((restartTrains_supply s).trans (restartTrack_supply _ .one)).trans (restartTrack_supply _ .two)
  exact htracks.trans ((tearCopy_supply _).trans ((hothers _).trans (answer_supply _ p _ _)))

/-! ### The freeze and its end -/

theorem beforeTracks_supply (s : State) : SameSupply (enteringFrozen s) (beforeTracks s) := by
  rw [beforeTracks_eq]
  exact ⟨rfl, rfl, rfl⟩

theorem freezeTrack_supply (s : State) (t : Track) : SameSupply s (s.freezeTrack t) := by
  have hstop (w : State) : SameSupply w (stopRefresh w t) := by
    unfold stopRefresh
    split
    · exact enterArmed_supply (w.abandonRefresh t) t
    · exact ⟨rfl, rfl, rfl⟩
  have hstopped := (checkSetting_supply s (itemFitted t)).trans (hstop _)
  cases h : (s.checkSetting (itemFitted t)).tas.opens.get t with
  | some tr =>
    rw [freezeTrack_some tr h]
    exact (hstopped.trans (closeToArming_supply _ t .power)).trans (enterAlarm_supply _ _)
  | none => rw [freezeTrack_none h]; exact hstopped

theorem freeze_supply (s : State) : SameSupply (enteringFrozen s) s.freeze := by
  rw [freeze_eq]
  exact ((beforeTracks_supply s).trans (freezeTrack_supply _ .one)).trans (freezeTrack_supply _ .two)

theorem leaveTrack_supply (s : State) (t : Track) : SameSupply s (s.leaveTrack t) := by
  have harming := (checkSetting_supply s (itemFitted t)).trans (enterArming_supply _ t)
  simp only [State.leaveTrack]
  split
  · exact harming.trans (resumeStuck_supply _ t)
  · exact harming

/-! ### The end of the START check -/

theorem readRecord_supply (s : State) (r : RecordDir) : SameSupply s (s.readRecord r) :=
  ((checkHeader_supply s r.header []).trans (foldl_supply _ (fun s k => checkVehicle_supply s k) r.vehicles _)).trans
    (foldl_supply _ (fun s k => checkAxle_supply s k []) r.axles _)

theorem keepRegion_supply (s : State) : SameSupply s s.keepRegion := by
  have hfree (w : State) : SameSupply w w.freeRest := ⟨rfl, rfl, rfl⟩
  have hmarks (w : State) : SameSupply w { w with alm.list := w.alm.list.map fun a => { a with delivered := false } } :=
    ⟨rfl, rfl, rfl⟩
  exact ((foldl_supply _ readRecord_supply s.trs.records s).trans (hfree _)).trans
    (((checkAlarms_supply _).trans (checkSettings_supply _ allItems)).trans (hmarks _))

theorem checkRegion_sup (s : State) (take : Bool) : (s.checkRegion take).sup = s.sup := by
  simp only [State.checkRegion]
  split
  · rfl
  · exact (keepRegion_supply s).1

theorem startTrack_supply (s : State) (t : Track) : SameSupply s (s.startTrack t) := by
  simp only [State.startTrack]
  split
  · exact (onTrack_supply s t _).trans (resumeStuck_supply _ t)
  · exact (enterArming_supply s t).trans (resumeStuck_supply _ t)

/-- The region checked, the supply of a part taken into service is settled before its tracks start. -/
theorem intoService_supply (s : State) (inputs : Inputs) (samples : List Sample) :
    SameSupply ((s.startBlocks inputs).checkRegion inputs.take).startSupply (s.intoService inputs samples) := by
  have hzero (w : State) : SameSupply w (w.sampleZero samples) := ⟨rfl, rfl, rfl⟩
  have hn (w : State) : SameSupply w ((((w.startTrack .one).startTrack .two).sampleZero samples).testNotice) :=
    ((startTrack_supply w .one).trans (startTrack_supply _ .two)).trans ((hzero _).trans (testNotice_supply _))
  simp only [State.intoService]
  split
  · exact (hn _).trans (enterAlarm_supply _ _)
  · exact hn _

end Sys2Proof.Machine

/-! Every command keeps the Supply Monitor's agreement (O7): all but the eight events of the supply and the end of the START check
leave what it looks at alone. -/

namespace Sys2Proof.Machine

variable {s u : State}

/-! ### Outcomes -/

/-- The Supply Monitor agrees in the state an outcome leads to. -/
def KeepsSupply (o : Host.Outcome State Fault Refusal) : Prop := ∀ u, o = .next u → SupplyAgrees u

theorem keepsSupply_next (h : SupplyAgrees u) : KeepsSupply (.next u) := by
  rintro v ⟨⟩; exact h

theorem driveLines_supply (s : State) : SameSupply s s.driveLines := ⟨rfl, rfl, rfl⟩

theorem advance_supply (s : State) (now : Nat) : SameSupply s (s.advance now) := ⟨rfl, rfl, rfl⟩

theorem letClose_driven_supply (s : State) : SameSupply s s.letClose.driveLines :=
  (letClose_supply s).trans (driveLines_supply _)

/-- An event acts outside the START check only. -/
theorem keepsSupply_whenUp (ha : SupplyAgrees s) {r : Option State}
    (h : s.startCheck = false → ∀ u, r = some u → SupplyAgrees u) : KeepsSupply (whenUp s r) := by
  cases hc : s.startCheck with
  | true => rw [whenUp_checking s r hc]; exact keepsSupply_next ha
  | false =>
    cases r with
    | none => rw [whenUp_none]; exact keepsSupply_next ha
    | some u =>
      rw [whenUp_some s u hc]
      exact keepsSupply_next ((letClose_driven_supply u).agrees (h hc u rfl))

theorem keepsSupply_some (ha : SupplyAgrees s) (h : s.startCheck = false → SupplyAgrees u) :
    KeepsSupply (whenUp s (some u)) :=
  keepsSupply_whenUp ha (by rintro hc v ⟨⟩; exact h hc)

/-- An event that leaves the supply alone. -/
theorem keepsSupply_same (ha : SupplyAgrees s) {r : Option State} (h : ∀ u, r = some u → SameSupply s u) :
    KeepsSupply (whenUp s r) :=
  keepsSupply_whenUp ha fun _ u hu => (h u hu).agrees ha

theorem keepsSupply_someSame (ha : SupplyAgrees s) (h : SameSupply s u) : KeepsSupply (whenUp s (some u)) :=
  keepsSupply_some ha fun _ => h.agrees ha

/-- An expiry that leaves the supply alone at its count. -/
theorem keepsSupply_expiry (ha : SupplyAgrees s) {timer : Timer} {f : Nat → State} (h : ∀ e, SameSupply s (f e)) :
    KeepsSupply (whenUp s (timer.map f)) := by
  refine keepsSupply_same ha fun u hu => ?_
  obtain ⟨e, -, rfl⟩ := Option.map_eq_some_iff.1 hu
  exact h e

/-- A request's work leaves the supply alone, so does its event. -/
theorem keepsSupply_work (ha : SupplyAgrees s) (p : Port) (now : Nat) {work : Request → Option (State → State)}
    (h : ∀ r f, work r = some f → ∀ w, SameSupply w (f w)) : KeepsSupply (workEvent p now s work) := by
  rcases workEvent_next p now s work with hn | ⟨r, f, -, hf, hn⟩
  · rw [hn]; exact keepsSupply_next ha
  · rw [hn]
    have hread := (advance_supply s now).trans (checkSetting_supply (s.advance now) (itemPermission r.row))
    have hdenied (w : State) : SameSupply w (w.onPort p fun x => { x with denials := bump x.denials }) := ⟨rfl, rfl, rfl⟩
    refine keepsSupply_next (SameSupply.agrees (s := s) (.trans ?_ (letClose_driven_supply _)) ha)
    rcases serve_cases (s.advance now) p r f with h1 | h1 | h1 <;> rw [h1]
    · exact hread.trans ((hdenied _).trans (answer_supply _ p _ _))
    · exact hread.trans (answer_supply _ p _ _)
    · exact hread.trans (h r f hf _)

/-! ### Track events -/

/-- A track's event at its count: the clock, its level or its timer. -/
theorem expired_supply (s : State) (t : Track) (e : Nat) (f : Sequencer → Sequencer) :
    SameSupply s ((s.atTrack t e).onTrack t f) :=
  (atTrack_supply s t e).trans (onTrack_supply _ t f)

theorem headOn_keepsSupply (ha : SupplyAgrees s) (t : Track) (h : Head) (now : Nat) :
    KeepsSupply (exec (.headOn t h now) s) := by
  refine keepsSupply_someSame ha ((expired_supply s t now (setHead h true)).trans ?_)
  split
  · exact onTrack_supply _ t _
  · exact headOnActive_supply _ t h

theorem headOff_keepsSupply (ha : SupplyAgrees s) (t : Track) (h : Head) (now : Nat) :
    KeepsSupply (exec (.headOff t h now) s) := by
  refine keepsSupply_someSame ha ((expired_supply s t now (setHead h false)).trans ?_)
  split <;> exact onTrack_supply _ t _

theorem approachPulse_keepsSupply (ha : SupplyAgrees s) (t : Track) (now : Nat) :
    KeepsSupply (exec (.approachPulse t now) s) := by
  refine keepsSupply_someSame ha ((atTrack_supply s t now).trans ?_)
  split
  · exact enterArming_supply _ t
  · exact startTDormant_supply _ t
  all_goals exact .refl _

theorem occupancy_keepsSupply (ha : SupplyAgrees s) (t : Track) (level : Bool) (now : Nat) {act : State → State}
    (hact : ∀ w, SameSupply w (act w)) :
    KeepsSupply (whenUp s (some
      (if occupancyActs ((s.atTrack t now).setOccupied t level) t then act ((s.atTrack t now).setOccupied t level)
        else (s.atTrack t now).setOccupied t level))) := by
  refine keepsSupply_someSame ha ((expired_supply s t now (fun q => { q with occupied := level })).trans ?_)
  split
  · exact hact _
  · exact .refl _

/-- The expiry of a timer that closes an open train. -/
theorem closingTimer_keepsSupply (ha : SupplyAgrees s) (t : Track) (reason : CloseReason) {timer : Timer}
    {f : Sequencer → Sequencer} :
    KeepsSupply (whenUp s (timer.map fun e =>
      if trainMode ((((s.atTrack t e).onTrack t f)).ts.get t).mode then ((s.atTrack t e).onTrack t f).closeToArming t reason
      else (s.atTrack t e).onTrack t f)) := by
  refine keepsSupply_expiry ha fun e => (expired_supply s t e f).trans ?_
  split
  · exact closeToArming_supply _ t reason
  · exact .refl _

theorem tStandExpiry_keepsSupply (ha : SupplyAgrees s) (t : Track) : KeepsSupply (exec (.tStandExpiry t) s) := by
  refine keepsSupply_expiry ha fun e => (expired_supply s t e (fun q => { q with tStand := none })).trans ?_
  dsimp only
  split
  · exact (onTrack_supply _ t _).trans (startTAbandon_supply _ t)
  · exact .refl _

theorem tDormantExpiry_keepsSupply (ha : SupplyAgrees s) (t : Track) : KeepsSupply (exec (.tDormantExpiry t) s) := by
  refine keepsSupply_expiry ha fun e => (expired_supply s t e (fun q => { q with tDormant := none })).trans
    ((checkSetting_supply _ (itemDormancy t)).trans ?_)
  dsimp only
  split
  · exact onTrack_supply _ t _
  · exact .refl _

theorem tRetareExpiry_keepsSupply (ha : SupplyAgrees s) (t : Track) : KeepsSupply (exec (.tRetareExpiry t) s) := by
  refine keepsSupply_expiry ha fun e => (expired_supply s t e (fun q => { q with tRetare := none })).trans ?_
  dsimp only
  split
  · exact enterArming_supply _ t
  · exact .refl _

theorem stuckTimerExpiry_keepsSupply (ha : SupplyAgrees s) (t : Track) (h : Head) :
    KeepsSupply (exec (.stuckTimerExpiry t h) s) := by
  refine keepsSupply_expiry ha fun e => (expired_supply s t e (fun q => { q with stuck := q.stuck.set (headIx h) none })).trans ?_
  dsimp only
  split
  · exact .refl _
  · exact enterFault_supply _ t h

theorem faultRecoveryExpiry_keepsSupply (ha : SupplyAgrees s) (t : Track) :
    KeepsSupply (exec (.faultRecoveryExpiry t) s) := by
  refine keepsSupply_expiry ha fun e => (expired_supply s t e (fun q => { q with recovery := none })).trans ?_
  dsimp only
  split
  · exact (enterArming_supply _ t).trans (resumeStuck_supply _ t)
  · exact .refl _

/-! ### Work events of the engine, the Report Builder and the lines -/

theorem jobTake_keepsSupply (ha : SupplyAgrees s) : KeepsSupply (exec .jobTake s) := by
  refine keepsSupply_same ha fun u hu => ?_
  split at hu <;> cases hu
  exact takeJob_supply s _

theorem liveJobComplete_keepsSupply (ha : SupplyAgrees s) (now : Nat) : KeepsSupply (exec (.liveJobComplete now) s) := by
  refine keepsSupply_same ha fun u hu => ?_
  repeat' split at hu
  all_goals cases hu
  exact (advance_supply s now).trans (complete_supply _ _)

theorem serviceJobComplete_keepsSupply (ha : SupplyAgrees s) (now : Nat) :
    KeepsSupply (exec (.serviceJobComplete now) s) := by
  refine keepsSupply_same ha fun u hu => ?_
  repeat' split at hu
  all_goals cases hu
  exact (advance_supply s now).trans (complete_supply _ _)

theorem snapshotCopyEnd_keepsSupply (ha : SupplyAgrees s) (now : Nat) : KeepsSupply (exec (.snapshotCopyEnd now) s) := by
  refine keepsSupply_same ha fun u hu => ?_
  split at hu <;> cases hu
  exact ⟨rfl, rfl, rfl⟩

theorem closeTake_keepsSupply (ha : SupplyAgrees s) : KeepsSupply (exec .closeTake s) := by
  refine keepsSupply_same ha fun u hu => ?_
  split at hu
  · next c s1 _ hc =>
    cases hu
    refine (takeClosing_supply hc).trans ((checkSettings_supply s1 [itemBMax, itemVMin]).trans ?_)
    exact ⟨rfl, rfl, rfl⟩
  · cases hu

theorem recordAppend_keepsSupply (ha : SupplyAgrees s) (now : Nat) : KeepsSupply (exec (.recordAppend now) s) := by
  refine keepsSupply_same ha fun u hu => ?_
  obtain ⟨o, -, hu⟩ := Option.bind_eq_some_iff.1 hu
  obtain ⟨o', -, hu⟩ := Option.bind_eq_some_iff.1 hu
  split at hu <;> cases hu
  exact ((advance_supply s now).trans (finishPieces_supply _ o)).trans (makeRecord_supply _ _ _ _)

theorem requestHeader_supply (s : State) : SameSupply s s.requestHeader.1 := makeRoom_supply s headerRoom

theorem discardedFull_keepsSupply (ha : SupplyAgrees s) (now : Nat) : KeepsSupply (exec (.discardedFull now) s) := by
  refine keepsSupply_same ha fun u hu => ?_
  obtain ⟨o, -, hu⟩ := Option.bind_eq_some_iff.1 hu
  obtain ⟨o', -, hu⟩ := Option.bind_eq_some_iff.1 hu
  split at hu
  · next s2 _ hr =>
    cases hu
    have hasked := requestHeader_supply ((s.advance now).finishPieces o)
    rw [hr] at hasked
    exact (((advance_supply s now).trans (finishPieces_supply _ o)).trans hasked).trans (discardTrain_supply _ _)
  · cases hu

theorem takeRises_keepsSupply (ha : SupplyAgrees s) (now : Nat) : KeepsSupply (exec (.takeRises now) s) := by
  refine keepsSupply_someSame ha ?_
  dsimp only
  split <;> exact ⟨rfl, rfl, rfl⟩

theorem takeFalls_keepsSupply (ha : SupplyAgrees s) (now : Nat) : KeepsSupply (exec (.takeFalls now) s) := by
  refine keepsSupply_someSame ha ?_
  dsimp only
  split
  · refine .trans ?_ (testNotice_supply _)
    exact ⟨rfl, rfl, rfl⟩
  · refine .trans ?_ (testNotice_supply _)
    exact ⟨rfl, rfl, rfl⟩
  · exact ⟨rfl, rfl, rfl⟩

/-! ### The supply -/

namespace SupplyAgrees

/-- Outside FROZEN the freeze is NONE. -/
theorem freeze_none (ha : SupplyAgrees s) (hm : s.sup.mode ≠ .frozen) : s.sup.freeze = .none := by
  by_contra hf
  exact hm (ha.frozen.2 hf)

/-- The leave timer is stopped until the freeze is COMPLETE. -/
theorem leave_none (ha : SupplyAgrees s) (hf : s.sup.freeze ≠ .complete) : s.sup.leaveTimer = none := by
  by_contra hl
  exact hf (ha.leave hl).1

/-- Once the START check is over the marker is CONSISTENT only with the freeze COMPLETE. -/
theorem marker_up (ha : SupplyAgrees s) (hc : s.startCheck = false) (hm : s.trs.marker = .consistent) :
    s.sup.freeze = .complete :=
  (ha.marker hm).resolve_left (by rw [hc]; nofun)

theorem recovery_none (ha : SupplyAgrees s) (hm : s.sup.mode ≠ .reduced) : s.sup.recoveryTimer = none := by
  by_contra hr
  exact hm (ha.recovery hr)

end SupplyAgrees

/-- The leave timer starts only where it may run (R205). -/
theorem testLeave_supplyAgrees (ha : SupplyAgrees s) : SupplyAgrees s.testLeave := by
  simp only [State.testLeave]
  split
  · next h =>
    obtain ⟨-, hf, hh, hs, -⟩ := h
    exact { ha with leave := fun _ => ⟨hf, hh, hs⟩ }
  · exact ha

theorem supplyFailActive_keepsSupply (ha : SupplyAgrees s) (now : Nat) :
    KeepsSupply (exec (.supplyFailActive now) s) := by
  refine keepsSupply_some ha fun _ => ?_
  dsimp only
  split
  · next hm =>
    have hl := ha.leave_none (by rw [ha.freeze_none (by rw [hm]; nofun)]; nofun)
    exact { ha with fail := fun _ => hm, leave := fun h => absurd hl h }
  · next hm =>
    have hl := ha.leave_none (by rw [ha.freeze_none (by rw [hm]; nofun)]; nofun)
    exact { ha with recovery := fun h => absurd rfl h, leave := fun h => absurd hl h }
  · exact { ha with leave := fun h => absurd rfl h }

theorem supplyFailInactive_keepsSupply (ha : SupplyAgrees s) (now : Nat) :
    KeepsSupply (exec (.supplyFailInactive now) s) := by
  refine keepsSupply_some ha fun _ => ?_
  have hin : SupplyAgrees { s.advance now with sup.supplyFail := false } :=
    { ha with leave := fun h => ⟨(ha.leave h).1, (ha.leave h).2.1, rfl⟩ }
  dsimp only
  split
  · exact { hin with fail := fun h => absurd rfl h }
  · next hm => exact { hin with recovery := fun _ => hm }
  · exact testLeave_supplyAgrees hin

/-- The freeze is entered with every timer stopped (R203). -/
theorem enteringFrozen_supplyAgrees (hk : s.trs.marker ≠ .consistent) (hl : s.sup.leaveTimer = none) :
    SupplyAgrees (enteringFrozen s) where
  frozen := ⟨fun _ => nofun, fun _ => rfl⟩
  marker h := absurd h hk
  fail h := absurd rfl h
  recovery h := absurd rfl h
  leave h := absurd hl h

theorem holdupLowActive_keepsSupply (ha : SupplyAgrees s) (now : Nat) : KeepsSupply (exec (.holdupLowActive now) s) := by
  refine keepsSupply_some ha fun hc => ?_
  have hfrozen (hm : s.sup.mode ≠ .frozen) : SupplyAgrees { s.advance now with sup.holdupLow := true }.freeze := by
    have hf : s.sup.freeze ≠ .complete := by rw [ha.freeze_none hm]; nofun
    exact (freeze_supply _).agrees
      (enteringFrozen_supplyAgrees (fun hk => hf (ha.marker_up hc hk)) (ha.leave_none hf))
  dsimp only
  split
  · next hm => exact hfrozen (by rw [hm]; nofun)
  · next hm => exact hfrozen (by rw [hm]; nofun)
  · exact { ha with leave := fun h => absurd rfl h }

theorem holdupLowInactive_keepsSupply (ha : SupplyAgrees s) (now : Nat) :
    KeepsSupply (exec (.holdupLowInactive now) s) := by
  refine keepsSupply_some ha fun _ => testLeave_supplyAgrees ?_
  exact { ha with leave := fun h => ⟨(ha.leave h).1, rfl, (ha.leave h).2.2⟩ }

theorem failTimerExpiry_keepsSupply (ha : SupplyAgrees s) : KeepsSupply (exec .failTimerExpiry s) := by
  refine keepsSupply_whenUp ha fun _ u hu => ?_
  obtain ⟨e, -, rfl⟩ := Option.map_eq_some_iff.1 hu
  have hflags (w : State) : SameSupply w w.powerFlags := ⟨rfl, rfl, rfl⟩
  dsimp only
  split
  · next hm =>
    have hf := ha.freeze_none (by rw [hm]; nofun)
    exact (hflags _).agrees
      { ha with
        frozen := ⟨nofun, fun h => absurd hf h⟩
        fail := fun h => absurd rfl h
        recovery := fun h => absurd rfl h }
  · exact { ha with fail := fun h => absurd rfl h }

theorem recoveryTimerExpiry_keepsSupply (ha : SupplyAgrees s) : KeepsSupply (exec .recoveryTimerExpiry s) := by
  refine keepsSupply_whenUp ha fun _ u hu => ?_
  obtain ⟨e, -, rfl⟩ := Option.map_eq_some_iff.1 hu
  dsimp only
  split
  · next hm =>
    have hf := ha.freeze_none (by rw [hm]; nofun)
    exact { ha with
      frozen := ⟨nofun, fun h => absurd hf h⟩
      fail := fun _ => rfl
      recovery := fun h => absurd rfl h }
  · exact { ha with recovery := fun h => absurd rfl h }

theorem freezeComplete_keepsSupply (ha : SupplyAgrees s) : KeepsSupply (exec .freezeComplete s) := by
  refine keepsSupply_whenUp ha fun _ u hu => ?_
  split at hu <;> cases hu
  next hd =>
  simp only [freezeDone, Bool.and_eq_true, decide_eq_true_eq] at hd
  obtain ⟨⟨⟨⟨hf, -⟩, -⟩, -⟩, -⟩ := hd
  have hm := ha.frozen.2 (by rw [hf]; nofun)
  have hl := ha.leave_none (by rw [hf]; nofun)
  exact testLeave_supplyAgrees
    { ha with
      frozen := ⟨fun _ => nofun, fun _ => hm⟩
      marker := fun _ => .inr rfl
      leave := fun h => absurd hl h }

theorem leaveTimerExpiry_keepsSupply (ha : SupplyAgrees s) : KeepsSupply (exec .leaveTimerExpiry s) := by
  refine keepsSupply_whenUp ha fun _ u hu => ?_
  obtain ⟨e, -, rfl⟩ := Option.map_eq_some_iff.1 hu
  dsimp only
  split
  · next hm =>
    have hr := ha.recovery_none (by rw [hm]; nofun)
    refine ((leaveTrack_supply _ .one).trans (leaveTrack_supply _ .two)).agrees ?_
    exact
      { frozen := ⟨nofun, fun h => absurd rfl h⟩
        marker := nofun
        fail := fun _ => rfl
        recovery := fun h => absurd hr h
        leave := fun h => absurd rfl h }
  · exact { ha with leave := fun h => absurd rfl h }

/-- The START check begins: the marker may stand CONSISTENT meanwhile. -/
theorem start_keepsSupply (ha : SupplyAgrees s) : KeepsSupply (exec .start s) :=
  keepsSupply_next { ha with marker := fun _ => .inl rfl }

/-- After START the supply agrees, whatever the inputs stand at (R206). -/
theorem startSupply_supplyAgrees (hmode : s.sup.mode = .run) (hfreeze : s.sup.freeze = .none)
    (hmarker : s.trs.marker ≠ .consistent) (hfail : s.sup.failTimer = none) (hrecovery : s.sup.recoveryTimer = none)
    (hleave : s.sup.leaveTimer = none) : SupplyAgrees s.startSupply := by
  have hrun : SupplyAgrees s :=
    { frozen := by simp [hmode, hfreeze]
      marker := fun h => absurd h hmarker
      fail := fun _ => hmode
      recovery := fun h => absurd hrecovery h
      leave := fun h => absurd hleave h }
  simp only [State.startSupply]
  repeat' split
  · exact
      { frozen := ⟨fun _ => nofun, fun _ => rfl⟩
        marker := fun _ => .inr rfl
        fail := fun h => absurd hfail h
        recovery := fun h => absurd hrecovery h
        leave := fun h => absurd hleave h }
  · exact { hrun with fail := fun _ => hmode }
  · exact hrun

theorem startCheckEnd_keepsSupply (ha : SupplyAgrees s) (inputs : Inputs) (samples : List Sample) :
    KeepsSupply (exec (.startCheckEnd inputs samples) s) := by
  have hsup := checkRegion_sup (s.startBlocks inputs) inputs.take
  show KeepsSupply (if s.startCheck then _ else _)
  split
  · refine keepsSupply_next (((intoService_supply s inputs samples).trans (driveLines_supply _)).agrees
      (startSupply_supplyAgrees ?_ ?_ nofun ?_ ?_ ?_)) <;> rw [hsup] <;> rfl
  · exact keepsSupply_next ha

/-! ### Every command -/

theorem setWindow_keepsSupply (ha : SupplyAgrees s) (p : Port) (now : Nat) : KeepsSupply (exec (.setWindow p now) s) := by
  refine keepsSupply_work ha p now fun r f hf w => ?_
  split at hf <;> cases hf
  dsimp only
  split <;> exact ⟨rfl, rfl, rfl⟩

theorem setWatch_keepsSupply (ha : SupplyAgrees s) (p : Port) (now : Nat) : KeepsSupply (exec (.setWatch p now) s) := by
  refine keepsSupply_work ha p now fun r f hf w => ?_
  split at hf <;> cases hf
  dsimp only
  split
  · exact (setCondition_supply w _).trans (answer_supply _ p _ _)
  · exact answer_supply w p _ _

theorem evaluateSnapshot_keepsSupply (ha : SupplyAgrees s) (p : Port) (now : Nat) :
    KeepsSupply (exec (.evaluateSnapshot p now) s) := by
  refine keepsSupply_work ha p now fun r f hf w => ?_
  split at hf <;> cases hf
  dsimp only
  split
  · exact evaluateSnapshot_supply w p _
  · exact answer_supply w p _ _

theorem clearAlarmNumber_keepsSupply (ha : SupplyAgrees s) (p : Port) (now : Nat) :
    KeepsSupply (exec (.clearAlarmNumber p now) s) := by
  refine keepsSupply_work ha p now fun r f hf w => ?_
  split at hf
  · split at hf <;> cases hf
    · exact clearNumber_supply w p _
    · exact answer_supply w p _ _
  · cases hf

theorem clearAlarmTrack_keepsSupply (ha : SupplyAgrees s) (p : Port) (now : Nat) :
    KeepsSupply (exec (.clearAlarmTrack p now) s) := by
  refine keepsSupply_work ha p now fun r f hf w => ?_
  split at hf
  · split at hf <;> cases hf
    · exact clearTrack_supply w p _
    · exact answer_supply w p _ _
  · cases hf

theorem exec_keepsSupply (ha : SupplyAgrees s) (i : Instr) : KeepsSupply (exec i s) := by
  cases i with
  | headOn t h now => exact headOn_keepsSupply ha t h now
  | headOff t h now => exact headOff_keepsSupply ha t h now
  | approachPulse t now => exact approachPulse_keepsSupply ha t now
  | occupancyClear t now => exact occupancy_keepsSupply ha t false now fun w => occupancyClears_supply w t
  | occupancyOccupied t now => exact occupancy_keepsSupply ha t true now fun w => occupancyFills_supply w t
  | tSettleExpiry t => exact closingTimer_keepsSupply ha t .normal
  | tEndExpiry t => exact closingTimer_keepsSupply ha t .normal
  | tStandExpiry t => exact tStandExpiry_keepsSupply ha t
  | tAbandonExpiry t => exact closingTimer_keepsSupply ha t .abandoned
  | tDormantExpiry t => exact tDormantExpiry_keepsSupply ha t
  | tRetareExpiry t => exact tRetareExpiry_keepsSupply ha t
  | stuckTimerExpiry t h => exact stuckTimerExpiry_keepsSupply ha t h
  | faultRecoveryExpiry t => exact faultRecoveryExpiry_keepsSupply ha t
  | sampleWrite samples => exact keepsSupply_someSame ha (writeSample_supply s samples)
  | refreshComplete t samples =>
    refine keepsSupply_same ha fun u hu => ?_
    split at hu <;> cases hu
    exact writeSample_supply s samples
  | jobTake => exact jobTake_keepsSupply ha
  | liveJobComplete now => exact liveJobComplete_keepsSupply ha now
  | serviceJobComplete now => exact serviceJobComplete_keepsSupply ha now
  | snapshotCopyEnd now => exact snapshotCopyEnd_keepsSupply ha now
  | closeTake => exact closeTake_keepsSupply ha
  | recordAppend now => exact recordAppend_keepsSupply ha now
  | discardedFull now => exact discardedFull_keepsSupply ha now
  | takeRises now => exact takeRises_keepsSupply ha now
  | takeFalls now => exact takeFalls_keepsSupply ha now
  | supplyFailActive now => exact supplyFailActive_keepsSupply ha now
  | supplyFailInactive now => exact supplyFailInactive_keepsSupply ha now
  | holdupLowActive now => exact holdupLowActive_keepsSupply ha now
  | holdupLowInactive now => exact holdupLowInactive_keepsSupply ha now
  | failTimerExpiry => exact failTimerExpiry_keepsSupply ha
  | recoveryTimerExpiry => exact recoveryTimerExpiry_keepsSupply ha
  | freezeComplete => exact freezeComplete_keepsSupply ha
  | leaveTimerExpiry => exact leaveTimerExpiry_keepsSupply ha
  | start => exact start_keepsSupply ha
  | startCheckEnd inputs samples => exact startCheckEnd_keepsSupply ha inputs samples
  | requestPeriod p bytes => exact keepsSupply_next (SameSupply.agrees (s := s) ⟨rfl, rfl, rfl⟩ ha)
  | answerFetch p => exact keepsSupply_next (SameSupply.agrees (s := s) ⟨rfl, rfl, rfl⟩ ha)
  | readPeriodEnd p bytes => exact keepsSupply_next (SameSupply.agrees (s := s) ⟨rfl, rfl, rfl⟩ ha)
  | setWindow p now => exact setWindow_keepsSupply ha p now
  | setWatch p now => exact setWatch_keepsSupply ha p now
  | evaluateSnapshot p now => exact evaluateSnapshot_keepsSupply ha p now
  | clearAlarmNumber p now => exact clearAlarmNumber_keepsSupply ha p now
  | clearAlarmTrack p now => exact clearAlarmTrack_keepsSupply ha p now
  | settingsWrite p now =>
    exact keepsSupply_work ha p now fun r f hf w => by split at hf <;> cases hf; exact settingsWrite_supply w p _
  | forceClose p now =>
    exact keepsSupply_work ha p now fun r f hf w => by split at hf <;> cases hf; exact forceClose_supply w p _
  | restart p now =>
    exact keepsSupply_work ha p now fun r f hf w => by split at hf <;> cases hf; exact restart_supply w p
  | recordList p now =>
    exact keepsSupply_work ha p now fun r f hf w => by split at hf <;> cases hf; exact recordList_supply w p _
  | headerRead p now =>
    exact keepsSupply_work ha p now fun r f hf w => by split at hf <;> cases hf; exact headerRead_supply w p _
  | axleRead p now =>
    exact keepsSupply_work ha p now fun r f hf w => by split at hf <;> cases hf; exact axleRead_supply w p _ _
  | vehicleRead p now =>
    exact keepsSupply_work ha p now fun r f hf w => by split at hf <;> cases hf; exact vehicleRead_supply w p _ _
  | releaseRecord p now =>
    exact keepsSupply_work ha p now fun r f hf w => by split at hf <;> cases hf; exact releaseRecord_supply w p _
  | alarmRead p now =>
    exact keepsSupply_work ha p now fun r f hf w => by split at hf <;> cases hf; exact alarmRead_supply w p _ _
  | clearUnlisted p now =>
    exact keepsSupply_work ha p now fun r f hf w => by split at hf <;> cases hf; exact ⟨rfl, rfl, rfl⟩
  | liveAxleRead p now =>
    exact keepsSupply_work ha p now fun r f hf w => by split at hf <;> cases hf; exact liveAxleRead_supply w p _
  | setSiteTime p now =>
    exact keepsSupply_work ha p now fun r f hf w => by split at hf <;> cases hf; exact ⟨rfl, rfl, rfl⟩
  | windowRead p now =>
    exact keepsSupply_work ha p now fun r f hf w => by split at hf <;> cases hf; exact windowRead_supply w p _
  | windowWrite p now =>
    exact keepsSupply_work ha p now fun r f hf w => by split at hf <;> cases hf; exact windowWrite_supply w p _
  | watchRead p now =>
    exact keepsSupply_work ha p now fun r f hf w => by split at hf <;> cases hf; exact answer_supply w p _ _
  | releaseWatch p now =>
    exact keepsSupply_work ha p now fun r f hf w => by split at hf <;> cases hf; exact releaseWatch_supply w p
  | settingsRead p now =>
    exact keepsSupply_work ha p now fun r f hf w => by split at hf <;> cases hf; exact settingsRead_supply w p _ _
  | setPermissions p now =>
    exact keepsSupply_work ha p now fun r f hf w => by split at hf <;> cases hf; exact setPermissions_supply w p _
  | purgeRecord p now =>
    exact keepsSupply_work ha p now fun r f hf w => by split at hf <;> cases hf; exact purgeRecord_supply w p _
  | status p now =>
    exact keepsSupply_work ha p now fun r f hf w => by split at hf <;> cases hf; exact giveStatus_supply w p _
  | clearErrorCapture p now =>
    exact keepsSupply_work ha p now fun r f hf w => by split at hf <;> cases hf; exact ⟨rfl, rfl, rfl⟩

end Sys2Proof.Machine

namespace Sys2Proof.Proofs

open Sys2Proof.Machine

/-- Settles O7: every command keeps the agreement (`exec_keepsSupply`), and so does the clock where none waits. -/
theorem supplyAgreesKept : Obligations.SupplyAgreesKept := by
  intro s u ha hu
  rw [step] at hu
  split at hu
  · next i rest _ =>
    exact exec_keepsSupply (s := { s with pending := rest }) (SameSupply.agrees (s := s) ⟨rfl, rfl, rfl⟩ ha) i u hu
  · cases hu
    simp only [State.idle]
    split
    · exact ha
    · exact ((advance_supply s _).trans (letClose_driven_supply _)).agrees ha

end Sys2Proof.Proofs

/-! SUPPORT. Room in the store where no word carries an error (R123 to R125): each removal shortens the record list, so the fuel of
`reclaim` and `evictFor` never runs out, with the proof of O13. -/

namespace Sys2Proof.Machine

variable {s : State} {r : RecordDir} {room : State → Bool}

/-! ### One removal -/

/-- The part once a released record is reclaimed (R123). -/
def reclaimedState (s : State) (r : RecordDir) : State :=
  { recordGone s r with trs.reclaims := min (s.trs.reclaims + 1) 65535 }

/-- The alarm of an evicted record (R124, R146). -/
def lossAlarm (s : State) (r : RecordDir) : Judgement :=
  ⟨⟨some r.track, some r.number, none, none, .storeLoss⟩, .watch, (s.header r.header).axleCount, 0, .evicted⟩

/-- The part once a record is evicted, its loss not yet reported (R124). -/
def lostState (s : State) (r : RecordDir) : State :=
  { recordGone s r with trs.evictions := min (s.trs.evictions + 1) 65535 }

/-- The part once a record is evicted and its loss reported (R124). -/
def evictedState (s : State) (r : RecordDir) : State := (lostState s r).enterAlarm (lossAlarm s r)

theorem evict_clean (h : s.trs.errors = []) (r : RecordDir) : s.evict r = evictedState s r := by
  simp only [State.evict, checkHeader_clean s _ _ h, removeRecord_eq]
  rfl

theorem evictedState_trs (h : s.trs.errors = []) (r : RecordDir) : (evictedState s r).trs = (lostState s r).trs :=
  enterAlarm_trs (s := lostState s r) h _

theorem evictedState_settings (h : s.trs.errors = []) (r : RecordDir) : (evictedState s r).settings = s.settings :=
  enterAlarm_settings (s := lostState s r) h _

/-- Every record that stays was there before. -/
theorem recordGone_subset (s : State) (r : RecordDir) : ∀ x ∈ (recordGone s r).trs.records, x ∈ s.trs.records :=
  fun _ hx => List.mem_of_mem_filter hx

theorem recordGone_shorter (hr : r ∈ s.trs.records) : (recordGone s r).trs.records.length < s.trs.records.length :=
  List.length_filter_lt_length_iff_exists.2 ⟨r, hr, by simp⟩

/-! ### Fuel -/

theorem reclaim_released {r : RecordDir} (hroom : room s = false) (hf : s.trs.records.find? released = some r) (n : Nat) :
    s.reclaim room (n + 1) = (reclaimedState s r).reclaim room n := by
  simp only [State.reclaim, hroom, Bool.false_eq_true, if_false, hf, removeRecord_eq]
  rfl

theorem reclaim_none (hf : s.trs.records.find? released = none) (n : Nat) : s.reclaim room n = s := by
  cases n with
  | zero => rfl
  | succ n => simp only [State.reclaim, hf, ite_self]

/-- As much fuel as there are records is enough. -/
theorem reclaim_fuel {n m : Nat} (hn : s.trs.records.length ≤ n) (hm : s.trs.records.length ≤ m) :
    s.reclaim room n = s.reclaim room m := by
  induction n generalizing s m with
  | zero =>
    have hnil : s.trs.records = [] := List.length_eq_zero_iff.1 (Nat.le_zero.1 hn)
    rw [reclaim_none (by rw [hnil]; rfl), reclaim_none (by rw [hnil]; rfl)]
  | succ n ih =>
    cases hroom : room s with
    | true => rw [reclaim_room hroom, reclaim_room hroom]
    | false =>
      cases hf : s.trs.records.find? released with
      | none => rw [reclaim_none hf, reclaim_none hf]
      | some r =>
        have hshort : (reclaimedState s r).trs.records.length < s.trs.records.length :=
          recordGone_shorter (List.mem_of_find?_eq_some hf)
        obtain ⟨m, rfl⟩ : ∃ k, m = k + 1 := ⟨m - 1, by omega⟩
        rw [reclaim_released hroom hf, reclaim_released hroom hf]
        exact ih (by omega) (by omega)

theorem evictFor_oldest {l : List RecordDir} (h : s.trs.errors = []) (hroom : room s = false) (hr : s.trs.records = r :: l)
    (n : Nat) : s.evictFor room (n + 1) = (evictedState s r).evictFor room n := by
  simp only [State.evictFor, hroom, Bool.false_eq_true, if_false, hr, List.head?_cons, evict_clean h]

theorem evictFor_empty (hr : s.trs.records = []) (n : Nat) : s.evictFor room n = s := by
  cases n with
  | zero => rfl
  | succ n => simp only [State.evictFor, hr, List.head?_nil, ite_self]

theorem evictedState_shorter {l : List RecordDir} (h : s.trs.errors = []) (hr : s.trs.records = r :: l) :
    (evictedState s r).trs.records.length < s.trs.records.length := by
  rw [evictedState_trs h]
  exact recordGone_shorter (by rw [hr]; exact List.mem_cons_self)

theorem evictedState_errors (h : s.trs.errors = []) (r : RecordDir) : (evictedState s r).trs.errors = [] := by
  rw [evictedState_trs h]
  exact h

theorem evictFor_fuel (h : s.trs.errors = []) {n m : Nat} (hn : s.trs.records.length ≤ n) (hm : s.trs.records.length ≤ m) :
    s.evictFor room n = s.evictFor room m := by
  induction n generalizing s m with
  | zero =>
    have hnil : s.trs.records = [] := List.length_eq_zero_iff.1 (Nat.le_zero.1 hn)
    rw [evictFor_empty hnil, evictFor_empty hnil]
  | succ n ih =>
    cases hroom : room s with
    | true => rw [evictFor_room hroom, evictFor_room hroom]
    | false =>
      cases hr : s.trs.records with
      | nil => rw [evictFor_empty hr, evictFor_empty hr]
      | cons r l =>
        have hshort := evictedState_shorter h hr
        obtain ⟨m, rfl⟩ : ∃ k, m = k + 1 := ⟨m - 1, by omega⟩
        rw [evictFor_oldest h hroom hr, evictFor_oldest h hroom hr]
        exact ih (evictedState_errors h r) (by omega) (by omega)

/-! ### Room made -/

/-- A reclaimed record leaves and room goes on from there (R123). -/
theorem makeRoom_reclaims (h : s.trs.errors = []) (hroom : room s = false)
    (hf : s.trs.records.find? released = some r) : s.makeRoom room = (reclaimedState s r).makeRoom room := by
  have hclean : (reclaimedState s r).trs.errors = [] := h
  have hold : keepOld (reclaimedState s r) = keepOld s := rfl
  have hshort : (reclaimedState s r).trs.records.length < s.trs.records.length :=
    recordGone_shorter (List.mem_of_find?_eq_some hf)
  have hrest : s.reclaim room s.trs.records.length =
      (reclaimedState s r).reclaim room (reclaimedState s r).trs.records.length := by
    obtain ⟨n, hn⟩ : ∃ n, s.trs.records.length = n + 1 := ⟨s.trs.records.length - 1, by omega⟩
    rw [hn, reclaim_released hroom hf]
    exact reclaim_fuel (by omega) le_rfl
  simp only [State.makeRoom, checkSetting_clean _ _ h, checkSetting_clean _ _ hclean, hold, hrest]

/-- With every record held, KEEP_NEW evicts the oldest and room goes on from there (R124). -/
theorem makeRoom_evicts {l : List RecordDir} (h : s.trs.errors = []) (hroom : room s = false)
    (hk : ∀ x ∈ s.trs.records, x.holders.report = true ∨ x.holders.alarm = true)
    (hnew : s.setting itemRetentionPolicy ≠ 1) (hr : s.trs.records = r :: l) :
    s.makeRoom room = (evictedState s r).makeRoom room := by
  have hclean := evictedState_errors h r
  have hnold : keepOld s = false := by simp [keepOld, hnew]
  have hold : keepOld (evictedState s r) = false := by
    simpa only [keepOld, State.setting, evictedState_settings h] using hnold
  have hkept : ∀ x ∈ (evictedState s r).trs.records, x.holders.report = true ∨ x.holders.alarm = true := by
    rw [evictedState_trs h]
    exact fun x hx => hk x (recordGone_subset s r x hx)
  have hshort := evictedState_shorter h hr
  obtain ⟨n, hn⟩ : ∃ n, s.trs.records.length = n + 1 := ⟨s.trs.records.length - 1, by omega⟩
  simp only [State.makeRoom, checkSetting_clean _ _ h, checkSetting_clean _ _ hclean, reclaim_held hk, reclaim_held hkept,
    hold, hnold, Bool.false_eq_true, if_false]
  rw [hn, evictFor_oldest h hroom hr]
  exact evictFor_fuel hclean (by omega) le_rfl

/-- Nothing to remove: nothing is done. -/
theorem makeRoom_empty (h : s.trs.errors = []) (hr : s.trs.records = []) : s.makeRoom room = s := by
  have hf : s.trs.records.find? released = none := by rw [hr]; rfl
  simp only [State.makeRoom, checkSetting_clean _ _ h, reclaim_none hf, evictFor_empty hr, ite_self]

/-- The first released record of the list, those before it held. -/
theorem find_released {l l' : List RecordDir} (hl : ∀ x ∈ l, x.holders.report = true ∨ x.holders.alarm = true)
    (hr : r.holders = ⟨false, false⟩) : (l ++ r :: l').find? released = some r := by
  have hnone : l.find? released = none := by
    refine List.find?_eq_none.2 fun x hx => ?_
    rcases hl x hx with h | h <;> simp [released, h]
  rw [List.find?_append, hnone, Option.none_or]
  exact List.find?_cons_of_pos (by simp [released, hr])

/-- The freed places are FREE and the others as they were (R119, R122). -/
theorem recordGone_look (s : State) (r : RecordDir) :
    look (recordGone s r).trs.headers r.header = none ∧ (∀ k ∈ r.axles, look (recordGone s r).trs.axles k = none) ∧
      (∀ k ∈ r.vehicles, look (recordGone s r).trs.vehicles k = none) ∧
      (∀ k, k ∉ r.axles → look (recordGone s r).trs.axles k = look s.trs.axles k) ∧
      (∀ k, k ∉ r.vehicles → look (recordGone s r).trs.vehicles k = look s.trs.vehicles k) ∧
      (∀ k, k ≠ r.header → look (recordGone s r).trs.headers k = look s.trs.headers k) := by
  have hheaders (k : Nat) : look (recordGone s r).trs.headers k = if k = r.header then none else look s.trs.headers k :=
    look_drop s.trs.headers r.header k
  have haxles (k : Nat) : look (recordGone s r).trs.axles k = if k ∈ r.axles then none else look s.trs.axles k := by
    rw [← freeAll_look, freeAll_eq_filter]; rfl
  have hvehicles (k : Nat) :
      look (recordGone s r).trs.vehicles k = if k ∈ r.vehicles then none else look s.trs.vehicles k := by
    rw [← freeAll_look, freeAll_eq_filter]; rfl
  refine ⟨?_, fun k hk => ?_, fun k hk => ?_, fun k hk => ?_, fun k hk => ?_, fun k hk => ?_⟩
  · rw [hheaders, if_pos rfl]
  · rw [haxles, if_pos hk]
  · rw [hvehicles, if_pos hk]
  · rw [haxles, if_neg hk]
  · rw [hvehicles, if_neg hk]
  · rw [hheaders, if_neg hk]

end Sys2Proof.Machine

namespace Sys2Proof.Proofs

open Sys2Proof.Machine

/-- Settles O13: each removal is one turn of `reclaim` or of `evictFor` (`makeRoom_reclaims`, `makeRoom_evicts`), and the fuel left
is enough for the records left. -/
theorem roomMade : Obligations.RoomMade := by
  intro s room h
  refine ⟨makeRoom_room h, fun l r l' hroom hr hl hfree => ?_, fun _ hk hold => makeRoom_kept h room hold hk,
    fun r l hroom hk hnew hr => ?_, fun _ hr => makeRoom_empty h hr, fun r => recordGone_look s r⟩
  · have hgone := makeRoom_reclaims h hroom (hr ▸ find_released hl hfree)
    exact ⟨fun hu => hgone.trans (makeRoom_room (s := reclaimedState s r) h hu), hgone⟩
  · have hgone := makeRoom_evicts h hroom hk hnew hr
    exact ⟨fun hu => hgone.trans (makeRoom_room (evictedState_errors h r) hu), hgone⟩

end Sys2Proof.Proofs

/-! SUPPORT. The end of the freeze (R204, R205): a track that leaves FROZEN where no word carries an error, with the proof of O41. -/

namespace Sys2Proof.Machine

variable {s : State} {t : Track}

/-- A track that has left FROZEN for ARMING in RUN; one that was in FAULT has its stuck timers begun again (R27). -/
def leftFrozen (s : State) (t : Track) : Sequencer :=
  let q := s.ts.get t
  let begun := stuckBegun (s.fitted t) (s.timer (stuckItem s t)) q
  { q with
    mode := .arming, tSettle := none, tEnd := none, tStand := none, tAbandon := none, tDormant := none, tRetare := none,
    recovery := none, stuck := if q.mode = .fault then ⟨begun .a, begun .b⟩ else q.stuck }

theorem armingOf_run (hm : s.sup.mode = .run) (t : Track) (count : Nat) (q : Sequencer) :
    armingOf s t count q =
      { s with
        ts := s.ts.set t
          { q with
            mode := .arming, tSettle := none, tEnd := none, tStand := none, tAbandon := none, tDormant := none,
            tRetare := none, recovery := none }
        cac.refresh := s.cac.refresh.set t (some ⟨s.cac.newest + 1, 0⟩) } := by
  simp only [armingOf, if_pos hm]

/-- A track leaves FROZEN with a refresh begun, and touches nothing of the other (R27, R205). -/
theorem leaveTrack_clean (h : s.trs.errors = []) (hm : s.sup.mode = .run) (t : Track) :
    s.leaveTrack t =
      { s with
        ts := s.ts.set t (leftFrozen s t)
        cac.refresh := s.cac.refresh.set t (some ⟨s.cac.newest + 1, 0⟩) } := by
  simp only [State.leaveTrack, checkSetting_clean s _ h, enterArming_clean h]
  by_cases hf : (s.ts.get t).mode = .fault
  · simp only [hf, decide_true, if_true, armingOf_resumeStuck h]
    simp only [armingOf_run hm, leftFrozen, hf, if_true]
  · simp only [hf, decide_false, Bool.false_eq_true, if_false, armingOf_run hm, leftFrozen]

/-- The part at the leave timer's expiry, its tracks still in the modes of the freeze (R205). -/
def backInRun (s : State) (e : Nat) : State :=
  { reached s e with sup := { s.sup with mode := .run, freeze := .none, leaveTimer := none }, trs.marker := .live }

/-- Both tracks leave FROZEN. -/
theorem leaveTracks_clean (h : s.trs.errors = []) (hm : s.sup.mode = .run) :
    (s.leaveTrack .one).leaveTrack .two =
      { s with
        ts := ⟨leftFrozen s .one, leftFrozen s .two⟩
        cac.refresh := ⟨some ⟨s.cac.newest + 1, 0⟩, some ⟨s.cac.newest + 1, 0⟩⟩ } := by
  rw [leaveTrack_clean h hm .one, leaveTrack_clean (by exact h) (by exact hm) .two]
  rfl

theorem stuckItem_eq (s : State) (t : Track) :
    stuckItem s t = if s.setting (itemFitted t) = 1 then itemTStuck else itemTAbandon := by
  simp only [stuckItem, fitted_iff]

/-- The leave timer starts at once where both inputs are INACTIVE and it is stopped (R205). -/
theorem testLeave_starts (hm : s.sup.mode = .frozen) (hf : s.sup.freeze = .complete) (hh : s.sup.holdupLow = false)
    (hs : s.sup.supplyFail = false) (hl : s.sup.leaveTimer = none) :
    s.testLeave = { s with sup.leaveTimer := some (s.cac.count + Config.supplyPeriod) } :=
  if_pos ⟨hm, hf, hh, hs, hl⟩

/-- It does not start while an input is ACTIVE. -/
theorem testLeave_active (h : s.sup.holdupLow = true ∨ s.sup.supplyFail = true) : s.testLeave = s := by
  refine if_neg fun ⟨_, _, hh, hs, _⟩ => ?_
  rcases h with h | h
  · rw [hh] at h; cases h
  · rw [hs] at h; cases h

/-- FREEZE_COMPLETE once the freeze has run down (R204). -/
theorem freezeComplete_leads (hs : s.startCheck = false) (hf : s.sup.freeze = .inProgress) (hc : s.tas.closing = [])
    (hh : s.rbu.handOver = []) (ho : s.rbu.closeOp = none) (hj : s.aee.inFlight = none) {u : State}
    (hu : State.testLeave { s with sup.freeze := .complete, trs.marker := .consistent } = u) : LeadsTo .freezeComplete s u := by
  have hd : freezeDone s = true := by simp [freezeDone, hf, hc, hh, ho, hj]
  refine leadsTo_of_eq ?_ hs hu
  show whenUp s (if freezeDone s then _ else _) = _
  rw [if_pos hd]

end Sys2Proof.Machine

namespace Sys2Proof.Proofs

open Sys2Proof.Machine

/-- Settles O41: the freeze that has run down tests the leave timer (`testLeave_starts`, `testLeave_active`), and at its expiry both
tracks leave FROZEN (`leaveTracks_clean`). -/
theorem freezeEnds : Obligations.FreezeEnds := by
  intro s e hs hm
  refine ⟨fun hf hc hh ho hj => ⟨fun hin => ?_, fun hlow hfail hl => ?_⟩, fun hl h => ?_⟩
  · exact freezeComplete_leads hs hf hc hh ho hj (testLeave_active hin)
  · exact freezeComplete_leads hs hf hc hh ho hj (testLeave_starts hm rfl hlow hfail hl)
  · refine ⟨_, leadsTo_of_expiry hl hs rfl ((if_pos hm).trans (leaveTracks_clean (s := backInRun s e) h rfl)), rfl, fun t => ?_⟩
    have hget : (⟨leftFrozen (backInRun s e) .one, leftFrozen (backInRun s e) .two⟩ : Pair Sequencer).get t =
        leftFrozen (backInRun s e) t := by cases t <;> rfl
    have hitem : stuckItem (backInRun s e) t = if s.setting (itemFitted t) = 1 then itemTStuck else itemTAbandon :=
      stuckItem_eq (backInRun s e) t
    have hfit : (backInRun s e).fitted t = s.fitted t := rfl
    have hq : (backInRun s e).ts.get t = s.ts.get t := rfl
    have htimer (n : Nat) : (backInRun s e).timer n = some (countAt s e + s.settingNat n * 100000) := rfl
    rw [hget]
    simp only [leftFrozen, hq, htimer, hitem, hfit, stuckBegun, fitted_false_iff]

end Sys2Proof.Proofs

/-! SUPPORT. The reads of records where no word carries an error (R127 to R129): one equation per answer, with the proof of O49. -/

namespace Sys2Proof.Machine

variable {s : State} {n i : Nat} {r : RecordDir}

/-! ### Record List (R127) -/

theorem recordList_outOfRange (s : State) (p : Port) (h : i = 0 ∨ 32 < i) :
    s.recordList p i = s.answer p .badValue .none := if_pos (by omega)

theorem recordList_clean (hc : s.trs.errors = []) (p : Port) (h1 : 1 ≤ i) (h2 : i ≤ 32) :
    s.recordList p i =
      s.answer p .done
        (.recordList s.trs.records.length
          ((((s.trs.records.drop (i - 1)).take 16).zipIdx i).map fun r => summaryOf s r.2 r.1)) := by
  rw [State.recordList, if_neg (by omega)]
  dsimp only
  rw [foldl_clean _ _ s hc fun w r hw => checkHeader_clean w r.header summaryFields hw]

/-! ### Header Read (R128) -/

theorem headerRead_missing (p : Port) (h : ∀ r ∈ s.trs.records, r.number ≠ n) :
    s.headerRead p n = s.answer p .gone .none := by
  rw [State.headerRead, findRecord_missing h]

/-- The first record of a number in the record order list. -/
theorem findRecord_first {l l' : List RecordDir} (hr : s.trs.records = l ++ r :: l') (hn : r.number = n)
    (hl : ∀ x ∈ l, x.number ≠ n) : findRecord s n = some r := by
  have hbefore : l.find? (fun r => r.number == n) = none := List.find?_eq_none.2 fun x hx => by simpa using hl x hx
  rw [findRecord, hr, List.find?_append, hbefore, Option.none_or]
  exact List.find?_cons_of_pos (by simpa using hn)

theorem headerRead_clean {l l' : List RecordDir} (hc : s.trs.errors = []) (p : Port) (hr : s.trs.records = l ++ r :: l')
    (hn : r.number = n) (hl : ∀ x ∈ l, x.number ≠ n) :
    s.headerRead p n = s.answer p .done (.header (s.header r.header) r.holders (l.length + 1)) := by
  simp only [State.headerRead, findRecord_first hr hn hl, checkHeader_clean s _ _ hc, positionOf_eq hr hl hn]

/-! ### Axle Read and Vehicle Read (R129) -/

theorem axleRead_outOfRange (s : State) (p : Port) (n : Nat) (h : i = 0 ∨ 512 < i) :
    s.axleRead p n i = s.answer p .badValue .none := if_pos (by omega)

theorem axleRead_missing (p : Port) (h1 : 1 ≤ i) (h2 : i ≤ 512) (h : ∀ r ∈ s.trs.records, r.number ≠ n) :
    s.axleRead p n i = s.answer p .gone .none := by
  rw [State.axleRead, if_neg (by omega), findRecord_missing h]

theorem axleRead_clean (hc : s.trs.errors = []) (p : Port) (h1 : 1 ≤ i) (h2 : i ≤ 512) (hf : findRecord s n = some r) :
    s.axleRead p n i =
      s.answer p .done
        (.axles (s.header r.header).depth (s.header r.header).phantoms (((r.axles.drop (i - 1)).take 16).map s.axle)) := by
  rw [State.axleRead, if_neg (by omega), hf]
  dsimp only
  rw [checkHeader_clean s _ _ hc, foldl_clean _ _ s hc fun w k hw => checkAxle_clean w k [] hw]

theorem vehicleRead_outOfRange (s : State) (p : Port) (n : Nat) (h : i = 0 ∨ 160 < i) :
    s.vehicleRead p n i = s.answer p .badValue .none := if_pos (by omega)

theorem vehicleRead_missing (p : Port) (h1 : 1 ≤ i) (h2 : i ≤ 160) (h : ∀ r ∈ s.trs.records, r.number ≠ n) :
    s.vehicleRead p n i = s.answer p .gone .none := by
  rw [State.vehicleRead, if_neg (by omega), findRecord_missing h]

theorem vehicleRead_clean (hc : s.trs.errors = []) (p : Port) (h1 : 1 ≤ i) (h2 : i ≤ 160) (hf : findRecord s n = some r) :
    s.vehicleRead p n i =
      s.answer p .done
        (.vehicles (s.header r.header).vehicleCount (vehiclesAt s ((r.vehicles.drop (i - 1)).take 16))) := by
  rw [State.vehicleRead, if_neg (by omega), hf]
  dsimp only
  rw [checkHeader_clean s _ _ hc, foldl_clean _ _ s hc fun w k hw => checkVehicle_clean w k hw]

end Sys2Proof.Machine

namespace Sys2Proof.Proofs

open Sys2Proof.Machine

/-- Settles O49: where no word carries an error each read is an answer from the state as its event finds it. -/
theorem recordsRead : Obligations.RecordsRead := by
  intro s p tag n i now gives missing
  refine ⟨fun hr => ⟨fun h1 h2 => ?_, fun h => ?_⟩, fun hr => ⟨fun l r l' hl hn hbefore => ?_, fun h => ?_⟩,
    fun hr => ⟨fun r h1 h2 hf => ?_, fun h => ?_, fun h1 h2 h => ?_⟩,
    fun hr => ⟨fun r h1 h2 hf => ?_, fun h => ?_, fun h1 h2 h => ?_⟩⟩
  all_goals refine leadsTo_of_answer hr rfl rfl rfl rfl ?_
  · exact recordList_clean (s := reached s now) hr.clean p h1 h2
  · exact recordList_outOfRange _ p h
  · exact headerRead_clean (s := reached s now) hr.clean p hl hn hbefore
  · exact headerRead_missing (s := reached s now) p h
  · exact axleRead_clean (s := reached s now) hr.clean p h1 h2 hf
  · exact axleRead_outOfRange _ p n h
  · exact axleRead_missing (s := reached s now) p h1 h2 h
  · exact vehicleRead_clean (s := reached s now) hr.clean p h1 h2 hf
  · exact vehicleRead_outOfRange _ p n h
  · exact vehicleRead_missing (s := reached s now) p h1 h2 h

end Sys2Proof.Proofs

/-! SUPPORT. Release Record (R121): one equation per answer, with the proof of O50. -/

namespace Sys2Proof.Machine

variable {s : State} {n : Nat} {r : RecordDir}

theorem releaseRecord_outOfRange (s : State) (p : Port) (h : n = 0 ∨ 65535 < n) :
    s.releaseRecord p n = s.answer p .badValue .none := if_pos (by omega)

theorem releaseRecord_missing (p : Port) (h1 : 1 ≤ n) (h2 : n ≤ 65535) (h : ∀ r ∈ s.trs.records, r.number ≠ n) :
    s.releaseRecord p n = s.answer p .gone .none := by
  rw [State.releaseRecord, if_neg (by omega), findRecord_missing h]

theorem releaseRecord_notHeld {p : Port} (h1 : 1 ≤ n) (h2 : n ≤ 65535) (hf : findRecord s n = some r)
    (hh : holds p r.holders = false) : s.releaseRecord p n = s.answer p .notHeld .none := by
  rw [State.releaseRecord, if_neg (by omega), hf]
  simp only [hh, Bool.false_eq_true, if_false]

theorem releaseRecord_held {p : Port} (h1 : 1 ≤ n) (h2 : n ≤ 65535) (hf : findRecord s n = some r)
    (hh : holds p r.holders = true) :
    s.releaseRecord p n =
      State.answer
        { s with
          trs.records := s.trs.records.map fun x =>
            if x.number = n then { x with holders := releaseHolder p r.holders } else x }
        p .done (.holders (releaseHolder p r.holders)) := by
  rw [State.releaseRecord, if_neg (by omega), hf]
  simp only [hh, if_true]

end Sys2Proof.Machine

namespace Sys2Proof.Proofs

open Sys2Proof.Machine

/-- Settles O50: the holder that a port releases is `releaseHolder` of it, and the rest of the store stays. -/
theorem recordReleased : Obligations.RecordReleased := by
  intro s p tag n now hr gives held left
  have hheld : ∀ h, held h = holds p h := by cases p <;> exact fun _ => rfl
  have hleft : ∀ h, left h = releaseHolder p h := by cases p <;> exact fun _ => rfl
  refine ⟨fun h => ?_, fun h1 h2 h => ?_, fun r h1 h2 hf hh => ?_, fun r h1 h2 hf hh => ?_⟩
  all_goals refine leadsTo_of_answer hr rfl rfl rfl rfl ?_
  · exact releaseRecord_outOfRange _ p h
  · exact releaseRecord_missing (s := reached s now) p h1 h2 h
  · exact releaseRecord_notHeld (s := reached s now) h1 h2 hf (hheld _ ▸ hh)
  · rw [hleft]
    exact releaseRecord_held (s := reached s now) h1 h2 hf (hheld _ ▸ hh)

end Sys2Proof.Proofs

/-! SUPPORT. Words of the settings found in error (R131, R134, R201): what one finding leaves of the settings, by the list of items
stored. -/

namespace Sys2Proof.Machine

variable {s : State} {e f : WordError} {t : Track}

/-! ### Items that take their defaults -/

theorem settingIn_drop (m : List (Nat × Int)) (k n : Nat) :
    settingIn (drop m k) n = if n = k then settingDefault n else settingIn m n := by
  unfold settingIn
  rw [look_drop]
  split <;> rfl

theorem settingIn_freeAll (m : List (Nat × Int)) (l : List Nat) (n : Nat) :
    settingIn (freeAll m l) n = if n ∈ l then settingDefault n else settingIn m n := by
  unfold settingIn
  rw [freeAll_look]
  split <;> rfl

theorem setting_eq_settingIn (s : State) (n : Nat) : s.setting n = settingIn s.settings n := rfl

/-- The geometry of a track at its defaults, where no word carries an error (R201). -/
theorem defaultGeometry_clean (h : s.trs.errors = []) (t : Track) :
    s.defaultGeometry t = { s with settings := freeAll s.settings (geometryItems t) } := by
  unfold State.defaultGeometry freeAll
  generalize geometryItems t = l
  induction l generalizing s with
  | nil => rfl
  | cons k l ih => rw [List.foldl_cons, cleanEntry_clean (by exact h), ih (by exact h)]; rfl

/-! ### The items that the constraints join -/

/-- Gs and Ge of a track are no items of the other. -/
theorem spanTrack_iff (n : Nat) (t : Track) : spanTrack n = some t ↔ n = itemGs t ∨ n = itemGe t := by
  have hmem (k : Track) : (spanItems k).contains n = true ↔ n = itemGs k ∨ n = itemGe k := by simp [spanItems]
  unfold spanTrack
  split
  · next h1 =>
    rw [hmem] at h1
    cases t with
    | one => exact ⟨fun _ => h1, fun _ => rfl⟩
    | two => exact ⟨nofun, fun h2 => by simp only [itemGs, itemGe, geometryBase] at h1 h2; omega⟩
  · next h1 =>
    rw [hmem] at h1
    split
    · next h2 =>
      rw [hmem] at h2
      cases t with
      | one => exact ⟨nofun, fun h => absurd h h1⟩
      | two => exact ⟨fun _ => h2, fun _ => rfl⟩
    · next h2 =>
      rw [hmem] at h2
      cases t with
      | one => exact ⟨nofun, fun h => absurd h h1⟩
      | two => exact ⟨nofun, fun h => absurd h h2⟩

theorem spanOk_iff (v : Nat → Int) (t : Track) : spanOk v t = true ↔ spanHolds v t := by
  simp only [spanOk, spanHolds, Bool.and_eq_true, decide_eq_true_eq]

/-! ### One word found -/

/-- The items stored once a word is read: at a double error its item takes its default (R134). -/
def wordRead (m : List (Nat × Int)) (e : WordError) : List (Nat × Int) := if e.double then drop m e.index else m

theorem readSettingWord_one (h : s.trs.errors = [e]) :
    readSettingWord s e = { foundIn s e .absent [] with settings := wordRead s.settings e } := by
  simp only [readSettingWord, foundError_cleaned h, wordRead]
  split <;> rfl

/-- The part once the first of two words in error is read. -/
def firstWordRead (s : State) (e f : WordError) : State :=
  { foundIn s e .absent [f] with settings := wordRead s.settings e }

/-- The word of another item keeps its error. -/
theorem readSettingWord_two (h : s.trs.errors = [e, f]) (hne : f.index ≠ e.index) :
    readSettingWord s e = firstWordRead s e f := by
  have hfound : (s.foundError e .absent).trs.errors = [e, f] := h
  have hclean : (s.foundError e .absent).cleanWord e = foundIn s e .absent [f] := by
    have hleft : ([e, f].filter fun x => !(x.area == e.area && x.index == e.index && x.word == e.word)) = [f] := by
      simp [hne]
    rw [State.cleanWord, hfound, hleft]
    rfl
  simp only [readSettingWord, hclean, firstWordRead, wordRead]
  split <;> rfl

theorem settleSpan_clean (h : s.trs.errors = []) (t : Track) (n : Nat) :
    s.settleSpan t n =
      if spanOk s.setting t then s else { s with settings := freeAll s.settings (geometryItems t) } := by
  have hread : s.checkWords (fun x => x.area == .settings && (spanItems t).contains x.index && x.index != n)
      readSettingWord = s := by simp [State.checkWords, h]
  rw [State.settleSpan, hread, defaultGeometry_clean h]

/-- The items stored once the one word in error has been found (R134, R201, log 50). -/
def settingsFound (m : List (Nat × Int)) (e : WordError) : List (Nat × Int) :=
  match spanTrack e.index with
  | some t =>
    if e.double = true ∧ spanOk (settingIn (drop m e.index)) t = false then freeAll (drop m e.index) (geometryItems t)
    else wordRead m e
  | none => wordRead m e

theorem fixSetting_one (h : s.trs.errors = [e]) :
    fixSetting s e = { foundIn s e .absent [] with settings := settingsFound s.settings e } := by
  simp only [fixSetting, readSettingWord_one h, settingsFound]
  cases hspan : spanTrack e.index with
  | none => rfl
  | some t =>
    cases hd : e.double with
    | false => rfl
    | true =>
      have hread : wordRead s.settings e = drop s.settings e.index := if_pos hd
      have hspanned : State.setting { foundIn s e .absent [] with settings := drop s.settings e.index } =
          settingIn (drop s.settings e.index) := rfl
      simp only [if_true, true_and, hread]
      rw [settleSpan_clean rfl, hspanned]
      cases hok : spanOk (settingIn (drop s.settings e.index)) t <;> rfl

/-! ### What the finding leaves of the settings -/

/-- A single error is corrected (R131). -/
theorem settingsFound_single (m : List (Nat × Int)) (hd : e.double = false) : settingsFound m e = m := by
  have hread : wordRead m e = m := by rw [wordRead, hd]; rfl
  unfold settingsFound
  split
  · rw [if_neg, hread]
    rintro ⟨hdouble, -⟩
    rw [hd] at hdouble
    cases hdouble
  · exact hread

/-- A double error gives the item its default, and where the constraints stand no other item is touched (R134). -/
theorem settingsFound_alone (m : List (Nat × Int)) (hd : e.double = true)
    (hok : ∀ t, e.index = itemGs t ∨ e.index = itemGe t → spanHolds (settingIn (drop m e.index)) t) :
    settingsFound m e = drop m e.index := by
  have hread : wordRead m e = drop m e.index := if_pos hd
  unfold settingsFound
  split
  · next t hspan =>
    rw [if_neg, hread]
    rintro ⟨-, hbad⟩
    rw [(spanOk_iff _ t).2 (hok t ((spanTrack_iff _ t).1 hspan))] at hbad
    cases hbad
  · exact hread

/-- Where the constraints are broken the geometry of the track takes its defaults (R201). -/
theorem settingsFound_broken (m : List (Nat × Int)) (hd : e.double = true) (hi : e.index = itemGs t ∨ e.index = itemGe t)
    (hbad : ¬ spanHolds (settingIn (drop m e.index)) t) :
    settingsFound m e = freeAll (drop m e.index) (geometryItems t) := by
  rw [settingsFound, (spanTrack_iff _ t).2 hi]
  exact if_pos ⟨hd, Bool.eq_false_iff.2 (mt (spanOk_iff _ t).1 hbad)⟩

/-! ### Gs and Ge of a track both in error -/

/-- Gs and Ge at their defaults stand in the constraints. -/
theorem spanHolds_defaults {v : Nat → Int} (hs : v (itemGs t) = settingDefault (itemGs t))
    (he : v (itemGe t) = settingDefault (itemGe t)) : spanHolds v t := by
  have hdef : settingDefault (itemGs t) = 1500 ∧ settingDefault (itemGe t) = 3900 := by cases t <;> decide
  obtain ⟨hgs, hge⟩ := hdef
  rw [spanHolds, hs, he, hgs, hge]
  omega

/-- The settings once both words are found: both items at their defaults. -/
def spanDefaulted (m : List (Nat × Int)) (t : Track) : List (Nat × Int) := drop (drop m (itemGs t)) (itemGe t)

theorem settingIn_spanDefaulted (m : List (Nat × Int)) (t : Track) (n : Nat) :
    settingIn (spanDefaulted m t) n = if n = itemGs t ∨ n = itemGe t then settingDefault n else settingIn m n := by
  rw [spanDefaulted, settingIn_drop, settingIn_drop]
  by_cases he : n = itemGe t
  · simp [he]
  · simp [he]

/-- The word of Ge is read with that of Gs, which is found first (log 50). -/
theorem fixSetting_two (h : s.trs.errors = [e, f]) (hf : f.area = .settings) (hde : e.double = true) (hdf : f.double = true)
    (hi : e.index = itemGs t) (hj : f.index = itemGe t) :
    fixSetting s e =
      { foundIn (foundIn s e .absent [f]) f .absent [] with settings := spanDefaulted s.settings t } := by
  have hne : f.index ≠ e.index := by rw [hi, hj]; cases t <;> decide
  have hspan : spanTrack e.index = some t := (spanTrack_iff _ t).2 (.inl hi)
  have hread : (firstWordRead s e f).checkWords
      (fun x => x.area == .settings && (spanItems t).contains x.index && x.index != e.index) readSettingWord = readSettingWord (firstWordRead s e f) f :=
    checkWords_finds rfl (by simp [hf, hj, spanItems, hj ▸ hne]) _
  have hboth : readSettingWord (firstWordRead s e f) f =
      { foundIn (foundIn s e .absent [f]) f .absent [] with settings := spanDefaulted s.settings t } := by
    rw [readSettingWord_one rfl]
    simp only [firstWordRead, wordRead, hde, hdf, if_true, hi, hj, spanDefaulted]
    rfl
  have hok : spanOk (readSettingWord (firstWordRead s e f) f).setting t = true := by
    rw [spanOk_iff, hboth]
    refine spanHolds_defaults ?_ ?_ <;> exact (settingIn_spanDefaulted _ t _).trans (if_pos (by simp))
  rw [fixSetting, readSettingWord_two h hne, hspan]
  simp only [hde, if_true]
  rw [State.settleSpan, hread, if_pos hok, hboth]

/-- A checked read that picks the first of two words, whose finding rewrites the other: one finding. -/
theorem checkWords_first (h : s.trs.errors = [e, f]) {want : WordError → Bool} (hw : want e = true)
    {fix : State → WordError → State} (hfix : (fix s e).trs.errors = []) : s.checkWords want fix = fix s e := by
  cases hf : want f <;> simp [State.checkWords, h, hw, hf, hfix]

end Sys2Proof.Machine

namespace Sys2Proof.Proofs

open Sys2Proof.Machine

theorem captureOffered : CaptureOffered := by
  refine ⟨fun d l => rfl, fun c l hc => ⟨?_, ?_⟩, fun c d l hc => ?_⟩
  · simp [offerError]
  · simp [offerError, hc]
  · simp [offerError, hc]

theorem settingsWordsRead : SettingsWordsRead := by
  refine ⟨fun s items hno => ?_, fun s e items h ha hmem => ?_, fun s t e f items h ha hf hde hdf hi hj hmem => ?_⟩
  · have hnone : (s.trs.errors.filter fun e => e.area == .settings && items.contains e.index) = [] :=
      List.filter_eq_nil_iff.2 fun e he => by simpa using hno e he
    rw [State.checkSettings, State.checkWords, hnone, List.foldl_nil]
  · have hfix : s.checkSettings items = fixSetting s e := checkWords_finds h (by simpa [ha] using hmem) _
    intro u alone
    have hu : u = { foundIn s e .absent [] with settings := settingsFound s.settings e } := hfix.trans (fixSetting_one h)
    have hset : u.settings = settingsFound s.settings e := by rw [hu]
    have hin (n : Nat) : u.setting n = settingIn (settingsFound s.settings e) n := by rw [setting_eq_settingIn, hset]
    have halone : alone = settingIn (drop s.settings e.index) := by
      funext n
      exact (settingIn_drop _ _ n).symm
    refine ⟨by rw [hset]; exact hu, fun hd => hset.trans (settingsFound_single _ hd), fun hd => ⟨fun hok n => ?_,
      fun t ht hbad n => ?_⟩⟩
    · rw [hin, settingsFound_alone _ hd (halone ▸ hok), halone]
    · rw [hin, settingsFound_broken _ hd ht (halone ▸ hbad), settingIn_freeAll, settingIn_drop]
      by_cases hn : n ∈ geometryItems t
      · rw [if_pos hn, if_pos hn]
      · have hne : n ≠ e.index := by
          rintro rfl
          exact hn (by rcases ht with ht | ht <;> simp [geometryItems, ht])
        rw [if_neg hn, if_neg hn, if_neg hne]
        rfl
  · have hboth := fixSetting_two h hf hde hdf hi hj
    have hfix : s.checkSettings items = fixSetting s e :=
      checkWords_first h (by simpa [ha, hi] using hmem) (by rw [hboth]; rfl)
    intro u
    have hu : u = { foundIn (foundIn s e .absent [f]) f .absent [] with settings := spanDefaulted s.settings t } :=
      hfix.trans hboth
    rw [hu]
    refine ⟨rfl, ?_, ?_, fun n => settingIn_spanDefaulted _ t n⟩
    · simp only [foundIn, hde, hdf, if_true]
    · simp only [foundIn, hde, hdf, if_true]

end Sys2Proof.Proofs

/-! SUPPORT. Words of the alarm list found in error (R153), Settings Read and Alarm Read that find a word in error, and the proof of
O59. -/

namespace Sys2Proof.Machine

variable {s u v : State} {e : WordError}

/-! ### Words of the alarm list -/

theorem checkAlarms_finds (h : s.trs.errors = [e]) (ha : e.area = .alarm) : s.checkAlarms = fixAlarm s e :=
  checkWords_finds h (by simp [ha]) _

theorem slotListed_iff (s : State) (n : Nat) : slotListed s n = true ↔ ∃ a ∈ s.alm.list, a.slot = n := by
  simp [slotListed]

theorem fixAlarm_unlisted (h : ∀ a ∈ s.alm.list, a.slot ≠ e.index) : fixAlarm s e = s := by
  refine if_neg fun hl => ?_
  obtain ⟨a, ha, hslot⟩ := (slotListed_iff s e.index).1 hl
  exact h a ha hslot

theorem fixAlarm_single (h : s.trs.errors = [e]) (hl : ∃ a ∈ s.alm.list, a.slot = e.index) (hd : e.double = false) :
    fixAlarm s e = foundIn s e .absent [] := by
  rw [fixAlarm, if_pos ((slotListed_iff s _).2 hl)]
  simp only [hd, Bool.false_eq_true, if_false]
  exact foundError_cleaned h .absent

/-- The alarm dropped is not rewritten: its word keeps its error, in a slot that is not read (log 10). -/
theorem fixAlarm_double (h : s.trs.errors = [e]) (hl : ∃ a ∈ s.alm.list, a.slot = e.index) (hd : e.double = true) :
    fixAlarm s e =
      { foundIn s e .absent [e] with
        alm.list := s.alm.list.filter fun a => a.slot != e.index
        alm.dropped := min (s.alm.dropped + 1) 65535 } := by
  rw [fixAlarm, if_pos ((slotListed_iff s _).2 hl)]
  simp only [hd, if_true, foundIn, ← h]
  simp only [State.foundError, State.countError, State.offer, hd, if_true]
  rfl

/-- Alarm Read on the other ports shows the list as it stands once its words have been read (R156). -/
theorem alarmRead_shows {p : Port} {selection first : Nat} (hp : p ≠ .ap) (h0 : selection ≤ 1) (h1 : 1 ≤ first)
    (h2 : first ≤ 64) (hv : s.checkAlarms = v) :
    s.alarmRead p selection first =
      v.answer p .done
        (.alarms v.alm.list.length (raisedCount v.alm.list) (selectedAlarms v selection).length
          (((selectedAlarms v selection).drop (first - 1)).take 6)) := by
  rw [State.alarmRead, if_neg (by omega), hv]
  simp only [if_neg hp]

/-- A delivered mark raises or clears no alarm. -/
theorem raisedCount_markDelivered (s : State) (shown : List AlarmEntry) :
    raisedCount (s.markDelivered shown).alm.list = raisedCount s.alm.list := by
  have hstate (a : AlarmEntry) :
      ((if shown.any fun b => b.slot == a.slot then { a with delivered := true } else a).state == .raised) =
        (a.state == .raised) := by split <;> rfl
  simp only [raisedCount, State.markDelivered, List.filter_map, List.length_map, Function.comp_def, hstate]

/-- On the Alarm Port the entries shown are marked delivered (R157). -/
theorem alarmRead_delivers {selection first : Nat} (h0 : selection ≤ 1) (h1 : 1 ≤ first) (h2 : first ≤ 64)
    (hv : s.checkAlarms = v) :
    s.alarmRead .ap selection first =
      (v.markDelivered (((selectedAlarms v selection).drop (first - 1)).take 6)).answer .ap .done
        (.alarms v.alm.list.length (raisedCount v.alm.list) (selectedAlarms v selection).length
          ((((selectedAlarms v selection).drop (first - 1)).take 6).map fun a => { a with delivered := true })) := by
  rw [State.alarmRead, if_neg (by omega), hv]
  simp only [if_true, raisedCount_markDelivered]
  simp only [State.markDelivered, List.length_map]

/-! ### Settings Read -/

theorem checkSettings_finds (h : s.trs.errors = [e]) (ha : e.area = .settings) {l : List Nat} (hl : e.index ∈ l) :
    s.checkSettings l = fixSetting s e := checkWords_finds h (by simpa [ha] using hl) _

theorem checkSettings_skips (h : s.trs.errors = [e]) {l : List Nat} (hl : e.index ∉ l) : s.checkSettings l = s :=
  checkWords_passes h (by simp [hl]) _

theorem mem_itemsFrom {first n k : Nat} : k ∈ itemsFrom first n ↔ (first ≤ k ∧ k < first + n) ∧ settingItem k = true := by
  simp only [itemsFrom, List.mem_filter, List.mem_map, List.mem_range, isItem_eq]
  refine and_congr_left fun _ => ⟨?_, fun ⟨h1, h2⟩ => ⟨k - first, by omega, by omega⟩⟩
  rintro ⟨j, hj, rfl⟩
  omega

theorem itemsFrom_eq (first n : Nat) : itemsFrom first n = ((List.range n).map (first + ·)).filter settingItem := by
  rw [itemsFrom, funext isItem_eq]

/-- A request served from the state that the read of its permission word leaves. -/
theorem leadsTo_of_served {p : Port} {tag now : Nat} {r : Request} (hs : s.startCheck = false)
    (hslot : (s.ptu.get p).slot = .pending tag r false) {i : Instr} {work : Request → Option (State → State)}
    {f : State → State} {st : Status} {pl : Payload} (hi : exec i s = workEvent p now s work) (hw : work r = some f)
    (hc : (reached s now).checkSetting (itemPermission r.row) = u) (hp : permitted u p r.row = true)
    (hm : available u.sup.mode r = true) (hv : v.ptu = s.ptu) (hf : f u = v.answer p st pl) :
    LeadsTo i s (answeredOn v p tag r.row st pl) := by
  have hwait : waiting s p = some r := by simp only [waiting, hslot]
  have hserve : (s.advance now).serve p r f = f u := by
    simp only [State.serve, advance_eq_reached, hc, hp, hm, Bool.true_eq_false, if_false]
  have hvslot : (v.ptu.get p).slot = .pending tag r false := by rw [hv]; exact hslot
  refine leadsTo_of_eq (hi.trans ?_) hs (hf.trans (answer_pending hvslot st pl))
  rw [workEvent, hwait, Option.bind_some, hw, Option.map_some, hserve]

theorem settingsRead_shows {p : Port} {first n : Nat} (h1 : 1 ≤ first) (h2 : first ≤ 125) (h3 : 1 ≤ n) (h4 : n ≤ 41)
    (hv : s.checkSettings (itemsFrom first n) = v) :
    s.settingsRead p first n = v.answer p .done (.settings ((itemsFrom first n).map fun k => (k, v.setting k))) := by
  subst hv
  exact if_neg (by omega)

end Sys2Proof.Machine

namespace Sys2Proof.Proofs

open Sys2Proof.Machine

theorem alarmWordsRead : AlarmWordsRead := by
  intro s e h ha
  rw [checkAlarms_finds h ha]
  exact ⟨fixAlarm_unlisted, fun hl => ⟨fixAlarm_single h hl, fixAlarm_double h hl⟩⟩

theorem regionReadsFind : RegionReadsFind := by
  refine ⟨fun s p tag first n now e hw h ha hitem hlo hhi h1 h3 h4 h2 => ?_,
    fun s p tag selection first now e hw h ha hl h0 h1 h2 => ?_⟩
  · have hr : (reached s now).trs.errors = [e] := h
    have hmem : e.index ∈ itemsFrom first n := mem_itemsFrom.2 ⟨⟨hlo, hhi⟩, hitem⟩
    have hfind {l : List Nat} (hl : e.index ∈ l) := checkSettings_finds hr ha hl
    intro v hpv
    have hv : v = fixSetting (reached s now) e := hfind (List.mem_singleton_self _)
    have hclean : v.trs.errors = [] := by rw [hv, fixSetting_one hr]; rfl
    have hptu : v.ptu = s.ptu := by rw [hv, fixSetting_one hr]; rfl
    obtain ⟨hs, hslot, hp, -⟩ := hw
    refine ⟨hclean, ?_⟩
    rw [← itemsFrom_eq]
    by_cases hperm : e.index = itemPermission 19
    · have hc : (reached s now).checkSetting (itemPermission 19) = v :=
        (hfind (by simp [hperm])).trans hv.symm
      exact leadsTo_of_served hs hslot rfl rfl hc hpv rfl hptu
        (settingsRead_shows h1 h2 h3 h4 (checkSettings_clean _ _ hclean))
    · have hc : (reached s now).checkSetting (itemPermission 19) = reached s now :=
        checkSettings_skips hr (by simpa using hperm)
      exact leadsTo_of_served hs hslot rfl rfl hc hp rfl hptu
        (settingsRead_shows (s := reached s now) h1 h2 h3 h4 ((hfind hmem).trans hv.symm))
  · have hr : (reached s now).trs.errors = [e] := h
    have hl' : ∃ a ∈ (reached s now).alm.list, a.slot = e.index := hl
    have harea : e.area ≠ .settings := by rw [ha]; nofun
    intro v chosen shown raised
    have honly : CloseWorkOnly (reached s now) v := checkAlarms_only _
    refine ⟨fun hd => ?_, fun hp => ?_, ?_⟩
    · have hv : v = _ := (checkAlarms_finds hr ha).trans (fixAlarm_double hr hl' hd)
      intro a hmem
      rw [hv] at hmem
      simpa using List.of_mem_filter hmem
    · exact leadsTo_of_awaited hw h harea rfl rfl honly (alarmRead_shows hp h0 h1 h2 rfl)
    · rintro rfl
      refine leadsTo_of_awaited hw h harea rfl rfl (honly.trans ?_) (alarmRead_delivers h0 h1 h2 rfl)
      constructor <;> rfl

/-- Settles O59: one word in error is found once; what its finding leaves is `fixSetting_one` and `fixSetting_two` for the settings
and `fixAlarm_single` and `fixAlarm_double` for the alarm list, and each read answers from there. -/
theorem regionWordsRead : Obligations.RegionWordsRead :=
  ⟨captureOffered, settingsWordsRead, alarmWordsRead, regionReadsFind⟩

end Sys2Proof.Proofs

/-! SUPPORT. Set Watch and Release Watch by the watch state (R168, R173), and the proof of O55. -/

namespace Sys2Proof.Machine

variable {s : State}

/-! ### Set Watch (R167, R168) -/

/-- A coded field that has a value is no greater than its last code. -/
theorem le_of_coded {α : Type} {f : Nat → Option α} {last n : Nat} {v : α} (hf : ∀ k, f (k + (last + 1)) = none)
    (h : f n = some v) : n ≤ last := by
  by_contra hn
  obtain ⟨k, rfl⟩ := Nat.exists_eq_add_of_le' (Nat.lt_of_not_le hn)
  exact absurd ((hf k).symm.trans h) nofun

theorem conditionOf_none {a b c d e f g : Nat} (h : 3 < a ∨ 7 < b ∨ 2 < c ∨ 3 < d ∨ 65535 < e ∨ 1 < f ∨ 1 < g) :
    conditionOf a b c d e f g = none := by
  unfold conditionOf
  split
  · next ht hq hsd hr hm hsn =>
    have ha : a ≤ 3 := le_of_coded (fun _ => rfl) ht
    have hb : b ≤ 7 := le_of_coded (fun _ => rfl) hq
    have hc : c ≤ 2 := le_of_coded (fun _ => rfl) hsd
    have hd : d ≤ 3 := le_of_coded (fun _ => rfl) hr
    have hf : f ≤ 1 := le_of_coded (fun _ => rfl) hm
    have hg : g ≤ 1 := le_of_coded (fun _ => rfl) hsn
    exact if_neg (by omega)
  · rfl

theorem setCondition_unlocked (h : s.wat.state ≠ .locked) (x : Condition) :
    s.setCondition x = { s with wat := { s.wat with cond := x, state := stateFor x } } := by
  unfold State.setCondition
  split
  · next hlocked => exact absurd hlocked h
  · rfl
  · rfl

theorem setCondition_locked (h : s.wat.state = .locked) (x : Condition) :
    s.setCondition x = { s with wat := { s.wat with pendingCond := some x } } := by
  simp only [State.setCondition, h]

/-! ### Release Watch (R173) -/

theorem releasedWatch_pending {w : Watch} {x : Condition} (h : w.pendingCond = some x) :
    releasedWatch w = { w with cond := x, pendingCond := none, state := stateFor x } := by
  simp only [releasedWatch, h]

theorem releasedWatch_noPending {w : Watch} (h : w.pendingCond = none) :
    releasedWatch w = { w with state := if w.cond.mode = .oneShot then .off else .armed } := by
  simp only [releasedWatch, h]
  cases w.cond.mode <;> rfl

theorem releaseWatch_unlocked (p : Port) (h : s.wat.state ≠ .locked) :
    s.releaseWatch p = s.answer p .done (.released true s.wat.matchCount s.wat.snapshot.status) := if_pos h

theorem releaseWatch_copying (p : Port) (h : s.wat.state = .locked) (hc : s.wat.copy ≠ none) :
    s.releaseWatch p = s.answer p .busy .none := by
  rw [State.releaseWatch, if_neg (not_not.2 h), copying, if_pos (Option.isSome_iff_ne_none.2 hc)]

theorem releaseWatch_locked {w : Watch} (p : Port) (h : s.wat.state = .locked) (hc : s.wat.copy = none)
    (hw : releasedWatch s.wat = w) :
    s.releaseWatch p =
      State.answer { s with wat := w } p .done (.released false s.wat.matchCount s.wat.snapshot.status) := by
  rw [State.releaseWatch, if_neg (not_not.2 h), copying, hc, hw]
  rfl

end Sys2Proof.Machine

namespace Sys2Proof.Proofs

open Sys2Proof.Machine

/-- Settles O55: each request answers from the state as its event finds it; what Set Watch and Release Watch leave of the watch is
one equation per watch state. -/
theorem watchRequests : Obligations.WatchRequests := by
  intro s p tag now armedFor gives
  refine ⟨fun a b c d e f g hr => ⟨fun x hx => ⟨fun hw => ?_, fun hw => ?_⟩, fun h => ?_⟩, fun hr => ?_, fun hr => ?_⟩
  · refine leadsTo_of_answer hr rfl rfl rfl rfl ?_
    simp only [hx, setCondition_unlocked (s := reached s now) hw]
    rfl
  · refine leadsTo_of_answer hr rfl rfl rfl rfl ?_
    simp only [hx, setCondition_locked (s := reached s now) hw]
    rfl
  · exact leadsTo_of_answer hr rfl rfl rfl rfl (by rw [conditionOf_none h]; rfl)
  · exact leadsTo_of_answer hr rfl rfl rfl rfl rfl
  · intro answer
    refine ⟨fun hw => ?_, fun hw hc => ?_, fun hw hc => ⟨fun x hx => ?_, fun hx => ?_⟩⟩
    all_goals refine leadsTo_of_answer hr rfl rfl rfl rfl ?_
    · exact releaseWatch_unlocked (s := reached s now) p hw
    · exact releaseWatch_copying (s := reached s now) p hw hc
    · exact releaseWatch_locked (s := reached s now) p hw hc (releasedWatch_pending hx)
    · exact releaseWatch_locked (s := reached s now) p hw hc (releasedWatch_noPending hx)

end Sys2Proof.Proofs

/-! SUPPORT. The end of a snapshot copy (R175), and the proof of O34. -/

namespace Sys2Proof.Machine

variable {s : State} {c : SnapshotCopy}

/-- The written range of a copy whose last column is written. -/
theorem writtenRange_whole (c : SnapshotCopy) :
    writtenRange { c with done := c.done + c.todo.length } =
      if c.done + c.todo.length = 0 then none
      else some (c.firstColumn, c.firstColumn + (c.done + c.todo.length) - 1) := rfl

/-- A copy that writes all it has left. -/
theorem copyWrites_whole (s : State) (c : SnapshotCopy) :
    s.copyWrites c c.todo.length =
      { s with
        cac.mem := writeColumns s.cac.mem c.todo
        wat.copy := some { c with done := c.done + c.todo.length, todo := [] } } := by
  rw [State.copyWrites, List.take_length, List.drop_length]

end Sys2Proof.Machine

namespace Sys2Proof.Proofs

open Sys2Proof.Machine

/-- Settles O34: the copy writes all it has left (`copyWrites_whole`), and columns written one after another stand
(`columnsStand_writeColumns`). -/
theorem snapshotCopyEnds : Obligations.SnapshotCopyEnds := by
  intro s c now hs hc total
  refine ⟨leadsTo_of_whenUp ?_ hs, columnsStand_writeColumns _ _⟩
  show execSnapshotCopyEnd now s = _
  simp only [execSnapshotCopyEnd, hc, copyWrites_whole, writtenRange_whole]
  rfl

end Sys2Proof.Proofs

/-! SUPPORT. The test of a delivered axle (R169), the lock and the beginning of its snapshot (R170, R171, R174, R175), and the
proof of O33. -/

namespace Sys2Proof.Machine

variable {s : State} {j : Job} {peak : Option Int} {train entry : Nat} {r : Results} {a : AxleEntry}

/-! ### The match relation (R169) -/

theorem relationHolds_iff (rel : Relation) (value : Nat) (q : Nat × ValueClass) :
    relationHolds rel value q = true ↔ Holds rel value q.1 q.2 := by
  cases rel <;> simp [relationHolds, Holds]

/-- A side that a condition names holds, or either of them where it names both. -/
def OnSide (w : WatchSide) (holds : Side → Prop) : Prop :=
  ∃ sd : Side, (w = .one → sd = .one) ∧ (w = .two → sd = .two) ∧ holds sd

theorem axleMatches_onSide (c : Condition) (a : AxleEntry) :
    axleMatches c a = true ↔
      OnSide c.side fun sd => Holds c.relation c.value (quantityOf c.quantity a sd).1 (quantityOf c.quantity a sd).2 := by
  simp only [← relationHolds_iff, OnSide, axleMatches]
  cases c.side with
  | one => exact ⟨fun h => ⟨.one, fun _ => rfl, nofun, h⟩, fun ⟨_, h1, _, h⟩ => h1 rfl ▸ h⟩
  | two => exact ⟨fun h => ⟨.two, nofun, fun _ => rfl, h⟩, fun ⟨_, _, h2, h⟩ => h2 rfl ▸ h⟩
  | either =>
    rw [Bool.or_eq_true]
    constructor
    · rintro (h | h)
      · exact ⟨.one, nofun, nofun, h⟩
      · exact ⟨.two, nofun, nofun, h⟩
    · rintro ⟨sd, -, -, h⟩
      cases sd
      · exact .inl h
      · exact .inr h

/-- What does not depend on the side holds on it. -/
theorem onSide_const (w : WatchSide) (p : Prop) : OnSide w (fun _ => p) ↔ p := by
  refine ⟨fun ⟨_, _, _, h⟩ => h, fun h => ?_⟩
  cases w with
  | one => exact ⟨.one, fun _ => rfl, nofun, h⟩
  | two => exact ⟨.two, nofun, fun _ => rfl, h⟩
  | either => exact ⟨.one, nofun, nofun, h⟩

theorem axleMatches_iff (c : Condition) (a : AxleEntry) : axleMatches c a = true ↔ Matches c a := by
  rw [axleMatches_onSide]
  unfold Matches
  cases c.quantity with
  | static | peak | impact | ratio | bearingRise => exact Iff.rfl
  | speed => exact onSide_const c.side (Holds c.relation c.value a.speed a.speedClass)
  | spacing => exact onSide_const c.side (Holds c.relation c.value a.spacing .valid)
  | axleIndex => exact onSide_const c.side (Holds c.relation c.value a.index .valid)

/-! ### The snapshot at a lock (R174, R175) -/

/-- A window of more than 512 samples is read from 256 before the peak sample on, held to lie within it (R174). -/
theorem sourceRange_long (c : Int) (h : ¬ windowLength j ≤ 512) :
    (if c - 256 < j.ls then (j.ls, 512) else if j.le < c + 255 then (j.le - 511, 512) else (c - 256, 512)) =
      (max j.ls (min (c - 256) (j.le - 511)), 512) := by
  unfold windowLength at h
  split
  · exact congrArg (·, 512) (by omega)
  · split
    · exact congrArg (·, 512) (by omega)
    · exact congrArg (·, 512) (by omega)

theorem sourceRange_eq (j : Job) (peak : Option Int) : sourceRange j peak = sourceOf j peak := by
  by_cases hlen : windowLength j ≤ 512
  · exact (if_pos hlen).trans (if_pos hlen).symm
  · refine (if_neg hlen).trans (.trans ?_ (if_neg hlen).symm)
    cases peak with
    | none => exact sourceRange_long _ hlen
    | some c => exact sourceRange_long c hlen

theorem settleSnapshot_alone (s : State) (j : Job) (peak : Option Int) :
    s.settleSnapshot j peak =
      { s with
        wat :=
          { s.wat with
            snapshot := (s.settleSnapshot j peak).wat.snapshot, copy := (s.settleSnapshot j peak).wat.copy } } := by
  simp only [State.settleSnapshot]
  repeat' split
  all_goals rfl

theorem settleSnapshot_settled (s : State) (j : Job) (peak : Option Int) :
    SnapshotSettled s (s.settleSnapshot j peak) j peak := by
  refine ⟨fun hno => ?_, fun hyes hbusy => ?_, fun hyes hbusy => ?_⟩
  · simp only [State.settleSnapshot, if_pos hno, and_self]
  · have hyes : ¬ s.wat.cond.snapshot = false := by simp [hyes]
    rw [State.settleSnapshot, if_neg hyes, if_pos hbusy]
    exact ⟨rfl, rfl⟩
  · have hyes : ¬ s.wat.cond.snapshot = false := by simp [hyes]
    rw [State.settleSnapshot, if_neg hyes, if_neg hbusy, sourceRange_eq]
    refine ⟨rfl, _, rfl, rfl, rfl, rfl, fun x l hx => ?_⟩
    dsimp only at hx ⊢
    rw [hx]

/-! ### The watch at a delivery -/

theorem axle_of_look (h : look s.trs.axles entry = some a) : s.axle entry = a := by rw [State.axle, h]; rfl

/-- The lock before its snapshot is settled (R170). -/
def lockedOn (s : State) (j : Job) (train entry : Nat) (a : AxleEntry) : State :=
  { s with
    trs.axles := adjust s.trs.axles entry fun a => { a with watched := true }
    wat :=
      { s.wat with
        state := .locked
        matchCount := 1
        slot := some
          ⟨{ a with watched := true }, train, j.track, j.ls, j.le, j.bs, j.be, stampAt s.cac.siteTime s.cac.count⟩ } }

theorem lockWatch_clean (hc : s.trs.errors = []) (ha : look s.trs.axles entry = some a) :
    s.lockWatch j train entry peak = (lockedOn s j train entry a).settleSnapshot j peak := by
  have hmarked : (s.onAxle entry fun a => { a with watched := true }).axle entry = { a with watched := true } :=
    axle_of_look (by rw [State.onAxle, look_adjust, if_pos rfl, ha]; rfl)
  rw [State.lockWatch, checkAxle_clean _ _ _ (by exact hc)]
  dsimp only
  rw [hmarked]
  rfl

theorem testWatch_unmatched (ha : look s.trs.axles entry = some a) (h : ¬ Matches s.wat.cond (writeResults r a)) :
    s.testWatch j train entry r = s := by
  rw [State.testWatch, axle_of_look ha, if_neg (mt (axleMatches_iff _ _).1 h)]

theorem testWatch_matched (ha : look s.trs.axles entry = some a) (h : Matches s.wat.cond (writeResults r a)) :
    s.testWatch j train entry r = s.actOnMatch j train entry r.peakSample := by
  rw [State.testWatch, axle_of_look ha, if_pos ((axleMatches_iff _ _).2 h)]

theorem actOnMatch_locked (h : s.wat.state = .locked) :
    s.actOnMatch j train entry peak =
      { s.onAxle entry (fun a => { a with watched := true }) with wat.matchCount := min (s.wat.matchCount + 1) 255 } := by
  simp only [State.actOnMatch, h]

theorem actOnMatch_armed (h : s.wat.state = .armed) :
    s.actOnMatch j train entry peak = s.lockWatch j train entry peak := by
  simp only [State.actOnMatch, h]

theorem watchTests_iff (s : State) (t : Track) :
    watchTests s t = true ↔
      s.wat.state ≠ .off ∧
        (s.wat.cond.tracks = .both ∨ (s.wat.cond.tracks = .t1 ∧ t = .one) ∨ (s.wat.cond.tracks = .t2 ∧ t = .two)) := by
  have htracks : watchesTrack s.wat.cond t = true ↔
      s.wat.cond.tracks = .both ∨ (s.wat.cond.tracks = .t1 ∧ t = .one) ∨ (s.wat.cond.tracks = .t2 ∧ t = .two) := by
    unfold watchesTrack
    cases s.wat.cond.tracks <;> cases t <;> decide
  rw [watchTests, Bool.and_eq_true, bne_iff_ne, htracks]

/-- A live job that is not discarded and whose track the watch tests: its results are written, then it is judged and tested in one
order or the other (R67, log 16). -/
theorem complete_tested {f : InFlight} {axle : Nat} (ho : f.job.owner = .live train entry axle) (hd : f.discard = false)
    (h : watchTests s f.job.track = true) :
    let written : State :=
      { s with
        aee.inFlight := none
        trs.axles := adjust s.trs.axles entry (writeResults f.results)
        free := s.free + 1 }
    s.complete f = (written.judgeLive f.job.track train entry axle f.results).testWatch f.job train entry f.results ∨
      s.complete f = (written.testWatch f.job train entry f.results).judgeLive f.job.track train entry axle f.results := by
  intro written
  have htests : watchTests (State.onAxle { s with aee.inFlight := none } entry (writeResults f.results)) f.job.track = true := h
  simp only [State.complete, ho, hd, Bool.false_eq_true, if_false, State.deliver, htests, if_true]
  split
  · exact .inr rfl
  · exact .inl rfl

end Sys2Proof.Machine

namespace Sys2Proof.Proofs

open Sys2Proof.Machine

/-- Settles O33: the model's test is the match relation (`axleMatches_iff`), the lock settles the snapshot from the locked state
(`lockWatch_clean`, `settleSnapshot_settled`), and the order at the delivery is one of two (`complete_tested`). -/
theorem watchMatches : Obligations.WatchMatches := by
  refine ⟨fun s j train entry r a hc ha => ?_, fun s f train entry axle now hs hc hf ho hd hw htracks => ?_⟩
  · intro tested u marked
    refine ⟨testWatch_unmatched ha, fun hm hw => ?_, fun hm hw => ?_⟩
    · exact (testWatch_matched ha hm).trans (actOnMatch_locked hw)
    · have hu : u = (lockedOn s j train entry a).settleSnapshot j r.peakSample :=
        ((testWatch_matched ha hm).trans (actOnMatch_armed hw)).trans (lockWatch_clean hc ha)
      rw [hu]
      exact ⟨settleSnapshot_settled (lockedOn s j train entry a) j r.peakSample, settleSnapshot_alone _ _ _⟩
  · intro delivered judge test
    have hexec : exec (.liveJobComplete now) s = whenUp s (some ((reached s now).complete f)) := by
      show execLiveJobComplete now s = _
      simp only [execLiveJobComplete, hf, isLive, ho, if_true]
      rfl
    have htests : watchTests (reached s now) f.job.track = true := (watchTests_iff _ _).2 ⟨hw, htracks⟩
    have hlead {u : State} (h : (reached s now).complete f = u) : LeadsTo (.liveJobComplete now) s u :=
      leadsTo_of_eq hexec hs h
    exact (complete_tested ho hd htests).imp hlead hlead

end Sys2Proof.Proofs

/-! SUPPORT. A work event whose request is turned away: outside its permission entry, or not in this device mode (R185 to R187), with
the proof of O47. -/

namespace Sys2Proof.Machine

variable {s : State} {p : Port} {tag now : Nat} {r : Request}

/-- The work command of a request is a work event that serves a request of its kind. -/
theorem workCommand_serves (s : State) (p : Port) (now : Nat) (r : Request) :
    ∃ work f, exec (workCommand p now r) s = workEvent p now s work ∧ work r = some f := by
  cases r
  case clearAlarm form n =>
    match form with
    | 0 | 1 => exact ⟨_, _, rfl, rfl⟩
    | form + 2 => exact ⟨_, _, by simp only [workCommand, Nat.reduceEqDiff, if_false]; rfl, rfl⟩
  all_goals exact ⟨_, _, rfl, rfl⟩

/-- What the checks of the Port Unit make of the waiting request, whatever its work is. -/
theorem leadsTo_of_serve {u : State} (hs : s.startCheck = false) (hslot : (s.ptu.get p).slot = .pending tag r false)
    (h : ∀ f, (reached s now).serve p r f = u) : LeadsTo (workCommand p now r) s u := by
  obtain ⟨work, f, hi, hw⟩ := workCommand_serves s p now r
  have hwait : waiting s p = some r := by simp only [waiting, hslot]
  refine leadsTo_of_eq (hi.trans ?_) hs (h f)
  rw [workEvent, hwait, Option.bind_some, hw, Option.map_some, advance_eq_reached]

theorem serve_denied (hc : s.trs.errors = []) (hslot : (s.ptu.get p).slot = .pending tag r false)
    (hp : permitted s p r.row = false) (f : State → State) :
    s.serve p r f =
      { s with
        ptu := s.ptu.set p
          { s.ptu.get p with slot := .answered tag r.row .denied .none 1, denials := bump (s.ptu.get p).denials } } := by
  simp [State.serve, hc, hp, State.answer, State.onPort, hslot]

theorem serve_mode (hc : s.trs.errors = []) (hslot : (s.ptu.get p).slot = .pending tag r false)
    (hp : permitted s p r.row = true) (hm : available s.sup.mode r = false) (f : State → State) :
    s.serve p r f = answeredOn s p tag r.row .mode .none := by
  simp only [State.serve, checkSetting_clean s _ hc, hp, hm, Bool.true_eq_false, if_false, if_true]
  exact answer_pending hslot _ _

/-- In FROZEN the rows 7, 20 to 23 and 25 are not available (R186). -/
theorem available_frozen (h : r.row = 7 ∨ r.row = 20 ∨ r.row = 21 ∨ r.row = 22 ∨ r.row = 23 ∨ r.row = 25) :
    available .frozen r = false := by
  cases r <;> simp only [Request.row, Nat.reduceEqDiff, or_self] at h
  all_goals rfl

/-- Outside RUN the window rows, Evaluate Snapshot and a Set Watch of snapshot YES are not available (R186). -/
theorem available_runOnly {m : DeviceMode} (hm : m ≠ .run)
    (h : r.row = 13 ∨ r.row = 14 ∨ r.row = 18 ∨ ∃ a b c d e f, r = .setWatch a b c d e f 0) : available m r = false := by
  have hne : (m == .run) = false := beq_false_of_ne hm
  rcases h with h | h | h | ⟨a, b, c, d, e, f, rfl⟩
  case inr.inr.inr => simp [available, hne]
  all_goals
    cases r <;> simp only [Request.row, Nat.reduceEqDiff] at h
    exact hne

theorem permitted_iff (s : State) (p : Port) (row : Nat) :
    permitted s p row = true ↔ s.settingNat (100 + row) / 2 ^ portBit p % 2 = 1 := by
  simp [permitted, itemPermission, Nat.testBit_eq_decide_div_mod_eq]

theorem permissionsGiven : PermissionsGiven :=
  ⟨fun s row =>
    ⟨by simpa [portBit] using permitted_iff s .rp row, permitted_iff s .ap row, permitted_iff s .sp row⟩, by decide⟩

theorem requestsTurnedAway : RequestsTurnedAway := by
  intro s p tag now r hs hc hslot port
  refine ⟨fun hp => ?_, fun hp hm => ?_⟩
  · exact leadsTo_of_serve hs hslot (serve_denied (s := reached s now) hc hslot hp)
  · refine leadsTo_of_serve hs hslot (serve_mode (s := reached s now) hc hslot hp ?_)
    rcases hm with ⟨hfrozen, hrow⟩ | ⟨hrun, hrow⟩
    · show available s.sup.mode r = false
      rw [hfrozen]
      exact available_frozen hrow
    · exact available_runOnly hrun hrow

end Sys2Proof.Machine

namespace Sys2Proof.Proofs

open Sys2Proof.Machine

/-- Settles O47: the checks of the Port Unit come before the work of any request (`leadsTo_of_serve`), and by `serve_denied` and
`serve_mode` answer it themselves. -/
theorem deniedOrMode : Obligations.DeniedOrMode := ⟨permissionsGiven, requestsTurnedAway⟩

end Sys2Proof.Proofs

/-! SUPPORT. The end of a select period (R180 to R184): what it sends and what the frame shifted out does, and the proof of O45 from
what the frame received does. -/

namespace Sys2Proof.Machine

variable {s : State} {p : Port} {x : PortState} {bytes : List Byte}

/-! ### What a period sends -/

theorem length_carried (f : Frame) (n : Nat) : (carried f n).length = n := by
  simp [carried]

/-- A frame shifted out whole drops the note or moves the part pointer of an answer, and touches nothing else. -/
structure ShiftOnly (x y : PortState) : Prop where
  period : y.period = x.period
  sent : y.sent = x.sent
  denials : y.denials = x.denials
  linkErrors : y.linkErrors = x.linkErrors
  slot : y.slot = x.slot ∨
    ∃ tag row st pl k k', x.slot = .answered tag row st pl k ∧ y.slot = .answered tag row st pl k'

theorem shiftedOut_only (src : FrameSource) (x : PortState) : ShiftOnly x (shiftedOut src x) := by
  unfold shiftedOut
  split
  · exact ⟨rfl, rfl, rfl, rfl, .inl rfl⟩
  · next hslot =>
    split
    · exact ⟨rfl, rfl, rfl, rfl, .inr ⟨_, _, _, _, _, _, hslot, rfl⟩⟩
    · exact ⟨rfl, rfl, rfl, rfl, .inl rfl⟩
  · exact ⟨rfl, rfl, rfl, rfl, .inl rfl⟩

/-- The port once its period is over and before the frame has acted. -/
def periodOver (checking : Bool) (n : Nat) (x : PortState) : PortState :=
  { x with period := none, sent := carried (x.period.getD (chooseFrame checking x)).frame n }

theorem endPeriod_eq (checking : Bool) (n : Nat) (x : PortState) :
    endPeriod checking n x =
      if 9 + (x.period.getD (chooseFrame checking x)).frame.payload.length ≤ n then
        shiftedOut (x.period.getD (chooseFrame checking x)).source (periodOver checking n x)
      else periodOver checking n x := rfl

theorem endPeriod_only (checking : Bool) (n : Nat) (x : PortState) :
    ShiftOnly (periodOver checking n x) (endPeriod checking n x) := by
  rw [endPeriod_eq]
  split
  · exact shiftedOut_only _ _
  · exact ⟨rfl, rfl, rfl, rfl, .inl rfl⟩

theorem endPeriod_empty (checking : Bool) (n : Nat) (h : x.slot = .empty) : (endPeriod checking n x).slot = .empty := by
  rcases (endPeriod_only checking n x).slot with hs | ⟨_, _, _, _, _, _, hx, -⟩
  · exact hs.trans h
  · exact WorkSlot.noConfusion (h.symm.trans hx)

theorem endPeriod_pending {tag : Nat} {r : Request} {v : Bool} (checking : Bool) (n : Nat) (h : x.slot = .pending tag r v) :
    (endPeriod checking n x).slot = .pending tag r v := by
  rcases (endPeriod_only checking n x).slot with hs | ⟨_, _, _, _, _, _, hx, -⟩
  · exact hs.trans h
  · exact WorkSlot.noConfusion (h.symm.trans hx)

/-- An answer outlives the period, its part pointer aside. -/
theorem endPeriod_answered {tag row k : Nat} {st : Status} {pl : Payload} (checking : Bool) (n : Nat)
    (h : x.slot = .answered tag row st pl k) : ∃ k', (endPeriod checking n x).slot = .answered tag row st pl k' := by
  rcases (endPeriod_only checking n x).slot with hs | ⟨tag', row', st', pl', j, j', hx, hy⟩
  · exact ⟨k, hs.trans h⟩
  · obtain ⟨rfl, rfl, rfl, rfl, -⟩ := WorkSlot.answered.inj (h.symm.trans hx)
    exact ⟨j', hy⟩

theorem endPeriod_notPending (checking : Bool) (n : Nat) (h : ∀ tag r v, x.slot ≠ .pending tag r v) (tag : Nat) (r : Request)
    (v : Bool) : (endPeriod checking n x).slot ≠ .pending tag r v := by
  rcases (endPeriod_only checking n x).slot with hs | ⟨_, _, _, _, _, _, -, hs⟩ <;> rw [hs]
  · exact h tag r v
  · exact WorkSlot.noConfusion

/-- The BUSY frame of the START check acts on nothing. -/
theorem endPeriod_busy {f : Frame} (checking : Bool) (n : Nat) (h : x.period = some ⟨f, .busy⟩) :
    endPeriod checking n x = { x with period := none, sent := carried f n } := by
  rw [endPeriod_eq, periodOver, h]
  exact ite_self _

/-! ### What the frame received does -/

theorem takeFrame_free (g : GoodFrame) (h : ∀ tag r v, x.slot ≠ .pending tag r v) :
    takeFrame g x = { x with slot := .pending g.tag g.req false, note := none } := by
  unfold takeFrame
  split
  · next hslot => exact absurd hslot (h _ _ _)
  · rfl
  · rfl

theorem takeFrame_pending {tag : Nat} {r : Request} {v : Bool} (g : GoodFrame) (h : x.slot = .pending tag r v) :
    takeFrame g x = { x with note := some ⟨.busyPort, g.tag, g.req.row, 1, 1, []⟩ } := by
  simp only [takeFrame, h]; rfl

/-- Taking a frame leaves the counts, the period and the bytes sent alone. -/
theorem takeFrame_frame (g : GoodFrame) (x : PortState) :
    (takeFrame g x).period = x.period ∧ (takeFrame g x).denials = x.denials ∧ (takeFrame g x).sent = x.sent ∧
      (takeFrame g x).linkErrors = x.linkErrors := by
  unfold takeFrame
  split <;> exact ⟨rfl, rfl, rfl, rfl⟩

theorem judgeFrame_good {g : GoodFrame} (hb : bytes.head? = some 0xA5#8) (hg : goodFrame bytes = some g) :
    judgeFrame bytes x = takeFrame g x := by
  simp only [judgeFrame, startCode, hb, hg]; rfl

theorem judgeFrame_bad (hb : bytes.head? = some 0xA5#8) (hg : goodFrame bytes = none) :
    judgeFrame bytes x =
      { x with note := some ⟨.linkError, 0, 0, 1, 1, []⟩, linkErrors := min (x.linkErrors + 1) 65535 } := by
  simp only [judgeFrame, startCode, hb, hg]; rfl

/-- A period that begins with the start code leaves the period over, the denials, and the bytes that were sent. -/
theorem judgeFrame_frame (hb : bytes.head? = some 0xA5#8) (x : PortState) :
    (judgeFrame bytes x).period = x.period ∧ (judgeFrame bytes x).denials = x.denials ∧
      (judgeFrame bytes x).sent = x.sent := by
  cases hg : goodFrame bytes with
  | none => rw [judgeFrame_bad hb hg]; exact ⟨rfl, rfl, rfl⟩
  | some g =>
    obtain ⟨hp, hd, hs, -⟩ := takeFrame_frame g x
    rw [judgeFrame_good hb hg]
    exact ⟨hp, hd, hs⟩

theorem requestPeriod_eq (s : State) (p : Port) (bytes : List Byte) :
    exec (.requestPeriod p bytes) s =
      .next { s with
        ptu := s.ptu.set p
          (if s.startCheck then endPeriod s.startCheck bytes.length (s.ptu.get p)
            else judgeFrame bytes (endPeriod s.startCheck bytes.length (s.ptu.get p))) } := rfl

theorem requestPeriod_up (hs : s.startCheck = false) (p : Port) (bytes : List Byte) :
    exec (.requestPeriod p bytes) s =
      .next { s with ptu := s.ptu.set p (judgeFrame bytes (endPeriod false bytes.length (s.ptu.get p))) } := by
  simp only [requestPeriod_eq, hs, Bool.false_eq_true, if_false]

theorem requestPeriod_checking (hs : s.startCheck = true) (p : Port) (bytes : List Byte) :
    exec (.requestPeriod p bytes) s =
      .next { s with ptu := s.ptu.set p (endPeriod true bytes.length (s.ptu.get p)) } := by
  simp only [requestPeriod_eq, hs, if_true]

end Sys2Proof.Machine

namespace Sys2Proof.Proofs

open Sys2Proof.Machine

/-- Settles O45: the period ends first (`endPeriod_only`), then the frame received is judged in the slot it left
(`judgeFrame_good`, `judgeFrame_bad`). -/
theorem framesJudged : Obligations.FramesJudged := by
  refine ⟨fun s p bytes hs hb => ?_, fun s p bytes f hs hperiod => ?_⟩
  · intro before
    have hover := endPeriod_only false bytes.length before
    obtain ⟨hperiod, hdenials, hsent⟩ := judgeFrame_frame hb (endPeriod false bytes.length before)
    refine ⟨_, requestPeriod_up hs p bytes, hperiod.trans hover.period, hdenials.trans hover.denials, ?_, ?_, ?_, ?_⟩
    · rw [hsent, hover.sent, periodOver, length_carried]
    · intro f src hf
      rw [hsent, hover.sent, periodOver, hf]
      rfl
    · intro g hg
      obtain ⟨-, -, -, hlinks⟩ := takeFrame_frame g (endPeriod false bytes.length before)
      rw [judgeFrame_good hb hg]
      refine ⟨hlinks.trans hover.linkErrors, fun hfree => ?_, fun tag r v hslot => ?_⟩
      · have hnot : ∀ tag r v, before.slot ≠ .pending tag r v := by
          rcases hfree with hslot | ⟨_, _, _, _, _, hslot⟩ <;> rw [hslot]
          all_goals exact fun _ _ _ => WorkSlot.noConfusion
        rw [takeFrame_free g (endPeriod_notPending false bytes.length hnot)]
        exact ⟨rfl, rfl⟩
      · have hpending := endPeriod_pending false bytes.length hslot
        rw [takeFrame_pending g hpending]
        exact ⟨hpending, rfl⟩
    · intro hg
      rw [judgeFrame_bad hb hg, hover.linkErrors]
      exact ⟨rfl, rfl, fun hslot => endPeriod_empty false bytes.length hslot,
        fun tag r v hslot => endPeriod_pending false bytes.length hslot,
        fun tag row st pl k hslot => endPeriod_answered false bytes.length hslot⟩
  · rw [requestPeriod_checking hs, endPeriod_busy true bytes.length hperiod]

end Sys2Proof.Proofs

/-! SUPPORT. Numbers in fields of bytes, written and read back (R190), and the layouts of the entries in an answer (R191 to R193), with
the proof of O15. -/

namespace Sys2Proof.Machine

variable {w n k : Nat} {l : List Byte}

/-! ### Fields -/

@[simp] theorem length_bigEndian (w n : Nat) : (bigEndian w n).length = w := by simp [bigEndian]

theorem natOf_concat (l : List Byte) (b : Byte) : natOf (l ++ [b]) = 256 * natOf l + b.toNat := by
  simp [natOf]

/-- The last byte of a field is the low byte of its number. -/
theorem bigEndian_succ (w n : Nat) : bigEndian (w + 1) n = bigEndian w (n / 256) ++ [BitVec.ofNat 8 n] := by
  simp [bigEndian, List.range_succ_eq_map, Nat.pow_succ', Nat.div_div_eq_div_mul, Function.comp_def]

/-- A field holds its number where it fits. -/
theorem natOf_bigEndian (h : n < 256 ^ w) : natOf (bigEndian w n) = n := by
  induction w generalizing n with
  | zero => exact (Nat.lt_one_iff.1 h).symm
  | succ w ih =>
    rw [Nat.pow_succ'] at h
    rw [bigEndian_succ, natOf_concat, ih (Nat.div_lt_of_lt_mul h), BitVec.toNat_ofNat]
    exact Nat.div_add_mod n 256

theorem number_fits (h : n < 256 ^ w) : number w n = bigEndian w n := if_pos h

/-- The field at the front reads back as its number. -/
theorem fieldAt_here (h : n < 256 ^ w) (l : List Byte) : fieldAt (bigEndian w n ++ l) 0 w = n := by
  simp [fieldAt, List.take_left' (length_bigEndian w n), natOf_bigEndian h]

/-- A field further on is read from what follows the one at the front. -/
theorem fieldAt_skip (h : w ≤ k) (n v : Nat) (l : List Byte) : fieldAt (bigEndian w n ++ l) k v = fieldAt l (k - w) v := by
  simp [fieldAt, List.drop_append, List.drop_eq_nil_of_le (Nat.le_trans (Nat.le_of_eq (length_bigEndian w n)) h)]

/-- The field at the end. -/
theorem fieldAt_last (h : n < 256 ^ w) : fieldAt (bigEndian w n) 0 w = n := by
  simpa using fieldAt_here h []

/-! ### Codes of one byte -/

theorem classCode_lt (c : ValueClass) : classCode c < 256 := by cases c <;> decide
theorem sevRank_lt (v : Severity) : sevRank v < 4 := by cases v <;> decide
theorem directionCode_lt (d : Direction) : directionCode d < 256 := by cases d <;> decide
theorem reasonCode_lt (r : CloseReason) : reasonCode r < 256 := by cases r <;> decide
theorem kindCode_lt (k : AlarmKind) : kindCode k < 256 := by cases k <;> decide
theorem alarmReasonCode_lt (r : AlarmReason) : alarmReasonCode r < 256 := by cases r <;> decide
theorem alarmStateCode_lt (a : AlarmState) : alarmStateCode a < 256 := by cases a <;> decide
theorem linkCode_lt (k : RecordLink) : linkCode k < 256 := by cases k <;> decide
theorem flagBit_le (i : Nat) (b : Bool) : flagBit i b ≤ 2 ^ i := by cases b <;> simp [flagBit]

theorem twoOrNone_eq (t : Option Two) : twoOrNone t = absentOr t := by
  rcases t with _ | ⟨_ | _⟩ <;> rfl

theorem absentOr_lt (t : Option Two) : absentOr t < 256 := by
  rcases t with _ | ⟨_ | _⟩ <;> decide

theorem marks_lt (v u : Severity) : 16 * sevRank v + sevRank u < 256 := by
  have hv := sevRank_lt v
  have hu := sevRank_lt u
  omega

theorem flag_le (n : Nat) (c : Prop) [Decidable c] : (if c then n else 0) ≤ n := by split <;> omega

/-! ### The layouts -/

theorem axleLaidOut : AxleLaidOut := by
  intro a hindex hoffset hdt hspeed hspacing hrails hsides f
  obtain ⟨hs1, hp1, hi1, hr1⟩ := hrails .one
  obtain ⟨hs2, hp2, hi2, hr2⟩ := hrails .two
  have hb1 := hsides .one
  have hb2 := hsides .two
  have hw : (if a.watched then 1 else 0) < 256 := Nat.lt_of_le_of_lt (flag_le 1 _) (by decide)
  simp only [Pair.get] at hs1 hp1 hi1 hr1 hs2 hp2 hi2 hr2 hb1 hb2
  simp [f, axleBytes, railBytes, sideBytes, flagBit, number_fits, fieldAt_here, fieldAt_skip, fieldAt_last, classCode_lt, marks_lt,
    hindex, hoffset, hdt, hspeed, hspacing, hs1, hp1, hi1, hr1, hs2, hp2, hi2, hr2, hb1, hb2, hw]

theorem vehicleLaidOut : VehicleLaidOut := by
  intro v hindex hfirst hcount hsum1 hsum2 hgross himbalance f
  have hworst : sevRank v.worst < 256 := Nat.lt_trans (sevRank_lt _) (by decide)
  have hflags : (if v.incomplete then 1 else 0) + (if v.damaged then 2 else 0) < 256 :=
    Nat.lt_of_le_of_lt (Nat.add_le_add (flag_le 1 _) (flag_le 2 _)) (by decide)
  simp [f, vehicleBytes, flagBit, number_fits, fieldAt_here, fieldAt_skip, fieldAt_last, hindex, hfirst, hcount, hsum1, hsum2,
    hgross, himbalance, hworst, hflags]

theorem recordFlagBits_lt (f : RecordFlags) : recordFlagBits f < 256 := by
  have h0 := flagBit_le 0 f.power
  have h1 := flagBit_le 1 f.overlength
  have h2 := flagBit_le 2 f.poolShort
  have h3 := flagBit_le 3 f.vehiclesTruncated
  have h4 := flagBit_le 4 f.damaged
  have h5 := flagBit_le 5 f.untared
  have h6 := flagBit_le 6 f.timeUnset
  simp only [recordFlagBits]
  omega

theorem holderBits_lt (h : Holders) : holderBits h < 256 := by
  have h0 := flagBit_le 0 h.report
  have h1 := flagBit_le 1 h.alarm
  simp only [holderBits]
  omega

theorem heldCount_lt (n : Nat) : heldCount n < 4294967296 := by
  simp only [heldCount]
  omega

theorem headerLaidOut : HeaderLaidOut := by
  intro h holders position hnumber hopen hclose hphantoms hdepth hunwinds hwithdrawals hmin hmax hmean hvehicles hgross hcoverage
    hposition f bit
  obtain ⟨hopenS, hopenM⟩ := hopen
  obtain ⟨hcloseS, hcloseM⟩ := hclose
  have hworst : sevRank h.worst < 256 := Nat.lt_trans (sevRank_lt _) (by decide)
  have hheld : min h.axleCount 4294967295 = heldCount h.axleCount := rfl
  have hflags := recordFlagBits_lt h.flags
  have hholders := holderBits_lt holders
  simp only [f]
  -- `delta`, since the equation lemma of so long a concatenation is too costly to make
  delta headerBytes
  simp [bit, timeBytes, number_fits, fieldAt_here, fieldAt_skip, fieldAt_last, twoOrNone_eq, absentOr_lt,
    directionCode_lt, reasonCode_lt, hnumber, hopenS, hopenM, hcloseS, hcloseM, hphantoms, hdepth, hunwinds, hwithdrawals, hmin,
    hmax, hmean, hvehicles, hgross, hcoverage, hposition, hworst, hheld, heldCount_lt, hflags, hholders]
  exact ⟨rfl, rfl, rfl, rfl⟩

theorem alarmLaidOut : AlarmLaidOut := by
  intro a hnumber htrain haxle hvalue hlevel hfirst hlast f
  obtain ⟨hfirstS, hfirstM⟩ := hfirst
  obtain ⟨hlastS, hlastM⟩ := hlast
  have hseverity : sevRank a.severity < 256 := Nat.lt_trans (sevRank_lt _) (by decide)
  have hflags : (if a.delivered then 1 else 0) + (if a.first.unset ∨ a.last.unset then 2 else 0) < 256 :=
    Nat.lt_of_le_of_lt (Nat.add_le_add (flag_le 1 _) (flag_le 2 _)) (by decide)
  simp [f, alarmBytes, timeBytes, flagBit, number_fits, fieldAt_here, fieldAt_skip, fieldAt_last, twoOrNone_eq, absentOr_lt,
    kindCode_lt, alarmReasonCode_lt, alarmStateCode_lt, linkCode_lt, hnumber, htrain, haxle, hvalue, hlevel, hfirstS, hfirstM,
    hlastS, hlastM, hseverity, hflags]
  exact ⟨rfl, rfl⟩

end Sys2Proof.Machine

namespace Sys2Proof.Proofs

open Sys2Proof.Machine

/-- Settles O15: each layout is a chain of fields, and a field reads back at its place (`fieldAt_here`, `fieldAt_skip`). -/
theorem axleEntryLayout : Obligations.AxleEntryLayout := ⟨axleLaidOut, vehicleLaidOut, headerLaidOut, alarmLaidOut⟩

end Sys2Proof.Proofs

/-! SUPPORT. Which request frames are good (R181), and that the fields of a request survive its frame (9.5, R190), with the proof of
O14. -/

namespace Sys2Proof.Machine

/-! ### The check -/

theorem crcBit_eq (c : BitVec 16) :
    crcBit c = if 32768 ≤ c.toNat then (c <<< 1) ^^^ 0x1021#16 else c <<< 1 := by
  simp only [crcBit, BitVec.msb_eq_decide, decide_eq_true_eq, Nat.add_one_sub_one, Nat.reducePow]

theorem checkOf_eq (l : List Byte) : checkOf l = crc16 l := by
  have hbit : crcBit = fun c : BitVec 16 => if 32768 ≤ c.toNat then (c <<< 1) ^^^ 0x1021#16 else c <<< 1 :=
    funext crcBit_eq
  unfold crc16 crcByte
  rw [hbit]
  rfl

/-! ### The catalogue -/

theorem lengthAllowed_iff (kind n : Nat) : lengthAllowed kind n = true ↔ LengthAllowed kind n := by
  unfold lengthAllowed LengthAllowed
  split
  case h_24 => simp [and_assoc]
  case h_26 => simp_all
  all_goals simp

/-- A body holds at least the tag. -/
theorem lengthAllowed_pos {kind n : Nat} (h : lengthAllowed kind n = true) : 0 < n := by
  rcases (lengthAllowed_iff kind n).1 h with h | h | h | h | h | h | h | h | h | h | h <;> omega

/-- Each kind for which the catalogue allows a length has a request. -/
theorem requestOf_of_lengthAllowed {kind n : Nat} (h : lengthAllowed kind n = true) (l : List Byte) :
    ∃ r, requestOf kind l = some r := by
  unfold lengthAllowed at h
  split at h
  case h_26 => cases h
  all_goals exact ⟨_, rfl⟩

/-- A request of a kind has the row of that kind. -/
theorem row_of_requestOf {kind : Nat} {l : List Byte} {r : Request} (h : requestOf kind l = some r) : r.row = kind := by
  unfold requestOf at h
  split at h <;> cases h <;> rfl

/-! ### The frame -/

/-- The parts of a good frame: kind, length, tag, fields and check, with what follows it. -/
structure FrameParts (bytes : List Byte) (kind length tag : Byte) (fields : List Byte) (c d : Byte) (rest : List Byte) : Prop where
  bytes : bytes = startCode :: kind :: length :: (tag :: fields ++ c :: d :: rest)
  whole : fields.length + 1 = length.toNat
  allowed : lengthAllowed kind.toNat length.toNat = true
  check : natOf [c, d] = (crc16 (kind :: length :: tag :: fields)).toNat

theorem goodFrame_parts {bytes fields rest : List Byte} {kind length tag c d : Byte}
    (h : FrameParts bytes kind length tag fields c d rest) :
    goodFrame bytes = (requestOf kind.toNat fields).map fun r => ⟨tag.toNat, r⟩ := by
  obtain ⟨rfl, hwhole, hallowed, hcheck⟩ := h
  have hbody : (tag :: fields ++ c :: d :: rest).take length.toNat = tag :: fields := List.take_left' hwhole
  have hrest : (tag :: fields ++ c :: d :: rest).drop length.toNat = c :: d :: rest := List.drop_left' hwhole
  simp only [goodFrame, hbody, hrest]
  exact if_pos ⟨trivial, rfl, hallowed, hcheck⟩

/-- A list that holds some bytes and two more after them. -/
theorem exists_split_of_take {l : List Byte} {n : Nat} (h : ((l.drop n).take 2).length = 2) :
    ∃ body c d rest, l = body ++ c :: d :: rest ∧ body.length = n := by
  rcases hl : l.drop n with _ | ⟨c, _ | ⟨d, rest⟩⟩
  · simp [hl] at h
  · simp [hl] at h
  · refine ⟨l.take n, c, d, rest, by rw [← hl, List.take_append_drop], List.length_take_of_le ?_⟩
    have := congrArg List.length hl
    simp only [List.length_drop, List.length_cons] at this
    omega

theorem parts_of_goodFrame {bytes : List Byte} (h : goodFrame bytes ≠ none) :
    ∃ kind length tag fields c d rest, FrameParts bytes kind length tag fields c d rest := by
  unfold goodFrame at h
  split at h
  · next start kind length l =>
    dsimp only at h
    split at h
    · next hgood =>
      obtain ⟨rfl, htwo, hallowed, hcheck⟩ := hgood
      obtain ⟨body, c, d, rest, rfl, hlen⟩ := exists_split_of_take htwo
      rw [List.take_left' hlen, List.drop_left' hlen] at hcheck
      cases body with
      | nil => exact absurd (lengthAllowed_pos hallowed) (by rw [← hlen]; exact Nat.lt_irrefl 0)
      | cons tag fields => exact ⟨kind, length, tag, fields, c, d, rest, rfl, hlen, hallowed, hcheck⟩
    · exact absurd rfl h
  · exact absurd rfl h

theorem natOf_two (c d : Byte) : natOf [c, d] = 256 * c.toNat + d.toNat := by simp [natOf]

theorem goodFrames : GoodFrames := by
  intro bytes
  refine ⟨⟨fun h => ?_, ?_⟩, fun g hg => ?_⟩
  · obtain ⟨kind, length, tag, fields, c, d, rest, hbytes, hwhole, hallowed, hcheck⟩ := parts_of_goodFrame h
    refine ⟨kind, length, tag :: fields, c, d, rest, hbytes, hwhole, (lengthAllowed_iff _ _).1 hallowed, ?_⟩
    rw [checkOf_eq, ← hcheck, natOf_two]
  · rintro ⟨kind, length, body, c, d, rest, hbytes, hwhole, hallowed, hcheck⟩
    have hallowed := (lengthAllowed_iff _ _).2 hallowed
    cases body with
    | nil => exact absurd (lengthAllowed_pos hallowed) (by rw [← hwhole]; exact Nat.lt_irrefl 0)
    | cons tag fields =>
      obtain ⟨r, hr⟩ := requestOf_of_lengthAllowed hallowed fields
      rw [checkOf_eq, ← natOf_two] at hcheck
      rw [goodFrame_parts ⟨hbytes, hwhole, hallowed, hcheck⟩, hr]
      exact Option.some_ne_none _
  · obtain ⟨kind, length, tag, fields, c, d, rest, hparts⟩ := parts_of_goodFrame (by rw [hg]; exact Option.some_ne_none g)
    rw [goodFrame_parts hparts] at hg
    obtain ⟨r, hr, rfl⟩ := Option.map_eq_some_iff.1 hg
    rw [hparts.bytes, row_of_requestOf hr]
    exact ⟨rfl, rfl⟩

/-! ### The fields of a request -/

theorem bigEndian_one (n : Nat) : bigEndian 1 n = [BitVec.ofNat 8 n] := by simp [bigEndian]

theorem bigEndian_two (n : Nat) : bigEndian 2 n = [BitVec.ofNat 8 (n / 256), BitVec.ofNat 8 n] := by
  rw [bigEndian_succ, bigEndian_one]; rfl

theorem bigEndian_four (n : Nat) :
    bigEndian 4 n = [BitVec.ofNat 8 (n / 16777216), BitVec.ofNat 8 (n / 65536), BitVec.ofNat 8 (n / 256), BitVec.ofNat 8 n] := by
  simp [bigEndian_succ _ n, bigEndian_succ _ (n / 256), bigEndian_two, Nat.div_div_eq_div_mul]

theorem samplesOf_cons (v : Sample) (l : List Byte) : samplesOf (bigEndian 2 v.toNat ++ l) = v :: samplesOf l := by
  have h := natOf_bigEndian (w := 2) v.isLt
  rw [bigEndian_two] at h ⊢
  show BitVec.ofNat 16 (natOf _) :: _ = _
  rw [h, BitVec.ofNat_toNat, BitVec.setWidth_eq]
  rfl

theorem samplesOf_flatMap (l : List Sample) : samplesOf (l.flatMap fun v => bigEndian 2 v.toNat) = l := by
  induction l with
  | nil => rfl
  | cons v l ih => rw [List.flatMap_cons, samplesOf_cons, ih]

theorem pairsOf_cons {e : Nat × Nat} (h : e.1 < 65536 ∧ e.2 < 4294967296) (l : List Byte) :
    pairsOf (bigEndian 2 e.1 ++ bigEndian 4 e.2 ++ l) = e :: pairsOf l := by
  have h1 := natOf_bigEndian (w := 2) h.1
  have h2 := natOf_bigEndian (w := 4) h.2
  rw [bigEndian_two] at h1 ⊢
  rw [bigEndian_four] at h2 ⊢
  show (natOf _, natOf _) :: _ = _
  rw [h1, h2]
  rfl

theorem pairsOf_flatMap {l : List (Nat × Nat)} (h : ∀ e ∈ l, e.1 < 65536 ∧ e.2 < 4294967296) :
    pairsOf (l.flatMap fun e => bigEndian 2 e.1 ++ bigEndian 4 e.2) = l := by
  induction l with
  | nil => rfl
  | cons e l ih =>
    rw [List.forall_mem_cons] at h
    rw [List.flatMap_cons, pairsOf_cons h.1, ih h.2]

theorem map_toNat_flatMap {l : List Nat} (h : ∀ e ∈ l, e < 256) : (l.flatMap (bigEndian 1)).map BitVec.toNat = l := by
  induction l with
  | nil => rfl
  | cons n l ih =>
    rw [List.forall_mem_cons] at h
    rw [List.flatMap_cons, bigEndian_one, List.singleton_append, List.map_cons, ih h.2, BitVec.toNat_ofNat, Nat.mod_eq_of_lt h.1]

theorem requestOf_fields {r : Request} (h : r.fits) : requestOf r.row (requestFields r) = some r := by
  cases r
  case windowWrite l => exact congrArg (fun l => some (Request.windowWrite l)) (samplesOf_flatMap l)
  case settingsWrite l => exact congrArg (fun l => some (Request.settingsWrite l)) (pairsOf_flatMap h.2.2)
  case setPermissions l => exact congrArg (fun l => some (Request.setPermissions l)) (map_toNat_flatMap h.2)
  all_goals
    simp only [Request.fits] at h
    simp [requestOf, Request.row, requestFields, fieldAt_here, fieldAt_skip, fieldAt_last, h]

theorem lengthAllowed_fields {r : Request} (h : r.fits) : lengthAllowed r.row ((requestFields r).length + 1) = true := by
  cases r
  case windowWrite l =>
    have hl : l.length ≤ 124 := h
    simp [requestFields, Request.row, lengthAllowed]
    omega
  case settingsWrite l =>
    obtain ⟨hmin, hmax, -⟩ := h
    simp [requestFields, Request.row, lengthAllowed]
    omega
  case setPermissions l => simp [requestFields, Request.row, lengthAllowed, h.1]
  all_goals simp [requestFields, Request.row, lengthAllowed]

theorem row_lt (r : Request) : r.row < 256 := by cases r <;> simp [Request.row]

theorem lengthAllowed_lt {kind n : Nat} (h : lengthAllowed kind n = true) : n < 256 := by
  rcases (lengthAllowed_iff kind n).1 h with h | h | h | h | h | h | h | h | h | h | h <;> omega

/-- The frame a master sends, with anything after it, has the parts of a good frame. -/
theorem requestFrame_parts {tag : Nat} {r : Request} (rest : List Byte) (hfits : r.fits) :
    ∃ c d, FrameParts (requestFrame tag r ++ rest) (BitVec.ofNat 8 r.row) (BitVec.ofNat 8 ((requestFields r).length + 1))
      (BitVec.ofNat 8 tag) (requestFields r) c d rest := by
  have hallowed := lengthAllowed_fields hfits
  have hrow : (BitVec.ofNat 8 r.row).toNat = r.row := Nat.mod_eq_of_lt (row_lt r)
  have hlen : (BitVec.ofNat 8 ((requestFields r).length + 1)).toNat = (requestFields r).length + 1 :=
    Nat.mod_eq_of_lt (lengthAllowed_lt hallowed)
  obtain ⟨m, hm⟩ : ∃ m, m = (crc16 (BitVec.ofNat 8 r.row :: BitVec.ofNat 8 ((requestFields r).length + 1) ::
    BitVec.ofNat 8 tag :: requestFields r)).toNat := ⟨_, rfl⟩
  refine ⟨BitVec.ofNat 8 (m / 256), BitVec.ofNat 8 m, ?_, hlen.symm, by rw [hrow, hlen]; exact hallowed, ?_⟩
  · simp only [requestFrame, bigEndian_one, bigEndian_two, List.length_cons, List.cons_append, List.nil_append, List.append_assoc,
      ← hm]
  · rw [← bigEndian_two, ← hm]
    exact natOf_bigEndian (hm ▸ BitVec.isLt _)

theorem framesSent : FramesSent := by
  intro tag r rest htag hfits
  have hgood (rest : List Byte) : goodFrame (requestFrame tag r ++ rest) = some ⟨tag, r⟩ := by
    obtain ⟨c, d, hparts⟩ := requestFrame_parts (tag := tag) rest hfits
    rw [goodFrame_parts hparts, BitVec.toNat_ofNat, BitVec.toNat_ofNat, Nat.mod_eq_of_lt (row_lt r), Nat.mod_eq_of_lt htag,
      requestOf_fields hfits]
    rfl
  exact ⟨by simpa using hgood [], hgood rest⟩

end Sys2Proof.Machine

namespace Sys2Proof.Proofs

open Sys2Proof.Machine

/-- Settles O14: the good frames are those with the parts of `FrameParts` (`goodFrame_parts`, `parts_of_goodFrame`), which the frame a
master sends has (`requestFrame_parts`), and the fields of a request read back from its bytes (`requestOf_fields`). -/
theorem requestFramesRead : Obligations.RequestFramesRead := ⟨framesSent, goodFrames⟩

end Sys2Proof.Proofs

/-! SUPPORT. What leaves the ports alone: the checked reads, the alarm list, trains, tracks, samples, jobs, the watch, the close operation
and the START check, one lemma per operation. -/

namespace Sys2Proof.Machine

variable (s : State) (t : Track)

theorem foldl_ptu {β : Type} (f : State → β → State) (hf : ∀ s b, (f s b).ptu = s.ptu) (l : List β) (s : State) :
    (l.foldl f s).ptu = s.ptu := by
  induction l generalizing s with
  | nil => rfl
  | cons b l ih => exact (ih _).trans (hf s b)

/-! ### Checked reads, alarms and the store -/

@[simp] theorem checkSettings_ptu (l : List Nat) : (s.checkSettings l).ptu = s.ptu := (checkSettings_only s l).ptu
@[simp] theorem checkSetting_ptu (n : Nat) : (s.checkSetting n).ptu = s.ptu := (checkSetting_only s n).ptu
@[simp] theorem checkAlarms_ptu : s.checkAlarms.ptu = s.ptu := (checkAlarms_only s).ptu
@[simp] theorem checkAxle_ptu (n : Nat) (l : List WordField) : (s.checkAxle n l).ptu = s.ptu := (checkAxle_only s n l).ptu
@[simp] theorem checkVehicle_ptu (n : Nat) : (s.checkVehicle n).ptu = s.ptu := (checkVehicle_only s n).ptu
@[simp] theorem checkHeader_ptu (n : Nat) (l : List WordField) : (s.checkHeader n l).ptu = s.ptu :=
  (checkHeader_only s n l).ptu
@[simp] theorem enterAlarm_ptu (j : Judgement) : (s.enterAlarm j).ptu = s.ptu := (enterAlarm_only s j).ptu
@[simp] theorem testNotice_ptu : s.testNotice.ptu = s.ptu := (testNotice_only s).ptu
@[simp] theorem judgeAxle_ptu (key : AlarmKey) (n v : Nat) (c : ValueClass) : (s.judgeAxle key n v c).1.ptu = s.ptu :=
  (judgeAxle_only s key n v c).ptu
@[simp] theorem makeRoom_ptu (room : State → Bool) : (s.makeRoom room).ptu = s.ptu := (makeRoom_only s room).ptu
@[simp] theorem finishPieces_ptu (o : CloseOp) : (s.finishPieces o).ptu = s.ptu :=
  ((closePieces_only s _).trans (closePieces_only _ _)).ptu

/-! ### Trains -/

@[simp] theorem cancelJobs_ptu (n : Nat) : (s.cancelJobs n).ptu = s.ptu := by rw [cancelJobs_eq]; rfl
@[simp] theorem closeRequest_ptu (reason : CloseReason) : (s.closeRequest t reason).ptu = s.ptu :=
  (closeRequest_frame s t reason).ptu

@[simp] theorem requestJob_ptu (n k i : Nat) (c : Crossing) (v : Nat × ValueClass) :
    (s.requestJob n t k i c v).ptu = s.ptu := by
  simp only [State.requestJob]
  split <;> simp

@[simp] theorem pushAxle_ptu (tr : Train) (c : Crossing) (v : Nat × ValueClass) (k : Nat) :
    (s.pushAxle t tr c v k).ptu = s.ptu := by
  simp [State.pushAxle]

@[simp] theorem forward_ptu (tr : Train) (c : Crossing) (v : Nat × ValueClass) : (s.forward t tr c v).ptu = s.ptu := by
  simp only [State.forward]
  repeat' split
  all_goals simp

@[simp] theorem reverse_ptu (tr : Train) : (s.reverse t tr).ptu = s.ptu := by
  simp only [State.reverse]
  repeat' split
  all_goals rfl

@[simp] theorem handCrossing_ptu (c : Crossing) (v : Nat × ValueClass) : (s.handCrossing t c v).ptu = s.ptu := by
  simp only [State.handCrossing]
  repeat' split
  all_goals simp

@[simp] theorem openTrain_ptu (c : Crossing) (v : Nat × ValueClass) : (s.openTrain t c v).ptu = s.ptu :=
  handCrossing_ptu _ t c v

/-! ### Tracks -/

@[simp] theorem startTStand_ptu : (s.startTStand t).ptu = s.ptu := checkSetting_ptu s itemTStand
@[simp] theorem startTSettle_ptu : (s.startTSettle t).ptu = s.ptu := checkSetting_ptu s itemTSettle
@[simp] theorem startTEnd_ptu : (s.startTEnd t).ptu = s.ptu := checkSetting_ptu s itemTEnd
@[simp] theorem startTAbandon_ptu : (s.startTAbandon t).ptu = s.ptu := checkSetting_ptu s itemTAbandon
@[simp] theorem startTDormant_ptu : (s.startTDormant t).ptu = s.ptu := checkSetting_ptu s itemTDormant
@[simp] theorem startTRetare_ptu : (s.startTRetare t).ptu = s.ptu := checkSetting_ptu s itemTRetare

@[simp] theorem startStuckIfOn_ptu (h : Head) : (s.startStuckIfOn t h).ptu = s.ptu := by
  simp only [State.startStuckIfOn, State.startStuck]
  split <;> simp

@[simp] theorem resumeStuck_ptu : (s.resumeStuck t).ptu = s.ptu := by simp [State.resumeStuck]

@[simp] theorem enterArmed_ptu : (s.enterArmed t).ptu = s.ptu := by simp [State.enterArmed]

@[simp] theorem enterArming_ptu : (s.enterArming t).ptu = s.ptu := by
  simp only [State.enterArming]
  split <;> simp

@[simp] theorem startTrainTimer_ptu : (s.startTrainTimer t).ptu = s.ptu := by
  simp only [State.startTrainTimer]
  repeat' split
  all_goals simp

@[simp] theorem closeToArming_ptu (reason : CloseReason) : (s.closeToArming t reason).ptu = s.ptu := by
  simp [State.closeToArming]

@[simp] theorem atTrack_ptu (now : Nat) : (s.atTrack t now).ptu = s.ptu := by simp [State.atTrack]

@[simp] theorem enterFault_ptu (h : Head) : (s.enterFault t h).ptu = s.ptu := by simp [State.enterFault]

@[simp] theorem disposeCrossing_ptu (c : Crossing) (v : Nat × ValueClass) : (s.disposeCrossing t c v).ptu = s.ptu := by
  simp only [State.disposeCrossing]
  repeat' split
  all_goals simp

@[simp] theorem headCrossing_ptu (h : Head) : (s.headCrossing t h).ptu = s.ptu := by
  simp only [State.headCrossing, State.recognise]
  repeat' split
  all_goals simp

@[simp] theorem headOnActive_ptu (h : Head) : (s.headOnActive t h).ptu = s.ptu := by
  simp only [State.headOnActive]
  split <;> simp

@[simp] theorem occupancyClears_ptu : (s.occupancyClears t).ptu = s.ptu := by
  simp only [State.occupancyClears]
  split <;> simp

@[simp] theorem occupancyFills_ptu : (s.occupancyFills t).ptu = s.ptu := by
  simp only [State.occupancyFills]
  split <;> simp

/-! ### Samples -/

@[simp] theorem completeRefresh_ptu : (s.completeRefresh t).ptu = s.ptu := by simp [State.completeRefresh]

@[simp] theorem refreshStep_ptu (value : Nat → Sample) : (s.refreshStep t value).ptu = s.ptu := by
  simp only [State.refreshStep]
  repeat' split
  all_goals simp

@[simp] theorem writeSample_ptu (samples : List Sample) : (s.writeSample samples).ptu = s.ptu := by
  simp [State.writeSample]

/-! ### Jobs and the watch -/

@[simp] theorem copyByNow_ptu : s.copyByNow.ptu = s.ptu := by
  simp only [State.copyByNow]
  split <;> rfl

@[simp] theorem tearCopy_ptu : s.tearCopy.ptu = s.ptu := by rw [tearCopy_alone]

@[simp] theorem settleSnapshot_ptu (j : Job) (peak : Option Int) : (s.settleSnapshot j peak).ptu = s.ptu := by
  simp only [State.settleSnapshot]
  repeat' split
  all_goals rfl

@[simp] theorem testWatch_ptu (j : Job) (train entry : Nat) (r : Results) : (s.testWatch j train entry r).ptu = s.ptu := by
  simp only [State.testWatch, State.actOnMatch, State.lockWatch]
  repeat' split
  all_goals simp

@[simp] theorem judgeLive_ptu (train entry axle : Nat) (r : Results) : (s.judgeLive t train entry axle r).ptu = s.ptu :=
  foldl_ptu _ (fun _ _ => judgeAxle_ptu ..) _ s

@[simp] theorem deliver_ptu (j : Job) (train entry axle : Nat) (r : Results) : (s.deliver j train entry axle r).ptu = s.ptu := by
  simp only [State.deliver]
  repeat' split
  all_goals simp

/-! ### The Report Builder -/

theorem takeClosing_ptu {s u : State} {c : ClosingTrain} (h : s.takeClosing = some (c, u)) : u.ptu = s.ptu := by
  simp only [State.takeClosing] at h
  repeat' split at h
  all_goals cases h
  all_goals rfl

@[simp] theorem beginClose_ptu (c : ClosingTrain) (early : Bool) : (s.beginClose c early).ptu = s.ptu := by
  simp [State.beginClose]

@[simp] theorem makeRecord_ptu (o : CloseOp) (k : Nat) (l : List Nat) : (s.makeRecord o k l).ptu = s.ptu := by
  simp [State.makeRecord]

@[simp] theorem discardTrain_ptu (o : CloseOp) : (s.discardTrain o).ptu = s.ptu := by simp [State.discardTrain]

/-! ### Settings, RESTART and the supply -/

@[simp] theorem storeItems_ptu (l : List (Nat × Int)) : (s.storeItems l).ptu = s.ptu := by
  unfold State.storeItems
  refine foldl_ptu _ (fun _ _ => ?_) l s
  rfl

@[simp] theorem rewatchStuck_ptu (l : List (Nat × Int)) : (s.rewatchStuck l t).ptu = s.ptu := by
  simp only [State.rewatchStuck]
  split <;> simp

@[simp] theorem setCondition_ptu (c : Condition) : (s.setCondition c).ptu = s.ptu := by
  simp only [State.setCondition]
  split <;> rfl

@[simp] theorem restartTrains_ptu : s.restartTrains.ptu = s.ptu := by
  simp [State.restartTrains, foldl_ptu (fun s (tr : Train) => s.cancelJobs tr.number) fun s tr => cancelJobs_ptu s tr.number]

@[simp] theorem restartTrack_ptu : (s.restartTrack t).ptu = s.ptu := by simp [State.restartTrack]

@[simp] theorem freezeTrack_ptu : (s.freezeTrack t).ptu = s.ptu := by
  simp only [State.freezeTrack]
  split <;> split <;> simp

@[simp] theorem leaveTrack_ptu : (s.leaveTrack t).ptu = s.ptu := by
  simp only [State.leaveTrack]
  split <;> simp

@[simp] theorem testLeave_ptu : s.testLeave.ptu = s.ptu := by
  simp only [State.testLeave]
  split <;> rfl

/-! ### The START check -/

theorem readRecord_ptu (r : RecordDir) : (s.readRecord r).ptu = s.ptu :=
  ((foldl_ptu _ (fun s k => checkAxle_ptu s k []) r.axles _).trans (foldl_ptu _ (fun s k => checkVehicle_ptu s k) r.vehicles _)).trans
    (checkHeader_ptu s r.header [])

@[simp] theorem checkRegion_ptu (take : Bool) : (s.checkRegion take).ptu = s.ptu := by
  simp only [State.checkRegion]
  split
  · rfl
  · simp [State.endRegion, State.keepRegion, State.freeRest, foldl_ptu State.readRecord readRecord_ptu]

@[simp] theorem startSupply_ptu : s.startSupply.ptu = s.ptu := by
  simp only [State.startSupply]
  repeat' split
  all_goals rfl

@[simp] theorem startTrack_ptu : (s.startTrack t).ptu = s.ptu := by
  simp only [State.startTrack]
  split <;> simp

/-- Taken into service, the ports stand as the START check leaves them (R194). -/
theorem intoService_ptu (inputs : Inputs) (samples : List Sample) :
    (s.intoService inputs samples).ptu = ⟨checkedPort s.ptu.rp, checkedPort s.ptu.ap, checkedPort s.ptu.sp⟩ := by
  simp only [State.intoService]
  split <;> simp [State.sampleZero, State.startBlocks]

end Sys2Proof.Machine

/-! SUPPORT. What a command that is no select period, START or end of a START check may do to a port: answer its pending request at
part 1 (R184, R185). -/

namespace Sys2Proof.Machine

variable {s u v : State} {p : Port} {x y z : PortState}

/-- Whether a slot holds an answer. -/
def Answered (x : PortState) : Prop := ∃ tag row st pl k, x.slot = .answered tag row st pl k

/-- A port in which the select period is as it was, an answer stands, and a new answer points at part 1. -/
structure PortKept (x y : PortState) : Prop where
  period : y.period = x.period
  stands : Answered x → y.slot = x.slot
  begins : ¬ Answered x → ∀ tag row st pl k, y.slot = .answered tag row st pl k → k = 1

namespace PortKept

/-- A port whose period and slot are as they were. -/
theorem of_slot (hp : y.period = x.period) (hs : y.slot = x.slot) : PortKept x y :=
  ⟨hp, fun _ => hs, fun hn tag row st pl k h => absurd ⟨tag, row, st, pl, k, hs.symm.trans h⟩ hn⟩

theorem refl (x : PortState) : PortKept x x := .of_slot rfl rfl

theorem trans (h : PortKept x y) (k : PortKept y z) : PortKept x z where
  period := k.period.trans h.period
  stands hx := (k.stands (by rw [Answered, h.stands hx]; exact hx)).trans (h.stands hx)
  begins hx tag row st pl n hz := by
    by_cases hy : Answered y
    · exact h.begins hx tag row st pl n ((k.stands hy).symm.trans hz)
    · exact k.begins hy tag row st pl n hz

/-- A slot that is not ANSWERED may go on as it is called for. -/
theorem of_pending {tag : Nat} {r : Request} {served : Bool} (hslot : x.slot = .pending tag r served) (hp : y.period = x.period)
    (hy : ∀ tag row st pl k, y.slot = .answered tag row st pl k → k = 1) : PortKept x y :=
  ⟨hp, fun ⟨_, _, _, _, _, h⟩ => WorkSlot.noConfusion (hslot.symm.trans h), fun _ => hy⟩

end PortKept

/-- Every port is kept. -/
def PortsKept (s u : State) : Prop := ∀ p, PortKept (s.ptu.get p) (u.ptu.get p)

namespace PortsKept

theorem of_ptu (h : u.ptu = s.ptu) : PortsKept s u := fun p => h ▸ .refl (s.ptu.get p)

theorem refl (s : State) : PortsKept s s := .of_ptu rfl

theorem trans (h : PortsKept s u) (k : PortsKept u v) : PortsKept s v := fun p => (h p).trans (k p)

/-- A change of one port. -/
theorem onPort (s : State) (p : Port) {f : PortState → PortState} (h : ∀ x, PortKept x (f x)) : PortsKept s (s.onPort p f) := by
  intro q
  by_cases hq : q = p
  · rw [hq, State.onPort_ptu, Ports.get_set_same]
    exact h _
  · rw [State.onPort_ptu, Ports.get_set_other _ _ _ _ hq]
    exact .refl _

/-- An answer given on a port. -/
@[simp] theorem answer (s : State) (p : Port) (st : Status) (pl : Payload) : PortsKept s (s.answer p st pl) :=
  .onPort s p fun x => by
    split
    · next hslot => exact .of_pending hslot rfl fun _ _ _ _ _ h => (WorkSlot.answered.inj h).2.2.2.2.symm
    · exact .refl x

/-- An answer given after what leaves the ports alone. -/
theorem answered (h : u.ptu = s.ptu) (p : Port) (st : Status) (pl : Payload) : PortsKept s (u.answer p st pl) :=
  (PortsKept.of_ptu h).trans (.answer u p st pl)

theorem foldl {β : Type} {f : State → β → State} (hf : ∀ s b, PortsKept s (f s b)) (l : List β) (s : State) :
    PortsKept s (l.foldl f s) := by
  induction l generalizing s with
  | nil => exact .refl s
  | cons b l ih => exact (hf s b).trans (ih _)

end PortsKept

/-! ### The work of the requests -/

@[simp] theorem recordList_ports (s : State) (p : Port) (first : Nat) : PortsKept s (s.recordList p first) := by
  simp only [State.recordList]
  split
  · exact .answer s p _ _
  · exact .answered (foldl_ptu _ (fun s (r : RecordDir) => checkHeader_ptu s r.header summaryFields) _ s) p _ _

@[simp] theorem headerRead_ports (s : State) (p : Port) (n : Nat) : PortsKept s (s.headerRead p n) := by
  simp only [State.headerRead]
  split <;> exact .answered (by simp) p _ _

@[simp] theorem axleRead_ports (s : State) (p : Port) (n first : Nat) : PortsKept s (s.axleRead p n first) := by
  simp only [State.axleRead]
  repeat' split
  · exact .answer s p _ _
  · exact .answered ((foldl_ptu _ (fun s k => checkAxle_ptu s k []) _ _).trans (checkHeader_ptu ..)) p _ _
  · exact .answer s p _ _

@[simp] theorem vehicleRead_ports (s : State) (p : Port) (n first : Nat) : PortsKept s (s.vehicleRead p n first) := by
  simp only [State.vehicleRead]
  repeat' split
  · exact .answer s p _ _
  · exact .answered ((foldl_ptu _ (fun s k => checkVehicle_ptu s k) _ _).trans (checkHeader_ptu ..)) p _ _
  · exact .answer s p _ _

@[simp] theorem releaseRecord_ports (s : State) (p : Port) (n : Nat) : PortsKept s (s.releaseRecord p n) := by
  simp only [State.releaseRecord]
  repeat' split
  all_goals exact .answered rfl p _ _

@[simp] theorem purgeRecord_ports (s : State) (p : Port) (n : Nat) : PortsKept s (s.purgeRecord p n) := by
  simp only [State.purgeRecord]
  repeat' split
  all_goals exact .answered rfl p _ _

@[simp] theorem alarmRead_ports (s : State) (p : Port) (selection first : Nat) : PortsKept s (s.alarmRead p selection first) := by
  simp only [State.alarmRead]
  split
  · exact .answer s p _ _
  · refine .answered ?_ p _ _
    split
    · exact checkAlarms_ptu s
    · exact checkAlarms_ptu s

@[simp] theorem clearNumber_ports (s : State) (p : Port) (n : Nat) : PortsKept s (s.clearNumber p n) := by
  simp only [State.clearNumber]
  repeat' split
  · exact .answer s p _ _
  all_goals exact .answered (checkAlarms_ptu s) p _ _

@[simp] theorem clearTrack_ports (s : State) (p : Port) (n : Nat) : PortsKept s (s.clearTrack p n) := by
  simp only [State.clearTrack]
  split
  · exact .answered (checkAlarms_ptu s) p _ _
  · exact .answer s p _ _

@[simp] theorem liveAxleRead_ports (s : State) (p : Port) (n : Nat) : PortsKept s (s.liveAxleRead p n) := by
  simp only [State.liveAxleRead]
  repeat' split
  · exact .answer s p _ _
  · exact .answer s p _ _
  · exact .answered (foldl_ptu _ (fun s k => checkAxle_ptu s k []) _ s) p _ _

@[simp] theorem forceClose_ports (s : State) (p : Port) (n : Nat) : PortsKept s (s.forceClose p n) := by
  simp only [State.forceClose]
  repeat' split
  all_goals exact .answered (by simp) p _ _

@[simp] theorem windowRead_ports (s : State) (p : Port) (count : Nat) : PortsKept s (s.windowRead p count) := by
  simp only [State.windowRead]
  repeat' split
  all_goals exact .answered (by simp) p _ _

@[simp] theorem windowWrite_ports (s : State) (p : Port) (samples : List Sample) : PortsKept s (s.windowWrite p samples) := by
  simp only [State.windowWrite]
  repeat' split
  all_goals exact .answered rfl p _ _

@[simp] theorem releaseWatch_ports (s : State) (p : Port) : PortsKept s (s.releaseWatch p) := by
  simp only [State.releaseWatch]
  repeat' split
  all_goals exact .answered rfl p _ _

/-- An accepted Evaluate Snapshot leaves its request PENDING, in service (R49). -/
theorem acceptSnapshot_ports (s : State) (p : Port) (f : SnapshotFields) (gate : Int × Int) (d : Nat) :
    PortsKept s (s.acceptSnapshot p f gate d) := by
  have hmark (x : PortState) : PortKept x (markInService x) := by
    unfold markInService
    split
    · next hslot => exact .of_pending hslot rfl fun _ _ _ _ _ => WorkSlot.noConfusion
    · exact .refl x
  refine (PortsKept.of_ptu ?_).trans (.onPort _ p hmark)
  simp

@[simp] theorem evaluateSnapshot_ports (s : State) (p : Port) (f : SnapshotFields) : PortsKept s (s.evaluateSnapshot p f) := by
  have hread := checkSettings_ptu s [itemD f.track, itemH f.track, itemW f.track]
  simp only [State.evaluateSnapshot]
  repeat' split
  · exact .answered hread p _ _
  · exact .answered hread p _ _
  · exact .answered hread p _ _
  · exact (PortsKept.of_ptu hread).trans (acceptSnapshot_ports _ p f _ _)

@[simp] theorem settingsRead_ports (s : State) (p : Port) (first count : Nat) : PortsKept s (s.settingsRead p first count) := by
  simp only [State.settingsRead]
  split <;> exact .answered (by simp) p _ _

@[simp] theorem settingsWrite_ports (s : State) (p : Port) (pairs : List (Nat × Nat)) : PortsKept s (s.settingsWrite p pairs) := by
  have hread (l : List (Nat × Int)) : (s.readGeometry l).ptu = s.ptu := checkSettings_ptu s (presentItems l)
  simp only [State.settingsWrite]
  repeat' split
  · exact .answer s p _ _
  · exact .answered (hread _) p _ _
  · exact .answered (hread _) p _ _
  · simp only [State.applyWrite]
    exact .answered (by simp [hread]) p _ _

@[simp] theorem setPermissions_ports (s : State) (p : Port) (entries : List Nat) : PortsKept s (s.setPermissions p entries) := by
  simp only [State.setPermissions]
  split <;> exact .answered (by simp) p _ _

@[simp] theorem giveStatus_ports (s : State) (p : Port) (sect : Nat) : PortsKept s (s.giveStatus p sect) := by
  have hread : (if sect = 7 then s.checkSetting itemRetentionPolicy else s).ptu = s.ptu := by split <;> simp
  simp only [State.giveStatus]
  split <;> exact .answered hread p _ _

@[simp] theorem restart_ports (s : State) (p : Port) : PortsKept s (s.restart p) := by
  have hothers (w : State) : PortsKept w (w.restartOthers p) := by
    refine .foldl (fun s q => ?_) allPorts w
    split
    · exact .refl s
    · exact .answer s q _ _
  have hparts : ((s.restartTrains.restartTrack .one).restartTrack .two).tearCopy.ptu = s.ptu := by simp
  exact ((PortsKept.of_ptu hparts).trans (hothers _)).trans (.answer _ p _ _)

/-! ### Jobs and the freeze -/

theorem complete_ports (s : State) (f : InFlight) : PortsKept s (s.complete f) := by
  simp only [State.complete]
  repeat' split
  · exact .of_ptu rfl
  · exact .of_ptu (deliver_ptu ..)
  · exact .answered rfl _ _ _
  · exact .of_ptu rfl

theorem takeJob_ports (s : State) (j : Job) : PortsKept s (s.takeJob j) := by
  simp only [State.takeJob]
  split
  · refine (PortsKept.of_ptu ?_).trans (complete_ports _ _)
    exact checkSettings_ptu s _
  · exact .of_ptu (checkSettings_ptu s _)

theorem freeze_ports (s : State) : PortsKept s s.freeze := by
  have hengine : PortsKept (enteringFrozen s) (enteringFrozen s).freezeEngine := by
    rw [freezeEngine_eq]
    intro q
    show PortKept _ ((evaluatedPorts _).get q)
    rw [evaluatedPorts_get, evaluationRestarted]
    split
    · next hslot =>
      rw [portAnswered_pending hslot]
      exact .of_pending hslot rfl fun _ _ _ _ _ h => (WorkSlot.answered.inj h).2.2.2.2.symm
    · exact .refl _
  have hentering : PortsKept s (enteringFrozen s) := .of_ptu rfl
  refine (hentering.trans hengine).trans (.of_ptu ?_)
  rw [freeze_eq]
  simp [beforeTracks]

end Sys2Proof.Machine

/-! SUPPORT. Every command that is no select period, START or end of a START check keeps the ports so. -/

namespace Sys2Proof.Machine

variable {s u : State} {p : Port} {x : PortState}

/-- The ports are kept in the state an outcome leads to. -/
def KeepsPorts (s : State) (o : Host.Outcome State Fault Refusal) : Prop := ∀ u, o = .next u → PortsKept s u

theorem keepsPorts_whenUp {r : Option State} (h : ∀ u, r = some u → PortsKept s u) : KeepsPorts s (whenUp s r) := by
  rintro v hv
  rcases whenUp_next s r with hn | ⟨u, hu, hn⟩ <;> cases hn.symm.trans hv
  · exact .refl _
  · exact (h u hu).trans (.of_ptu (by simp))

/-- An event that leaves the ports alone. -/
theorem keepsPorts_same {r : Option State} (h : ∀ u, r = some u → u.ptu = s.ptu) : KeepsPorts s (whenUp s r) :=
  keepsPorts_whenUp fun u hu => .of_ptu (h u hu)

theorem keepsPorts_some (h : u.ptu = s.ptu) : KeepsPorts s (whenUp s (some u)) :=
  keepsPorts_same (by rintro v ⟨⟩; exact h)

/-- An expiry that leaves the ports alone at its count. -/
theorem keepsPorts_expiry {timer : Timer} {f : Nat → State} (h : ∀ e, (f e).ptu = s.ptu) :
    KeepsPorts s (whenUp s (timer.map f)) := by
  refine keepsPorts_same fun u hu => ?_
  obtain ⟨e, -, rfl⟩ := Option.map_eq_some_iff.1 hu
  exact h e

/-- A request's work keeps the ports, so does its event. -/
theorem keepsPorts_work (p : Port) (now : Nat) {work : Request → Option (State → State)}
    (h : ∀ r f, work r = some f → ∀ w, PortsKept w (f w)) : KeepsPorts s (workEvent p now s work) := by
  rintro v hv
  rcases workEvent_next p now s work with hn | ⟨r, f, -, hf, hn⟩ <;> cases hn.symm.trans hv
  · exact .refl _
  · have hread : PortsKept s ((s.advance now).checkSetting (itemPermission r.row)) := .of_ptu (by simp)
    have hserve : PortsKept s ((s.advance now).serve p r f) := by
      rcases serve_cases (s.advance now) p r f with h1 | h1 | h1 <;> rw [h1]
      · exact (hread.trans (.onPort _ p (f := fun x => { x with denials := bump x.denials }) fun x => .of_slot rfl rfl)).trans
          (.answer _ p _ _)
      · exact hread.trans (.answer _ p _ _)
      · exact hread.trans (h r f hf _)
    exact hserve.trans (.of_ptu (by simp))

/-! ### Every command -/

/-- The commands that begin or end a select period or a START check. -/
def actsOnPeriods : Instr → Bool
  | .requestPeriod _ _ | .answerFetch _ | .readPeriodEnd _ _ | .start | .startCheckEnd _ _ => true
  | _ => false

theorem holdupLowActive_keepsPorts (s : State) (now : Nat) : KeepsPorts s (exec (.holdupLowActive now) s) := by
  refine keepsPorts_whenUp (r := some _) ?_
  rintro u ⟨⟩
  have hlow : PortsKept s { s.advance now with sup.holdupLow := true } := .of_ptu rfl
  split
  · exact hlow.trans (freeze_ports _)
  · exact hlow.trans (freeze_ports _)
  · exact .of_ptu rfl

theorem jobTake_keepsPorts (s : State) : KeepsPorts s (exec .jobTake s) := by
  refine keepsPorts_whenUp fun u hu => ?_
  split at hu <;> cases hu
  exact takeJob_ports s _

theorem liveJobComplete_keepsPorts (s : State) (now : Nat) : KeepsPorts s (exec (.liveJobComplete now) s) := by
  refine keepsPorts_whenUp fun u hu => ?_
  repeat' split at hu
  all_goals cases hu
  exact (PortsKept.of_ptu rfl).trans (complete_ports (s.advance now) _)

theorem serviceJobComplete_keepsPorts (s : State) (now : Nat) : KeepsPorts s (exec (.serviceJobComplete now) s) := by
  refine keepsPorts_whenUp fun u hu => ?_
  repeat' split at hu
  all_goals cases hu
  exact (PortsKept.of_ptu rfl).trans (complete_ports (s.advance now) _)

theorem closeTake_keepsPorts (s : State) : KeepsPorts s (exec .closeTake s) := by
  refine keepsPorts_same fun u hu => ?_
  split at hu <;> cases hu
  next hc => exact (beginClose_ptu ..).trans (takeClosing_ptu hc)

theorem recordAppend_keepsPorts (s : State) (now : Nat) : KeepsPorts s (exec (.recordAppend now) s) := by
  refine keepsPorts_same fun u hu => ?_
  obtain ⟨o, -, hu⟩ := Option.bind_eq_some_iff.1 hu
  obtain ⟨o', -, hu⟩ := Option.bind_eq_some_iff.1 hu
  split at hu <;> cases hu
  simp

theorem discardedFull_keepsPorts (s : State) (now : Nat) : KeepsPorts s (exec (.discardedFull now) s) := by
  refine keepsPorts_same fun u hu => ?_
  obtain ⟨o, -, hu⟩ := Option.bind_eq_some_iff.1 hu
  obtain ⟨o', -, hu⟩ := Option.bind_eq_some_iff.1 hu
  split at hu
  · next s2 _ hr =>
    cases hu
    have hasked : s2.ptu = ((s.advance now).finishPieces o).ptu :=
      (congrArg (fun r : State × Option Nat => r.1.ptu) hr).symm.trans (makeRoom_ptu _ headerRoom)
    rw [discardTrain_ptu, hasked]
    simp
  · cases hu

theorem exec_keepsPorts {i : Instr} (hi : actsOnPeriods i = false) (s : State) : KeepsPorts s (exec i s) := by
  cases i
  case requestPeriod | answerFetch | readPeriodEnd | start | startCheckEnd => cases hi
  case headOn | headOff | approachPulse | occupancyClear | occupancyOccupied | takeRises | takeFalls | supplyFailActive |
      supplyFailInactive =>
    refine keepsPorts_some ?_
    split <;> simp [State.setOccupied]
  case sampleWrite | holdupLowInactive =>
    refine keepsPorts_some ?_
    simp
  case tSettleExpiry | tEndExpiry | tStandExpiry | tAbandonExpiry | tDormantExpiry | tRetareExpiry | stuckTimerExpiry |
      faultRecoveryExpiry | failTimerExpiry | recoveryTimerExpiry | leaveTimerExpiry =>
    refine keepsPorts_expiry fun e => ?_
    dsimp only
    split <;> simp
  case refreshComplete | snapshotCopyEnd | freezeComplete =>
    refine keepsPorts_same fun u hu => ?_
    split at hu <;> cases hu
    simp [State.copyWrites]
  case holdupLowActive now => exact holdupLowActive_keepsPorts s now
  case jobTake => exact jobTake_keepsPorts s
  case liveJobComplete now => exact liveJobComplete_keepsPorts s now
  case serviceJobComplete now => exact serviceJobComplete_keepsPorts s now
  case closeTake => exact closeTake_keepsPorts s
  case recordAppend now => exact recordAppend_keepsPorts s now
  case discardedFull now => exact discardedFull_keepsPorts s now
  case clearAlarmNumber | clearAlarmTrack =>
    refine keepsPorts_work _ _ fun r f hf w => ?_
    split at hf
    · split at hf <;> cases hf <;> simp
    · cases hf
  case setWindow | setWatch =>
    refine keepsPorts_work _ _ fun r f hf w => ?_
    split at hf <;> cases hf
    dsimp only
    split <;> exact .answered (by simp) _ _ _
  case evaluateSnapshot =>
    refine keepsPorts_work _ _ fun r f hf w => ?_
    split at hf <;> cases hf
    dsimp only
    split <;> simp
  case setSiteTime | clearUnlisted | clearErrorCapture =>
    refine keepsPorts_work _ _ fun r f hf w => ?_
    split at hf <;> cases hf
    exact .answered rfl _ _ _
  all_goals
    refine keepsPorts_work _ _ fun r f hf w => ?_
    split at hf <;> cases hf
    simp

end Sys2Proof.Machine

/-! SUPPORT. The frame of a select period, the parts of an answer (R183, R184), and what the periods, START and the end of its check do to
a port, with the proof of O46. -/

namespace Sys2Proof.Machine

variable {s u : State} {p : Port} {x : PortState} {l : List Byte}

/-! ### The frame of a period -/

theorem answerFetch_eq (s : State) (p : Port) :
    exec (.answerFetch p) s =
      .next { s with ptu := s.ptu.set p { s.ptu.get p with period := some (chooseFrame s.startCheck (s.ptu.get p)) } } := rfl

theorem chooseFrame_checking (x : PortState) : chooseFrame true x = ⟨⟨.busy, 0, 0, 1, 1, []⟩, .busy⟩ := rfl

theorem chooseFrame_note {f : Frame} (h : x.note = some f) : chooseFrame false x = ⟨f, .note⟩ := by
  simp only [chooseFrame, h, Bool.false_eq_true, if_false]

theorem chooseFrame_pending {tag : Nat} {r : Request} {v : Bool} (hn : x.note = none) (h : x.slot = .pending tag r v) :
    chooseFrame false x = ⟨⟨.pending, tag, r.row, 1, 1, []⟩, .pending⟩ := by
  simp only [chooseFrame, hn, h, Bool.false_eq_true, if_false]
  rfl

theorem chooseFrame_answered {tag row k : Nat} {st : Status} {pl : Payload} (hn : x.note = none)
    (h : x.slot = .answered tag row st pl k) :
    chooseFrame false x = ⟨⟨st, tag, row, k, partCount (payloadBytes pl), partBytes (payloadBytes pl) k⟩, .part k⟩ := by
  simp only [chooseFrame, hn, h, Bool.false_eq_true, if_false]
  rfl

theorem chooseFrame_empty (hn : x.note = none) (h : x.slot = .empty) :
    chooseFrame false x = ⟨⟨.done, 0, 0, 1, 1, []⟩, .empty⟩ := by
  simp only [chooseFrame, hn, h, Bool.false_eq_true, if_false]
  rfl

/-! ### Parts -/

/-- Chunks of one size, joined, are the beginning they cover. -/
theorem flatMap_chunks (c m : Nat) (l : List Byte) :
    ((List.range m).flatMap fun k => (l.drop (c * k)).take c) = l.take (c * m) := by
  induction m with
  | zero => simp
  | succ m ih => rw [List.range_succ, List.flatMap_append, ih, List.flatMap_singleton, Nat.mul_succ, List.take_add]

theorem length_le_parts (l : List Byte) : l.length ≤ 246 * partCount l := by
  simp only [partCount, Config.partSize]
  omega

theorem parts_join (l : List Byte) : ((List.range (partCount l)).flatMap fun k => partBytes l (k + 1)) = l :=
  (flatMap_chunks 246 (partCount l) l).trans (List.take_of_length_le (length_le_parts l))

theorem partBytes_length (l : List Byte) (k : Nat) : (partBytes l k).length ≤ 246 := List.length_take_le ..

theorem partBytes_ne_nil {k : Nat} (hl : l ≠ []) (h1 : 1 ≤ k) (hk : k ≤ partCount l) : partBytes l k ≠ [] := by
  have hpos := List.length_pos_iff.2 hl
  rw [← List.length_pos_iff, partBytes, List.length_take, List.length_drop]
  simp only [partCount, Config.partSize] at hk ⊢
  omega

/-! ### The end of a read period -/

theorem readPeriodEnd_eq (s : State) (p : Port) (bytes : List Byte) :
    exec (.readPeriodEnd p bytes) s =
      .next { s with ptu := s.ptu.set p (endPeriod s.startCheck bytes.length (s.ptu.get p)) } := rfl

/-- The end of a recorded period. -/
theorem endPeriod_recorded {f : Frame} {src : FrameSource} (checking : Bool) (n : Nat) (h : x.period = some ⟨f, src⟩) :
    endPeriod checking n x =
      if 9 + f.payload.length ≤ n then shiftedOut src { x with period := none, sent := carried f n }
      else { x with period := none, sent := carried f n } := by
  rw [endPeriod_eq, periodOver, h]
  rfl

theorem shiftedOut_part {tag row k : Nat} {st : Status} {pl : Payload} (h : x.slot = .answered tag row st pl k) :
    shiftedOut (.part k) x =
      { x with slot := .answered tag row st pl (if partCount (payloadBytes pl) ≤ k then 1 else k + 1) } := by
  simp only [shiftedOut, h, if_true]
  rfl

theorem shiftedOut_still {src : FrameSource} (h : src = .busy ∨ src = .pending ∨ src = .empty) (x : PortState) :
    shiftedOut src x = x := by
  rcases h with rfl | rfl | rfl <;> rfl

/-! ### What each command does to a port -/

/-- What O46 asks of a command on a port: the period changes only at its begin and end and at START, an answer stands but for a
period and the end of a START check, and a new answer points at part 1. -/
structure PortFrame (i : Instr) (p : Port) (x y : PortState) : Prop where
  period : i ≠ .answerFetch p → (∀ l, i ≠ .requestPeriod p l) → (∀ l, i ≠ .readPeriodEnd p l) → i ≠ .start →
    y.period = x.period
  begins : ¬ Answered x → ∀ tag row st pl k, y.slot = .answered tag row st pl k → k = 1
  stands : Answered x → (∀ l, i ≠ .requestPeriod p l) → (∀ l, i ≠ .readPeriodEnd p l) →
    (∀ inputs l, i ≠ .startCheckEnd inputs l) → y.slot = x.slot

theorem PortKept.frame {y : PortState} (h : PortKept x y) (i : Instr) (p : Port) : PortFrame i p x y :=
  ⟨fun _ _ _ _ => h.period, h.begins, fun hx _ _ _ => h.stands hx⟩

/-- An answer after a period was one before it. -/
theorem endPeriod_keepsUnanswered (checking : Bool) (n : Nat) (h : ¬ Answered x) : ¬ Answered (endPeriod checking n x) := by
  rintro ⟨tag, row, st, pl, k, hy⟩
  rcases (endPeriod_only checking n x).slot with hs | ⟨tag', row', st', pl', j, j', hx, -⟩
  · exact h ⟨tag, row, st, pl, k, hs.symm.trans hy⟩
  · exact h ⟨tag', row', st', pl', j, hx⟩

theorem takeFrame_keepsUnanswered (g : GoodFrame) (h : ¬ Answered x) : ¬ Answered (takeFrame g x) := by
  unfold takeFrame
  split
  · exact h
  · rintro ⟨_, _, _, _, _, hy⟩; exact WorkSlot.noConfusion hy
  · next hslot => exact absurd ⟨_, _, _, _, _, hslot⟩ h

theorem judgeFrame_keepsUnanswered (bytes : List Byte) (h : ¬ Answered x) : ¬ Answered (judgeFrame bytes x) := by
  unfold judgeFrame
  split
  · split
    · exact takeFrame_keepsUnanswered _ h
    · exact h
  · exact h

/-- A command that changes one port alone does on every port what it does there. -/
theorem frame_of_onPort {i : Instr} {q : Port} {f : PortState → PortState} (h : PortFrame i q (s.ptu.get q) (f (s.ptu.get q)))
    (p : Port) : PortFrame i p (s.ptu.get p) ((s.ptu.set q (f (s.ptu.get q))).get p) := by
  by_cases hp : p = q
  · rw [hp, Ports.get_set_same]; exact h
  · rw [Ports.get_set_other _ _ _ _ hp]; exact (PortKept.refl _).frame i p

/-- A command that is the end of a period of a port, where no answer is made. -/
theorem frame_of_periodEnd {i : Instr} {y : PortState} (hi : (∃ l, i = .requestPeriod p l) ∨ ∃ l, i = .readPeriodEnd p l)
    (h : ¬ Answered x → ¬ Answered y) : PortFrame i p x y where
  period _ hreq hread _ := hi.elim (fun ⟨l, hl⟩ => absurd hl (hreq l)) fun ⟨l, hl⟩ => absurd hl (hread l)
  begins hx tag row st pl k hy := absurd ⟨tag, row, st, pl, k, hy⟩ (h hx)
  stands _ hreq hread _ := hi.elim (fun ⟨l, hl⟩ => absurd hl (hreq l)) fun ⟨l, hl⟩ => absurd hl (hread l)

theorem requestPeriod_frame (q : Port) (bytes : List Byte) (hu : exec (.requestPeriod q bytes) s = .next u) (p : Port) :
    PortFrame (.requestPeriod q bytes) p (s.ptu.get p) (u.ptu.get p) := by
  cases hu
  refine frame_of_onPort
    (f := fun x => if s.startCheck then endPeriod s.startCheck bytes.length x
      else judgeFrame bytes (endPeriod s.startCheck bytes.length x))
    (frame_of_periodEnd (.inl ⟨bytes, rfl⟩) fun hx => ?_) p
  have hover := endPeriod_keepsUnanswered s.startCheck bytes.length hx
  split
  · exact hover
  · exact judgeFrame_keepsUnanswered bytes hover

theorem readPeriodEnd_frame (q : Port) (bytes : List Byte) (hu : exec (.readPeriodEnd q bytes) s = .next u) (p : Port) :
    PortFrame (.readPeriodEnd q bytes) p (s.ptu.get p) (u.ptu.get p) := by
  cases hu
  exact frame_of_onPort (frame_of_periodEnd (.inr ⟨bytes, rfl⟩)
    fun hx => endPeriod_keepsUnanswered s.startCheck bytes.length hx) p

theorem answerFetch_frame (q : Port) (hu : exec (.answerFetch q) s = .next u) (p : Port) :
    PortFrame (.answerFetch q) p (s.ptu.get p) (u.ptu.get p) := by
  cases hu
  refine frame_of_onPort (f := fun x => { x with period := some (chooseFrame s.startCheck x) })
    ⟨fun h => absurd rfl h, fun hx tag row st pl k hy => absurd ⟨tag, row, st, pl, k, hy⟩ hx, fun _ _ _ _ => rfl⟩ p

/-- START drops the periods and keeps the slots. -/
theorem start_frame (hu : exec .start s = .next u) (p : Port) : PortFrame .start p (s.ptu.get p) (u.ptu.get p) := by
  have hslot : (u.ptu.get p).slot = (s.ptu.get p).slot := by cases hu; cases p <;> rfl
  exact ⟨fun _ _ _ h => absurd rfl h,
    fun hx tag row st pl k hy => absurd ⟨tag, row, st, pl, k, hslot.symm.trans hy⟩ hx, fun _ _ _ _ => hslot⟩

/-- The end of a START check empties the slots and keeps the periods (R194). -/
theorem startCheckEnd_frame (inputs : Inputs) (samples : List Sample) (hu : exec (.startCheckEnd inputs samples) s = .next u)
    (p : Port) : PortFrame (.startCheckEnd inputs samples) p (s.ptu.get p) (u.ptu.get p) := by
  change (if s.startCheck then _ else _) = _ at hu
  split at hu <;> cases hu
  · have hport : (s.intoService inputs samples).ptu.get p = checkedPort (s.ptu.get p) := by
      rw [intoService_ptu]; cases p <;> rfl
    show PortFrame _ p _ ((s.intoService inputs samples).ptu.get p)
    rw [hport]
    exact ⟨fun _ _ _ _ => rfl, fun _ _ _ _ _ _ hy => WorkSlot.noConfusion hy, fun _ _ _ h => absurd rfl (h inputs samples)⟩
  · exact (PortKept.refl _).frame _ p

theorem exec_frame (i : Instr) (hu : exec i s = .next u) (p : Port) : PortFrame i p (s.ptu.get p) (u.ptu.get p) := by
  cases hi : actsOnPeriods i with
  | false => exact (exec_keepsPorts hi s u hu p).frame i p
  | true =>
    cases i
    case requestPeriod q bytes => exact requestPeriod_frame q bytes hu p
    case readPeriodEnd q bytes => exact readPeriodEnd_frame q bytes hu p
    case answerFetch q => exact answerFetch_frame q hu p
    case start => exact start_frame hu p
    case startCheckEnd inputs samples => exact startCheckEnd_frame inputs samples hu p
    all_goals cases hi

end Sys2Proof.Machine

namespace Sys2Proof.Proofs

open Sys2Proof.Machine

/-- Settles O46: the frame chosen (`chooseFrame_checking` and the four after it), the parts (`parts_join`), the frame shifted out
(`endPeriod_recorded`), and what every command does to a port (`exec_frame`). -/
theorem answersCarried : Obligations.AnswersCarried := by
  refine ⟨fun s p => ?_, ⟨fun l => ?_, fun s p bytes f src hperiod => ?_⟩, fun i s u p hu => ?_⟩
  · intro before chosen
    have hchosen {f : Frame} {src : FrameSource} (h : chooseFrame s.startCheck before = ⟨f, src⟩) : chosen f src := by
      show exec (.answerFetch p) s = _
      rw [answerFetch_eq, h]
    refine ⟨fun hs => hchosen (hs ▸ chooseFrame_checking before), fun hs => ?_⟩
    rw [hs] at hchosen
    exact ⟨fun f hf => hchosen (chooseFrame_note hf), fun hn =>
      ⟨fun tag r v h => hchosen (chooseFrame_pending hn h), fun tag row st pl k h => hchosen (chooseFrame_answered hn h),
        fun h => hchosen (chooseFrame_empty hn h)⟩⟩
  · exact ⟨parts_join l, partBytes_length l, fun hl => by rw [hl]; rfl, fun hl k h1 hk => partBytes_ne_nil hl h1 hk⟩
  · intro v ends
    have hends {after : PortState} (h : endPeriod s.startCheck bytes.length (s.ptu.get p) = after) : ends after := by
      show exec (.readPeriodEnd p bytes) s = _
      rw [readPeriodEnd_eq, h]
    have hend := endPeriod_recorded s.startCheck bytes.length hperiod
    refine ⟨fun hshort => hends (hend.trans (if_neg (Nat.not_le.2 hshort))), fun hwhole => ?_⟩
    rw [if_pos hwhole] at hend
    refine ⟨?_, fun hsrc => hends (hend.trans (shiftedOut_still hsrc _)), ?_⟩
    · rintro rfl
      exact hends hend
    · rintro k tag row st pl rfl hslot
      exact hends (hend.trans (shiftedOut_part hslot))
  · have hframe := exec_frame i hu p
    refine ⟨hframe.period, fun tag row st pl k hy hx => ?_, fun tag row st pl k hx hreq hread hcheck => ?_⟩
    · exact hframe.begins (fun ⟨tag', row', st', pl', k', h⟩ => hx tag' row' st' pl' k' h) tag row st pl k hy
    · exact (hframe.stands ⟨tag, row, st, pl, k, hx⟩ hreq hread hcheck).trans hx

end Sys2Proof.Proofs

/-! SUPPORT. Where no stored word carries an error a checked read changes nothing, so the operations of the part leave the settings
as they were and mark no word (`SettingsHeld`): the alarm list, the store, the close operation and the trains. -/

namespace Sys2Proof.Machine

/-- The settings stand at `m`, and no stored word carries an error. -/
def SettingsHeld (m : List (Nat × Int)) (s : State) : Prop := s.settings = m ∧ s.trs.errors = []

namespace SettingsHeld

variable {m : List (Nat × Int)} {s : State}

theorem of_same {u : State} (h : SettingsHeld m s) (hs : u.settings = s.settings) (he : u.trs.errors = s.trs.errors) :
    SettingsHeld m u := ⟨hs.trans h.1, he.trans h.2⟩

/-- A checked read finds nothing to mend. -/
theorem checkWords (h : SettingsHeld m s) (want : WordError → Bool) (fix : State → WordError → State) :
    SettingsHeld m (s.checkWords want fix) := by
  rw [checkWords_clean s _ _ h.2]; exact h

theorem checkSettings (h : SettingsHeld m s) (l : List Nat) : SettingsHeld m (s.checkSettings l) := h.checkWords _ _
theorem checkSetting (h : SettingsHeld m s) (n : Nat) : SettingsHeld m (s.checkSetting n) := h.checkWords _ _
theorem checkAlarms (h : SettingsHeld m s) : SettingsHeld m s.checkAlarms := h.checkWords _ _
theorem checkAxle (h : SettingsHeld m s) (n : Nat) (l : List WordField) : SettingsHeld m (s.checkAxle n l) := h.checkWords _ _
theorem checkVehicle (h : SettingsHeld m s) (n : Nat) : SettingsHeld m (s.checkVehicle n) := h.checkWords _ _
theorem checkHeader (h : SettingsHeld m s) (n : Nat) (l : List WordField) : SettingsHeld m (s.checkHeader n l) :=
  h.checkWords _ _

theorem foldl {β : Type} {f : State → β → State} (hf : ∀ s b, SettingsHeld m s → SettingsHeld m (f s b)) (l : List β)
    (h : SettingsHeld m s) : SettingsHeld m (l.foldl f s) := by
  induction l generalizing s with
  | nil => exact h
  | cons b l ih => exact ih (hf s b h)

/-! ### The alarm list -/

theorem cleanEntry (h : SettingsHeld m s) (a : Area) (n : Nat) : SettingsHeld m (s.cleanEntry a n) :=
  ⟨h.1, cleanEntry_errors a n h.2⟩

theorem enterAlarm (h : SettingsHeld m s) (j : Judgement) : SettingsHeld m (s.enterAlarm j) :=
  ⟨(enterAlarm_settings h.2 j).trans h.1, enterAlarm_errors j h.2⟩

theorem testNotice (h : SettingsHeld m s) : SettingsHeld m s.testNotice := by
  rw [testNotice_alone]; exact h

theorem judgeValue (h : SettingsHeld m s) (key : AlarmKey) (v : Nat) (c : ValueClass) :
    SettingsHeld m (s.judgeValue key v c).1 :=
  (h.checkSettings _).enterAlarm _

theorem judgeAxle (h : SettingsHeld m s) (key : AlarmKey) (n v : Nat) (c : ValueClass) :
    SettingsHeld m (s.judgeAxle key n v c).1 := by
  have hj := h.judgeValue key v c
  simp only [State.judgeAxle]
  split
  · exact hj
  · exact hj.checkAxle n _

/-! ### The store and the close operation -/

theorem makeRoom (h : SettingsHeld m s) (room : State → Bool) : SettingsHeld m (s.makeRoom room) :=
  ⟨(makeRoom_settings h.2 room).trans h.1, makeRoom_errors room h.2⟩

theorem takeVehicles (l : List VehicleEntry) (h : SettingsHeld m s) : SettingsHeld m (s.takeVehicles l).1 := by
  induction l generalizing s with
  | nil => exact h
  | cons v l ih =>
    simp only [State.takeVehicles]
    split
    · exact ih (SettingsHeld.cleanEntry (by exact h) .vehicle _)
    · exact h

theorem takeHeader (h : SettingsHeld m s) (o : CloseOp) : SettingsHeld m (s.takeHeader o) := by
  have hroom := h.makeRoom headerRoom
  simp only [State.takeHeader, State.requestHeader]
  split
  · next heq =>
    obtain ⟨rfl, -⟩ := Prod.mk.inj heq
    exact SettingsHeld.cleanEntry (by exact hroom) .header _
  · exact h

theorem takeGroups (h : SettingsHeld m s) (o : CloseOp) : SettingsHeld m (s.takeGroups o) := by
  have hroom := h.makeRoom (vehicleRoom (groupsOf o).length)
  simp only [State.takeGroups]
  refine SettingsHeld.takeVehicles _ ?_
  split <;> exact hroom

theorem judgeClose (h : SettingsHeld m s) (j : CloseJudgement) : SettingsHeld m (s.judgeClose j).1 := by
  simp only [State.judgeClose]
  split
  · exact h.judgeAxle _ _ _ _
  · exact h.judgeValue _ _ _
  · exact h.judgeValue _ _ _

theorem endGrouping (h : SettingsHeld m s) (o : CloseOp) : SettingsHeld m (s.endGrouping o) := by
  simp only [State.endGrouping]
  split <;> exact h

theorem closePiece (h : SettingsHeld m s) : SettingsHeld m s.closePiece := by
  simp only [State.closePiece]
  repeat' split
  · exact h
  · exact h.checkAxle _ []
  · exact h.endGrouping _
  · exact h.judgeClose _
  · exact h
  · exact h.takeHeader _
  · exact h.takeGroups _
  · exact h

theorem closePieces (n : Nat) (h : SettingsHeld m s) : SettingsHeld m (s.closePieces n) := by
  induction n generalizing s with
  | zero => exact h
  | succ n ih => exact ih h.closePiece

theorem letClose (h : SettingsHeld m s) : SettingsHeld m s.letClose := by
  simp only [State.letClose]
  split
  · exact SettingsHeld.closePieces _ (by exact h)
  · exact h

theorem finishPieces (h : SettingsHeld m s) (o : CloseOp) : SettingsHeld m (s.finishPieces o) :=
  (h.closePieces _).closePieces _

theorem makeRecord (h : SettingsHeld m s) (o : CloseOp) (header : Nat) (refs : List Nat) :
    SettingsHeld m (s.makeRecord o header refs) :=
  SettingsHeld.cleanEntry (by exact h.checkSettings [itemReportHolder, itemAlarmHoldLevel]) .header header

theorem discardTrain (h : SettingsHeld m s) (o : CloseOp) : SettingsHeld m (s.discardTrain o) :=
  SettingsHeld.enterAlarm (by exact h) (discardAlarm o.closing.train (trainTotals o).axleCount)

/-! ### Trains -/

theorem closeRequest (h : SettingsHeld m s) (t : Track) (reason : CloseReason) : SettingsHeld m (s.closeRequest t reason) :=
  h.of_same (closeRequest_frame s t reason).settings (closeRequest_frame s t reason).errors

theorem handCrossing (h : SettingsHeld m s) (t : Track) (c : Crossing) (speed : Nat × ValueClass) :
    SettingsHeld m (s.handCrossing t c speed) :=
  have hk := handCrossing_keeps (t := t) h.2 c speed
  h.of_same hk.settings hk.errors

theorem openTrain (h : SettingsHeld m s) (t : Track) (c : Crossing) (speed : Nat × ValueClass) :
    SettingsHeld m (s.openTrain t c speed) :=
  SettingsHeld.handCrossing (s := withNewTrain s t c) (by exact h) t c speed

end SettingsHeld

end Sys2Proof.Machine

/-! SUPPORT. Timers, modes, crossings, samples, jobs and the watch hold the settings (`SettingsHeld`). -/

namespace Sys2Proof.Machine.SettingsHeld

variable {m : List (Nat × Int)} {s : State}

/-! ### Timers and modes -/

theorem onTrack (h : SettingsHeld m s) (t : Track) (f : Sequencer → Sequencer) : SettingsHeld m (s.onTrack t f) := h

theorem atTrack (h : SettingsHeld m s) (t : Track) (now : Nat) : SettingsHeld m (s.atTrack t now) := by
  rw [atTrack_clean s t now h.2]; exact h

theorem startStuckIfOn (h : SettingsHeld m s) (t : Track) (g : Head) : SettingsHeld m (s.startStuckIfOn t g) := by
  rw [startStuckIfOn_clean h.2]; exact h

theorem resumeStuck (h : SettingsHeld m s) (t : Track) : SettingsHeld m (s.resumeStuck t) := by
  rw [resumeStuck_clean h.2]; exact h

theorem startTSettle (h : SettingsHeld m s) (t : Track) : SettingsHeld m (s.startTSettle t) := h.checkSetting itemTSettle
theorem startTStand (h : SettingsHeld m s) (t : Track) : SettingsHeld m (s.startTStand t) := h.checkSetting itemTStand
theorem startTAbandon (h : SettingsHeld m s) (t : Track) : SettingsHeld m (s.startTAbandon t) := h.checkSetting itemTAbandon
theorem startTDormant (h : SettingsHeld m s) (t : Track) : SettingsHeld m (s.startTDormant t) := h.checkSetting itemTDormant

theorem startTrainTimer (h : SettingsHeld m s) (t : Track) : SettingsHeld m (s.startTrainTimer t) := by
  rw [startTrainTimer_clean h.2]; exact h

theorem enterArmed (h : SettingsHeld m s) (t : Track) : SettingsHeld m (s.enterArmed t) := by
  rw [enterArmed_clean h.2]; exact h

theorem enterArming (h : SettingsHeld m s) (t : Track) : SettingsHeld m (s.enterArming t) := by
  rw [enterArming_clean h.2]
  exact h.of_same (armingOf_settings ..) (congrArg Store.errors (armingOf_trs ..))

theorem closeToArming (h : SettingsHeld m s) (t : Track) (reason : CloseReason) :
    SettingsHeld m (s.closeToArming t reason) :=
  (h.closeRequest t reason).enterArming t

theorem enterFault (h : SettingsHeld m s) (t : Track) (g : Head) : SettingsHeld m (s.enterFault t g) :=
  SettingsHeld.enterAlarm (s := ((s.closeRequest t .detectorFault).abandonRefresh t).onTrack t _)
    (by exact h.closeRequest t .detectorFault) _

/-! ### Crossings and occupancy -/

theorem disposeCrossing (h : SettingsHeld m s) (t : Track) (c : Crossing) (speed : Nat × ValueClass) :
    SettingsHeld m (s.disposeCrossing t c speed) := by
  have hopen : SettingsHeld m ((s.abandonRefresh t).openTrain t c speed) := SettingsHeld.openTrain (by exact h) t c speed
  have hhand := h.handCrossing t c speed
  simp only [State.disposeCrossing]
  repeat' split
  · exact h
  · exact (hopen.onTrack t _).startTrainTimer t
  · exact (hopen.onTrack t _).startTrainTimer t
  · exact hhand.startTrainTimer t
  · exact (hhand.onTrack t _).startTrainTimer t
  · exact h
  · exact h

theorem headCrossing (h : SettingsHeld m s) (t : Track) (g : Head) : SettingsHeld m (s.headCrossing t g) := by
  simp only [State.headCrossing]
  repeat' split
  · exact h
  · exact h
  · exact ((h.onTrack t _).checkSettings [itemD t, itemVLow]).disposeCrossing t _ _

theorem headOnActive (h : SettingsHeld m s) (t : Track) (g : Head) : SettingsHeld m (s.headOnActive t g) := by
  have hstuck := h.startStuckIfOn t g
  simp only [State.headOnActive]
  split
  · exact (hstuck.enterArming t).headCrossing t g
  · exact hstuck.headCrossing t g

theorem occupancyClears (h : SettingsHeld m s) (t : Track) : SettingsHeld m (s.occupancyClears t) := by
  have hstuck := (h.startStuckIfOn t .a).startStuckIfOn t .b
  simp only [State.occupancyClears]
  split
  · exact (hstuck.onTrack t _).startTSettle t
  · exact hstuck.startTSettle t
  · exact hstuck

theorem occupancyFills (h : SettingsHeld m s) (t : Track) : SettingsHeld m (s.occupancyFills t) := by
  simp only [State.occupancyFills]
  split
  · exact ((h.onTrack t stopStuck).onTrack t _).startTStand t
  · exact h
  · exact h

/-! ### Samples, jobs and the watch -/

theorem refreshStep (h : SettingsHeld m s) (t : Track) (value : Nat → Sample) : SettingsHeld m (s.refreshStep t value) := by
  have hdone {w : State} (hw : SettingsHeld m w) : SettingsHeld m (w.completeRefresh t) := by
    rw [completeRefresh_eq]
    exact SettingsHeld.enterArmed (by exact hw.checkSetting (itemFitted t)) t
  simp only [State.refreshStep]
  repeat' split
  · exact hdone (by exact h)
  all_goals exact h

theorem writeSample (h : SettingsHeld m s) (samples : List Sample) : SettingsHeld m (s.writeSample samples) := by
  simp only [State.writeSample]
  exact (SettingsHeld.refreshStep (by exact h) .one _).refreshStep .two _

theorem answer (h : SettingsHeld m s) (p : Port) (st : Status) (pl : Payload) : SettingsHeld m (s.answer p st pl) := h

theorem settleSnapshot (h : SettingsHeld m s) (j : Job) (peak : Option Int) : SettingsHeld m (s.settleSnapshot j peak) := by
  simp only [State.settleSnapshot]
  repeat' split
  all_goals exact h

theorem lockWatch (h : SettingsHeld m s) (j : Job) (train entry : Nat) (peak : Option Int) :
    SettingsHeld m (s.lockWatch j train entry peak) := by
  have hread : SettingsHeld m ((s.onAxle entry fun a => { a with watched := true }).checkAxle entry []) :=
    SettingsHeld.checkAxle (by exact h) entry []
  simp only [State.lockWatch]
  exact SettingsHeld.settleSnapshot (by exact hread) j peak

theorem testWatch (h : SettingsHeld m s) (j : Job) (train entry : Nat) (r : Results) :
    SettingsHeld m (s.testWatch j train entry r) := by
  simp only [State.testWatch, State.actOnMatch]
  repeat' split
  · exact h
  · exact h.lockWatch j train entry _
  · exact h
  · exact h

theorem judgeLive (h : SettingsHeld m s) (t : Track) (train entry axle : Nat) (r : Results) :
    SettingsHeld m (s.judgeLive t train entry axle r) :=
  SettingsHeld.foldl (fun _ _ hw => hw.judgeAxle _ _ _ _) _ h

theorem deliver (h : SettingsHeld m s) (j : Job) (train entry axle : Nat) (r : Results) :
    SettingsHeld m (s.deliver j train entry axle r) := by
  have hdrawn : SettingsHeld m { s.onAxle entry (writeResults r) with free := s.free + 1 } := h
  have hwritten : SettingsHeld m (s.onAxle entry (writeResults r)) := h
  simp only [State.deliver]
  repeat' split
  · exact (hdrawn.testWatch j train entry r).judgeLive _ _ _ _ _
  · exact (hdrawn.judgeLive _ _ _ _ _).testWatch j train entry r
  · exact hwritten.judgeLive _ _ _ _ _

theorem complete (h : SettingsHeld m s) (f : InFlight) : SettingsHeld m (s.complete f) := by
  have hended : SettingsHeld m { s with aee.inFlight := none } := h
  simp only [State.complete]
  repeat' split
  · exact h
  · exact hended.deliver _ _ _ _ _
  · exact h
  · exact h

theorem takeJob (h : SettingsHeld m s) (j : Job) : SettingsHeld m (s.takeJob j) := by
  have hread := h.checkSettings (((trackRows j.track).map itemGain) ++ [itemPMin])
  simp only [State.takeJob]
  split
  · exact SettingsHeld.complete (by exact hread) _
  · exact hread

theorem copyByNow (h : SettingsHeld m s) : SettingsHeld m s.copyByNow := by
  simp only [State.copyByNow]
  split <;> exact h

/-! ### RESTART, the freeze and its end -/

theorem restart (h : SettingsHeld m s) (p : Port) : SettingsHeld m (s.restart p) := by
  rw [restart_clean h.2, restarted, restartedPart, restartTrains_eq]
  exact h

theorem freezeTrack (h : SettingsHeld m s) (t : Track) : SettingsHeld m (s.freezeTrack t) := by
  have hstop : SettingsHeld m (stopRefresh (s.checkSetting (itemFitted t)) t) := by
    have hread := h.checkSetting (itemFitted t)
    unfold stopRefresh
    split
    · exact SettingsHeld.enterArmed (by exact hread) t
    · exact hread
  cases ho : (s.checkSetting (itemFitted t)).tas.opens.get t with
  | some tr =>
    rw [freezeTrack_some tr ho]
    exact (hstop.closeToArming t .power).enterAlarm _
  | none => rw [freezeTrack_none ho]; exact hstop

theorem freeze (h : SettingsHeld m s) : SettingsHeld m s.freeze := by
  have hbefore : SettingsHeld m (beforeTracks s) := by rw [beforeTracks_eq]; exact h
  rw [freeze_eq]
  exact (hbefore.freezeTrack .one).freezeTrack .two

theorem leaveTrack (h : SettingsHeld m s) (t : Track) : SettingsHeld m (s.leaveTrack t) := by
  have harming := (h.checkSetting (itemFitted t)).enterArming t
  simp only [State.leaveTrack]
  split
  · exact harming.resumeStuck t
  · exact harming

theorem testLeave (h : SettingsHeld m s) : SettingsHeld m s.testLeave := by
  simp only [State.testLeave]
  split <;> exact h

end Sys2Proof.Machine.SettingsHeld

/-! SUPPORT. The requests hold the settings, but for Settings Write and Set Permissions (`SettingsHeld`). -/

namespace Sys2Proof.Machine.SettingsHeld

variable {m : List (Nat × Int)} {s : State}

/-! ### Records and alarms -/

theorem recordList (h : SettingsHeld m s) (p : Port) (first : Nat) : SettingsHeld m (s.recordList p first) := by
  simp only [State.recordList]
  split
  · exact h
  · exact (SettingsHeld.foldl (fun _ r hw => hw.checkHeader r.header summaryFields) _ h).answer p _ _

theorem headerRead (h : SettingsHeld m s) (p : Port) (n : Nat) : SettingsHeld m (s.headerRead p n) := by
  simp only [State.headerRead]
  split
  · exact (h.checkHeader _ []).answer p _ _
  · exact h

theorem axleRead (h : SettingsHeld m s) (p : Port) (n first : Nat) : SettingsHeld m (s.axleRead p n first) := by
  simp only [State.axleRead]
  repeat' split
  · exact h
  · next r _ =>
    have hheader := h.checkHeader r.header [.stackDepth, .phantomCount]
    exact (SettingsHeld.foldl (fun _ k hw => hw.checkAxle k []) _ hheader).answer p _ _
  · exact h

theorem vehicleRead (h : SettingsHeld m s) (p : Port) (n first : Nat) : SettingsHeld m (s.vehicleRead p n first) := by
  simp only [State.vehicleRead]
  repeat' split
  · exact h
  · next r _ =>
    have hheader := h.checkHeader r.header [.vehicleCount]
    exact (SettingsHeld.foldl (fun _ k hw => hw.checkVehicle k) _ hheader).answer p _ _
  · exact h

theorem releaseRecord (h : SettingsHeld m s) (p : Port) (n : Nat) : SettingsHeld m (s.releaseRecord p n) := by
  simp only [State.releaseRecord]
  repeat' split
  all_goals exact h

theorem purgeRecord (h : SettingsHeld m s) (p : Port) (n : Nat) : SettingsHeld m (s.purgeRecord p n) := by
  simp only [State.purgeRecord]
  repeat' split
  all_goals exact h

theorem alarmRead (h : SettingsHeld m s) (p : Port) (selection first : Nat) :
    SettingsHeld m (s.alarmRead p selection first) := by
  have hread := h.checkAlarms
  simp only [State.alarmRead]
  repeat' split
  · exact h
  · exact hread
  · exact hread

theorem clearNumber (h : SettingsHeld m s) (p : Port) (n : Nat) : SettingsHeld m (s.clearNumber p n) := by
  have hread := h.checkAlarms
  simp only [State.clearNumber]
  repeat' split
  · exact h
  all_goals exact hread

theorem clearTrack (h : SettingsHeld m s) (p : Port) (n : Nat) : SettingsHeld m (s.clearTrack p n) := by
  have hread := h.checkAlarms
  simp only [State.clearTrack]
  split
  · exact hread
  · exact h

/-! ### Open trains, window, watch and snapshot -/

theorem liveAxleRead (h : SettingsHeld m s) (p : Port) (n : Nat) : SettingsHeld m (s.liveAxleRead p n) := by
  simp only [State.liveAxleRead]
  repeat' split
  · exact h
  · exact h
  · exact (SettingsHeld.foldl (fun _ k hw => hw.checkAxle k []) _ h).answer p _ _

theorem forceClose (h : SettingsHeld m s) (p : Port) (n : Nat) : SettingsHeld m (s.forceClose p n) := by
  simp only [State.forceClose]
  split
  · exact h
  · next t _ =>
    split
    · exact h
    · exact ((h.checkSetting (itemFitted t)).closeToArming t .forced).answer p _ _

theorem windowRead (h : SettingsHeld m s) (p : Port) (count : Nat) : SettingsHeld m (s.windowRead p count) := by
  simp only [State.windowRead]
  repeat' split
  · exact h
  · exact h
  · exact h.copyByNow
  · exact h

theorem windowWrite (h : SettingsHeld m s) (p : Port) (samples : List Sample) : SettingsHeld m (s.windowWrite p samples) := by
  simp only [State.windowWrite]
  repeat' split
  all_goals exact h

theorem setCondition (h : SettingsHeld m s) (c : Condition) : SettingsHeld m (s.setCondition c) := by
  simp only [State.setCondition]
  split <;> exact h

theorem releaseWatch (h : SettingsHeld m s) (p : Port) : SettingsHeld m (s.releaseWatch p) := by
  simp only [State.releaseWatch]
  repeat' split
  all_goals exact h

theorem evaluateSnapshot (h : SettingsHeld m s) (p : Port) (f : SnapshotFields) :
    SettingsHeld m (s.evaluateSnapshot p f) := by
  have hread := h.checkSettings [itemD f.track, itemH f.track, itemW f.track]
  simp only [State.evaluateSnapshot]
  repeat' split
  · exact hread
  · exact hread
  · exact hread
  · exact hread.checkSettings [itemGs f.track, itemGe f.track, itemVLow]

/-! ### Settings read and status -/

theorem settingsRead (h : SettingsHeld m s) (p : Port) (first count : Nat) :
    SettingsHeld m (s.settingsRead p first count) := by
  simp only [State.settingsRead]
  split
  · exact h
  · exact (h.checkSettings _).answer p _ _

theorem giveStatus (h : SettingsHeld m s) (p : Port) (sect : Nat) : SettingsHeld m (s.giveStatus p sect) := by
  rw [giveStatus_clean h.2]
  split <;> exact h

end Sys2Proof.Machine.SettingsHeld

/-! Every command but Settings Write, Set Permissions and START_CHECK_END holds the settings where no stored word carries an error
(O10). -/

namespace Sys2Proof.Machine

variable {m : List (Nat × Int)} {s : State}

/-! ### Outcomes -/

/-- The settings stand at `m`, and no word carries an error, in the state an outcome leads to. -/
def HoldsSettings (m : List (Nat × Int)) (o : Host.Outcome State Fault Refusal) : Prop := ∀ u, o = .next u → SettingsHeld m u

namespace SettingsHeld

theorem next (h : SettingsHeld m s) : HoldsSettings m (.next s) := by
  rintro u ⟨⟩; exact h

/-- What an event leads to has the close operation gone on and the lines driven. -/
theorem event (h : SettingsHeld m s) {r : Option State} (hr : ∀ u, r = some u → SettingsHeld m u) :
    HoldsSettings m (whenUp s r) := by
  rcases whenUp_next s r with hn | ⟨u, hu, hn⟩ <;> rw [hn]
  · exact h.next
  · exact next (s := u.letClose.driveLines) (hr u hu).letClose

/-- An event that always acts. -/
theorem leads (h : SettingsHeld m s) {u : State} (hu : SettingsHeld m u) : HoldsSettings m (whenUp s (some u)) :=
  h.event (by rintro v ⟨⟩; exact hu)

/-- An expiry that holds the settings at its count. -/
theorem expiry (h : SettingsHeld m s) {timer : Timer} {f : Nat → State} (hf : ∀ e, SettingsHeld m (f e)) :
    HoldsSettings m (whenUp s (timer.map f)) := by
  refine h.event fun u hu => ?_
  obtain ⟨e, -, rfl⟩ := Option.map_eq_some_iff.1 hu
  exact hf e

/-- A request is denied, turned away by the mode, or worked (R185); its work decides. -/
theorem work (h : SettingsHeld m s) (p : Port) (now : Nat) {work : Request → Option (State → State)}
    (hw : ∀ r f, work r = some f → ∀ w, SettingsHeld m w → SettingsHeld m (f w)) :
    HoldsSettings m (workEvent p now s work) := by
  rcases workEvent_next p now s work with hn | ⟨r, f, -, hf, hn⟩ <;> rw [hn]
  · exact h.next
  · have hread : SettingsHeld m ((s.advance now).checkSetting (itemPermission r.row)) := SettingsHeld.checkSetting (by exact h) _
    refine next (s := State.driveLines _) (SettingsHeld.letClose (s := (s.advance now).serve p r f) ?_)
    rcases serve_cases (s.advance now) p r f with h1 | h1 | h1 <;> rw [h1]
    · exact hread
    · exact hread
    · exact hw r f hf _ hread

/-! ### Track events -/

theorem headOn (h : SettingsHeld m s) (t : Track) (g : Head) (now : Nat) : HoldsSettings m (exec (.headOn t g now) s) := by
  have hset := (h.atTrack t now).onTrack t (setHead g true)
  refine h.leads ?_
  split
  · exact hset
  · exact hset.headOnActive t g

theorem headOff (h : SettingsHeld m s) (t : Track) (g : Head) (now : Nat) : HoldsSettings m (exec (.headOff t g now) s) := by
  have hset := (h.atTrack t now).onTrack t (setHead g false)
  refine h.leads ?_
  split <;> exact hset

theorem approachPulse (h : SettingsHeld m s) (t : Track) (now : Nat) : HoldsSettings m (exec (.approachPulse t now) s) := by
  have hread := h.atTrack t now
  refine h.leads ?_
  split
  · exact hread.enterArming t
  · exact hread.startTDormant t
  all_goals exact hread

theorem occupancyClear (h : SettingsHeld m s) (t : Track) (now : Nat) : HoldsSettings m (exec (.occupancyClear t now) s) := by
  have hset : SettingsHeld m ((s.atTrack t now).setOccupied t false) := h.atTrack t now
  refine h.leads ?_
  split
  · exact hset.occupancyClears t
  · exact hset

theorem occupancyOccupied (h : SettingsHeld m s) (t : Track) (now : Nat) :
    HoldsSettings m (exec (.occupancyOccupied t now) s) := by
  have hset : SettingsHeld m ((s.atTrack t now).setOccupied t true) := h.atTrack t now
  refine h.leads ?_
  split
  · exact hset.occupancyFills t
  · exact hset

/-- The expiry of a timer that closes an open train. -/
theorem closingTimer (h : SettingsHeld m s) (t : Track) (reason : CloseReason) {timer : Timer} {f : Sequencer → Sequencer} :
    HoldsSettings m (whenUp s (timer.map fun e =>
      if trainMode ((((s.atTrack t e).onTrack t f)).ts.get t).mode then ((s.atTrack t e).onTrack t f).closeToArming t reason
      else (s.atTrack t e).onTrack t f)) := by
  refine h.expiry fun e => ?_
  have hset := (h.atTrack t e).onTrack t f
  split
  · exact hset.closeToArming t reason
  · exact hset

theorem tStandExpiry (h : SettingsHeld m s) (t : Track) : HoldsSettings m (exec (.tStandExpiry t) s) := by
  refine h.expiry fun e => ?_
  have hset := (h.atTrack t e).onTrack t fun q => { q with tStand := none }
  dsimp only
  split
  · exact (hset.onTrack t _).startTAbandon t
  · exact hset

theorem tDormantExpiry (h : SettingsHeld m s) (t : Track) : HoldsSettings m (exec (.tDormantExpiry t) s) := by
  refine h.expiry fun e => ?_
  have hread := ((h.atTrack t e).onTrack t fun q => { q with tDormant := none }).checkSetting (itemDormancy t)
  dsimp only
  split <;> exact hread

theorem tRetareExpiry (h : SettingsHeld m s) (t : Track) : HoldsSettings m (exec (.tRetareExpiry t) s) := by
  refine h.expiry fun e => ?_
  have hset := (h.atTrack t e).onTrack t fun q => { q with tRetare := none }
  dsimp only
  split
  · exact hset.enterArming t
  · exact hset

theorem stuckTimerExpiry (h : SettingsHeld m s) (t : Track) (g : Head) :
    HoldsSettings m (exec (.stuckTimerExpiry t g) s) := by
  refine h.expiry fun e => ?_
  have hset := (h.atTrack t e).onTrack t fun q => { q with stuck := q.stuck.set (headIx g) none }
  dsimp only
  split
  · exact hset
  · exact hset.enterFault t g

theorem faultRecoveryExpiry (h : SettingsHeld m s) (t : Track) : HoldsSettings m (exec (.faultRecoveryExpiry t) s) := by
  refine h.expiry fun e => ?_
  have hset := (h.atTrack t e).onTrack t fun q => { q with recovery := none }
  dsimp only
  split
  · exact (hset.enterArming t).resumeStuck t
  · exact hset

/-! ### Samples, the engine, the Report Builder and the handshake -/

theorem refreshComplete (h : SettingsHeld m s) (t : Track) (samples : List Sample) :
    HoldsSettings m (exec (.refreshComplete t samples) s) := by
  refine h.event fun u hu => ?_
  split at hu <;> cases hu
  exact h.writeSample samples

theorem jobTake (h : SettingsHeld m s) : HoldsSettings m (exec .jobTake s) := by
  refine h.event fun u hu => ?_
  split at hu <;> cases hu
  exact h.takeJob _

theorem liveJobComplete (h : SettingsHeld m s) (now : Nat) : HoldsSettings m (exec (.liveJobComplete now) s) := by
  refine h.event fun u hu => ?_
  repeat' split at hu
  all_goals cases hu
  exact SettingsHeld.complete (by exact h) _

theorem serviceJobComplete (h : SettingsHeld m s) (now : Nat) : HoldsSettings m (exec (.serviceJobComplete now) s) := by
  refine h.event fun u hu => ?_
  repeat' split at hu
  all_goals cases hu
  exact SettingsHeld.complete (by exact h) _

theorem snapshotCopyEnd (h : SettingsHeld m s) (now : Nat) : HoldsSettings m (exec (.snapshotCopyEnd now) s) := by
  refine h.event fun u hu => ?_
  split at hu <;> cases hu
  exact h

theorem takeClosing (h : SettingsHeld m s) {c : ClosingTrain} {u : State} (hc : s.takeClosing = some (c, u)) :
    SettingsHeld m u := by
  simp only [State.takeClosing] at hc
  repeat' split at hc
  all_goals cases hc
  all_goals exact h

theorem closeTake (h : SettingsHeld m s) : HoldsSettings m (exec .closeTake s) := by
  refine h.event fun u hu => ?_
  split at hu
  · next hc =>
    cases hu
    exact (h.takeClosing hc).checkSettings [itemBMax, itemVMin]
  · cases hu

theorem recordAppend (h : SettingsHeld m s) (now : Nat) : HoldsSettings m (exec (.recordAppend now) s) := by
  refine h.event fun u hu => ?_
  obtain ⟨o, -, hu⟩ := Option.bind_eq_some_iff.1 hu
  obtain ⟨o', -, hu⟩ := Option.bind_eq_some_iff.1 hu
  split at hu <;> cases hu
  exact (SettingsHeld.finishPieces (by exact h) o).makeRecord _ _ _

theorem discardedFull (h : SettingsHeld m s) (now : Nat) : HoldsSettings m (exec (.discardedFull now) s) := by
  refine h.event fun u hu => ?_
  obtain ⟨o, -, hu⟩ := Option.bind_eq_some_iff.1 hu
  obtain ⟨o', -, hu⟩ := Option.bind_eq_some_iff.1 hu
  split at hu
  · next s2 _ hr =>
    cases hu
    have hasked : SettingsHeld m ((s.advance now).finishPieces o).requestHeader.1 :=
      (SettingsHeld.finishPieces (by exact h) o).makeRoom headerRoom
    rw [hr] at hasked
    exact hasked.discardTrain _
  · cases hu

theorem takeRises (h : SettingsHeld m s) (now : Nat) : HoldsSettings m (exec (.takeRises now) s) := by
  refine h.leads ?_
  dsimp only
  split <;> exact h

theorem takeFalls (h : SettingsHeld m s) (now : Nat) : HoldsSettings m (exec (.takeFalls now) s) := by
  refine h.leads ?_
  dsimp only
  split
  · exact SettingsHeld.testNotice (by exact h)
  · exact SettingsHeld.testNotice (by exact h)
  · exact h

/-! ### The supply -/

theorem supplyFailActive (h : SettingsHeld m s) (now : Nat) : HoldsSettings m (exec (.supplyFailActive now) s) := by
  refine h.leads ?_
  dsimp only
  split <;> exact h

theorem supplyFailInactive (h : SettingsHeld m s) (now : Nat) : HoldsSettings m (exec (.supplyFailInactive now) s) := by
  refine h.leads ?_
  dsimp only
  split
  · exact h
  · exact h
  · exact SettingsHeld.testLeave (by exact h)

theorem holdupLowActive (h : SettingsHeld m s) (now : Nat) : HoldsSettings m (exec (.holdupLowActive now) s) := by
  refine h.leads ?_
  dsimp only
  split
  · exact SettingsHeld.freeze (by exact h)
  · exact SettingsHeld.freeze (by exact h)
  · exact h

theorem holdupLowInactive (h : SettingsHeld m s) (now : Nat) : HoldsSettings m (exec (.holdupLowInactive now) s) :=
  h.leads (SettingsHeld.testLeave (by exact h))

theorem failTimerExpiry (h : SettingsHeld m s) : HoldsSettings m (exec .failTimerExpiry s) := by
  refine h.expiry fun e => ?_
  dsimp only
  split <;> exact h

theorem recoveryTimerExpiry (h : SettingsHeld m s) : HoldsSettings m (exec .recoveryTimerExpiry s) := by
  refine h.expiry fun e => ?_
  dsimp only
  split <;> exact h

theorem freezeComplete (h : SettingsHeld m s) : HoldsSettings m (exec .freezeComplete s) := by
  refine h.event fun u hu => ?_
  split at hu <;> cases hu
  exact SettingsHeld.testLeave (by exact h)

theorem leaveTimerExpiry (h : SettingsHeld m s) : HoldsSettings m (exec .leaveTimerExpiry s) := by
  refine h.expiry fun e => ?_
  dsimp only
  split
  · exact (SettingsHeld.leaveTrack (by exact h) .one).leaveTrack .two
  · exact h

/-! ### Requests whose work picks among answers -/

theorem setWindow (h : SettingsHeld m s) (p : Port) (now : Nat) : HoldsSettings m (exec (.setWindow p now) s) := by
  refine h.work p now fun r f hf w hw => ?_
  split at hf <;> cases hf
  dsimp only
  split <;> exact hw

theorem setWatch (h : SettingsHeld m s) (p : Port) (now : Nat) : HoldsSettings m (exec (.setWatch p now) s) := by
  refine h.work p now fun r f hf w hw => ?_
  split at hf <;> cases hf
  dsimp only
  split
  · exact hw.setCondition _
  · exact hw

theorem evaluateSnapshotEvent (h : SettingsHeld m s) (p : Port) (now : Nat) :
    HoldsSettings m (exec (.evaluateSnapshot p now) s) := by
  refine h.work p now fun r f hf w hw => ?_
  split at hf <;> cases hf
  dsimp only
  split
  · exact hw.evaluateSnapshot p _
  · exact hw

theorem clearAlarmNumber (h : SettingsHeld m s) (p : Port) (now : Nat) :
    HoldsSettings m (exec (.clearAlarmNumber p now) s) := by
  refine h.work p now fun r f hf w hw => ?_
  repeat' split at hf
  all_goals cases hf
  · exact hw.clearNumber p _
  · exact hw

theorem clearAlarmTrack (h : SettingsHeld m s) (p : Port) (now : Nat) :
    HoldsSettings m (exec (.clearAlarmTrack p now) s) := by
  refine h.work p now fun r f hf w hw => ?_
  repeat' split at hf
  all_goals cases hf
  · exact hw.clearTrack p _
  · exact hw

end SettingsHeld

/-! ### Every command -/

/-- The three commands that write settings, or read the retained region through: Settings Write, Set Permissions and
START_CHECK_END (R139, R187, R198). -/
def touchesSettings : Instr → Bool
  | .settingsWrite _ _ | .setPermissions _ _ | .startCheckEnd _ _ => true
  | _ => false

theorem exec_holdsSettings (h : SettingsHeld m s) {i : Instr} (hi : touchesSettings i = false) :
    HoldsSettings m (exec i s) := by
  cases i with
  | settingsWrite p now => cases hi
  | setPermissions p now => cases hi
  | startCheckEnd inputs samples => cases hi
  | headOn t g now => exact h.headOn t g now
  | headOff t g now => exact h.headOff t g now
  | approachPulse t now => exact h.approachPulse t now
  | occupancyClear t now => exact h.occupancyClear t now
  | occupancyOccupied t now => exact h.occupancyOccupied t now
  | tSettleExpiry t => exact h.closingTimer t .normal
  | tEndExpiry t => exact h.closingTimer t .normal
  | tStandExpiry t => exact h.tStandExpiry t
  | tAbandonExpiry t => exact h.closingTimer t .abandoned
  | tDormantExpiry t => exact h.tDormantExpiry t
  | tRetareExpiry t => exact h.tRetareExpiry t
  | stuckTimerExpiry t g => exact h.stuckTimerExpiry t g
  | faultRecoveryExpiry t => exact h.faultRecoveryExpiry t
  | sampleWrite samples => exact h.leads (h.writeSample samples)
  | refreshComplete t samples => exact h.refreshComplete t samples
  | jobTake => exact h.jobTake
  | liveJobComplete now => exact h.liveJobComplete now
  | serviceJobComplete now => exact h.serviceJobComplete now
  | snapshotCopyEnd now => exact h.snapshotCopyEnd now
  | closeTake => exact h.closeTake
  | recordAppend now => exact h.recordAppend now
  | discardedFull now => exact h.discardedFull now
  | takeRises now => exact h.takeRises now
  | takeFalls now => exact h.takeFalls now
  | supplyFailActive now => exact h.supplyFailActive now
  | supplyFailInactive now => exact h.supplyFailInactive now
  | holdupLowActive now => exact h.holdupLowActive now
  | holdupLowInactive now => exact h.holdupLowInactive now
  | failTimerExpiry => exact h.failTimerExpiry
  | recoveryTimerExpiry => exact h.recoveryTimerExpiry
  | freezeComplete => exact h.freezeComplete
  | leaveTimerExpiry => exact h.leaveTimerExpiry
  | start => exact SettingsHeld.next (by exact h)
  | requestPeriod p bytes => exact SettingsHeld.next (by exact h)
  | answerFetch p => exact SettingsHeld.next (by exact h)
  | readPeriodEnd p bytes => exact SettingsHeld.next (by exact h)
  | setWindow p now => exact h.setWindow p now
  | setWatch p now => exact h.setWatch p now
  | evaluateSnapshot p now => exact h.evaluateSnapshotEvent p now
  | clearAlarmNumber p now => exact h.clearAlarmNumber p now
  | clearAlarmTrack p now => exact h.clearAlarmTrack p now
  | status p now => exact h.work p now fun r f hf w hw => by split at hf <;> cases hf; exact hw.giveStatus p _
  | recordList p now => exact h.work p now fun r f hf w hw => by split at hf <;> cases hf; exact hw.recordList p _
  | headerRead p now => exact h.work p now fun r f hf w hw => by split at hf <;> cases hf; exact hw.headerRead p _
  | axleRead p now => exact h.work p now fun r f hf w hw => by split at hf <;> cases hf; exact hw.axleRead p _ _
  | vehicleRead p now => exact h.work p now fun r f hf w hw => by split at hf <;> cases hf; exact hw.vehicleRead p _ _
  | releaseRecord p now => exact h.work p now fun r f hf w hw => by split at hf <;> cases hf; exact hw.releaseRecord p _
  | purgeRecord p now => exact h.work p now fun r f hf w hw => by split at hf <;> cases hf; exact hw.purgeRecord p _
  | clearErrorCapture p now => exact h.work p now fun r f hf w hw => by split at hf <;> cases hf; exact hw
  | setSiteTime p now => exact h.work p now fun r f hf w hw => by split at hf <;> cases hf; exact hw
  | alarmRead p now => exact h.work p now fun r f hf w hw => by split at hf <;> cases hf; exact hw.alarmRead p _ _
  | clearUnlisted p now => exact h.work p now fun r f hf w hw => by split at hf <;> cases hf; exact hw
  | liveAxleRead p now => exact h.work p now fun r f hf w hw => by split at hf <;> cases hf; exact hw.liveAxleRead p _
  | forceClose p now => exact h.work p now fun r f hf w hw => by split at hf <;> cases hf; exact hw.forceClose p _
  | windowRead p now => exact h.work p now fun r f hf w hw => by split at hf <;> cases hf; exact hw.windowRead p _
  | windowWrite p now => exact h.work p now fun r f hf w hw => by split at hf <;> cases hf; exact hw.windowWrite p _
  | watchRead p now => exact h.work p now fun r f hf w hw => by split at hf <;> cases hf; exact hw
  | releaseWatch p now => exact h.work p now fun r f hf w hw => by split at hf <;> cases hf; exact hw.releaseWatch p
  | settingsRead p now => exact h.work p now fun r f hf w hw => by split at hf <;> cases hf; exact hw.settingsRead p _ _
  | restart p now => exact h.work p now fun r f hf w hw => by split at hf <;> cases hf; exact hw.restart p

end Sys2Proof.Machine

namespace Sys2Proof.Proofs

open Sys2Proof.Machine

/-- Settles O10: with no word in error the settings are held by every command that does not touch them (`exec_holdsSettings`). -/
theorem settingsKept : Obligations.SettingsKept := by
  intro i s t hclean hwrite hpermissions hcheck ht
  refine exec_holdsSettings (s := s) ⟨rfl, hclean⟩ ?_ t ht
  cases i with
  | settingsWrite p now => exact absurd rfl (hwrite p now)
  | setPermissions p now => exact absurd rfl (hpermissions p now)
  | startCheckEnd inputs samples => exact absurd rfl (hcheck inputs samples)
  | _ => rfl

end Sys2Proof.Proofs
